-- ==== Sys2Proof/Word.lean ====
section
/-! DEFINITION. Word.lean: the bytes and numbers that travel on the two links, and the numbering of units, risers, stations and lines. -/

namespace Sys2Proof

/-- One byte of either link. -/
abbrev Byte := BitVec 8

/-- A field of two bytes, sent most significant byte first (R183). -/
abbrev Word := BitVec 16

/-- Units are numbered 0..23 (00, numbering and order). -/
abbrev UnitNo := Fin 24

/-- Risers are numbered 0..5. -/
abbrev RiserNo := Fin 6

/-- Stations are numbered 0..7. -/
abbrev StationNo := Fin 8

/-- Discrete lines L0..L5. -/
abbrev LineNo := Fin 6

/-- A byte as the supervisor receiver takes it: its value, and whether its stop bit was there (R168). -/
structure RxByte where
  value : Byte
  stopBit : Bool
deriving DecidableEq, Repr

end Sys2Proof
end

