-- ==== Sys2Proof/Syntax.lean ====
section
/-! DEFINITION. Syntax.lean: the commands of the part, one constructor for each row of spec/opcode_table.json. -/

namespace Sys2Proof

/-- A command: something that reaches the part from the host, a UIM, a contact, the supply or one of its own
timebases. Each is one whole step (95_what_each_step_holds.md). A request carries the tag and the body bytes of its
frame as received; the item numbers of the part's own timers are in numbering by their type. -/
inductive Instr where
  /-- POWER_ON (R182); `spd` is the level of the SPD pin. -/
  | powerOn (spd : Bool)
  /-- RESET_PIN_ASSERT (R182): RESETn goes low. -/
  | resetPinAssert
  /-- RESET_PIN_RELEASE (R182): RESETn goes high. -/
  | resetPinRelease (spd : Bool)
  /-- SUPPLY_LOW_RESTART (R182). -/
  | supplyLowRestart (spd : Bool)
  /-- SUPERVISOR_FRAME_COMPLETE (R169): the receiver takes these bytes, the last of which is a frame's last CRC byte. -/
  | supervisorFrameComplete (bytes : List RxByte)
  /-- SUPERVISOR_INTER_BYTE_GAP (R168): after the bytes `before` more than 20 ms pass, and `next` ends the gap. -/
  | supervisorInterByteGap (before : List RxByte) (next : RxByte)
  /-- SUPERVISOR_FRAME_SENT (R171): the last byte of the frame being sent leaves STX. -/
  | supervisorFrameSent
  /-- NOTICE_SEND (R190): the head notice begins sending. -/
  | noticeSend
  /-- UNKNOWN_KIND (R170): a frame whose kind is no request kind is taken. -/
  | unknownKind (kind tag : Byte) (body : List Byte)
  /-- LOAD_UNIT (R175) is taken. -/
  | loadUnit (tag : Byte) (body : List Byte)
  /-- LOAD_RISER (R59) is taken. -/
  | loadRiser (tag : Byte) (body : List Byte)
  /-- LOAD_STATION (R2) is taken. -/
  | loadStation (tag : Byte) (body : List Byte)
  /-- LOAD_LINE (R149) is taken. -/
  | loadLine (tag : Byte) (body : List Byte)
  /-- LOAD_TOWER (R175) is taken. -/
  | loadTower (tag : Byte) (body : List Byte)
  /-- READ_CONFIG (R177) is taken. -/
  | readConfig (tag : Byte) (body : List Byte)
  /-- START_RUN (R178, R179) is taken. -/
  | startRun (tag : Byte) (body : List Byte)
  /-- STOP_RUN (R180) is taken. -/
  | stopRun (tag : Byte) (body : List Byte)
  /-- RESTART (R181) is taken. -/
  | restart (tag : Byte) (body : List Byte)
  /-- RESTART_TAKES_EFFECT (R181); `spd` is the level of the SPD pin. -/
  | restartTakesEffect (spd : Bool)
  /-- STATION_READING (R12) is taken. -/
  | stationReading (tag : Byte) (body : List Byte)
  /-- SET_SETPOINT (R45) is taken. -/
  | setSetpoint (tag : Byte) (body : List Byte)
  /-- SET_OVERRIDE (R44) is taken. -/
  | setOverride (tag : Byte) (body : List Byte)
  /-- LOCK_RISER (R78) is taken. -/
  | lockRiser (tag : Byte) (body : List Byte)
  /-- READ_UNIT (R17, R57, R147) is taken. -/
  | readUnit (tag : Byte) (body : List Byte)
  /-- READ_RISER (R82, R123) is taken. -/
  | readRiser (tag : Byte) (body : List Byte)
  /-- READ_STATION (R16) is taken. -/
  | readStation (tag : Byte) (body : List Byte)
  /-- READ_BUDGET (R100) is taken. -/
  | readBudget (tag : Byte) (body : List Byte)
  /-- READ_STATUS (R195) is taken. -/
  | readStatus (tag : Byte) (body : List Byte)
  /-- SET_NOTICE_MASK (R191) is taken. -/
  | setNoticeMask (tag : Byte) (body : List Byte)
  /-- FLUSH_NOTICES (R192) is taken. -/
  | flushNotices (tag : Byte) (body : List Byte)
  /-- CLEAR_FLAGS (R193) is taken. -/
  | clearFlags (tag : Byte) (body : List Byte)
  /-- POST_MAIL (R161) is taken. -/
  | postMail (tag : Byte) (body : List Byte)
  /-- TAKE_MAIL (R165) is taken. -/
  | takeMail (tag : Byte) (body : List Byte)
  /-- CANCEL_MAIL (R166) is taken. -/
  | cancelMail (tag : Byte) (body : List Byte)
  /-- SECONDS_TIMEBASE_TICK (R4): a second boundary. -/
  | secondsTimebaseTick
  /-- UNIT_STALE_LIMIT (R9): this unit's reading age has reached the unit stale limit. -/
  | unitStaleLimit (u : UnitNo)
  /-- STATION_MAX_AGE (R14): this station's age has reached its max age. -/
  | stationMaxAge (st : StationNo)
  /-- DWELL_EXPIRY (R48): this unit's dwell timer has expired. -/
  | dwellExpiry (u : UnitNo)
  /-- SETTLE_EXPIRY (R64): this riser's settle timer has expired. -/
  | settleExpiry (r : RiserNo)
  /-- READY_WINDOW_EXPIRY (R111): the ready window of this riser's context has expired. -/
  | readyWindowExpiry (r : RiserNo)
  /-- DONE_WINDOW_EXPIRY (R114, R121): the done window of this riser's context has expired. -/
  | doneWindowExpiry (r : RiserNo)
  /-- SWEEP_START (R140): the sweep period has passed and the previous sweep is complete. -/
  | sweepStart
  /-- FIELD_REQUEST_SENT (R129): the last byte of the frame being sent leaves the field line. -/
  | fieldRequestSent
  /-- REPLY_WINDOW_EXPIRY (R131). -/
  | replyWindowExpiry
  /-- FIELD_INTER_BYTE_GAP (R129): more than 5 ms pass inside a reply. -/
  | fieldInterByteGap
  /-- BROADCAST_QUIET_GAP_END (R132). -/
  | broadcastQuietGapEnd
  /-- READING_RECEIVED (R141, R185): the addressed unit's READING, its fields as sent. -/
  | readingReceived (tRa wRa : Word) (mode flags : Byte)
  /-- ACK_RECEIVED (R143): the addressed unit's ACK. -/
  | ackReceived
  /-- NAK_RECEIVED (R143): the addressed unit's NAK, with its reason code. -/
  | nakReceived (reason : Byte)
  /-- DEFER_RECEIVED (R130): the addressed unit's DEFER. -/
  | deferReceived
  /-- PHASE_RECEIVED (R110, R113, R121): the addressed unit's PHASE, with its tag and token code. -/
  | phaseReceived (tag token : Byte)
  /-- MAIL_REPLY_RECEIVED (R163): the addressed unit's MAIL_REPLY, with its bytes. -/
  | mailReplyReceived (bytes : List Byte)
  /-- FIELD_CHECK_FAILURE (R131): a received frame fails its checks. -/
  | fieldCheckFailure
  /-- FOREIGN_ADDRESS_FRAME (R129): the bytes of a received field frame that carries another address than the addressed
  unit's. -/
  | foreignAddressFrame (bytes : List Byte)
  /-- LINE_PIN_CHANGE (R150): the pin of this line takes this level. -/
  | linePinChange (line : LineNo) (high : Bool)
  /-- LINE_FILTER_EXPIRY (R150): the filter of this line expires. -/
  | lineFilterExpiry (line : LineNo)
  /-- ROLL_PASS_DUE (R106): 250 ms have passed since the start of this riser's roll pass. -/
  | rollPassDue (r : RiserNo)
  /-- SUPERVISOR_LENGTH_DISCARD (R168): after the bytes `before` the length byte `length`, above 120, is received. -/
  | supervisorLengthDiscard (before : List RxByte) (length : RxByte)
deriving DecidableEq, Repr

end Sys2Proof
end

