-- ==== Sys2Proof/Decode.lean ====
section
/-! DEFINITION. Decode.lean: the table of operations gives no row any bits (each row of spec/opcode_table.json has an
empty list of fields), so no word spells a command. -/

namespace Sys2Proof

/-- The command a word spells by the table's bits: none, for no row gives bits. -/
def decodeTableWord (_nbits _w : Nat) : Option Instr := none

end Sys2Proof
end

