-- ==== Sys2Proof/Machine/State.lean ====
section
/-! DEFINITION. Machine/State.lean: everything the manual gives the part to hold, as plain data, block by block
(00, block overview), its state right after power-on, and the reasons a step can stop. -/

namespace Sys2Proof.Machine

/-! ## Names -/

/-- Operating state (R174). -/
inductive OpState where
  | config | advise | coordinate
deriving DecidableEq, Repr

/-- The six unit modes (R35). NONE is written `none` of `Option Mode`. -/
inductive Mode where
  | recoverHeat | recoverCool | bypass | freeCool | defrost | safe
deriving DecidableEq, Repr

/-- A mode with its speed in percent. -/
structure ModeSpeed where
  mode : Mode
  speed : Nat
deriving DecidableEq, Repr

/-- Freshness of a unit's reading (R1). -/
inductive Condition where
  | none | fresh | stale | sensorHold
deriving DecidableEq, Repr

/-- Who decides a unit's mode (R43). -/
inductive Control where
  | auto | forced | hand
deriving DecidableEq, Repr

/-- Presence of a unit on the field link (R133). -/
inductive Presence where
  | unseen | online | offline
deriving DecidableEq, Repr

/-- Direction of a changeover or of a LATE mark (R102, R55). -/
inductive Direction where
  | enter | leave
deriving DecidableEq, Repr

/-- Freshness of a station (R2). -/
inductive StationStatus where
  | none | fresh | stale
deriving DecidableEq, Repr

/-- The five riser states (R61). -/
inductive RiserState where
  | individual | queued | entering | free | leaving
deriving DecidableEq, Repr

/-- Last exit causes, causes of RISER_STATE and cancel reasons (R61, R79, R187). -/
inductive Cause where
  | none | votes | revoked | locked | freeze | emergency | refused | readyTimeout | quorumLost
  | quorum | admitted | complete
deriving DecidableEq, Repr

/-- Grant policy (R84). -/
inductive GrantPolicy where
  | fixed | arrival
deriving DecidableEq, Repr

/-- Field link speed (R126). -/
inductive LinkSpeed where
  | baud19200 | baud38400 | baud76800
deriving DecidableEq, Repr

/-- Phases of a changeover context (R102). -/
inductive Phase where
  | callPending | rollReady | commitPending | rollDone | cancelPending | returnPending
deriving DecidableEq, Repr

/-- Participant status (R104). -/
inductive PartStatus where
  | pending | ready | done | refused | dropped | late
deriving DecidableEq, Repr

/-- Repair kinds (R107). -/
inductive RepairKind where
  | call | commit | giveBack
deriving DecidableEq, Repr

/-- Result of a changeover (R122). -/
inductive Result where
  | complete | completeLate | cancelled
deriving DecidableEq, Repr

/-- Mail slot states (R160). -/
inductive MailState where
  | idle | posted | sent | answered | failed
deriving DecidableEq, Repr

/-- Mail failure reasons (R160). -/
inductive MailFailure where
  | noReply | offline
deriving DecidableEq, Repr

/-- Line roles (R148). -/
inductive Role where
  | none | inWind | inFreeze | inEmergency | outFault | outFree
deriving DecidableEq, Repr

/-- Line polarity (R148). -/
inductive Polarity where
  | activeHigh | activeLow
deriving DecidableEq, Repr

/-- Start causes (R194). -/
inductive StartCause where
  | powerOn | resetPin | supplyLow | restart
deriving DecidableEq, Repr

/-- NAK reasons (R184). -/
inductive NakReason where
  | hand | fault | badMode
deriving DecidableEq, Repr

/-! ## Unit records (R1, R36, R133, R186) -/

/-- The five flags of a READING (R8, R185). -/
structure UnitFlags where
  fanOff : Bool := false
  wheelFault : Bool := false
  damperFault : Bool := false
  sensorFault : Bool := false
  localHand : Bool := false
deriving DecidableEq, Repr

/-- The unit configuration record with its power-on values (R186, R20). -/
structure UnitCfg where
  present : Bool := false
  address : Nat := 1
  riser : RiserNo := 0
  station : StationNo := 0
  epsilon : Nat := 0
  sMin : Nat := 20
  defrostSpeed : Nat := 15
  frostLimit : Int := -100
  tSp : Int := 1500
  db : Nat := 150
  hm : Nat := 300
  wMax : Nat := 120
  minDwell : Nat := 300
  replyWindow : Nat := 40
  deferLimit : Nat := 2
  missLimit : Nat := 3
deriving DecidableEq, Repr

/-- T_ra and w_ra, present together or absent together (R1). -/
structure ReturnAir where
  tRa : Int
  wRa : Nat
deriving DecidableEq, Repr

/-- The reading part, cleared (R1). -/
structure Reading where
  air : Option ReturnAir := none
  reported : Option Mode := none
  flags : UnitFlags := {}
  age : Nat := 0
  condition : Condition := .none
  clamped : Bool := false
deriving DecidableEq, Repr

/-- The decision part, cleared (R36). `dwellExpired` is the model's own mark: the timer has reached 0 from 1 and
DWELL_EXPIRY has not yet been taken (assumption log 8). -/
structure Decision where
  control : Control := .auto
  forced : Option ModeSpeed := none
  preference : Option Mode := none
  prefSpeed : Option Nat := none
  commanded : Option ModeSpeed := none
  acknowledged : Option ModeSpeed := none
  dwell : Nat := 0
  dwellExpired : Bool := false
  lastHoa : Option Int := none
  lastHra : Option Int := none
  lastTexl : Option Int := none
  late : Option Direction := none
deriving DecidableEq, Repr

/-- One unit record; the live parts at their cleared values. -/
structure UnitRec where
  cfg : UnitCfg := {}
  reading : Reading := {}
  decision : Decision := {}
  presence : Presence := .unseen
  misses : Nat := 0
deriving DecidableEq, Repr

/-! ## Station records (R2) -/

/-- Configuration part of a station. -/
structure StationCfg where
  present : Bool := false
  maxAge : Nat := 600
deriving DecidableEq, Repr

/-- T_oa, w_oa and wind, present together or absent together (R2). -/
structure OutdoorAir where
  tOa : Int
  wOa : Nat
  wind : Nat
deriving DecidableEq, Repr

/-- Live part of a station, cleared (R2). -/
structure StationLive where
  air : Option OutdoorAir := none
  age : Nat := 0
  status : StationStatus := .none
  clamped : Bool := false
deriving DecidableEq, Repr

/-- One station record. -/
structure StationRec where
  cfg : StationCfg := {}
  live : StationLive := {}
deriving DecidableEq, Repr

/-! ## Riser records (R59, R61) -/

/-- Configuration part of a riser, with its power-on values (R59). -/
structure RiserCfg where
  present : Bool := false
  weight : Nat := 10
  rank : Nat := 0
  quorum : Nat := 1
  hold : Nat := 1
  settle : Nat := 90
  readyWindow : Nat := 5
  doneWindow : Nat := 60
deriving DecidableEq, Repr

/-- Live part of a riser, cleared (R61). The free votes are the number of voters. The context of a riser is held
once, by the CE. `settleExpired` is the model's own mark: the timer has reached 0 from 1 and SETTLE_EXPIRY has not
yet been taken (assumption log 8). -/
structure RiserLive where
  state : RiserState := .individual
  settle : Nat := 0
  settleExpired : Bool := false
  memberCount : Nat := 0
  onlineMembers : Nat := 0
  voters : List UnitNo := []
  locked : Bool := false
  lastExit : Cause := .none
deriving DecidableEq, Repr

/-- One riser record. -/
structure RiserRec where
  cfg : RiserCfg := {}
  live : RiserLive := {}
deriving DecidableEq, Repr

/-- The tower record, with its power-on values (R20, R9, R84, R126, R140). -/
structure TowerCfg where
  reference : StationNo := 0
  tInRef : Int := 2100
  bBase : Nat := 100
  k : Nat := 60
  windLimit : Nat := 150
  staleLimit : Nat := 60
  policy : GrantPolicy := .arrival
  speed : LinkSpeed := .baud38400
  sweepPeriod : Nat := 5
deriving DecidableEq, Repr

/-! ## Stack Budget Arbiter (R85) -/

/-- The arbiter's record, cleared. -/
structure Sba where
  bEff : Nat := 0
  queue : List RiserNo := []
  grants : List RiserNo := []
  draining : Nat := 0
deriving DecidableEq, Repr

/-! ## Changeover Engine (R102 to R107) -/

/-- An entry of the participant list. -/
structure Participant where
  unit : UnitNo
  status : PartStatus
deriving DecidableEq, Repr

/-- A pending repair. -/
structure Repair where
  unit : UnitNo
  kind : RepairKind
deriving DecidableEq, Repr

/-- What is held of the start of the current pass (assumption log 11): fewer than 250 ms ago, or at least 250 ms. -/
inductive PassStart where
  | recent | due
deriving DecidableEq, Repr

/-- A changeover context (R102); the riser is its place in the CE's table. `cursor` is 1..8, and one more than the
length of the list when a pass has ended; a cleared cursor, and one before the first roll, is 1, where R102 gives no
absent value: the model's choice (assumption log 30). `reason` is the reason its cancel was decided for (R117) and `listed` the
field addresses its broadcast carried (R184): the model's own fields (assumption log 22). -/
structure Ctx where
  direction : Direction
  tag : Byte
  phase : Phase
  participants : List Participant
  cursor : Nat := 1
  passStart : Option PassStart := none
  window : Option Nat := none
  repairs : List Repair := []
  reason : Cause := .none
  listed : List Nat := []
deriving DecidableEq, Repr

/-- The Changeover Engine: one optional context for each riser, and the tag counter (R103). -/
structure Ce where
  ctxs : Vector (Option Ctx) 6 := Vector.replicate 6 none
  tagCounter : Byte := 0
deriving DecidableEq, Repr

/-! ## Field Link Controller (R126 to R146, R160) -/

/-- A field frame the part sends: address, kind code, body (R127, R184). -/
structure FieldFrame where
  address : Byte
  kind : Byte
  body : List Byte
deriving DecidableEq, Repr

/-- The context and phase that sent a query or repair (R105). -/
structure CtxKey where
  riser : RiserNo
  direction : Direction
  tag : Byte
  phase : Phase
deriving DecidableEq, Repr

/-- Who asked for a transaction (R128). -/
inductive Requester where
  | sweep
  | command (content : ModeSpeed)
  | mail (post : Byte)
  | query (key : CtxKey)
  | repair (key : CtxKey)
  | broadcast (riser : RiserNo)
  | releaseAll
deriving DecidableEq, Repr

/-- How far a transaction has come: the frame is on the line, the reply window is open with this many ms configured,
or the quiet gap of a broadcast runs. -/
inductive TxnStage where
  | sending
  | window (ms : Nat)
  | quietGap
deriving DecidableEq, Repr

/-- The transaction record (R128). `unit` is absent for the group address. `heeded` is cleared by STOP_RUN (R145). -/
structure Txn where
  frame : FieldFrame
  requester : Requester
  unit : Option UnitNo
  deferCount : Nat := 0
  stage : TxnStage := .sending
  heeded : Bool := true
  speed : LinkSpeed
deriving DecidableEq, Repr

/-- Poll sweeps (R140): whether a sweep is in progress, its number, the cursor (24 past the last unit: assumption log 30)
and the second boundaries taken since it started (assumption log 10). After a reset the spec gives the counter and that the
sweep is stopped (R146); that the cursor and the start are then 0 is the model's choice (assumption log 29). -/
structure Sweep where
  running : Bool := false
  counter : Word := 0
  cursor : Nat := 0
  elapsed : Nat := 0
deriving DecidableEq, Repr

/-- An entry of the unit command set (R142). -/
structure CmdEntry where
  unit : UnitNo
  content : ModeSpeed
deriving DecidableEq, Repr

/-- The mail slot, cleared (R160); the post number is kept beside it. -/
structure MailSlot where
  state : MailState := .idle
  unit : Option UnitNo := none
  mail : Option (List Byte) := none
  attempts : Nat := 0
  reply : Option (List Byte) := none
  reason : Option MailFailure := none
deriving DecidableEq, Repr

/-- The Field Link Controller as after power-on (R146); `link = none` is IDLE. -/
structure Flc where
  link : Option Txn := none
  latchedSpeed : LinkSpeed := .baud38400
  releaseOwed : Option LinkSpeed := none
  lastServed : RiserNo := 5
  guarantee : Nat := 0
  sweep : Sweep := {}
  commands : List CmdEntry := []
  mail : MailSlot := {}
  postNumber : Byte := 0
deriving DecidableEq, Repr

/-! ## Line Unit (R148) -/

/-- Configuration part of a line. -/
structure LineCfg where
  role : Role := .none
  polarity : Polarity := .activeHigh
  filter : Nat := 100
deriving DecidableEq, Repr

/-- A line record. `level` is the accepted level of an input (true = active); the driven level of an output is
computed (R157, R158). -/
structure LineRec where
  cfg : LineCfg := {}
  level : Bool := false
  filterRemaining : Option Nat := none
deriving DecidableEq, Repr

/-- The Line Unit: the six records and the levels at the six pins (true = high). -/
structure Lu where
  lines : Vector LineRec 6 := Vector.replicate 6 {}
  pins : Vector Bool 6 := Vector.replicate 6 false
deriving DecidableEq, Repr

/-! ## Notice Queue (R188 to R194) -/

/-- The subject of a notice (R188). -/
inductive Subject where
  | none
  | unit (u : UnitNo)
  | riser (r : RiserNo)
  | station (st : StationNo)
  | line (l : LineNo)
deriving DecidableEq, Repr

/-- The kinds of notice with their contents (R188). -/
inductive Content where
  | start (cause : StartCause)
  | lineEdge (role : Role) (level : Bool)
  | unitPresence (presence : Presence)
  | unitFault (flags : UnitFlags)
  | frost (entered : Bool) (tExl : Option Int)
  | changeover (direction : Direction) (tag : Byte) (result : Result) (reason : Option Cause) (late : Nat)
  | revoked (state : RiserState) (bEff : Nat)
  | stationStatus (status : StationStatus)
  | commandRefused (reason : NakReason)
  | riserState (state : RiserState) (cause : Cause)
  | budget (bEff : Nat)
  | unitHand (entered : Bool)
  | mailDone (failure : Option MailFailure) (attempts : Nat)
  | unitMode (commanded : ModeSpeed)
deriving DecidableEq, Repr

/-- A notice (R188). -/
structure Notice where
  level : Nat
  subject : Subject
  content : Content
deriving DecidableEq, Repr

/-- The Notice Queue: the queue from its head, the mask, the sticky flags and the start cause. -/
structure Nq where
  queue : List Notice := []
  mask : Nat := 0
  noticeOverflow : Bool := false
  requestOverrun : Bool := false
  fieldCheck : Bool := false
  startCause : StartCause := .powerOn
deriving DecidableEq, Repr

/-! ## Supervisor Link Port (R168 to R174) -/

/-- A supervisor frame (R183). -/
structure SupFrame where
  kind : Byte
  tag : Byte
  body : List Byte
deriving DecidableEq, Repr

/-- The receiver (R168): hunting, or in a frame with the bytes received after the start byte, oldest first, and
whether every stop bit so far was there. -/
inductive Receiver where
  | hunting
  | inFrame (got : List Byte) (stopBits : Bool)
deriving DecidableEq, Repr

/-- STX (R171): idle, sending the pending reply, or sending a notice. -/
inductive Stx where
  | idle
  | reply
  | notice (n : Notice)
deriving DecidableEq, Repr

/-- Progress of a RESTART (R181): none, its ACCEPT not yet sent, or due to take effect. -/
inductive RestartState where
  | none | accepted | due
deriving DecidableEq, Repr

/-- The Supervisor Link Port as after power-on (R182). -/
structure Slp where
  opState : OpState := .config
  resetHeld : Bool := false
  spd : Bool := false
  receiver : Receiver := .hunting
  requests : List SupFrame := []
  reply : Option SupFrame := none
  stx : Stx := .idle
  restart : RestartState := .none
deriving DecidableEq, Repr

/-! ## The state -/

/-- The whole state. `pending` is the queue of commands, first in, first out. `choices` counts the free choices made
(assumption log 6). -/
structure State where
  pending : List Instr := []
  slp : Slp := {}
  units : Vector UnitRec 24 := Vector.replicate 24 {}
  stations : Vector StationRec 8 := Vector.replicate 8 {}
  risers : Vector RiserRec 6 := Vector.replicate 6 {}
  tower : TowerCfg := {}
  sba : Sba := {}
  ce : Ce := {}
  flc : Flc := {}
  lu : Lu := {}
  nq : Nq := {}
  choices : Nat := 0
deriving DecidableEq, Repr

/-- The part right after power-on (R182, R194): every record at its power-on value, and one START notice queued. -/
def State.reset : State :=
  { nq := { queue := [⟨3, .none, .start .powerOn⟩] } }

/-! ## Why a step stops -/

/-- The part has no fault that stops it: a loss sets a sticky flag, a refusal is a reply, and both are next states. -/
inductive Fault where
deriving DecidableEq, Repr

/-- Why a command has no outcome. -/
inductive Refusal where
  /-- Raised by `exec` alone, for a command that has no meaning yet. Safe: nothing is claimed of it. -/
  | notModelled (mnemonic : String)
deriving DecidableEq, Repr

end Sys2Proof.Machine
end

