-- ==== Sys2Proof/Machine/Operands.lean ====
section
/-! DEFINITION. Machine/Operands.lean: the numbers, codes and byte layouts that travel on the two links
(R172 to R187), the CRC, and the configuration records as bytes. -/

namespace Sys2Proof.Machine

/-! ## Scans in ascending number -/

/-- All numbers below `n`, ascending (chain order for units, R60). -/
def fins : (n : Nat) → List (Fin n)
  | 0 => []
  | n + 1 => 0 :: (fins n).map Fin.succ

/-- `f` at every place of a table. -/
def mapTable {α β : Type} {n : Nat} (f : α → β) (v : Vector α n) : Vector β n :=
  ⟨(v.toArray.toList.map f).toArray, by simp⟩

/-- The table with `f` applied at place `i`. -/
def updTable {α : Type} {n : Nat} (v : Vector α n) (i : Fin n) (f : α → α) : Vector α n :=
  v.set i (f v[i])

/-- `n` as a number in the numbering `0..k-1`, absent when it is outside. -/
def numbered (k n : Nat) : Option (Fin k) :=
  if h : n < k then some ⟨n, h⟩ else none

/-! ## Numbers -/

/-- The nearer end of `lo..hi`, or the value itself (R3). -/
def clamp (lo hi x : Int) : Int :=
  if x < lo then lo else if hi < x then hi else x

/-- A number of one byte. -/
def byteOf (n : Nat) : Byte := BitVec.ofNat 8 n

/-- Two bytes, most significant first (R183). -/
def bytesOf (w : Word) : List Byte := [w.extractLsb' 8 8, w.extractLsb' 0 8]

/-- The field of two bytes (R183). -/
def wordOf (hi lo : Byte) : Word := hi ++ lo

/-- A number of two bytes, two's complement where it is negative (R183, R187). -/
def num16 (n : Int) : List Byte := bytesOf (BitVec.ofInt 16 n)

/-- Yes or no, set or clear (R187). -/
def flagByte (b : Bool) : Byte := if b then 1 else 0

/-- An optional item: a presence byte, then the value if it is there (R187). -/
def optItem {α : Type} (f : α → List Byte) : Option α → List Byte
  | none => [0]
  | some a => 1 :: f a

/-- A list: a count byte, then the entries (R187). -/
def listItem {α : Type} (f : α → List Byte) (l : List α) : List Byte :=
  byteOf l.length :: l.flatMap f

/-! ## Codes (R175, R183, R184, R187) -/

/-- Mode codes used on both links; 0 is NONE. -/
def modeCode : Option Mode → Byte
  | none => 0
  | some .recoverHeat => 1
  | some .recoverCool => 2
  | some .bypass => 3
  | some .freeCool => 4
  | some .defrost => 5
  | some .safe => 6

/-- The mode a code names; every code outside 1..6 names none (R8). -/
def modeOfCode (c : Byte) : Option Mode :=
  if c = 1 then some .recoverHeat else if c = 2 then some .recoverCool else if c = 3 then some .bypass
  else if c = 4 then some .freeCool else if c = 5 then some .defrost else if c = 6 then some .safe else none

/-- A mode with its speed; NONE has speed 0 (R36, R187). -/
def modeSpeedItem : Option ModeSpeed → List Byte
  | none => [0, 0]
  | some m => [modeCode (some m.mode), byteOf m.speed]

/-- Operating state codes. -/
def opStateCode : OpState → Byte
  | .config => 0
  | .advise => 1
  | .coordinate => 2

/-- Start cause codes. -/
def startCauseCode : StartCause → Byte
  | .powerOn => 0
  | .resetPin => 1
  | .supplyLow => 2
  | .restart => 3

/-- Presence codes. -/
def presenceCode : Presence → Byte
  | .unseen => 0
  | .online => 1
  | .offline => 2

/-- Unit condition codes. -/
def conditionCode : Condition → Byte
  | .none => 0
  | .fresh => 1
  | .stale => 2
  | .sensorHold => 3

/-- Station status codes. -/
def stationStatusCode : StationStatus → Byte
  | .none => 0
  | .fresh => 1
  | .stale => 2

/-- Control codes. -/
def controlCode : Control → Byte
  | .auto => 0
  | .forced => 1
  | .hand => 2

/-- Riser state codes. -/
def riserStateCode : RiserState → Byte
  | .individual => 0
  | .queued => 1
  | .entering => 2
  | .free => 3
  | .leaving => 4

/-- Cause codes. -/
def causeCode : Cause → Byte
  | .none => 0
  | .votes => 1
  | .revoked => 2
  | .locked => 3
  | .freeze => 4
  | .emergency => 5
  | .refused => 6
  | .readyTimeout => 7
  | .quorumLost => 8
  | .quorum => 9
  | .admitted => 10
  | .complete => 11

/-- Direction codes. -/
def directionCode : Direction → Byte
  | .enter => 0
  | .leave => 1

/-- Context phase codes. -/
def phaseCode : Phase → Byte
  | .callPending => 0
  | .rollReady => 1
  | .commitPending => 2
  | .rollDone => 3
  | .cancelPending => 4
  | .returnPending => 5

/-- Participant status codes. -/
def partStatusCode : PartStatus → Byte
  | .pending => 0
  | .ready => 1
  | .done => 2
  | .refused => 3
  | .dropped => 4
  | .late => 5

/-- Changeover result codes. -/
def resultCode : Result → Byte
  | .complete => 0
  | .completeLate => 1
  | .cancelled => 2

/-- Mail slot state codes. -/
def mailStateCode : MailState → Byte
  | .idle => 0
  | .posted => 1
  | .sent => 2
  | .answered => 3
  | .failed => 4

/-- Mail failure reason codes. -/
def mailFailureCode : MailFailure → Byte
  | .noReply => 0
  | .offline => 1

/-- NAK reason codes (R184). -/
def nakCode : NakReason → Byte
  | .hand => 1
  | .fault => 2
  | .badMode => 3

/-- A NAK whose reason code is none of the three is taken as BAD_MODE (R184). -/
def nakOfCode (c : Byte) : NakReason :=
  if c = 1 then .hand else if c = 2 then .fault else .badMode

/-- Role codes (R175). -/
def roleCode : Role → Byte
  | .none => 0
  | .inWind => 1
  | .inFreeze => 2
  | .inEmergency => 3
  | .outFault => 4
  | .outFree => 5

/-- The role of a code in 0..5 (R175). -/
def roleOfCode (c : Byte) : Role :=
  if c = 1 then .inWind else if c = 2 then .inFreeze else if c = 3 then .inEmergency
  else if c = 4 then .outFault else if c = 5 then .outFree else .none

/-- Polarity codes (R175). -/
def polarityCode : Polarity → Byte
  | .activeHigh => 0
  | .activeLow => 1

/-- Grant policy codes (R175). -/
def policyCode : GrantPolicy → Byte
  | .fixed => 0
  | .arrival => 1

/-- Field link speed codes (R175). -/
def speedCode : LinkSpeed → Byte
  | .baud19200 => 0
  | .baud38400 => 1
  | .baud76800 => 2

/-! ## CRC (R183) -/

/-- One bit of the CRC register, polynomial x^16 + x^12 + x^5 + 1. -/
def crcShift (c : Word) : Word := if c.msb then (c <<< 1) ^^^ 0x1021#16 else c <<< 1

/-- One byte into the CRC, its bits most significant first. -/
def crcByte (c : Word) (b : Byte) : Word :=
  crcShift (crcShift (crcShift (crcShift (crcShift (crcShift (crcShift (crcShift
    (c ^^^ (b.setWidth 16 <<< 8)))))))))

/-- CRC-16 over the bytes, initial value all ones, no final inversion (R183). -/
def crc16 (l : List Byte) : Word := l.foldl crcByte 0xFFFF#16

/-! ## Frames -/

/-- The bytes a supervisor frame's CRC covers (R183). -/
def SupFrame.covered (f : SupFrame) : List Byte := byteOf f.body.length :: f.kind :: f.tag :: f.body

/-- A supervisor frame as it stands on the line (R183). -/
def SupFrame.bytes (f : SupFrame) : List Byte :=
  0xA5#8 :: f.covered ++ bytesOf (crc16 f.covered)

/-- The bytes a field frame's CRC covers (R127, R184). -/
def FieldFrame.covered (f : FieldFrame) : List Byte := f.address :: f.kind :: byteOf f.body.length :: f.body

/-- A field frame as it stands on the line (R127, R184). -/
def FieldFrame.bytes (f : FieldFrame) : List Byte := f.covered ++ bytesOf (crc16 f.covered)

/-- Whether a kind code is one of the six a UIM sends, with a body of the length that kind calls for (R127, R184). -/
def replyFits (kind : Byte) (n : Nat) : Bool :=
  if kind = 0x41 then n == 6
  else if kind = 0x42 then n == 0
  else if kind = 0x43 then n == 1
  else if kind = 0x44 then n == 0
  else if kind = 0x45 then n == 2
  else if kind = 0x46 then decide (1 ≤ n) && decide (n ≤ 32)
  else false

/-- The bytes of a received field frame: the frame where it is well formed, absent where it is a check failure (R127). A
frame that ends before or after the end its length field gives is none. -/
def receivedFrame : List Byte → Option FieldFrame
  | address :: kind :: len :: rest =>
    if len.toNat ≤ 40 ∧ rest.length = len.toNat + 2 ∧ replyFits kind len.toNat = true ∧
        rest.drop len.toNat = bytesOf (crc16 (address :: kind :: len :: rest.take len.toNat)) then
      some ⟨address, kind, rest.take len.toNat⟩
    else none
  | _ => none

/-- The group address of a broadcast (R127). -/
def groupAddress : Byte := 63#8

/-- POLL (R184). -/
def pollFrame (address : Nat) : FieldFrame := ⟨byteOf address, 0x01, []⟩

/-- SET_MODE (R184). -/
def setModeFrame (address : Nat) (c : ModeSpeed) : FieldFrame :=
  ⟨byteOf address, 0x02, [modeCode (some c.mode), byteOf c.speed]⟩

/-- GROUP_CALL, to the group address or as a repair (R184). -/
def groupCallFrame (address : Byte) (r : RiserNo) (tag : Byte) (listed : List Nat) : FieldFrame :=
  ⟨address, 0x03, byteOf r.val :: tag :: 4 :: listItem (fun a => [byteOf a]) listed⟩

/-- GROUP_QUERY (R184). -/
def groupQueryFrame (address : Nat) (r : RiserNo) (tag : Byte) : FieldFrame :=
  ⟨byteOf address, 0x04, [byteOf r.val, tag]⟩

/-- GROUP_COMMIT (R184). -/
def groupCommitFrame (address : Byte) (r : RiserNo) (tag : Byte) : FieldFrame :=
  ⟨address, 0x05, [byteOf r.val, tag]⟩

/-- GROUP_CANCEL (R184). -/
def groupCancelFrame (r : RiserNo) (tag : Byte) : FieldFrame :=
  ⟨groupAddress, 0x06, [byteOf r.val, tag]⟩

/-- GROUP_RETURN (R184). -/
def groupReturnFrame (address : Byte) (r : RiserNo) (tag : Byte) (listed : List Nat) : FieldFrame :=
  ⟨address, 0x07, byteOf r.val :: tag :: listItem (fun a => [byteOf a]) listed⟩

/-- RELEASE, for all risers (R184). -/
def releaseFrame : FieldFrame := ⟨groupAddress, 0x08, [255]⟩

/-- MAIL (R184). -/
def mailFrame (address : Nat) (mail : List Byte) : FieldFrame := ⟨byteOf address, 0x09, mail⟩

/-! ## The request catalogue (R173, R183) -/

/-- The 24 request kinds. -/
inductive ReqKind where
  | loadUnit | loadRiser | loadStation | loadLine | loadTower | readConfig
  | startRun | stopRun | restart
  | stationReading | setSetpoint | setOverride | lockRiser
  | readUnit | readRiser | readStation | readBudget | readStatus
  | setNoticeMask | flushNotices | clearFlags
  | postMail | takeMail | cancelMail
deriving DecidableEq, Repr

/-- Kind codes (R183). -/
def ReqKind.code : ReqKind → Byte
  | .loadUnit => 0x01
  | .loadRiser => 0x02
  | .loadStation => 0x03
  | .loadLine => 0x04
  | .loadTower => 0x05
  | .readConfig => 0x06
  | .startRun => 0x10
  | .stopRun => 0x11
  | .restart => 0x12
  | .stationReading => 0x20
  | .setSetpoint => 0x21
  | .setOverride => 0x22
  | .lockRiser => 0x23
  | .readUnit => 0x30
  | .readRiser => 0x31
  | .readStation => 0x32
  | .readBudget => 0x33
  | .readStatus => 0x34
  | .setNoticeMask => 0x40
  | .flushNotices => 0x41
  | .clearFlags => 0x42
  | .postMail => 0x50
  | .takeMail => 0x51
  | .cancelMail => 0x52

/-- Every request kind. -/
def ReqKind.all : List ReqKind :=
  [.loadUnit, .loadRiser, .loadStation, .loadLine, .loadTower, .readConfig, .startRun, .stopRun, .restart,
   .stationReading, .setSetpoint, .setOverride, .lockRiser, .readUnit, .readRiser, .readStation, .readBudget,
   .readStatus, .setNoticeMask, .flushNotices, .clearFlags, .postMail, .takeMail, .cancelMail]

/-- Whether a kind code is that of a request; the codes of ACCEPT, REFUSE and NOTICE are not (R170). -/
def isRequestCode (c : Byte) : Bool := ReqKind.all.any fun k => k.code == c

/-- Whether the catalogue allows this body length (R173). -/
def ReqKind.lengthOk (k : ReqKind) (n : Nat) : Bool :=
  match k with
  | .loadUnit => n == 24
  | .loadRiser => n == 11
  | .loadStation => n == 4
  | .loadLine => n == 5
  | .loadTower => n == 14
  | .readConfig => n == 2
  | .startRun => n == 1
  | .stopRun => n == 0
  | .restart => n == 0
  | .stationReading => n == 7
  | .setSetpoint => n == 3
  | .setOverride => n == 3
  | .lockRiser => n == 2
  | .readUnit => n == 1
  | .readRiser => n == 1
  | .readStation => n == 1
  | .readBudget => n == 0
  | .readStatus => n == 0
  | .setNoticeMask => n == 1
  | .flushNotices => n == 0
  | .clearFlags => n == 1
  | .postMail => 2 ≤ n && n ≤ 33
  | .takeMail => n == 0
  | .cancelMail => n == 0

/-- Whether the request is taken in this operating state (R173). -/
def ReqKind.allowed (k : ReqKind) (o : OpState) : Bool :=
  match k with
  | .loadUnit | .loadRiser | .loadStation | .loadLine | .loadTower | .startRun => o == .config
  | .stopRun | .stationReading | .setOverride | .lockRiser | .readUnit | .readRiser | .readStation | .readBudget
  | .postMail => o != .config
  | .readConfig | .restart | .setSetpoint | .readStatus | .setNoticeMask | .flushNotices | .clearFlags | .takeMail
  | .cancelMail => true

/-- Refusal reasons (R172). -/
inductive Reason where
  | frameLength | unknownKind | wrongState | outOfRange | noSuchItem | configInvalid | busy | unitOffline | notPermitted
deriving DecidableEq, Repr

/-- Refusal reason codes (R172). -/
def Reason.code : Reason → Byte
  | .frameLength => 1
  | .unknownKind => 2
  | .wrongState => 3
  | .outOfRange => 4
  | .noSuchItem => 5
  | .configInvalid => 6
  | .busy => 7
  | .unitOffline => 8
  | .notPermitted => 9

/-- What a request is answered with: ACCEPT with the items after the kind code, or REFUSE with reason and detail. -/
inductive Reply where
  | accept (items : List Byte)
  | refuse (reason : Reason) (detail : Byte)
deriving DecidableEq, Repr

/-- The reply frame: the tag of the request, and the kind code of the request first in the body (R172). -/
def Reply.frame (kind tag : Byte) : Reply → SupFrame
  | .accept items => ⟨0x80, tag, kind :: items⟩
  | .refuse reason detail => ⟨0x81, tag, [kind, reason.code, detail]⟩

/-! ## Configuration records as bytes (R175, R186) -/

/-- The index, counting from `i`, of the first field whose check fails. -/
def firstBad : Nat → List Bool → Option Nat
  | _, [] => none
  | i, true :: l => firstBad (i + 1) l
  | i, false :: _ => some i

/-- Whether a number lies in `lo..hi`. -/
def within (lo hi x : Int) : Bool := decide (lo ≤ x) && decide (x ≤ hi)

/-- A byte as a number. -/
def n8 (b : Byte) : Int := b.toNat

/-- Two bytes as an unsigned number. -/
def n16 (hi lo : Byte) : Int := (wordOf hi lo).toNat

/-- Two bytes as a signed number. -/
def i16 (hi lo : Byte) : Int := (wordOf hi lo).toInt

/-- The number of a place in 0..n for a byte already checked. -/
def placeOf (n : Nat) [NeZero n] (b : Byte) : Fin n := Fin.ofNat n b.toNat

/-- A unit configuration record from its 23 bytes, or the index of the first failing field (R175, R186). -/
def parseUnit : List Byte → Except Nat UnitCfg
  | [p, a, r, st, e1, e2, sm, ds, f1, f2, t1, t2, d1, d2, h1, h2, w1, w2, m1, m2, rw, dl, ml] =>
    match firstBad 1 [within 0 1 (n8 p), within 1 62 (n8 a), within 0 5 (n8 r), within 0 7 (n8 st),
        within 0 950 (n16 e1 e2), within 10 50 (n8 sm), within 5 50 (n8 ds), within (-2000) 500 (i16 f1 f2),
        within 1000 3000 (i16 t1 t2), within 50 500 (n16 d1 d2), within 0 1000 (n16 h1 h2), within 0 300 (n16 w1 w2),
        within 30 3600 (n16 m1 m2), within 5 250 (n8 rw), within 0 7 (n8 dl), within 1 15 (n8 ml)] with
    | some i => .error i
    | none => .ok
      { present := p == 1, address := a.toNat, riser := placeOf 6 r, station := placeOf 8 st,
        epsilon := (wordOf e1 e2).toNat, sMin := sm.toNat, defrostSpeed := ds.toNat, frostLimit := i16 f1 f2,
        tSp := i16 t1 t2, db := (wordOf d1 d2).toNat, hm := (wordOf h1 h2).toNat, wMax := (wordOf w1 w2).toNat,
        minDwell := (wordOf m1 m2).toNat, replyWindow := rw.toNat, deferLimit := dl.toNat, missLimit := ml.toNat }
  | _ => .error 0

/-- The unit configuration record as READ_CONFIG returns it (R177, R186). -/
def unitBytes (c : UnitCfg) : List Byte :=
  [flagByte c.present, byteOf c.address, byteOf c.riser.val, byteOf c.station.val] ++ num16 c.epsilon
    ++ [byteOf c.sMin, byteOf c.defrostSpeed] ++ num16 c.frostLimit ++ num16 c.tSp ++ num16 c.db ++ num16 c.hm
    ++ num16 c.wMax ++ num16 c.minDwell ++ [byteOf c.replyWindow, byteOf c.deferLimit, byteOf c.missLimit]

/-- A riser record from its 10 bytes (R59, R175); the hold is checked against the quorum beside it. -/
def parseRiser : List Byte → Except Nat RiserCfg
  | [p, w, rk, q, h, s1, s2, rw, d1, d2] =>
    match firstBad 1 [within 0 1 (n8 p), within 1 100 (n8 w), within 0 3 (n8 rk), within 1 8 (n8 q),
        within 1 (n8 q) (n8 h), within 10 600 (n16 s1 s2), within 1 30 (n8 rw), within 5 300 (n16 d1 d2)] with
    | some i => .error i
    | none => .ok
      { present := p == 1, weight := w.toNat, rank := rk.toNat, quorum := q.toNat, hold := h.toNat,
        settle := (wordOf s1 s2).toNat, readyWindow := rw.toNat, doneWindow := (wordOf d1 d2).toNat }
  | _ => .error 0

/-- The riser record as READ_CONFIG returns it. -/
def riserBytes (c : RiserCfg) : List Byte :=
  [flagByte c.present, byteOf c.weight, byteOf c.rank, byteOf c.quorum, byteOf c.hold] ++ num16 c.settle
    ++ [byteOf c.readyWindow] ++ num16 c.doneWindow

/-- A station record from its 3 bytes (R2, R175). -/
def parseStation : List Byte → Except Nat StationCfg
  | [p, m1, m2] =>
    match firstBad 1 [within 0 1 (n8 p), within 10 3600 (n16 m1 m2)] with
    | some i => .error i
    | none => .ok { present := p == 1, maxAge := (wordOf m1 m2).toNat }
  | _ => .error 0

/-- The station record as READ_CONFIG returns it. -/
def stationBytes (c : StationCfg) : List Byte := flagByte c.present :: num16 c.maxAge

/-- A line record from its 4 bytes (R149, R175). -/
def parseLine : List Byte → Except Nat LineCfg
  | [r, p, f1, f2] =>
    match firstBad 1 [within 0 5 (n8 r), within 0 1 (n8 p), within 10 2000 (n16 f1 f2)] with
    | some i => .error i
    | none => .ok
      { role := roleOfCode r, polarity := if p = 1 then .activeLow else .activeHigh, filter := (wordOf f1 f2).toNat }
  | _ => .error 0

/-- The line record as READ_CONFIG returns it. -/
def lineBytes (c : LineCfg) : List Byte := [roleCode c.role, polarityCode c.polarity] ++ num16 c.filter

/-- The tower record from its 14 bytes (R175). -/
def parseTower : List Byte → Except Nat TowerCfg
  | [rs, t1, t2, b1, b2, k1, k2, w1, w2, l1, l2, gp, sp, pd] =>
    match firstBad 1 [within 0 7 (n8 rs), within 1500 3000 (i16 t1 t2), within 0 400 (n16 b1 b2),
        within 0 1000 (n16 k1 k2), within 0 600 (n16 w1 w2), within 10 600 (n16 l1 l2), within 0 1 (n8 gp),
        within 0 2 (n8 sp), within 1 60 (n8 pd)] with
    | some i => .error i
    | none => .ok
      { reference := placeOf 8 rs, tInRef := i16 t1 t2, bBase := (wordOf b1 b2).toNat, k := (wordOf k1 k2).toNat,
        windLimit := (wordOf w1 w2).toNat, staleLimit := (wordOf l1 l2).toNat,
        policy := if gp = 1 then .arrival else .fixed,
        speed := if sp = 0 then .baud19200 else if sp = 1 then .baud38400 else .baud76800,
        sweepPeriod := pd.toNat }
  | _ => .error 0

/-- The tower record as READ_CONFIG returns it. -/
def towerBytes (c : TowerCfg) : List Byte :=
  [byteOf c.reference.val] ++ num16 c.tInRef ++ num16 c.bBase ++ num16 c.k ++ num16 c.windLimit ++ num16 c.staleLimit
    ++ [policyCode c.policy, speedCode c.speed, byteOf c.sweepPeriod]

end Sys2Proof.Machine
end

