-- ==== Sys2Proof/Machine/Arithmetic.lean ====
section
/-! DEFINITION. Machine/Arithmetic.lean: psychrometric and wheel arithmetic (R19 to R34), exact integers throughout. -/

namespace Sys2Proof.Machine

/-- Round `n / d` to the nearest integer, ties away from zero (00, arithmetic and rounding); `d` is positive. -/
def roundDiv (n : Int) (d : Nat) : Int :=
  if 0 ≤ n then ((2 * n.natAbs + d) / (2 * d) : Nat) else -((2 * n.natAbs + d) / (2 * d) : Nat)

/-- The ceiling of `n / d`; `d` is positive. -/
def ceilDiv (n d : Int) : Int := -((-n) / d)

/-- The integer N of R21. -/
def enthalpyN (t : Int) (w : Nat) : Int := 1006000 * t + 25010000 * (w : Int) + 186 * (w : Int) * t

/-- Enthalpy in hundredths of kJ/kg (R21). -/
def enthalpy (t : Int) (w : Nat) : Int := roundDiv (enthalpyN t w) 1000000

/-- Whether recovery is possible for the unit (R23). -/
def recoveryPossible (epsilon : Nat) (wheelFault : Bool) (tRa tOa : Int) : Bool :=
  decide (0 < epsilon) && !wheelFault && decide (tOa + 50 < tRa)

/-- The raw speed demand S_raw (R24). -/
def rawSpeed (c : UnitCfg) (tRa tOa : Int) : Int :=
  ceilDiv (100000 * (c.tSp - tOa)) ((c.epsilon : Int) * (tRa - tOa))

/-- The computed speed S (R25). -/
def wheelSpeed (c : UnitCfg) (tRa tOa : Int) : Nat := (min 100 (max (c.sMin : Int) (rawSpeed c tRa tOa))).toNat

/-- The effective effectiveness (R26). -/
def effEpsilon (epsilon s : Nat) : Int := roundDiv ((epsilon : Int) * s) 100

/-- The frost estimate T_exl at speed `s` (R27). -/
def exhaustLeaving (epsilon s : Nat) (tRa tOa : Int) : Int :=
  tRa - roundDiv (effEpsilon epsilon s * (tRa - tOa)) 1000

/-- The cold derating D (R31). -/
def derating (t : TowerCfg) (tOaRef : Int) : Nat := t.k * (t.tInRef - tOaRef).toNat / 1000

/-- B_raw (R31): truncated subtraction is the floor at 0. -/
def rawBudget (t : TowerCfg) (tOaRef : Int) : Nat := t.bBase - derating t tOaRef

/-- Halving takes the floor of half (00). -/
def halveIf (b : Bool) (n : Nat) : Nat := if b then n / 2 else n

/-- The effective budget from the reference station's live part and the wind condition of R33 (R30 to R34). -/
def effectiveBudget (t : TowerCfg) (ref : StationLive) (windLine : Bool) : Nat :=
  match ref.status, ref.air with
  | .none, _ => 0
  | _, none => 0
  | st, some a =>
    halveIf (windLine || decide (t.windLimit ≤ a.wind)) (halveIf (st == .stale) (rawBudget t a.tOa))

end Sys2Proof.Machine
end

