-- ==== Sys2Proof/Machine/Flags.lean ====
section
/-! DEFINITION. Machine/Flags.lean: the unit flags of a READING (R8, R185) and the sticky flags (R193). -/

namespace Sys2Proof.Machine

/-- The five flags of the flag byte; bits 5 to 7 are ignored (R185). -/
def UnitFlags.ofByte (b : Byte) : UnitFlags :=
  { fanOff := b.getLsbD 0, wheelFault := b.getLsbD 1, damperFault := b.getLsbD 2, sensorFault := b.getLsbD 3,
    localHand := b.getLsbD 4 }

/-- A bit of a flag byte. -/
def bitAt (n : Nat) (b : Bool) : Nat := if b then 2 ^ n else 0

/-- The flags as one byte, laid out as in the READING (R187). -/
def UnitFlags.byte (f : UnitFlags) : Byte :=
  byteOf (bitAt 0 f.fanOff + bitAt 1 f.wheelFault + bitAt 2 f.damperFault + bitAt 3 f.sensorFault + bitAt 4 f.localHand)

/-- Whether a commit that replaces `old` by `new` posts UNIT_FAULT: a change of WHEEL_FAULT, DAMPER_FAULT or
SENSOR_FAULT (R8). -/
def UnitFlags.faultChanged (old new : UnitFlags) : Bool :=
  old.wheelFault != new.wheelFault || old.damperFault != new.damperFault || old.sensorFault != new.sensorFault

/-- Whether a flag set calls for OUT_FAULT (R157). -/
def UnitFlags.anyFault (f : UnitFlags) : Bool := f.wheelFault || f.damperFault || f.sensorFault

/-- The three sticky flags as one byte, laid out as in CLEAR_FLAGS (R187, R193). -/
def Nq.flagsByte (q : Nq) : Byte :=
  byteOf (bitAt 0 q.noticeOverflow + bitAt 1 q.requestOverrun + bitAt 2 q.fieldCheck)

/-- CLEAR_FLAGS: each flag the byte names is cleared and the others are left (R193). -/
def Nq.clearFlags (q : Nq) (b : Byte) : Nq :=
  { q with
    noticeOverflow := q.noticeOverflow && !b.getLsbD 0
    requestOverrun := q.requestOverrun && !b.getLsbD 1
    fieldCheck := q.fieldCheck && !b.getLsbD 2 }

/-- A byte with any of bits 3 to 7 set is no flag byte (R193). -/
def flagsInRange (b : Byte) : Bool := decide (b.toNat < 8)

end Sys2Proof.Machine
end

