-- ==== Sys2Proof/Machine/Ops.lean ====
section
/-! DEFINITION. Machine/Ops.lean: the named operations over the records, the notice queue and the reply that every
block uses. -/

namespace Sys2Proof.Machine

/-! ## Reading and replacing one record -/

/-- The unit record `u`. -/
def State.unit (s : State) (u : UnitNo) : UnitRec := s.units[u]

/-- The station record `st`. -/
def State.station (s : State) (st : StationNo) : StationRec := s.stations[st]

/-- The riser record `r`. -/
def State.riser (s : State) (r : RiserNo) : RiserRec := s.risers[r]

/-- The changeover context of riser `r`, if it has one (R102). -/
def State.ctx (s : State) (r : RiserNo) : Option Ctx := s.ce.ctxs[r]

/-- The line record `l`. -/
def State.line (s : State) (l : LineNo) : LineRec := s.lu.lines[l]

/-- Change unit record `u` by `f`. -/
def State.modUnit (u : UnitNo) (f : UnitRec → UnitRec) (s : State) : State :=
  { s with units := updTable s.units u f }

/-- Change the decision part of unit `u` by `f`. -/
def State.modDecision (u : UnitNo) (f : Decision → Decision) (s : State) : State :=
  s.modUnit u fun x => { x with decision := f x.decision }

/-- Change station record `st` by `f`. -/
def State.modStation (st : StationNo) (f : StationRec → StationRec) (s : State) : State :=
  { s with stations := updTable s.stations st f }

/-- Change riser record `r` by `f`. -/
def State.modRiser (r : RiserNo) (f : RiserRec → RiserRec) (s : State) : State :=
  { s with risers := updTable s.risers r f }

/-- Change the live part of riser `r` by `f`. -/
def State.modLive (r : RiserNo) (f : RiserLive → RiserLive) (s : State) : State :=
  s.modRiser r fun x => { x with live := f x.live }

/-- Give riser `r` this context, or none. -/
def State.setCtx (r : RiserNo) (c : Option Ctx) (s : State) : State :=
  { s with ce := { s.ce with ctxs := updTable s.ce.ctxs r fun _ => c } }

/-- Change line record `l` by `f`. -/
def State.modLine (l : LineNo) (f : LineRec → LineRec) (s : State) : State :=
  { s with lu := { s.lu with lines := updTable s.lu.lines l f } }

/-- Change the supervisor link port by `f`. -/
def State.modSlp (f : Slp → Slp) (s : State) : State := { s with slp := f s.slp }

/-- Change the arbiter's record by `f`. -/
def State.modSba (f : Sba → Sba) (s : State) : State := { s with sba := f s.sba }

/-- Change the field link controller by `f`. -/
def State.modFlc (f : Flc → Flc) (s : State) : State := { s with flc := f s.flc }

/-- Change the notice queue by `f`. -/
def State.modNq (f : Nq → Nq) (s : State) : State := { s with nq := f s.nq }

/-! ## Conditions the rules ask for -/

/-- Running means ADVISE or COORDINATE (00, names). -/
def State.running (s : State) : Bool := s.slp.opState != .config

/-- Whether the part also commands the units (R174). -/
def State.coordinate (s : State) : Bool := s.slp.opState == .coordinate

/-- Whether a role is one of the three input roles (R150). -/
def Role.isInput : Role → Bool
  | .inWind => true
  | .inFreeze => true
  | .inEmergency => true
  | .none => false
  | .outFault => false
  | .outFree => false

/-- The role level of an input role: the accepted levels of its lines, ORed (R151). -/
def State.roleActive (s : State) (role : Role) : Bool :=
  (fins 6).any fun l => (s.line l).cfg.role == role && (s.line l).level

/-- The members of a riser, in chain order (R60). -/
def State.members (s : State) (r : RiserNo) : List UnitNo :=
  (fins 24).filter fun u => (s.unit u).cfg.present && (s.unit u).cfg.riser == r

/-- The present units, in ascending number. -/
def State.presentUnits (s : State) : List UnitNo := (fins 24).filter fun u => (s.unit u).cfg.present

/-- The present risers, in ascending number. -/
def State.presentRisers (s : State) : List RiserNo := (fins 6).filter fun r => (s.riser r).cfg.present

/-- The present units mapped to a station, in ascending number (R2). -/
def State.mappedUnits (s : State) (st : StationNo) : List UnitNo :=
  (fins 24).filter fun u => (s.unit u).cfg.present && (s.unit u).cfg.station == st

/-- The participants of a context that are not DROPPED (R104). -/
def Ctx.remaining (c : Ctx) : List Participant := c.participants.filter fun p => p.status != .dropped

/-- Whether unit `u` is a participant: on the list of an existing context and not DROPPED (R104). -/
def State.isParticipant (s : State) (u : UnitNo) : Bool :=
  match s.ctx (s.unit u).cfg.riser with
  | none => false
  | some c => c.remaining.any fun p => p.unit == u

/-- The pin of a line shows its active level under the line's polarity (R148, R150). -/
def State.pinShowsActive (s : State) (l : LineNo) : Bool :=
  match (s.line l).cfg.polarity with
  | .activeHigh => s.lu.pins[l]
  | .activeLow => !s.lu.pins[l]

/-- The driven level OUT_FAULT follows (R157). -/
def State.outFault (s : State) : Bool :=
  s.running && s.presentUnits.any fun u =>
    (s.unit u).presence == .offline || (s.unit u).reading.flags.anyFault

/-- The driven level OUT_FREE follows (R158). -/
def State.outFree (s : State) : Bool :=
  s.running && s.presentRisers.any fun r =>
    (s.riser r).live.state == .entering || (s.riser r).live.state == .free

/-- The level of a line: accepted for an input, driven for an output, inactive for NONE (R159). Every output is
inactive while RESETn is held low (R182). -/
def State.lineLevel (s : State) (l : LineNo) : Bool :=
  match (s.line l).cfg.role with
  | .none => false
  | .inWind => (s.line l).level
  | .inFreeze => (s.line l).level
  | .inEmergency => (s.line l).level
  | .outFault => s.outFault && !s.slp.resetHeld
  | .outFree => s.outFree && !s.slp.resetHeld

/-- The level an output line's pin is driven to (true = high); absent where the pin is left undriven (R148, R157). -/
def State.pinDriven (s : State) (l : LineNo) : Option Bool :=
  match (s.line l).cfg.role with
  | .outFault => some (s.lineLevel l == ((s.line l).cfg.polarity == .activeHigh))
  | .outFree => some (s.lineLevel l == ((s.line l).cfg.polarity == .activeHigh))
  | .none => none
  | .inWind => none
  | .inFreeze => none
  | .inEmergency => none

/-- The FDE output: active while the part sends a field frame (R126), inactive while RESETn is held low (R182). -/
def State.fde (s : State) : Bool :=
  match s.flc.link with
  | none => false
  | some t => t.stage == .sending && !s.slp.resetHeld

/-! ## Notices (R188 to R190) -/

/-- Behind every notice of its level and of higher levels, ahead of every notice of lower level (R189). -/
def placeNotice (n : Notice) : List Notice → List Notice
  | [] => [n]
  | m :: l => if n.level ≤ m.level then m :: placeNotice n l else n :: m :: l

/-- The lowest level present; 3 for an empty queue. -/
def lowestLevel (l : List Notice) : Nat := l.foldr (fun n m => min n.level m) 3

/-- The queue without its oldest notice of level `k`. -/
def dropOldest (k : Nat) : List Notice → List Notice
  | [] => []
  | m :: l => if m.level = k then l else m :: dropOldest k l

/-- The NQ takes a posted notice (R189). -/
def Nq.post (n : Notice) (q : Nq) : Nq :=
  if n.level < q.mask then q
  else if q.queue.length < 32 then { q with queue := placeNotice n q.queue }
  else if lowestLevel q.queue < n.level then
    { q with queue := placeNotice n (dropOldest (lowestLevel q.queue) q.queue), noticeOverflow := true }
  else { q with noticeOverflow := true }

/-- A block posts a notice. -/
def State.post (level : Nat) (subject : Subject) (content : Content) (s : State) : State :=
  s.modNq (Nq.post ⟨level, subject, content⟩)

/-- The subject type and number bytes (R187). -/
def Subject.bytes : Subject → List Byte
  | .none => [0, 0]
  | .unit u => [1, byteOf u.val]
  | .riser r => [2, byteOf r.val]
  | .station st => [3, byteOf st.val]
  | .line l => [4, byteOf l.val]

/-- The notice kind code (R187). -/
def Content.code : Content → Byte
  | .start _ => 0
  | .lineEdge _ _ => 1
  | .unitPresence _ => 2
  | .unitFault _ => 3
  | .frost _ _ => 4
  | .changeover _ _ _ _ _ => 5
  | .revoked _ _ => 6
  | .stationStatus _ => 7
  | .commandRefused _ => 8
  | .riserState _ _ => 9
  | .budget _ => 10
  | .unitHand _ => 11
  | .mailDone _ _ => 12
  | .unitMode _ => 13

/-- The contents of a notice, in the order of the table of R188 (R187; assumption log 16). -/
def Content.bytes : Content → List Byte
  | .start c => [startCauseCode c]
  | .lineEdge role level => [roleCode role, flagByte level]
  | .unitPresence p => [presenceCode p]
  | .unitFault f => [f.byte]
  | .frost entered t => flagByte (!entered) :: optItem num16 t
  | .changeover d tag r reason late =>
    [directionCode d, tag, resultCode r] ++ optItem (fun c => [causeCode c]) reason ++ [byteOf late]
  | .revoked st b => riserStateCode st :: num16 b
  | .stationStatus st => [stationStatusCode st]
  | .commandRefused r => [nakCode r]
  | .riserState st c => [riserStateCode st, causeCode c]
  | .budget b => num16 b
  | .unitHand entered => [flagByte (!entered)]
  | .mailDone none n => [mailStateCode .answered, 0, byteOf n]
  | .mailDone (some f) n => [mailStateCode .failed, 1, mailFailureCode f, byteOf n]
  | .unitMode m => modeSpeedItem (some m)

/-- The notice as a supervisor frame: kind NOTICE, tag 0 (R171, R187, R188). -/
def Notice.frame (n : Notice) : SupFrame :=
  ⟨0x82, 0, byteOf n.level :: n.content.code :: n.subject.bytes ++ n.content.bytes⟩

/-! ## Taking a request and answering it (R170 to R173) -/

/-- Whether the SLP can take a frame: no reply pending, RESETn not held low, no restart due (R170, R181, R182). -/
def State.canTake (s : State) : Bool :=
  s.slp.reply.isNone && !s.slp.resetHeld && s.slp.restart != .due

/-- The SLP takes frame `f`: the oldest of the buffer, whose slot is freed, or, the buffer being empty, a frame that
completes at this moment (R169, R170; assumption log 3). Absent when this frame is not taken now. -/
def State.takeFrame (f : SupFrame) (s : State) : Option State :=
  if s.canTake then
    match s.slp.requests with
    | [] => some s
    | g :: rest => if g = f then some (s.modSlp fun p => { p with requests := rest }) else none
  else none

/-- The reply becomes the pending reply; with STX idle its sending begins (R170, R171). -/
def State.answer (kind tag : Byte) (r : Reply) (s : State) : State :=
  s.modSlp fun p =>
    { p with reply := some (r.frame kind tag), stx := if p.stx = .idle then .reply else p.stx }

/-- Every request: the length check, the operating state, then the owning rule, which answers the state left and the
reply (R170, R173). -/
def State.request (k : ReqKind) (tag : Byte) (body : List Byte) (handle : State → State × Reply) (s : State) : State :=
  match s.takeFrame ⟨k.code, tag, body⟩ with
  | none => s
  | some s1 =>
    if !k.lengthOk body.length then s1.answer k.code tag (.refuse .frameLength (byteOf body.length))
    else if !k.allowed s1.slp.opState then s1.answer k.code tag (.refuse .wrongState (opStateCode s1.slp.opState))
    else (handle s1).1.answer k.code tag (handle s1).2

/-- An event of the part's own reaches it only while RESETn is not held low (R182). -/
def State.whileAlive (f : State → State) (s : State) : State := if s.slp.resetHeld then s else f s

/-- An event that acts only while the part is running. -/
def State.whileRunning (f : State → State) (s : State) : State :=
  s.whileAlive fun s => if s.running then f s else s

end Sys2Proof.Machine
end

