-- ==== Sys2Proof/Machine/ConfigRequests.lean ====
section
/-! DEFINITION. Machine/ConfigRequests.lean: the requests that load and read the configuration tables (R175 to R177). -/

namespace Sys2Proof.Machine

/-- A record parsed, then stored, or refused with the index of its first failing field (R175). -/
def loadRecord {α : Type} (parsed : Except Nat α) (store : α → State → State) (s : State) : State × Reply :=
  match parsed with
  | .error i => (s, .refuse .outOfRange (byteOf i))
  | .ok c => (store c s, .accept [])

/-- A LOAD request: the item number first, then the record (R175). -/
def loadItem {α : Type} (k : Nat) (parse : List Byte → Except Nat α) (store : Fin k → α → State → State)
    (body : List Byte) (s : State) : State × Reply :=
  match body with
  | [] => (s, .refuse .frameLength 0)
  | n :: record =>
    match numbered k n.toNat with
    | none => (s, .refuse .noSuchItem n)
    | some i => loadRecord (parse record) (store i) s

/-- A whole unit configuration record is stored. -/
def State.storeUnit (u : UnitNo) (c : UnitCfg) (s : State) : State := s.modUnit u fun x => { x with cfg := c }

/-- A whole riser configuration is stored. -/
def State.storeRiser (r : RiserNo) (c : RiserCfg) (s : State) : State := s.modRiser r fun x => { x with cfg := c }

/-- A whole station configuration is stored. -/
def State.storeStation (st : StationNo) (c : StationCfg) (s : State) : State :=
  s.modStation st fun x => { x with cfg := c }

/-- The filter of an input line whose pin shows active while its level is inactive; absent otherwise (R149, R159). -/
def startFilter (c : LineCfg) (pinHigh : Bool) : Option Nat :=
  if c.role.isInput && (pinHigh == (c.polarity == .activeHigh)) then some c.filter else none

/-- A line's live part afresh under a configuration (R149, R159). -/
def freshLine (c : LineCfg) (pinHigh : Bool) : LineRec := { cfg := c, level := false, filterRemaining := startFilter c pinHigh }

/-- A whole line configuration is stored, and the line's live part starts afresh, which is no edge (R149). -/
def State.storeLine (l : LineNo) (c : LineCfg) (s : State) : State := s.modLine l fun _ => freshLine c s.lu.pins[l]

/-- The whole tower record is stored. -/
def State.storeTower (c : TowerCfg) (s : State) : State := { s with tower := c }

/-- LOAD_UNIT (R175, R186). -/
def execLoadUnit (tag : Byte) (body : List Byte) (s : State) : Host.Outcome State Fault Refusal :=
  .next (s.request .loadUnit tag body (loadItem 24 parseUnit State.storeUnit body))

/-- LOAD_RISER (R59, R175). -/
def execLoadRiser (tag : Byte) (body : List Byte) (s : State) : Host.Outcome State Fault Refusal :=
  .next (s.request .loadRiser tag body (loadItem 6 parseRiser State.storeRiser body))

/-- LOAD_STATION (R2, R175). -/
def execLoadStation (tag : Byte) (body : List Byte) (s : State) : Host.Outcome State Fault Refusal :=
  .next (s.request .loadStation tag body (loadItem 8 parseStation State.storeStation body))

/-- LOAD_LINE (R149, R175). -/
def execLoadLine (tag : Byte) (body : List Byte) (s : State) : Host.Outcome State Fault Refusal :=
  .next (s.request .loadLine tag body (loadItem 6 parseLine State.storeLine body))

/-- LOAD_TOWER (R175). -/
def execLoadTower (tag : Byte) (body : List Byte) (s : State) : Host.Outcome State Fault Refusal :=
  .next (s.request .loadTower tag body (loadRecord (parseTower body) State.storeTower))

/-- One record of a table: its bytes, or none where the index is out of the numbering (R177). -/
def readRecord (k : Nat) (bytes : Fin k → List Byte) (table index : Byte) : Reply :=
  match numbered k index.toNat with
  | none => .refuse .noSuchItem index
  | some i => .accept (table :: index :: bytes i)

/-- The reply of READ_CONFIG (R177). -/
def State.configReply (s : State) (body : List Byte) : Reply :=
  match body with
  | [table, index] =>
    if table = 1 then readRecord 24 (fun u => unitBytes (s.unit u).cfg) table index
    else if table = 2 then readRecord 6 (fun r => riserBytes (s.riser r).cfg) table index
    else if table = 3 then readRecord 8 (fun st => stationBytes (s.station st).cfg) table index
    else if table = 4 then readRecord 6 (fun l => lineBytes (s.line l).cfg) table index
    else if table = 5 then readRecord 1 (fun _ => towerBytes s.tower) table index
    else .refuse .outOfRange 1
  | _ => .refuse .frameLength (byteOf body.length)

/-- READ_CONFIG (R177). -/
def execReadConfig (tag : Byte) (body : List Byte) (s : State) : Host.Outcome State Fault Refusal :=
  .next (s.request .readConfig tag body fun s => (s, s.configReply body))

end Sys2Proof.Machine
end

