-- ==== Sys2Proof/Config.lean ====
section
/-! DEFINITION. Config.lean: what an implementation fixes and the manual leaves open. -/

namespace Sys2Proof

/-- FREE VALUE (assumption log 6). R137: where work appears for two classes at one moment with the link IDLE,
either may be taken first. The n-th such choice of a run of the machine takes the class at this position
(modulo their number) among the classes with work, in order of precedence. Nothing is known of it. -/
opaque Config.arbiterChoice : Nat → Nat

end Sys2Proof
end

