-- ==== Sys2Proof/Machine/Evaluator.lean ====
section
/-! DEFINITION. Machine/Evaluator.lean: the Mode Evaluator (R35 to R56): the preference step, the mapping step, the
dwell rules, and the posting of a unit's commanded value. -/

namespace Sys2Proof.Machine

/-! ## The preference step (R38 to R42) -/

/-- What an evaluation decides: the preference, S where it is RECOVER_HEAT, and T_exl where it was computed. -/
structure Verdict where
  preference : Mode
  speed : Option Nat := none
  tExl : Option Int := none
deriving DecidableEq, Repr

/-- The heating region's entry and stay tests (R39). -/
def inHeatingRegion (c : UnitCfg) (cur : Option Mode) (tOa : Int) : Bool :=
  if cur = some .recoverHeat ∨ cur = some .defrost then decide (tOa < c.tSp) else decide (tOa < c.tSp - c.db)

/-- The frost tests (R39 step 2). -/
def frosting (c : UnitCfg) (cur : Option Mode) (tExl : Int) : Bool :=
  decide (tExl ≤ c.frostLimit) || (decide (cur = some .defrost) && decide (tExl < c.frostLimit + 100))

/-- A unit in the heating region (R39). -/
def heatingVerdict (c : UnitCfg) (wheelFault : Bool) (cur : Option Mode) (tRa tOa : Int) : Verdict :=
  if recoveryPossible c.epsilon wheelFault tRa tOa then
    if frosting c cur (exhaustLeaving c.epsilon (wheelSpeed c tRa tOa) tRa tOa) then
      ⟨.defrost, none, some (exhaustLeaving c.epsilon (wheelSpeed c tRa tOa) tRa tOa)⟩
    else
      ⟨.recoverHeat, some (wheelSpeed c tRa tOa), some (exhaustLeaving c.epsilon (wheelSpeed c tRa tOa) tRa tOa)⟩
  else ⟨.bypass, none, none⟩

/-- The cool-recovery test (R40). -/
def coolRecovery (c : UnitCfg) (wheelFault : Bool) (cur : Option Mode) (tRa tOa hRa hOa : Int) : Bool :=
  decide (0 < c.epsilon) && !wheelFault && decide (tRa < tOa) &&
    decide (hRa + (if cur = some .recoverCool then c.hm / 2 else c.hm : Nat) ≤ hOa)

/-- The free-cooling test (R41). -/
def freeCooling (c : UnitCfg) (damperFault : Bool) (cur : Option Mode) (tRa tOa hRa hOa : Int) (wOa : Nat) : Bool :=
  !damperFault && decide (hOa < hRa) &&
    (if cur = some .freeCool then decide (tOa < tRa) && decide (wOa ≤ c.wMax + 10)
     else decide (tOa ≤ tRa - c.db) && decide (wOa ≤ c.wMax))

/-- The ordered tests: the first that applies gives the preference, else BYPASS (R39 to R41). -/
def preferenceTests (c : UnitCfg) (f : UnitFlags) (cur : Option Mode) (ra : ReturnAir) (oa : OutdoorAir) : Verdict :=
  if inHeatingRegion c cur oa.tOa then heatingVerdict c f.wheelFault cur ra.tRa oa.tOa
  else if coolRecovery c f.wheelFault cur ra.tRa oa.tOa (enthalpy ra.tRa ra.wRa) (enthalpy oa.tOa oa.wOa) then
    ⟨.recoverCool, none, none⟩
  else if freeCooling c f.damperFault cur ra.tRa oa.tOa (enthalpy ra.tRa ra.wRa) (enthalpy oa.tOa oa.wOa) oa.wOa then
    ⟨.freeCool, none, none⟩
  else ⟨.bypass, none, none⟩

/-- The preconditions other than the station's (R38). -/
def UnitRec.evaluable (x : UnitRec) : Bool :=
  x.presence == .online && x.reading.condition == .fresh && !x.reading.flags.fanOff

/-- The decision part after the preference step (R29, R38). Values a FRESH unit or a reporting station does not hold
cannot arise; the preference is then held (assumption log 23). -/
def preferenceOf (x : UnitRec) (st : StationLive) : Decision :=
  if st.status = .none then
    { x.decision with preference := none, prefSpeed := none, lastHoa := none, lastHra := none, lastTexl := none }
  else if x.evaluable then
    match x.reading.air, st.air with
    | some ra, some oa =>
      { x.decision with
        preference := some (preferenceTests x.cfg x.reading.flags x.decision.preference ra oa).preference
        prefSpeed := (preferenceTests x.cfg x.reading.flags x.decision.preference ra oa).speed
        lastHoa := some (enthalpy oa.tOa oa.wOa)
        lastHra := some (enthalpy ra.tRa ra.wRa)
        lastTexl := (preferenceTests x.cfg x.reading.flags x.decision.preference ra oa).tExl }
    | _, _ => x.decision
  else x.decision

/-- The FROST notice of a preference change into or out of DEFROST (R42). -/
def State.postFrost (u : UnitNo) (old new : Option Mode) (tExl : Option Int) (s : State) : State :=
  if old = some .defrost ∧ new ≠ some .defrost then s.post 2 (.unit u) (.frost false tExl)
  else if old ≠ some .defrost ∧ new = some .defrost then s.post 2 (.unit u) (.frost true tExl)
  else s

/-- The preference step of one unit (R38, R42). -/
def State.preferenceStep (u : UnitNo) (s : State) : State :=
  let x := s.unit u
  let d := preferenceOf x (s.station x.cfg.station).live
  (s.modDecision u fun _ => d).postFrost u x.decision.preference d.preference d.lastTexl

/-! ## The commanded value (R48, R53, R142) -/

/-- A posting replaces the unit's entry in place, or appends one at the tail (R142). -/
def placeCommand (u : UnitNo) (c : ModeSpeed) : List CmdEntry → List CmdEntry
  | [] => [⟨u, c⟩]
  | e :: l => if e.unit = u then ⟨u, c⟩ :: l else e :: placeCommand u c l

/-- The ME posts a commanded value to the unit command set (R142). -/
def State.postCommand (u : UnitNo) (c : ModeSpeed) (s : State) : State :=
  s.modFlc fun f => { f with commands := placeCommand u c f.commands }

/-- The posting rule: in COORDINATE a commanded value is posted for a unit that is ONLINE and not in HAND (R53). -/
def State.postWhereHeard (u : UnitNo) (c : ModeSpeed) (s : State) : State :=
  if s.coordinate && (s.unit u).presence == .online && (s.unit u).decision.control != .hand then s.postCommand u c
  else s

/-- The notice of a change of commanded value, and its posting (R53). -/
def State.announceCommanded (u : UnitNo) (c : ModeSpeed) (s : State) : State :=
  (s.post 0 (.unit u) (.unitMode c)).postWhereHeard u c

/-- A change of commanded mode: dwell starts, and the change is announced (R48, R53). -/
def State.commandMode (u : UnitNo) (c : ModeSpeed) (s : State) : State :=
  (s.modUnit u fun x => { x with decision :=
    { x.decision with commanded := some c, dwell := x.cfg.minDwell, dwellExpired := false } }).announceCommanded u c

/-- A change of speed alone: dwell runs on (R47, R48, R53). -/
def State.commandSpeed (u : UnitNo) (c : ModeSpeed) (s : State) : State :=
  (s.modDecision u fun d => { d with commanded := some c }).announceCommanded u c

/-! ## The mapping step (R46, R47, R49) -/

/-- Cause class of an evaluation (R37). -/
inductive CauseClass where
  | automatic | control | riser | emergency
deriving DecidableEq, Repr

/-- What a row of the mapping table gives: held, or a mode and speed, and for RECOVER_HEAT whether the posting
threshold of the speed rule applies (row 6). -/
inductive Target where
  | held
  | give (m : ModeSpeed) (threshold : Bool)
deriving DecidableEq, Repr

/-- Row 6: the preference, FREE_COOL taken as BYPASS (R46). -/
def preferredTarget (x : UnitRec) : Target :=
  match x.decision.preference with
  | none => .held
  | some .recoverHeat =>
    match x.decision.prefSpeed with
    | some s => .give ⟨.recoverHeat, s⟩ true
    | none => .held
  | some .recoverCool => .give ⟨.recoverCool, 100⟩ false
  | some .bypass => .give ⟨.bypass, 0⟩ false
  | some .freeCool => .give ⟨.bypass, 0⟩ false
  | some .defrost => .give ⟨.defrost, x.cfg.defrostSpeed⟩ false
  | some .safe => .held

/-- The first row of the mapping table that applies (R46). -/
def State.target (s : State) (u : UnitNo) : Target :=
  let x := s.unit u
  if s.roleActive .inEmergency then .give ⟨.safe, 0⟩ false
  else match x.decision.control with
    | .forced =>
      match x.decision.forced with
      | some m => .give m false
      | none => .held
    | .hand => .held
    | .auto =>
      if s.isParticipant u then .held
      else if (s.riser x.cfg.riser).live.state == .free && !x.reading.flags.damperFault then .give ⟨.freeCool, 0⟩ false
      else preferredTarget x

/-- Whether a change of commanded mode is taken at once (R49). -/
def changeAllowed (cls : CauseClass) (m : Mode) (dwell : Nat) : Bool :=
  cls != .automatic || m == .defrost || dwell == 0

/-- The posting threshold of the speed rule (R47). -/
def speedDue (c : UnitCfg) (threshold : Bool) (new old : Nat) : Bool :=
  if threshold then
    decide (new + 5 ≤ old) || decide (old + 5 ≤ new) || (new != old && (new == c.sMin || new == 100))
  else new != old

/-- The mapping step of one unit (R46 to R49). -/
def State.mappingStep (u : UnitNo) (cls : CauseClass) (s : State) : State :=
  let x := s.unit u
  match s.target u with
  | .held => s
  | .give m threshold =>
    match x.decision.commanded with
    | none => if changeAllowed cls m.mode x.decision.dwell then s.commandMode u m else s
    | some old =>
      if old.mode = m.mode then
        if m.mode = .recoverHeat ∧ speedDue x.cfg threshold m.speed old.speed = true then s.commandSpeed u m else s
      else if changeAllowed cls m.mode x.decision.dwell then s.commandMode u m
      else s

/-- One evaluation: the preference step, then the mapping step, within one event (R37). -/
def State.evaluate (u : UnitNo) (cls : CauseClass) (s : State) : State :=
  (s.preferenceStep u).mappingStep u cls

/-- Evaluations of several units, one after another in the order given (R37). -/
def State.evaluateAll (us : List UnitNo) (cls : CauseClass) (s : State) : State :=
  us.foldl (fun s u => s.evaluate u cls) s

/-! ## Changes set by others (R50, R51) -/

/-- A change of commanded mode that the CE or the return sets: none where the unit already has the mode (R50, R51). -/
def State.setGroupMode (m : Mode) (s : State) (u : UnitNo) : State :=
  if (s.unit u).decision.control = .auto ∧ (s.unit u).decision.commanded.map (·.mode) ≠ some m then
    s.commandMode u ⟨m, 0⟩
  else s

/-- The move of R51 for one member: an AUTO member commanded FREE_COOL goes to BYPASS. -/
def State.returnToBypass (s : State) (u : UnitNo) : State :=
  if (s.unit u).decision.commanded.map (·.mode) = some .freeCool then s.setGroupMode .bypass u else s

/-- Dwell of an AUTO member set to 0, which is not an expiry (R48, R51). -/
def State.clearDwell (s : State) (u : UnitNo) : State :=
  if (s.unit u).decision.control = .auto then s.modDecision u fun d => { d with dwell := 0, dwellExpired := false }
  else s

/-- The return of R51 for all members of a riser. -/
def State.returnMembers (r : RiserNo) (s : State) : State :=
  let us := s.members r
  let s1 := us.foldl State.returnToBypass s
  let s2 := us.foldl State.clearDwell s1
  s2.evaluateAll us .riser

/-! ## The reported-mode resync and the LATE mark (R54, R55) -/

/-- The resync comparison after a committed READING (R54). -/
def State.resync (u : UnitNo) (s : State) : State :=
  let x := s.unit u
  match x.decision.commanded with
  | none => s
  | some c =>
    if s.coordinate && x.reading.reported != some c.mode && !(s.flc.commands.any fun e => e.unit == u)
        && !s.isParticipant u && x.decision.control != .hand then s.postCommand u c
    else s

/-- The mode a changeover of this direction moved to (R55). -/
def Direction.targetMode : Direction → Mode
  | .enter => .freeCool
  | .leave => .bypass

/-- The LATE mark is cleared by a READING that reports the mode the changeover moved to (R55). -/
def State.clearLate (u : UnitNo) (s : State) : State :=
  match (s.unit u).decision.late with
  | none => s
  | some d =>
    if (s.unit u).reading.reported = some d.targetMode then s.modDecision u fun x => { x with late := none } else s

end Sys2Proof.Machine
end

