-- ==== Sys2Proof/Machine/Groups.lean ====
section
/-! DEFINITION. Machine/Groups.lean: the Riser Coordinator (R59 to R83), the Stack Budget Arbiter (R84 to R101) and
the Changeover Engine's contexts (R102 to R125) as far as one event takes them. Each hand-off between the three is a
call, in the order of R80. -/

namespace Sys2Proof.Machine

/-! ## State, settle and count of one riser -/

/-- A change of riser state, with its RISER_STATE notice; `exit` records the cause as last exit cause (R79). -/
def State.riserTo (r : RiserNo) (st : RiserState) (cause : Cause) (exit : Bool) (s : State) : State :=
  (s.modLive r fun l => { l with state := st, lastExit := if exit then cause else l.lastExit }).post 1 (.riser r)
    (.riserState st cause)

/-- The settle timer starts at the configured settle (R64). -/
def State.startSettle (r : RiserNo) (s : State) : State :=
  s.modRiser r fun x => { x with live := { x.live with settle := x.cfg.settle, settleExpired := false } }

/-- The settle timer is set to 0, which is no expiry (R75). -/
def State.clearSettle (r : RiserNo) (s : State) : State :=
  s.modLive r fun l => { l with settle := 0, settleExpired := false }

/-- Whether a member casts a free vote (R62). -/
def State.votes (s : State) (u : UnitNo) : Bool :=
  let x := s.unit u
  x.presence == .online && x.decision.control == .auto && !x.reading.flags.fanOff && x.reading.condition == .fresh
    && (s.station x.cfg.station).live.status == .fresh && !x.reading.flags.damperFault
    && x.decision.preference == some .freeCool

/-- Whether a unit is ONLINE. -/
def State.isOnline (s : State) (u : UnitNo) : Bool := (s.unit u).presence == .online

/-- A recount forms the voters and the online members afresh (R63). -/
def State.count (r : RiserNo) (s : State) : State :=
  s.modLive r fun l =>
    { l with voters := (s.members r).filter s.votes, onlineMembers := ((s.members r).filter s.isOnline).length }

/-! ## The arbiter's collections (R87 to R89) -/

/-- The stack weight of a riser. -/
def State.weight (s : State) (r : RiserNo) : Nat := (s.riser r).cfg.weight

/-- The rank of a riser. -/
def State.rank (s : State) (r : RiserNo) : Nat := (s.riser r).cfg.rank

/-- The sum of the weights of a list of risers. -/
def sumWeights (w : RiserNo → Nat) (l : List RiserNo) : Nat := (l.map w).sum

/-- The committed weight (R85). -/
def State.committed (s : State) : Nat := sumWeights s.weight s.sba.grants

/-- The headroom (R85, R89). -/
def State.headroom (s : State) : Int := (s.sba.bEff : Int) - s.committed - s.sba.draining

/-- Whether a joining riser `r` goes ahead of the entry `q` (R87). -/
def goesAhead (rank : RiserNo → Nat) (policy : GrantPolicy) (r q : RiserNo) : Bool :=
  decide (rank q < rank r) || (rank q == rank r && policy == .fixed && decide (r < q))

/-- The place of a joining riser (R87). -/
def placeRiser (rank : RiserNo → Nat) (policy : GrantPolicy) (r : RiserNo) : List RiserNo → List RiserNo
  | [] => [r]
  | q :: l => if goesAhead rank policy r q then r :: q :: l else q :: placeRiser rank policy r l

/-- A riser is placed on the admission queue (R87, R90). -/
def State.enqueue (r : RiserNo) (s : State) : State :=
  s.modSba fun b => { b with queue := placeRiser s.rank s.tower.policy r b.queue }

/-- A riser is taken off the admission queue (R91). -/
def State.dequeue (r : RiserNo) (s : State) : State := s.modSba fun b => { b with queue := b.queue.erase r }

/-- A riser is taken off the grant list (R94). -/
def State.ungrant (r : RiserNo) (s : State) : State := s.modSba fun b => { b with grants := b.grants.erase r }

/-- A riser's weight becomes draining weight (R89). -/
def State.drain (r : RiserNo) (s : State) : State := s.modSba fun b => { b with draining := b.draining + s.weight r }

/-- A riser's weight is draining weight no more (R89). -/
def State.undrain (r : RiserNo) (s : State) : State := s.modSba fun b => { b with draining := b.draining - s.weight r }

/-! ## Contexts (R102, R103, R108, R120) -/

/-- A new context takes the tag counter's value, and the counter advances (R103); its cursor is 1 until its first roll
begins (assumption log 30). -/
def State.newContext (r : RiserNo) (d : Direction) (ph : Phase) (us : List UnitNo) (s : State) : State :=
  { s with ce :=
    { ctxs := updTable s.ce.ctxs r fun _ =>
        some { direction := d, tag := s.ce.tagCounter, phase := ph, participants := us.map fun u => ⟨u, .pending⟩ }
      tagCounter := s.ce.tagCounter + 1 } }

/-- The CHANGEOVER notice of a context's end (R122). -/
def State.postChangeover (r : RiserNo) (c : Ctx) (res : Result) (reason : Option Cause) (late : Nat) (s : State) : State :=
  s.post 2 (.riser r) (.changeover c.direction c.tag res reason late)

/-- The participants of an ENTER: the members ONLINE, in AUTO and without DAMPER_FAULT (R108). -/
def State.enterParticipants (s : State) (r : RiserNo) : List UnitNo :=
  (s.members r).filter fun u =>
    s.isOnline u && (s.unit u).decision.control == .auto && !(s.unit u).reading.flags.damperFault

/-- The participants of a LEAVE: the members ONLINE and in AUTO (R120). -/
def State.leaveParticipants (s : State) (r : RiserNo) : List UnitNo :=
  (s.members r).filter fun u => s.isOnline u && (s.unit u).decision.control == .auto

/-- The units on a context's list, dropped ones included, in chain order (R102, R104). The evaluation at the end of a
completed ENTER takes them all (R114); that the end of a cancelled or dropped ENTER does so too is the model's choice
(assumption log 31). -/
def Ctx.units (c : Ctx) : List UnitNo := c.participants.map (·.unit)

/-- The context cancelled into CANCEL_PENDING (R117), its cleared cursor at 1 (assumption log 30). -/
def Ctx.cancelled (c : Ctx) (reason : Cause) : Ctx :=
  { c with phase := .cancelPending, window := none, cursor := 1, passStart := none, repairs := [], reason := reason }

/-- The ready roll complete: the context in COMMIT_PENDING (R111), its cleared cursor at 1 (assumption log 30). -/
def Ctx.readied (c : Ctx) : Ctx :=
  { c with phase := .commitPending, window := none, cursor := 1, passStart := none, repairs := [] }

/-- The ENTER turned into a LEAVE with a new tag (R119), its cleared cursor at 1 (assumption log 30). -/
def Ctx.converted (c : Ctx) (tag : Byte) : Ctx :=
  { direction := .leave, tag := tag, phase := .returnPending
    participants := c.remaining.map fun p => { p with status := .pending } }

/-! ## Admission (R66, R92, R93) -/

/-- The RC takes an admission (R66). -/
def State.admitRiser (s : State) (r : RiserNo) : State :=
  if s.coordinate then
    (s.riserTo r .entering .admitted false).newContext r .enter .callPending (s.enterParticipants r)
  else
    (((s.riserTo r .free .admitted false).startSettle r).evaluateAll (s.members r) .riser).count r

/-- The walk of the admission scan: what stays on the queue, and what is admitted, in order (R92). -/
def scanWalk (w : RiserNo → Nat) : Int → List RiserNo → List RiserNo × List RiserNo
  | _, [] => ([], [])
  | h, r :: l =>
    if (w r : Int) ≤ h then ((scanWalk w (h - w r) l).1, r :: (scanWalk w (h - w r) l).2)
    else (r :: (scanWalk w h l).1, (scanWalk w h l).2)

/-- Whether the freeze or the emergency input holds the scan (R92). -/
def State.scanHeld (s : State) : Bool := s.running && (s.roleActive .inFreeze || s.roleActive .inEmergency)

/-- The admission scan, with its hand-offs after the walk (R92, R93). -/
def State.scan (s : State) : State :=
  if s.scanHeld then s
  else
    (scanWalk s.weight s.headroom s.sba.queue).2.foldl State.admitRiser
      (s.modSba fun b =>
        { b with queue := (scanWalk s.weight s.headroom s.sba.queue).1
                 grants := b.grants ++ (scanWalk s.weight s.headroom s.sba.queue).2 })

/-- The scan a removal calls for; a revocation leaves it to the end of its recompute (R97). -/
def State.scanIf (doScan : Bool) (s : State) : State := if doScan then s.scan else s

/-! ## Joining (R65, R90) -/

/-- The joining check (R65). -/
def State.mayJoin (s : State) (r : RiserNo) : Bool :=
  let x := s.riser r
  decide (x.cfg.quorum ≤ x.live.voters.length) && x.live.settle == 0 && !x.live.locked && !s.roleActive .inFreeze
    && !s.roleActive .inEmergency

/-- The joining check made, and the riser queued where it passes (R65, R90). -/
def State.joinCheck (r : RiserNo) (s : State) : State :=
  if s.mayJoin r then ((s.riserTo r .queued .quorum false).enqueue r).scan else s

/-! ## Leaving (R67 to R73, R94, R95) -/

/-- A LEAVING is complete: INDIVIDUAL, settle, the return of R51, the recount, the weight, the scan (R72, R95). -/
def State.completeLeaving (r : RiserNo) (doScan : Bool) (s : State) : State :=
  ((((((s.riserTo r .individual .complete false).startSettle r).setCtx r none).returnMembers r).count r).undrain r).scanIf
    doScan

/-- What follows the drop of a context in CALL_PENDING: settle, no context, the participants evaluated, the recount,
the grant released, the scan (R68, R69, R94). `us` is every unit on the list of the context, DROPPED ones included, which
is the model's choice (assumption log 31). -/
def State.afterContextDrop (r : RiserNo) (us : List UnitNo) (doScan : Bool) (s : State) : State :=
  (((((s.startSettle r).setCtx r none).evaluateAll us .riser).count r).ungrant r).scanIf doScan

/-- A cancel decided by the CE (R68, R117). In CALL_PENDING the context is dropped and every unit on its list evaluated,
DROPPED ones included (assumption log 31). -/
def State.ceCancel (r : RiserNo) (c : Ctx) (reason : Cause) (s : State) : State :=
  match c.phase with
  | .callPending =>
    ((s.postChangeover r c .cancelled (some reason) 0).riserTo r .individual reason true).afterContextDrop r c.units true
  | .rollReady | .commitPending =>
    ((((s.setCtx r (some (c.cancelled reason))).riserTo r .leaving reason true).ungrant r).drain r).scan
  | .rollDone | .cancelPending | .returnPending => s

/-- A withdrawal of an ENTERING riser, by the phase of its context (R69, R119). In CALL_PENDING the context is dropped
and every unit on its list evaluated, DROPPED ones included (assumption log 31). -/
def State.withdrawEntering (r : RiserNo) (c : Ctx) (cause : Cause) (doScan : Bool) (s : State) : State :=
  match c.phase with
  | .callPending =>
    ((s.riserTo r .individual cause true).postChangeover r c .cancelled (some cause) 0).afterContextDrop r c.units doScan
  | .rollReady | .commitPending =>
    ((((s.riserTo r .leaving cause true).setCtx r (some (c.cancelled cause))).ungrant r).drain r).scanIf doScan
  | .rollDone =>
    let c' := c.converted s.ce.tagCounter
    let s1 := (((({ s with ce := { s.ce with tagCounter := s.ce.tagCounter + 1 } } : State).riserTo r .leaving cause
      true).setCtx r (some c')).ungrant r).drain r
    if c'.participants.isEmpty then (s1.postChangeover r c' .complete none 0).completeLeaving r doScan
    else s1.scanIf doScan
  | .cancelPending | .returnPending => s

/-- A withdrawal of a FREE riser (R71, R73). -/
def State.withdrawFree (r : RiserNo) (cause : Cause) (doScan : Bool) (s : State) : State :=
  if s.coordinate then
    if (s.leaveParticipants r).isEmpty then
      (((s.riserTo r .leaving cause true).ungrant r).drain r).completeLeaving r doScan
    else
      ((((s.riserTo r .leaving cause true).newContext r .leave .returnPending (s.leaveParticipants r)).ungrant r).drain
        r).scanIf doScan
  else
    (((((s.riserTo r .individual cause true).startSettle r).returnMembers r).count r).ungrant r).scanIf doScan

/-- The withdrawal rule (R69, R74). An ENTERING riser without a context cannot arise; its grant is released as for a
context dropped in CALL_PENDING (assumption log 23). -/
def State.withdraw (r : RiserNo) (cause : Cause) (doScan : Bool) (s : State) : State :=
  match (s.riser r).live.state with
  | .individual => s
  | .leaving => s
  | .queued => (s.riserTo r .individual cause true).dequeue r
  | .free => s.withdrawFree r cause doScan
  | .entering =>
    match s.ctx r with
    | some c => s.withdrawEntering r c cause doScan
    | none => (s.riserTo r .individual cause true).afterContextDrop r [] doScan

/-! ## Recount (R63, R70) -/

/-- The count applied to the riser's state (R63): the joining check, or the vote test (R70). -/
def State.applyCount (r : RiserNo) (s : State) : State :=
  let x := s.riser r
  match x.live.state with
  | .individual => s.joinCheck r
  | .queued => if x.live.voters.length < x.cfg.quorum then s.withdraw r .votes true else s
  | .free => if x.live.voters.length < x.cfg.hold ∧ x.live.settle = 0 then s.withdraw r .votes true else s
  | .entering => s
  | .leaving => s

/-- A recount of one riser (R63). -/
def State.recount (r : RiserNo) (s : State) : State := (s.count r).applyCount r

/-- The expiry of the settle timer: no new count is made (R64). -/
def State.settleExpired (r : RiserNo) (s : State) : State :=
  match (s.riser r).live.state with
  | .individual => s.joinCheck r
  | .free => s.applyCount r
  | .queued => s
  | .entering => s
  | .leaving => s

/-- An event the ME takes on its own for a unit: the evaluation, then the recount of its riser (R42, R63). -/
def State.ownEvent (u : UnitNo) (cls : CauseClass) (s : State) : State :=
  (s.evaluate u cls).recount (s.unit u).cfg.riser

/-! ## The end of a context (R67, R68, R72, R114, R118, R121) -/

/-- An ENTER completes: FREE, settle, the participants evaluated and then the other members, the recount (R67, R114). -/
def State.enterComplete (r : RiserNo) (c : Ctx) (res : Result) (late : Nat) (s : State) : State :=
  ((((((s.postChangeover r c res none late).riserTo r .free .complete false).startSettle r).setCtx r none).evaluateAll
    c.units .riser).evaluateAll ((s.members r).filter fun u => !c.units.contains u) .riser).count r

/-- A LEAVE completes (R72, R121). -/
def State.leaveComplete (r : RiserNo) (c : Ctx) (res : Result) (late : Nat) (s : State) : State :=
  (s.postChangeover r c res none late).completeLeaving r true

/-- A done roll ends (R114, R121). -/
def State.rollEnds (r : RiserNo) (c : Ctx) (res : Result) (late : Nat) (s : State) : State :=
  match c.direction with
  | .enter => s.enterComplete r c res late
  | .leave => s.leaveComplete r c res late

/-- A GROUP_CANCEL has been sent: the context ends CANCELLED (R118, R68, R95). Every unit on its list is evaluated,
DROPPED ones included: R118 says `each participant` and the model takes it so (assumption log 31). -/
def State.cancelComplete (r : RiserNo) (c : Ctx) (s : State) : State :=
  ((((((((s.postChangeover r c .cancelled (some c.reason) 0).riserTo r .individual .complete false).startSettle r).setCtx
    r none).evaluateAll c.units .riser).count r).undrain r)).scan

/-! ## Status changes and drops (R111, R114 to R116, R121) -/

/-- The context with the status of unit `u` set. -/
def Ctx.withStatus (c : Ctx) (u : UnitNo) (st : PartStatus) : Ctx :=
  { c with participants := c.participants.map fun p => if p.unit = u then { p with status := st } else p }

/-- Every remaining participant has this status. -/
def Ctx.allRemaining (c : Ctx) (st : PartStatus) : Bool := c.remaining.all fun p => p.status == st

/-- The tests after a status change: the ready roll, or the done roll, may be complete (R111, R114, R121). -/
def State.rollTest (r : RiserNo) (c : Ctx) (s : State) : State :=
  match c.phase with
  | .rollReady => if c.allRemaining .ready then s.setCtx r (some c.readied) else s
  | .rollDone => if c.allRemaining .done then s.rollEnds r c .complete 0 else s
  | .callPending => s
  | .commitPending => s
  | .cancelPending => s
  | .returnPending => s

/-- The tests after a drop, `c` being the context as the drop left it (R116, R120, R121). -/
def State.dropTest (r : RiserNo) (c : Ctx) (s : State) : State :=
  match c.direction, c.phase with
  | .enter, .callPending | .enter, .commitPending =>
    if c.remaining.length < (s.riser r).cfg.quorum then s.ceCancel r c .quorumLost else s
  | .enter, .rollReady =>
    if c.remaining.length < (s.riser r).cfg.quorum then s.ceCancel r c .quorumLost else s.rollTest r c
  | .leave, .returnPending => if c.remaining.isEmpty then s.leaveComplete r c .complete 0 else s
  | _, .rollDone => s.rollTest r c
  | _, _ => s

/-- A unit goes OFFLINE or leaves AUTO: it is dropped from the context that holds it (R115). -/
def State.drop (u : UnitNo) (s : State) : State :=
  match s.ctx (s.unit u).cfg.riser with
  | none => s
  | some c =>
    if c.remaining.any fun p => p.unit == u then
      (s.setCtx (s.unit u).cfg.riser (some { c.withStatus u .dropped with repairs := c.repairs.filter fun p => p.unit != u })).dropTest
        (s.unit u).cfg.riser { c.withStatus u .dropped with repairs := c.repairs.filter fun p => p.unit != u }
    else s

/-! ## The budget recompute and revocation (R86, R96, R97) -/

/-- The lowest rank on a list, and of equals the one nearest the tail (R96). -/
def latestOfLowest (rank : RiserNo → Nat) : List RiserNo → Option RiserNo
  | [] => none
  | r :: l =>
    match latestOfLowest rank l with
    | none => some r
    | some q => if rank r < rank q then some r else some q

/-- The risers revoked, in order; the first number bounds the choices and is the length of the list (R96). -/
def chooseRevoked (w rank : RiserNo → Nat) (bEff : Nat) : Nat → List RiserNo → List RiserNo
  | 0, _ => []
  | n + 1, grants =>
    if bEff < sumWeights w grants then
      match latestOfLowest rank grants with
      | none => []
      | some r => r :: chooseRevoked w rank bEff n (grants.erase r)
    else []

/-- One riser is revoked: off the grant list, with its REVOKED notice (R96). -/
def State.revokeOne (s : State) (r : RiserNo) : State :=
  (s.ungrant r).post 2 (.riser r) (.revoked (s.riser r).live.state s.sba.bEff)

/-- Revocation: the whole choice first, then the withdrawals in its order (R96, R97). -/
def State.revoke (s : State) : State :=
  let l := chooseRevoked s.weight s.rank s.sba.bEff s.sba.grants.length s.sba.grants
  l.foldl (fun s r => s.withdraw r .revoked false) (l.foldl State.revokeOne s)

/-- B_eff as the operands now give it (R30 to R34). -/
def State.budgetNow (s : State) : Nat :=
  effectiveBudget s.tower (s.station s.tower.reference).live (s.roleActive .inWind)

/-- The budget recompute (R86). -/
def State.recompute (s : State) : State :=
  if s.budgetNow = s.sba.bEff then s
  else
    let s1 := (s.modSba fun b => { b with bEff := s.budgetNow }).post 1 .none (.budget s.budgetNow)
    if s.budgetNow < s.sba.bEff then s1.revoke.scan else s1.scan

/-! ## The tower overrides (R75 to R77, R124, R153 to R155) -/

/-- One riser at emergency activation (R75, R99). -/
def State.emergencyRiser (s : State) (r : RiserNo) : State :=
  match (s.riser r).live.state with
  | .individual => s.clearSettle r
  | .queued => ((s.riserTo r .individual .emergency true).clearSettle r).dequeue r
  | .entering => ((s.riserTo r .individual .emergency true).clearSettle r).ungrant r
  | .free => ((s.riserTo r .individual .emergency true).clearSettle r).ungrant r
  | .leaving => ((s.riserTo r .individual .emergency true).clearSettle r).undrain r

/-- The CE abandons every context (R124). -/
def State.abandonContexts (s : State) : State :=
  { s with ce := { s.ce with ctxs := Vector.replicate 6 none } }

/-- One unit at emergency activation: the evaluation, the posting of SAFE, which is made for a unit already commanded
SAFE too (R144, R154; assumption log 28), and the recount of its riser. -/
def State.emergencyUnit (s : State) (u : UnitNo) : State :=
  ((s.evaluate u .emergency).postWhereHeard u ⟨.safe, 0⟩).recount (s.unit u).cfg.riser

/-- Emergency activation (R154). -/
def State.emergencyOn (s : State) : State :=
  s.presentUnits.foldl State.emergencyUnit (s.presentRisers.foldl State.emergencyRiser s.abandonContexts)

/-- Emergency release (R155, R76). -/
def State.emergencyOff (s : State) : State :=
  s.presentUnits.foldl (fun s u => s.ownEvent u .emergency) (s.presentRisers.foldl (fun s r => s.startSettle r) s)

/-- Freeze activation (R77, R153). -/
def State.freezeOn (s : State) : State := s.presentRisers.foldl (fun s r => s.withdraw r .freeze true) s

/-- The joining check of a riser that is INDIVIDUAL. -/
def State.joinIfIndividual (s : State) (r : RiserNo) : State :=
  if (s.riser r).live.state = .individual then s.joinCheck r else s

/-- Freeze release (R77, R153). -/
def State.freezeOff (s : State) : State := s.presentRisers.foldl State.joinIfIndividual s

end Sys2Proof.Machine
end

