-- ==== Sys2Proof/Machine/Condition.lean ====
section
/-! DEFINITION. Machine/Condition.lean: the Condition Table (R1 to R18): commits, freshness changes, and the
handing on of unit and station events. -/

namespace Sys2Proof.Machine

/-! ## Clamping (R3) -/

/-- Temperature range. -/
def clampTemp (x : Int) : Int := clamp (-4000) 6000 x

/-- Humidity ratio range; the field is unsigned. -/
def clampRatio (x : Nat) : Nat := min x 300

/-- Wind range; the field is unsigned. -/
def clampWind (x : Nat) : Nat := min x 600

/-! ## Unit events (R5 to R11, R56) -/

/-- A READING as the FLC hands it over (R5, R185). -/
structure ReadingFrame where
  tRa : Word
  wRa : Word
  mode : Byte
  flags : Byte
deriving DecidableEq, Repr

/-- The reading part after a commit (R6, R7, R8). -/
def commitReading (f : ReadingFrame) (old : Reading) : Reading :=
  if (UnitFlags.ofByte f.flags).sensorFault then
    { old with reported := modeOfCode f.mode, flags := UnitFlags.ofByte f.flags, age := 0, condition := .sensorHold }
  else
    { air := some ⟨clampTemp f.tRa.toInt, clampRatio f.wRa.toNat⟩
      reported := modeOfCode f.mode
      flags := UnitFlags.ofByte f.flags
      age := 0
      condition := .fresh
      clamped := clampTemp f.tRa.toInt != f.tRa.toInt || clampRatio f.wRa.toNat != f.wRa.toNat }

/-- The UNIT_FAULT notice of a commit (R8). -/
def State.postFault (u : UnitNo) (old new : UnitFlags) (s : State) : State :=
  if old.faultChanged new then s.post 2 (.unit u) (.unitFault new) else s

/-- The control a committed READING leaves (R43). -/
def controlAfter (localHand : Bool) (d : Decision) : Control :=
  if localHand then .hand
  else match d.control with
    | .hand => if d.forced.isSome then .forced else .auto
    | .auto => .auto
    | .forced => .forced

/-- A change of control: the record, the drop where the unit leaves AUTO, in that order (R43, R115). -/
def State.setControl (u : UnitNo) (k : Control) (s : State) : State :=
  if (s.unit u).decision.control = .auto ∧ k ≠ .auto then (s.modDecision u fun d => { d with control := k }).drop u
  else s.modDecision u fun d => { d with control := k }

/-- The UNIT_HAND notice of an entry into or an exit from HAND (R43). -/
def State.postHand (u : UnitNo) (old new : Control) (s : State) : State :=
  if old ≠ .hand ∧ new = .hand then s.post 1 (.unit u) (.unitHand true)
  else if old = .hand ∧ new ≠ .hand then s.post 1 (.unit u) (.unitHand false)
  else s

/-- Step 1 of the READING event: control from LOCAL_HAND (R56). -/
def State.takeHand (u : UnitNo) (s : State) : State :=
  let x := s.unit u
  let k := controlAfter x.reading.flags.localHand x.decision
  if k = x.decision.control then s else (s.postHand u x.decision.control k).setControl u k

/-- The cause class of the evaluation of a READING (R56). -/
def readingClass (old new : Control) : CauseClass := if old = new then .automatic else .control

/-- The READING event at the ME (R56). -/
def State.takeReading (u : UnitNo) (s : State) : State :=
  let s1 := s.takeHand u
  ((s1.clearLate u).evaluate u (readingClass (s.unit u).decision.control (s1.unit u).decision.control)).resync u

/-- A committed READING: stored, its fault notice, then handed on to the ME and the RC (R5 to R8, R11). -/
def State.commit (u : UnitNo) (f : ReadingFrame) (s : State) : State :=
  let s1 := s.modUnit u fun x => { x with reading := commitReading f x.reading }
  ((s1.postFault u (s.unit u).reading.flags (s1.unit u).reading.flags).takeReading u).recount (s.unit u).cfg.riser

/-- A change of condition without a READING, handed on (R9, R10, R11, R56). -/
def State.changeCondition (u : UnitNo) (c : Condition) (s : State) : State :=
  (s.modUnit u fun x => { x with reading := { x.reading with condition := c } }).ownEvent u .automatic

/-! ## Station events (R12 to R15) -/

/-- The station's live part after a commit (R13). -/
def commitStation (tOa : Int) (wOa wind : Nat) : StationLive :=
  { air := some ⟨clampTemp tOa, clampRatio wOa, clampWind wind⟩, age := 0, status := .fresh
    clamped := clampTemp tOa != tOa || clampRatio wOa != wOa || clampWind wind != wind }

/-- The risers with a member mapped to the station, in ascending number (R15). -/
def State.mappedRisers (s : State) (st : StationNo) : List RiserNo :=
  (fins 6).filter fun r => (s.members r).any fun u => (s.unit u).cfg.station == st

/-- Recounts of several risers, one after another. -/
def State.recountAll (rs : List RiserNo) (s : State) : State := rs.foldl (fun s r => s.recount r) s

/-- Step 1 of a station event (R15). -/
def State.recomputeFor (st : StationNo) (s : State) : State :=
  if s.tower.reference = st then s.recompute else s

/-- A station event handed on (R15). -/
def State.stationEvent (st : StationNo) (s : State) : State :=
  ((s.recomputeFor st).evaluateAll (s.mappedUnits st) .automatic).recountAll (s.mappedRisers st)

/-- The station commit (R13). -/
def State.commitStation (st : StationNo) (tOa : Int) (wOa wind : Nat) (s : State) : State :=
  let s1 := s.modStation st fun x => { x with live := Machine.commitStation tOa wOa wind }
  (if (s.station st).live.status = .fresh then s1
   else s1.post 2 (.station st) (.stationStatus .fresh)).stationEvent st

/-- A station goes STALE (R14). -/
def State.staleStation (st : StationNo) (s : State) : State :=
  ((s.modStation st fun x => { x with live := { x.live with status := .stale } }).post 2 (.station st)
    (.stationStatus .stale)).stationEvent st

end Sys2Proof.Machine
end

