-- ==== Sys2Proof/Machine/FieldLink.lean ====
section
/-! DEFINITION. Machine/FieldLink.lean: the Field Link Controller (R126 to R147, R160 to R164): the arbiter and its
grants, the outcomes of transactions, and what each requester makes of its outcome. -/

namespace Sys2Proof.Machine

/-! ## Link work of a context (R105, R106) -/

/-- Whether the roll queries this participant (R106). -/
def Ctx.calls (c : Ctx) (p : Participant) : Bool :=
  match c.phase with
  | .rollReady => p.status == .pending
  | .rollDone => p.status != .done && p.status != .dropped
  | .callPending => false
  | .commitPending => false
  | .cancelPending => false
  | .returnPending => false

/-- The first participant the roll queries, counting places from `i`: its place and its unit. -/
def firstCaller (calls : Participant → Bool) : Nat → List Participant → Option (Nat × UnitNo)
  | _, [] => none
  | i, p :: l => if calls p then some (i, p.unit) else firstCaller calls (i + 1) l

/-- What a context asks the link for. A query carries the place of its participant on the list, counted from 1, and
whether it starts a pass. -/
inductive CtxWork where
  | broadcast
  | repair (p : Repair)
  | query (place : Nat) (u : UnitNo) (startsPass : Bool)
deriving DecidableEq, Repr

/-- The first query of a new pass (R106). -/
def Ctx.passQuery (c : Ctx) : Option CtxWork :=
  (firstCaller c.calls 1 c.participants).map fun x => .query x.1 x.2 true

/-- The query the roll has to make, if any (R106; assumption log 11). -/
def Ctx.rollWork (c : Ctx) : Option CtxWork :=
  match c.passStart with
  | none => c.passQuery
  | some st =>
    match firstCaller c.calls c.cursor (c.participants.drop (c.cursor - 1)) with
    | some x => some (.query x.1 x.2 false)
    | none => if st = .due then c.passQuery else none

/-- The work of a context: its pending broadcast, the head of its repairs, the query of its roll (R105). -/
def Ctx.work (c : Ctx) : Option CtxWork :=
  match c.phase with
  | .callPending => some .broadcast
  | .commitPending => some .broadcast
  | .cancelPending => some .broadcast
  | .returnPending => some .broadcast
  | .rollReady | .rollDone =>
    match c.repairs with
    | p :: _ => some (.repair p)
    | [] => c.rollWork

/-- Whether riser `r` has a context with work. -/
def State.ctxHasWork (s : State) (r : RiserNo) : Bool :=
  match s.ctx r with
  | none => false
  | some c => c.work.isSome

/-! ## The classes (R137 to R140) -/

/-- The four classes, in order of precedence (R137). -/
inductive LinkClass where
  | changeover | command | mail | poll
deriving DecidableEq, Repr

/-- The risers in the order of a CHANGEOVER search: up from the one after `last`, wrapping from 5 to 0 (R138). -/
def searchOrder (last : RiserNo) : List RiserNo := (fins 6).map fun i => last + 1 + i

/-- The riser whose context a CHANGEOVER grant serves (R138). -/
def State.nextRiser (s : State) : Option RiserNo := (searchOrder s.flc.lastServed).find? s.ctxHasWork

/-- Whether a unit qualifies in the current sweep (R140). -/
def State.qualifies (s : State) (u : UnitNo) : Bool :=
  (s.unit u).cfg.present && ((s.unit u).presence != .offline || s.flc.sweep.counter.toNat % 8 == 0)

/-- The unit the sweep polls next (R140). -/
def State.nextPoll (s : State) : Option UnitNo :=
  if s.flc.sweep.running then
    (fins 24).find? fun u => decide (s.flc.sweep.cursor ≤ u.val) && s.qualifies u
  else none

/-- Whether a class has work (R137). -/
def State.hasWork (s : State) (k : LinkClass) : Bool :=
  match k with
  | .changeover => s.nextRiser.isSome
  | .command => s.coordinate && !s.flc.commands.isEmpty
  | .mail => s.flc.mail.state == .posted
  | .poll => s.nextPoll.isSome

/-- The classes with work, highest first. -/
def State.workingClasses (s : State) : List LinkClass := [.changeover, .command, .mail, .poll].filter s.hasWork

/-- The class the arbiter grants (R137, R139). -/
def State.nextClass (s : State) : Option LinkClass :=
  if s.hasWork .poll ∧ s.flc.guarantee = 8 then some .poll else s.workingClasses.head?

/-- The guarantee count after a grant (R139). -/
def guaranteeAfter (pollWaits : Bool) (k : LinkClass) (count : Nat) : Nat :=
  if pollWaits && k != .poll then min 8 (count + 1) else 0

/-! ## Transactions begin (R128, R132) -/

/-- The frame goes on the line at this speed, and the link is BUSY (R128). -/
def State.beginTxn (frame : FieldFrame) (req : Requester) (unit : Option UnitNo) (speed : LinkSpeed) (s : State) : State :=
  s.modFlc fun f => { f with link := some { frame := frame, requester := req, unit := unit, speed := speed } }

/-- A unicast to a unit of the run, at the latched speed (R126). -/
def State.beginUnicast (frame : FieldFrame) (req : Requester) (u : UnitNo) (s : State) : State :=
  s.beginTxn frame req (some u) s.flc.latchedSpeed

/-- A context's broadcast (R132). -/
def State.beginBroadcast (frame : FieldFrame) (r : RiserNo) (s : State) : State :=
  s.beginTxn frame (.broadcast r) none s.flc.latchedSpeed

/-- The context and phase that send a query or repair (R105). -/
def Ctx.key (c : Ctx) (r : RiserNo) : CtxKey := ⟨r, c.direction, c.tag, c.phase⟩

/-- The field addresses of units, in the order given. -/
def State.addresses (s : State) (us : List UnitNo) : List Nat := us.map fun u => (s.unit u).cfg.address

/-- A roll begins: its window, the cursor at the first participant (R109, R112, R120). -/
def Ctx.rolling (c : Ctx) (ph : Phase) (window : Nat) (listed : List Nat) : Ctx :=
  { c with phase := ph, window := some window, cursor := 1, passStart := none, repairs := [], listed := listed }

/-- The units the ME moves at the sending of a commit: the READY ones (R112). -/
def Ctx.readyUnits (c : Ctx) : List UnitNo := (c.participants.filter fun p => p.status == .ready).map (·.unit)

/-- The remaining participants' units, in chain order. -/
def Ctx.remainingUnits (c : Ctx) : List UnitNo := c.remaining.map (·.unit)

/-- A context's broadcast is granted: it is sent at this moment, with the changes that go with it (R105, R109, R112,
R118, R120). -/
def State.grantBroadcast (r : RiserNo) (c : Ctx) (s : State) : State :=
  match c.phase with
  | .callPending =>
    (s.beginBroadcast (groupCallFrame groupAddress r c.tag (s.addresses c.units)) r).setCtx r
      (some (c.rolling .rollReady (s.riser r).cfg.readyWindow (s.addresses c.units)))
  | .commitPending =>
    c.readyUnits.foldl (State.setGroupMode .freeCool)
      ((s.beginBroadcast (groupCommitFrame groupAddress r c.tag) r).setCtx r
        (some (c.rolling .rollDone (s.riser r).cfg.doneWindow c.listed)))
  | .cancelPending => (s.beginBroadcast (groupCancelFrame r c.tag) r).cancelComplete r c
  | .returnPending =>
    c.remainingUnits.foldl (State.setGroupMode .bypass)
      ((s.beginBroadcast (groupReturnFrame groupAddress r c.tag (s.addresses c.remainingUnits)) r).setCtx r
        (some (c.rolling .rollDone (s.riser r).cfg.doneWindow (s.addresses c.remainingUnits))))
  | .rollReady => s
  | .rollDone => s

/-- The unicast copy a repair sends: the same body as the broadcast it copies (R107, R184). -/
def repairFrame (address : Nat) (r : RiserNo) (c : Ctx) : RepairKind → FieldFrame
  | .call => groupCallFrame (byteOf address) r c.tag c.listed
  | .commit => groupCommitFrame (byteOf address) r c.tag
  | .giveBack => groupReturnFrame (byteOf address) r c.tag c.listed

/-- A context's work is granted (R105, R106, R107). -/
def State.grantCtx (r : RiserNo) (c : Ctx) (w : CtxWork) (s : State) : State :=
  match w with
  | .broadcast => s.grantBroadcast r c
  | .repair p =>
    s.beginUnicast (repairFrame (s.unit p.unit).cfg.address r c p.kind) (.repair (c.key r)) p.unit
  | .query place u startsPass =>
    (s.beginUnicast (groupQueryFrame (s.unit u).cfg.address r c.tag) (.query (c.key r)) u).setCtx r
      (some { c with cursor := place + 1, passStart := if startsPass then some .recent else c.passStart })

/-- CHANGEOVER is granted: the round robin moves to the riser served (R138). -/
def State.grantChangeover (s : State) : State :=
  match s.nextRiser with
  | none => s
  | some r =>
    match s.ctx r with
    | none => s
    | some c =>
      match c.work with
      | none => s
      | some w => (s.modFlc fun f => { f with lastServed := r }).grantCtx r c w

/-- COMMAND is granted: SET_MODE for the head entry (R143). -/
def State.grantCommand (s : State) : State :=
  match s.flc.commands with
  | [] => s
  | e :: _ => s.beginUnicast (setModeFrame (s.unit e.unit).cfg.address e.content) (.command e.content) e.unit

/-- MAIL is granted: the slot becomes SENT and its attempts increase (R162). -/
def State.grantMail (s : State) : State :=
  match s.flc.mail.unit, s.flc.mail.mail with
  | some u, some m =>
    (s.beginUnicast (mailFrame (s.unit u).cfg.address m) (.mail s.flc.postNumber) u).modFlc fun f =>
      { f with mail := { f.mail with state := .sent, attempts := f.mail.attempts + 1 } }
  | _, _ => s

/-- POLL is granted: the cursor moves past the unit (R140). -/
def State.grantPoll (s : State) : State :=
  match s.nextPoll with
  | none => s
  | some u =>
    (s.beginUnicast (pollFrame (s.unit u).cfg.address) .sweep u).modFlc fun f =>
      { f with sweep := { f.sweep with cursor := u.val + 1 } }

/-- The work of a class is granted the link. -/
def State.grantClass (k : LinkClass) (s : State) : State :=
  match k with
  | .changeover => s.grantChangeover
  | .command => s.grantCommand
  | .mail => s.grantMail
  | .poll => s.grantPoll

/-- One grant: the guarantee count, then the class's work (R139). -/
def State.grant (k : LinkClass) (s : State) : State :=
  (s.modFlc fun f => { f with guarantee := guaranteeAfter (s.hasWork .poll) k f.guarantee }).grantClass k

/-- The owed RELEASE is sent, at the speed it is owed at (R145). -/
def State.sendRelease (v : LinkSpeed) (s : State) : State :=
  (s.modFlc fun f => { f with releaseOwed := none }).beginTxn releaseFrame .releaseAll none v

/-- The grant made at the end of a transaction: an owed RELEASE first, then by precedence (R137, R145). -/
def State.grantNext (s : State) : State :=
  if s.flc.link.isSome then s
  else match s.flc.releaseOwed with
    | some v => s.sendRelease v
    | none =>
      if s.running then
        match s.nextClass with
        | none => s
        | some k => s.grant k
      else s

/-- The class taken where work of several classes appears at one moment with the link IDLE (R137): a free choice among
those with work (assumption log 6). -/
def chosenClass (choice : Nat) (l : List LinkClass) : Option LinkClass := l[choice % l.length]?

/-- The grant made where work appears with the link IDLE (R137; assumption logs 5, 6 and 7). -/
def State.grantOnWork (s : State) : State :=
  if s.flc.link.isNone ∧ s.flc.releaseOwed = none ∧ s.running = true ∧ 2 ≤ s.workingClasses.length then
    match chosenClass (Config.arbiterChoice s.choices) s.workingClasses with
    | none => s
    | some k => State.grant k { s with choices := s.choices + 1 }
  else s.grantNext

/-! ## What requesters make of outcomes -/

/-- A received reply, or none (R129, R131). -/
inductive FieldOutcome where
  | reading (f : ReadingFrame)
  | ack
  | nak (reason : NakReason)
  | phase (tag token : Byte)
  | mailReply (bytes : List Byte)
  | missed
deriving DecidableEq, Repr

/-- The PHASE tokens (R184). -/
inductive Token where
  | idle | preparing | ready | refuse | moving | done
deriving DecidableEq, Repr

/-- The token of a code in 0..5; a PHASE with another code counts as a reply of another kind (R184). -/
def tokenOfCode (c : Byte) : Option Token :=
  if c = 0 then some .idle else if c = 1 then some .preparing else if c = 2 then some .ready
  else if c = 3 then some .refuse else if c = 4 then some .moving else if c = 5 then some .done else none

/-- What a roll does with a PHASE reply. -/
inductive RollAction where
  | nothing
  | becomes (st : PartStatus)
  | refused
  | repair (k : RepairKind)
deriving DecidableEq, Repr

/-- The table of R110. -/
def readyRollAction (sameTag : Bool) : Token → RollAction
  | .ready => if sameTag then .becomes .ready else .repair .call
  | .preparing => if sameTag then .nothing else .repair .call
  | .refuse => if sameTag then .refused else .repair .call
  | .idle => .repair .call
  | .moving => .repair .call
  | .done => .repair .call

/-- The table of R113. -/
def enterDoneAction (sameTag : Bool) : Token → RollAction
  | .done => if sameTag then .becomes .done else .nothing
  | .moving => .nothing
  | .ready => if sameTag then .repair .commit else .nothing
  | .preparing => if sameTag then .repair .commit else .nothing
  | .idle => if sameTag then .repair .commit else .nothing
  | .refuse => .nothing

/-- The rule of R121. -/
def leaveDoneAction (sameTag : Bool) : Token → RollAction
  | .done => if sameTag then .becomes .done else .repair .giveBack
  | .moving => if sameTag then .nothing else .repair .giveBack
  | .ready => .repair .giveBack
  | .preparing => .repair .giveBack
  | .idle => .repair .giveBack
  | .refuse => .repair .giveBack

/-- The roll's action by direction and phase. -/
def Ctx.action (c : Ctx) (tag : Byte) (t : Token) : RollAction :=
  match c.phase with
  | .rollReady => readyRollAction (tag == c.tag) t
  | .rollDone =>
    match c.direction with
    | .enter => enterDoneAction (tag == c.tag) t
    | .leave => leaveDoneAction (tag == c.tag) t
  | .callPending => .nothing
  | .commitPending => .nothing
  | .cancelPending => .nothing
  | .returnPending => .nothing

/-- A repair is queued at the tail, unless the participant has one queued (R107). -/
def Ctx.queueRepair (c : Ctx) (u : UnitNo) (k : RepairKind) : Ctx :=
  if c.repairs.any fun p => p.unit == u then c else { c with repairs := c.repairs ++ [⟨u, k⟩] }

/-- The context that still is in the phase that sent a query or repair (R105). -/
def State.keyCtx (key : CtxKey) (s : State) : Option Ctx :=
  match s.ctx key.riser with
  | none => none
  | some c => if c.key key.riser = key then some c else none

/-- A roll takes a PHASE reply about unit `u` (R110, R113, R121). -/
def State.rollTakes (r : RiserNo) (c : Ctx) (u : UnitNo) (a : RollAction) (s : State) : State :=
  match a with
  | .nothing => s
  | .becomes st => (s.setCtx r (some (c.withStatus u st))).rollTest r (c.withStatus u st)
  | .refused => (s.setCtx r (some (c.withStatus u .refused))).ceCancel r (c.withStatus u .refused) .refused
  | .repair k => s.setCtx r (some (c.queueRepair u k))

/-- The outcome of a query, for the context and phase that sent it and a participant it still calls (R105, R106). -/
def State.queryOutcome (key : CtxKey) (u : UnitNo) (o : FieldOutcome) (s : State) : State :=
  match s.keyCtx key, o with
  | some c, .phase tag token =>
    match tokenOfCode token with
    | none => s
    | some t =>
      if c.participants.any fun p => p.unit == u && c.calls p then s.rollTakes key.riser c u (c.action tag t) else s
  | _, _ => s

/-- The outcome of a repair: it is removed, whatever the outcome (R107). -/
def State.repairOutcome (key : CtxKey) (u : UnitNo) (s : State) : State :=
  match s.keyCtx key with
  | none => s
  | some c => s.setCtx key.riser (some { c with repairs := c.repairs.filter fun p => p.unit != u })

/-- The entry of a unit goes behind every other command (R143). -/
def moveToTail (u : UnitNo) (l : List CmdEntry) : List CmdEntry :=
  l.filter (fun e => e.unit != u) ++ l.filter fun e => e.unit == u

/-- The outcome of a SET_MODE that carried `sent` (R143). -/
def State.commandOutcome (u : UnitNo) (sent : ModeSpeed) (o : FieldOutcome) (s : State) : State :=
  match o with
  | .ack =>
    (s.modDecision u fun d => { d with acknowledged := some sent }).modFlc fun f =>
      { f with commands := f.commands.filter fun e => e != ⟨u, sent⟩ }
  | .nak reason =>
    (s.modFlc fun f => { f with commands := f.commands.filter fun e => e.unit != u }).post 2 (.unit u)
      (.commandRefused reason)
  | .reading _ | .phase _ _ | .mailReply _ | .missed => s.modFlc fun f => { f with commands := moveToTail u f.commands }

/-- An attempt without a reply (R163). -/
def State.mailNoReply (u : UnitNo) (s : State) : State :=
  if s.flc.mail.attempts < 3 then s.modFlc fun f => { f with mail := { f.mail with state := .posted } }
  else
    (s.modFlc fun f => { f with mail := { f.mail with state := .failed, reason := some .noReply } }).post 1 (.unit u)
      (.mailDone (some .noReply) s.flc.mail.attempts)

/-- The outcome of a MAIL transaction that carried this post number (R162, R163). -/
def State.mailOutcome (post : Byte) (u : UnitNo) (o : FieldOutcome) (s : State) : State :=
  if s.flc.mail.state = .sent ∧ s.flc.postNumber = post then
    match o with
    | .mailReply bytes =>
      (s.modFlc fun f => { f with mail := { f.mail with state := .answered, reply := some bytes } }).post 1 (.unit u)
        (.mailDone none s.flc.mail.attempts)
    | .reading _ | .ack | .nak _ | .phase _ _ | .missed => s.mailNoReply u
  else s

/-- An outcome is handed to its requester (R134, R141, R143, R162, R105). -/
def State.handOutcome (req : Requester) (u : UnitNo) (o : FieldOutcome) (s : State) : State :=
  match req with
  | .sweep =>
    match o with
    | .reading f => s.commit u f
    | .ack | .nak _ | .phase _ _ | .mailReply _ | .missed => s
  | .command content => s.commandOutcome u content o
  | .mail post => s.mailOutcome post u o
  | .query key => s.queryOutcome key u o
  | .repair key => s.repairOutcome key u
  | .broadcast _ => s
  | .releaseAll => s

/-! ## Presence (R134 to R136, R164) -/

/-- Step 4 of R135 (R164). -/
def State.failMail (u : UnitNo) (s : State) : State :=
  if (s.flc.mail.state = .posted ∨ s.flc.mail.state = .sent) ∧ s.flc.mail.unit = some u then
    (s.modFlc fun f => { f with mail := { f.mail with state := .failed, reason := some .offline } }).post 1 (.unit u)
      (.mailDone (some .offline) s.flc.mail.attempts)
  else s

/-- A unit goes OFFLINE (R135, R10). -/
def State.goOffline (u : UnitNo) (s : State) : State :=
  ((((((s.modUnit u fun x => { x with presence := .offline }).post 2 (.unit u) (.unitPresence .offline)).modFlc fun f =>
    { f with commands := f.commands.filter fun e => e.unit != u }).drop u).failMail u).changeCondition u .none)

/-- The outcome MISSED at the unit and then at the requester (R134). -/
def State.takeMiss (t : Txn) (u : UnitNo) (s : State) : State :=
  let n := min (s.unit u).cfg.missLimit ((s.unit u).misses + 1)
  let s1 := s.modUnit u fun x => { x with misses := n }
  if (s.unit u).presence ≠ .offline ∧ n = (s.unit u).cfg.missLimit then s1.goOffline u
  else s1.handOutcome t.requester u .missed

/-- A unit becomes ONLINE (R136). -/
def State.goOnline (u : UnitNo) (s : State) : State :=
  (s.modUnit u fun x => { x with presence := .online }).post 2 (.unit u) (.unitPresence .online)

/-- Whether an outcome is a READING. -/
def FieldOutcome.isReading : FieldOutcome → Bool
  | .reading _ => true
  | .ack => false
  | .nak _ => false
  | .phase _ _ => false
  | .mailReply _ => false
  | .missed => false

/-- The outcome ANSWERED at the unit and then at the requester; a unit made ONLINE by anything but a READING to the
sweep is handed to the RC for a recount (R134, R136). -/
def State.takeAnswer (t : Txn) (u : UnitNo) (o : FieldOutcome) (s : State) : State :=
  let s1 := s.modUnit u fun x => { x with misses := 0 }
  if (s.unit u).presence = .online then s1.handOutcome t.requester u o
  else
    let s2 := (s1.goOnline u).handOutcome t.requester u o
    if t.requester = .sweep ∧ o.isReading = true then s2 else s2.recount (s.unit u).cfg.riser

/-! ## Transactions end (R128, R145) -/

/-- The link becomes IDLE. -/
def State.endTxn (s : State) : State := s.modFlc fun f => { f with link := none }

/-- The outcome of the transaction in progress is taken, an unheeded one acting on nothing (R145); the link becomes
IDLE and the next grant is made (R128). -/
def State.finishTxn (t : Txn) (u : UnitNo) (o : FieldOutcome) (s : State) : State :=
  (if t.heeded then (if o = .missed then s.takeMiss t u else s.takeAnswer t u o) else s).endTxn.grantNext

/-- A reply from the addressed unit, or the lack of one, while a reply window is open (R129, R131). -/
def State.fieldOutcome (o : FieldOutcome) (s : State) : State :=
  match s.flc.link with
  | none => s
  | some t =>
    match t.unit, t.stage with
    | some u, .window _ => s.finishTxn t u o
    | _, _ => s

/-- A check failure: FIELD_CHECK, and the outcome MISSED (R131; assumption log 25). -/
def State.checkFailure (s : State) : State :=
  match s.flc.link with
  | none => s
  | some t =>
    match t.unit, t.stage with
    | some u, .window _ => (s.modNq fun q => { q with fieldCheck := true }).finishTxn t u .missed
    | _, _ => s

end Sys2Proof.Machine
end

