-- ==== Sys2Proof/Machine/FieldCommands.lean ====
section
/-! DEFINITION. Machine/FieldCommands.lean: what arrives on the field link and the link's own timers (R129 to R132). -/

namespace Sys2Proof.Machine

/-- The record of the transaction in progress is replaced. -/
def State.setTxn (t : Txn) (s : State) : State := s.modFlc fun f => { f with link := some t }

/-- The reply window of the addressed unit, or the quiet gap of a broadcast (R129, R132). -/
def State.stageAfterSending (s : State) : Option UnitNo → TxnStage
  | none => .quietGap
  | some u => .window (s.unit u).cfg.replyWindow

/-- The last byte of the frame has left: the reply window opens, or the quiet gap runs (R129, R132). -/
def State.requestSent (s : State) : State :=
  match s.flc.link with
  | none => s
  | some t =>
    if t.stage = .sending then s.setTxn { t with stage := s.stageAfterSending t.unit } else s

/-- FIELD_REQUEST_SENT (R129). -/
def execFieldRequestSent (s : State) : Host.Outcome State Fault Refusal := .next (s.whileAlive State.requestSent)

/-- REPLY_WINDOW_EXPIRY: the outcome MISSED (R131). -/
def execReplyWindowExpiry (s : State) : Host.Outcome State Fault Refusal :=
  .next (s.whileAlive (State.fieldOutcome .missed))

/-- FIELD_INTER_BYTE_GAP: the partial frame is a check failure (R129, R131; assumption log 19). -/
def execFieldInterByteGap (s : State) : Host.Outcome State Fault Refusal := .next (s.whileAlive State.checkFailure)

/-- FIELD_CHECK_FAILURE (R131). -/
def execFieldCheckFailure (s : State) : Host.Outcome State Fault Refusal := .next (s.whileAlive State.checkFailure)

/-- The end of a broadcast, its last byte having left and the quiet gap having passed: the outcome SENT, the link IDLE,
the next grant (R132, R145). -/
def State.broadcastEnds (s : State) : State :=
  match s.flc.link with
  | none => s
  | some t => if t.unit = none ∧ t.stage = .quietGap then s.endTxn.grantNext else s

/-- BROADCAST_QUIET_GAP_END (R132). -/
def execBroadcastQuietGapEnd (s : State) : Host.Outcome State Fault Refusal := .next (s.whileAlive State.broadcastEnds)

/-- READING_RECEIVED (R129, R141). -/
def execReadingReceived (tRa wRa : Word) (mode flags : Byte) (s : State) : Host.Outcome State Fault Refusal :=
  .next (s.whileAlive (State.fieldOutcome (.reading ⟨tRa, wRa, mode, flags⟩)))

/-- ACK_RECEIVED (R129, R143). -/
def execAckReceived (s : State) : Host.Outcome State Fault Refusal := .next (s.whileAlive (State.fieldOutcome .ack))

/-- NAK_RECEIVED; a reason code that is none of the three is BAD_MODE (R143, R184). -/
def execNakReceived (reason : Byte) (s : State) : Host.Outcome State Fault Refusal :=
  .next (s.whileAlive (State.fieldOutcome (.nak (nakOfCode reason))))

/-- A DEFER from the addressed unit: the window starts again, or the transaction ends MISSED (R130). -/
def State.defer (s : State) : State :=
  match s.flc.link with
  | none => s
  | some t =>
    match t.unit, t.stage with
    | some u, .window _ =>
      if t.deferCount + 1 ≤ (s.unit u).cfg.deferLimit then
        s.setTxn { t with deferCount := t.deferCount + 1, stage := .window (s.unit u).cfg.replyWindow }
      else s.finishTxn { t with deferCount := t.deferCount + 1 } u .missed
    | _, _ => s

/-- DEFER_RECEIVED (R130). -/
def execDeferReceived (s : State) : Host.Outcome State Fault Refusal := .next (s.whileAlive State.defer)

/-- PHASE_RECEIVED (R110, R113, R121). -/
def execPhaseReceived (tag token : Byte) (s : State) : Host.Outcome State Fault Refusal :=
  .next (s.whileAlive (State.fieldOutcome (.phase tag token)))

/-- MAIL_REPLY_RECEIVED; with another body length it is a check failure (R127, R163; assumption log 18). -/
def execMailReplyReceived (bytes : List Byte) (s : State) : Host.Outcome State Fault Refusal :=
  .next (s.whileAlive (if replyFits 0x46 bytes.length then State.fieldOutcome (.mailReply bytes) else State.checkFailure))

/-- A frame for another address: where it is well formed it is discarded, and the window goes on running; otherwise its
address cannot be trusted, and it is a check failure of the transaction in progress (R127, R129, R131). -/
def State.foreignFrame (bytes : List Byte) (s : State) : State :=
  match receivedFrame bytes with
  | none => s.checkFailure
  | some _ => s

/-- FOREIGN_ADDRESS_FRAME (R129, R131; assumption log 18). -/
def execForeignAddressFrame (bytes : List Byte) (s : State) : Host.Outcome State Fault Refusal :=
  .next (s.whileAlive (State.foreignFrame bytes))

/-! ## The commands that received bytes are (R127, R129, R184, R185) -/

/-- The command that a well-formed reply of the addressed unit is, by its kind and body. -/
def replyCommand (kind : Byte) (body : List Byte) : Instr :=
  if kind = 0x41 then
    match body with
    | [t1, t2, w1, w2, mode, flags] => .readingReceived (wordOf t1 t2) (wordOf w1 w2) mode flags
    | _ => .fieldCheckFailure
  else if kind = 0x42 then .ackReceived
  else if kind = 0x43 then
    match body with
    | [reason] => .nakReceived reason
    | _ => .fieldCheckFailure
  else if kind = 0x44 then .deferReceived
  else if kind = 0x45 then
    match body with
    | [tag, token] => .phaseReceived tag token
    | _ => .fieldCheckFailure
  else if kind = 0x46 then .mailReplyReceived body
  else .fieldCheckFailure

/-- The command that the bytes of a received field frame are while a unicast transaction addresses the unit with this
field address: a check failure, a frame for another address, or a reply of the addressed unit (R129; assumption log
26). -/
def fieldCommand (addressed : Byte) (bytes : List Byte) : Instr :=
  match receivedFrame bytes with
  | none => .fieldCheckFailure
  | some f => if f.address = addressed then replyCommand f.kind f.body else .foreignAddressFrame bytes

end Sys2Proof.Machine
end

