-- ==== Sys2Proof/Machine/Lines.lean ====
section
/-! DEFINITION. Machine/Lines.lean: the Line Unit's inputs (R148 to R155). -/

namespace Sys2Proof.Machine

/-- The pin of a line takes a level. -/
def State.setPin (l : LineNo) (high : Bool) (s : State) : State :=
  { s with lu := { s.lu with pins := updTable s.lu.pins l fun _ => high } }

/-- The filter after a pin change: started, running on, or stopped (R150). -/
def filterAfter (x : LineRec) (showsActive : Bool) : Option Nat :=
  if showsActive = x.level then none
  else match x.filterRemaining with
    | some n => some n
    | none => some x.cfg.filter

/-- An input line reads its pin (R150). -/
def State.readPin (l : LineNo) (s : State) : State :=
  if (s.line l).cfg.role.isInput then
    s.modLine l fun x => { x with filterRemaining := filterAfter x (s.pinShowsActive l) }
  else s

/-- LINE_PIN_CHANGE (R150). While RESETn is held low the level at the pin is all that changes (R182). -/
def execLinePinChange (line : LineNo) (high : Bool) (s : State) : Host.Outcome State Fault Refusal :=
  .next ((s.setPin line high).whileAlive (State.readPin line))

/-- The level of a LINE_EDGE notice (R151). -/
def edgeLevel : Role → Nat
  | .inWind => 1
  | .inFreeze => 3
  | .inEmergency => 3
  | .none => 0
  | .outFault => 0
  | .outFree => 0

/-- The effects of an edge of a role while running; `was` and `is` are the role levels before and after it
(R151 to R155). -/
def State.edgeEffect (role : Role) (was is : Bool) (s : State) : State :=
  match role with
  | .inWind => s.recompute
  | .inFreeze => if was = is then s else if is then s.freezeOn else s.freezeOff
  | .inEmergency => if was = is then s else if is then s.emergencyOn else s.emergencyOff
  | .none => s
  | .outFault => s
  | .outFree => s

/-- The accepted level takes the pin's level, and the filter is absent (R150). -/
def State.acceptLevel (l : LineNo) (s : State) : State :=
  s.modLine l fun x => { x with level := s.pinShowsActive l, filterRemaining := none }

/-- An edge: the level, its notice, and its effects while running (R150, R151). -/
def State.edge (l : LineNo) (s : State) : State :=
  let role := (s.line l).cfg.role
  let s1 := (s.acceptLevel l).post (edgeLevel role) (.line l) (.lineEdge role (s.pinShowsActive l))
  if s1.running then (s1.edgeEffect role (s.roleActive role) (s1.roleActive role)).grantOnWork else s1

/-- Whether a filter is running on an input line toward the level its pin shows. -/
def State.filterRuns (s : State) (l : LineNo) : Bool :=
  (s.line l).cfg.role.isInput && (s.line l).filterRemaining.isSome && s.pinShowsActive l != (s.line l).level

/-- LINE_FILTER_EXPIRY (R150, R151). -/
def execLineFilterExpiry (line : LineNo) (s : State) : Host.Outcome State Fault Refusal :=
  .next (s.whileAlive fun s => if s.filterRuns line then s.edge line else s)

end Sys2Proof.Machine
end

