-- ==== Sys2Proof/Machine/RunTimeRequests.lean ====
section
/-! DEFINITION. Machine/RunTimeRequests.lean: the requests that act on a run (R12, R44, R45, R78). -/

namespace Sys2Proof.Machine

/-- The present unit a byte names. -/
def State.namedUnit (s : State) (b : Byte) : Option UnitNo :=
  (numbered 24 b.toNat).filter fun u => (s.unit u).cfg.present

/-- The present riser a byte names. -/
def State.namedRiser (s : State) (b : Byte) : Option RiserNo :=
  (numbered 6 b.toNat).filter fun r => (s.riser r).cfg.present

/-- The present station a byte names. -/
def State.namedStation (s : State) (b : Byte) : Option StationNo :=
  (numbered 8 b.toNat).filter fun st => (s.station st).cfg.present

/-! ## STATION_READING (R12, R13) -/

/-- The ACCEPT items of STATION_READING: the three clamp indications, and the status after the commit (R12). -/
def State.stationAccept (s : State) (st : StationNo) (tOa : Int) (wOa wind : Nat) : Reply :=
  .accept [flagByte (clampTemp tOa != tOa), flagByte (clampRatio wOa != wOa), flagByte (clampWind wind != wind),
    stationStatusCode (s.station st).live.status]

/-- What STATION_READING does and answers (R12). -/
def State.takeStation (body : List Byte) (s : State) : State × Reply :=
  match body with
  | [n, t1, t2, w1, w2, v1, v2] =>
    match s.namedStation n with
    | none => (s, .refuse .noSuchItem n)
    | some st =>
      let s1 := (s.commitStation st (wordOf t1 t2).toInt (wordOf w1 w2).toNat (wordOf v1 v2).toNat).grantOnWork
      (s1, s1.stationAccept st (wordOf t1 t2).toInt (wordOf w1 w2).toNat (wordOf v1 v2).toNat)
  | _ => (s, .refuse .frameLength (byteOf body.length))

/-- STATION_READING (R12). -/
def execStationReading (tag : Byte) (body : List Byte) (s : State) : Host.Outcome State Fault Refusal :=
  .next (s.request .stationReading tag body (State.takeStation body))

/-! ## SET_SETPOINT (R45) -/

/-- The setpoint range (R45). -/
def clampSetpoint (t : Int) : Int := clamp 1000 3000 t

/-- T_sp is written (R45). -/
def State.writeSetpoint (u : UnitNo) (t : Int) (s : State) : State :=
  s.modUnit u fun x => { x with cfg := { x.cfg with tSp := clampSetpoint t } }

/-- While running the request is also an evaluation event (R45). -/
def State.evaluateSetpoint (u : UnitNo) (s : State) : State :=
  if s.running then (s.ownEvent u .automatic).grantOnWork else s

/-- What SET_SETPOINT does and answers (R45). -/
def State.takeSetpoint (body : List Byte) (s : State) : State × Reply :=
  match body with
  | [n, t1, t2] =>
    match s.namedUnit n with
    | none => (s, .refuse .noSuchItem n)
    | some u =>
      ((s.writeSetpoint u (wordOf t1 t2).toInt).evaluateSetpoint u,
        .accept (num16 (clampSetpoint (wordOf t1 t2).toInt)
          ++ [flagByte (clampSetpoint (wordOf t1 t2).toInt != (wordOf t1 t2).toInt)]))
  | _ => (s, .refuse .frameLength (byteOf body.length))

/-- SET_SETPOINT (R45). -/
def execSetSetpoint (tag : Byte) (body : List Byte) (s : State) : Host.Outcome State Fault Refusal :=
  .next (s.request .setSetpoint tag body (State.takeSetpoint body))

/-! ## SET_OVERRIDE (R44) -/

/-- The forced speed for RECOVER_HEAT, clamped to the unit's S_min..100 (R44). -/
def clampForced (c : UnitCfg) (speed : Byte) : Nat := min 100 (max c.sMin speed.toNat)

/-- The mode and speed an override records (R44, R35). -/
def overrideValue (c : UnitCfg) (m : Mode) (speed : Byte) : ModeSpeed :=
  match m with
  | .recoverHeat => ⟨.recoverHeat, clampForced c speed⟩
  | .recoverCool => ⟨.recoverCool, 100⟩
  | .bypass => ⟨.bypass, 0⟩
  | .freeCool => ⟨.freeCool, 0⟩
  | .defrost => ⟨.defrost, c.defrostSpeed⟩
  | .safe => ⟨.safe, 0⟩

/-- Whether the speed of an override was clamped (R44). -/
def overrideClamped (c : UnitCfg) (m : Option Mode) (speed : Byte) : Bool :=
  m == some .recoverHeat && clampForced c speed != speed.toNat

/-- The control after a SET_OVERRIDE (R43). -/
def controlForced (k : Control) (forced : Bool) : Control :=
  match k with
  | .hand => .hand
  | .auto => if forced then .forced else .auto
  | .forced => if forced then .forced else .auto

/-- The override recorded, the control changed, and the unit evaluated where anything changed (R44, R115). -/
def State.applyOverride (u : UnitNo) (m : Option ModeSpeed) (s : State) : State :=
  let d := (s.unit u).decision
  if d.forced = m ∧ d.control = controlForced d.control m.isSome then s
  else
    ((s.modDecision u fun d => { d with forced := m }).setControl u (controlForced d.control m.isSome)).ownEvent u .control

/-- The ACCEPT items of SET_OVERRIDE (R44). -/
def State.overrideAccept (s : State) (u : UnitNo) (clamped : Bool) : Reply :=
  .accept (controlCode (s.unit u).decision.control :: optItem (fun m => modeSpeedItem (some m)) (s.unit u).decision.forced
    ++ flagByte clamped :: modeSpeedItem (s.unit u).decision.commanded)

/-- What SET_OVERRIDE does and answers (R44). -/
def State.takeOverride (body : List Byte) (s : State) : State × Reply :=
  match body with
  | [n, code, speed] =>
    match s.namedUnit n with
    | none => (s, .refuse .noSuchItem n)
    | some u =>
      if 6 < code.toNat then (s, .refuse .outOfRange 2)
      else if code = 4 then (s, .refuse .notPermitted code)
      else
        let m := (modeOfCode code).map fun m => overrideValue (s.unit u).cfg m speed
        let s1 := (s.applyOverride u m).grantOnWork
        (s1, s1.overrideAccept u (overrideClamped (s.unit u).cfg (modeOfCode code) speed))
  | _ => (s, .refuse .frameLength (byteOf body.length))

/-- SET_OVERRIDE (R44). -/
def execSetOverride (tag : Byte) (body : List Byte) (s : State) : Host.Outcome State Fault Refusal :=
  .next (s.request .setOverride tag body (State.takeOverride body))

/-! ## LOCK_RISER (R78) -/

/-- LOCK_RISER on (R78). -/
def State.lockOn (r : RiserNo) (s : State) : State :=
  if (s.riser r).live.locked then s
  else (s.modLive r fun l => { l with locked := true }).withdraw r .locked true

/-- LOCK_RISER off (R78). -/
def State.lockOff (r : RiserNo) (s : State) : State :=
  (s.modLive r fun l => { l with locked := false }).joinIfIndividual r

/-- The ACCEPT items of LOCK_RISER (R78). -/
def State.lockAccept (s : State) (r : RiserNo) : Reply :=
  .accept [flagByte (s.riser r).live.locked, riserStateCode (s.riser r).live.state, causeCode (s.riser r).live.lastExit]

/-- What LOCK_RISER does and answers (R78). -/
def State.takeLock (body : List Byte) (s : State) : State × Reply :=
  match body with
  | [n, v] =>
    match s.namedRiser n with
    | none => (s, .refuse .noSuchItem n)
    | some r =>
      if 1 < v.toNat then (s, .refuse .outOfRange 2)
      else
        let s1 := (if v = 1 then s.lockOn r else s.lockOff r).grantOnWork
        (s1, s1.lockAccept r)
  | _ => (s, .refuse .frameLength (byteOf body.length))

/-- LOCK_RISER (R78). -/
def execLockRiser (tag : Byte) (body : List Byte) (s : State) : Host.Outcome State Fault Refusal :=
  .next (s.request .lockRiser tag body (State.takeLock body))

end Sys2Proof.Machine
end

