-- ==== Sys2Proof/Machine/MailRequests.lean ====
section
/-! DEFINITION. Machine/MailRequests.lean: the requests of the mail slot (R161, R165, R166). -/

namespace Sys2Proof.Machine

/-- The unit the slot holds, as a detail byte (R161, R165). -/
def MailSlot.unitByte (m : MailSlot) : Byte :=
  match m.unit with
  | none => 0
  | some u => byteOf u.val

/-- An accepted post: the post number advances and the slot holds the mail (R161). -/
def State.postMail (u : UnitNo) (mail : List Byte) (s : State) : State :=
  s.modFlc fun f =>
    { f with postNumber := f.postNumber + 1, mail := { state := .posted, unit := some u, mail := some mail } }

/-- What POST_MAIL does and answers (R161). -/
def State.takePost (body : List Byte) (s : State) : State × Reply :=
  match body with
  | [] => (s, .refuse .frameLength 0)
  | n :: mail =>
    match s.namedUnit n with
    | none => (s, .refuse .noSuchItem n)
    | some u =>
      if s.flc.mail.state ≠ .idle then (s, .refuse .busy s.flc.mail.unitByte)
      else if (s.unit u).presence ≠ .online then (s, .refuse .unitOffline n)
      else
        ((s.postMail u mail).grantOnWork, .accept [n, byteOf mail.length, s.flc.postNumber + 1])

/-- POST_MAIL (R161). -/
def execPostMail (tag : Byte) (body : List Byte) (s : State) : Host.Outcome State Fault Refusal :=
  .next (s.request .postMail tag body (State.takePost body))

/-- The slot cleared; the post number is kept (R165, R166). -/
def State.clearMail (s : State) : State := s.modFlc fun f => { f with mail := {} }

/-- The items a take returns before its result (R165). -/
def State.mailHead (s : State) : List Byte :=
  [s.flc.mail.unitByte, s.flc.postNumber, byteOf s.flc.mail.attempts, mailStateCode s.flc.mail.state]

/-- The reply bytes held; present in ANSWERED alone (R160). -/
def MailSlot.replyBytes (m : MailSlot) : List Byte :=
  match m.reply with
  | none => []
  | some l => l

/-- The failure reason held, as its code; present in FAILED alone (R160). -/
def MailSlot.reasonByte (m : MailSlot) : Byte :=
  match m.reason with
  | none => 0
  | some f => mailFailureCode f

/-- What TAKE_MAIL does and answers (R165). -/
def State.takeMail (s : State) : State × Reply :=
  match s.flc.mail.state with
  | .answered => (s.clearMail, .accept (s.mailHead ++ listItem (fun b => [b]) s.flc.mail.replyBytes))
  | .failed => (s.clearMail, .accept (s.mailHead ++ [s.flc.mail.reasonByte]))
  | .posted => (s, .refuse .busy s.flc.mail.unitByte)
  | .sent => (s, .refuse .busy s.flc.mail.unitByte)
  | .idle => (s, .refuse .wrongState (opStateCode s.slp.opState))

/-- TAKE_MAIL (R165). -/
def execTakeMail (tag : Byte) (body : List Byte) (s : State) : Host.Outcome State Fault Refusal :=
  .next (s.request .takeMail tag body State.takeMail)

/-- CANCEL_MAIL (R166). -/
def execCancelMail (tag : Byte) (body : List Byte) (s : State) : Host.Outcome State Fault Refusal :=
  .next (s.request .cancelMail tag body fun s => (s.clearMail, .accept [mailStateCode s.flc.mail.state]))

end Sys2Proof.Machine
end

