-- ==== Sys2Proof/Machine/NoticeRequests.lean ====
section
/-! DEFINITION. Machine/NoticeRequests.lean: the requests of the Notice Queue (R191 to R193). -/

namespace Sys2Proof.Machine

/-- The queue after a mask is stored: raised, it removes the notices below it (R191). -/
def keptByMask (old new : Nat) (l : List Notice) : List Notice :=
  if old < new then l.filter fun n => decide (new ≤ n.level) else l

/-- The mask is stored (R191). -/
def Nq.setMask (q : Nq) (m : Nat) : Nq := { q with mask := m, queue := keptByMask q.mask m q.queue }

/-- What SET_NOTICE_MASK does and answers (R191). -/
def State.takeMask (body : List Byte) (s : State) : State × Reply :=
  match body with
  | [m] =>
    if 3 < m.toNat then (s, .refuse .outOfRange 1)
    else
      (s.modNq fun q => q.setMask m.toNat,
        .accept [m, byteOf (s.nq.queue.length - (s.nq.setMask m.toNat).queue.length),
          byteOf (s.nq.setMask m.toNat).queue.length])
  | _ => (s, .refuse .frameLength (byteOf body.length))

/-- SET_NOTICE_MASK (R191). -/
def execSetNoticeMask (tag : Byte) (body : List Byte) (s : State) : Host.Outcome State Fault Refusal :=
  .next (s.request .setNoticeMask tag body (State.takeMask body))

/-- FLUSH_NOTICES (R192). -/
def execFlushNotices (tag : Byte) (body : List Byte) (s : State) : Host.Outcome State Fault Refusal :=
  .next (s.request .flushNotices tag body fun s =>
    (s.modNq fun q => { q with queue := [] }, .accept [byteOf s.nq.queue.length]))

/-- What CLEAR_FLAGS does and answers (R193). -/
def State.takeClear (body : List Byte) (s : State) : State × Reply :=
  match body with
  | [b] =>
    if flagsInRange b then (s.modNq fun q => q.clearFlags b, .accept [(s.nq.clearFlags b).flagsByte])
    else (s, .refuse .outOfRange 1)
  | _ => (s, .refuse .frameLength (byteOf body.length))

/-- CLEAR_FLAGS (R193). -/
def execClearFlags (tag : Byte) (body : List Byte) (s : State) : Host.Outcome State Fault Refusal :=
  .next (s.request .clearFlags tag body (State.takeClear body))

end Sys2Proof.Machine
end

