-- ==== Sys2Proof/Machine/ReadRequests.lean ====
section
/-! DEFINITION. Machine/ReadRequests.lean: the requests that read records (R16, R17, R57, R82, R100, R123, R147, R195).
The items stand in the order R187 gives. -/

namespace Sys2Proof.Machine

/-! ## READ_UNIT -/

/-- The reading part (R17). -/
def readingItems (x : Reading) : List Byte :=
  [conditionCode x.condition, flagByte x.air.isSome]
    ++ num16 (match x.air with | none => 0 | some a => a.tRa)
    ++ num16 (match x.air with | none => 0 | some a => a.wRa)
    ++ [modeCode x.reported, x.flags.byte] ++ num16 x.age ++ [flagByte x.clamped]

/-- The decision part (R57). -/
def decisionItems (x : Decision) (inChangeover : Bool) : List Byte :=
  controlCode x.control :: optItem (fun m => modeSpeedItem (some m)) x.forced
    ++ modeCode x.preference :: optItem (fun v => [byteOf v]) x.prefSpeed
    ++ modeSpeedItem x.commanded ++ modeSpeedItem x.acknowledged ++ num16 x.dwell
    ++ optItem num16 x.lastHoa ++ optItem num16 x.lastHra ++ optItem num16 x.lastTexl
    ++ optItem (fun d => [directionCode d]) x.late ++ [flagByte inChangeover]

/-- Whether a unit's SET_MODE is in flight. -/
def State.commandInFlight (s : State) (u : UnitNo) : Bool :=
  match s.flc.link with
  | none => false
  | some t =>
    match t.requester with
    | .command _ => t.unit == some u && t.heeded
    | .sweep => false
    | .mail _ => false
    | .query _ => false
    | .repair _ => false
    | .broadcast _ => false
    | .releaseAll => false

/-- A unit's entry with its position in the command set, counted from `i`. -/
def findCommand (u : UnitNo) : Nat → List CmdEntry → Option (Nat × ModeSpeed)
  | _, [] => none
  | i, e :: l => if e.unit = u then some (i, e.content) else findCommand u (i + 1) l

/-- The presence part (R147). -/
def State.presenceItems (s : State) (u : UnitNo) : List Byte :=
  [byteOf (s.unit u).cfg.address, presenceCode (s.unit u).presence, byteOf (s.unit u).misses]
    ++ optItem (fun e => modeSpeedItem (some e.2) ++ [byteOf e.1, flagByte (s.commandInFlight u)])
      (findCommand u 1 s.flc.commands)

/-- The reply of READ_UNIT (R17, R57, R147). -/
def State.unitReply (s : State) (body : List Byte) : Reply :=
  match body with
  | [n] =>
    match s.namedUnit n with
    | none => .refuse .noSuchItem n
    | some u =>
      .accept (readingItems (s.unit u).reading ++ decisionItems (s.unit u).decision (s.isParticipant u)
        ++ s.presenceItems u)
  | _ => .refuse .frameLength (byteOf body.length)

/-- READ_UNIT (R17, R57, R147). -/
def execReadUnit (tag : Byte) (body : List Byte) (s : State) : Host.Outcome State Fault Refusal :=
  .next (s.request .readUnit tag body fun s => (s, s.unitReply body))

/-! ## READ_RISER -/

/-- The context item (R82, R123). -/
def ctxItems (c : Ctx) : List Byte :=
  [directionCode c.direction, c.tag, phaseCode c.phase, byteOf c.remaining.length]
    ++ optItem (fun w : Nat => num16 w) c.window
    ++ listItem (fun p => [byteOf p.unit.val, partStatusCode p.status]) c.participants ++ [byteOf c.repairs.length]

/-- The place of a riser on a list, counted from `i`. -/
def placeOn (r : RiserNo) : Nat → List RiserNo → Option Nat
  | _, [] => none
  | i, q :: l => if q = r then some i else placeOn r (i + 1) l

/-- The reply of READ_RISER (R82, R123). -/
def State.riserReply (s : State) (body : List Byte) : Reply :=
  match body with
  | [n] =>
    match s.namedRiser n with
    | none => .refuse .noSuchItem n
    | some r =>
      let x := s.riser r
      .accept ([n, riserStateCode x.live.state] ++ num16 x.live.settle
        ++ [byteOf x.live.memberCount, byteOf x.live.onlineMembers, byteOf x.live.voters.length]
        ++ listItem (fun u => [byteOf u.val]) x.live.voters
        ++ [byteOf x.cfg.quorum, byteOf x.cfg.hold, flagByte x.live.locked, causeCode x.live.lastExit]
        ++ optItem (fun p => [byteOf p]) (placeOn r 1 s.sba.queue) ++ optItem ctxItems (s.ctx r))
  | _ => .refuse .frameLength (byteOf body.length)

/-- READ_RISER (R82, R123). -/
def execReadRiser (tag : Byte) (body : List Byte) (s : State) : Host.Outcome State Fault Refusal :=
  .next (s.request .readRiser tag body fun s => (s, s.riserReply body))

/-! ## READ_STATION -/

/-- The reply of READ_STATION (R16). -/
def State.stationReply (s : State) (body : List Byte) : Reply :=
  match body with
  | [n] =>
    match s.namedStation n with
    | none => .refuse .noSuchItem n
    | some st =>
      let x := (s.station st).live
      .accept ([n, flagByte (s.tower.reference == st), stationStatusCode x.status, flagByte x.air.isSome]
        ++ num16 (match x.air with | none => 0 | some a => a.tOa)
        ++ num16 (match x.air with | none => 0 | some a => a.wOa)
        ++ num16 (match x.air with | none => 0 | some a => a.wind)
        ++ num16 x.age ++ [flagByte x.clamped, byteOf (s.mappedUnits st).length])
  | _ => .refuse .frameLength (byteOf body.length)

/-- READ_STATION (R16). -/
def execReadStation (tag : Byte) (body : List Byte) (s : State) : Host.Outcome State Fault Refusal :=
  .next (s.request .readStation tag body fun s => (s, s.stationReply body))

/-! ## READ_BUDGET -/

/-- The reference station's held values while it is not NONE (R100). -/
def State.refAir (s : State) : Option OutdoorAir :=
  if (s.station s.tower.reference).live.status = .none then none else (s.station s.tower.reference).live.air

/-- Whether the station wind calls for the wind halving (R33). -/
def State.windHigh (s : State) : Bool :=
  match s.refAir with
  | none => false
  | some a => decide (s.tower.windLimit ≤ a.wind)

/-- The lines with role IN_WIND whose accepted level is active. -/
def State.windLines (s : State) : List LineNo :=
  (fins 6).filter fun l => (s.line l).cfg.role == .inWind && (s.line l).level

/-- Riser, weight and rank of an entry. -/
def State.entryItems (s : State) (r : RiserNo) : List Byte := [byteOf r.val, byteOf (s.weight r), byteOf (s.rank r)]

/-- The risers in LEAVING, in ascending number. -/
def State.drainingRisers (s : State) : List RiserNo := (fins 6).filter fun r => (s.riser r).live.state == .leaving

/-- The items of READ_BUDGET (R100; assumption log 16). -/
def State.budgetItems (s : State) : List Byte :=
  num16 s.sba.bEff
    ++ [byteOf s.tower.reference.val, stationStatusCode (s.station s.tower.reference).live.status]
    ++ optItem (fun a : OutdoorAir => num16 a.tOa) s.refAir ++ optItem (fun a : OutdoorAir => num16 a.wind) s.refAir
    ++ optItem (fun a : OutdoorAir => num16 (derating s.tower a.tOa)) s.refAir
    ++ optItem (fun a : OutdoorAir => num16 (rawBudget s.tower a.tOa)) s.refAir
    ++ [flagByte ((s.station s.tower.reference).live.status == .stale),
        flagByte (s.refAir.isSome && (s.windHigh || s.roleActive .inWind)), flagByte s.windHigh]
    ++ listItem (fun l : LineNo => [byteOf l.val]) s.windLines
    ++ policyCode s.tower.policy :: num16 s.committed ++ num16 s.sba.draining ++ num16 s.headroom
    ++ listItem s.entryItems s.sba.queue
    ++ listItem (fun r => s.entryItems r ++ [riserStateCode (s.riser r).live.state]) s.sba.grants
    ++ listItem (fun r : RiserNo => [byteOf r.val, byteOf (s.weight r)]) s.drainingRisers

/-- READ_BUDGET (R100). -/
def execReadBudget (tag : Byte) (body : List Byte) (s : State) : Host.Outcome State Fault Refusal :=
  .next (s.request .readBudget tag body fun s => (s, .accept s.budgetItems))

/-! ## READ_STATUS -/

/-- The number of present units of a presence. -/
def State.countPresence (s : State) (p : Presence) : Nat :=
  (s.presentUnits.filter fun u => (s.unit u).presence == p).length

/-- The items of READ_STATUS (R195). -/
def State.statusItems (s : State) : List Byte :=
  [opStateCode s.slp.opState, startCauseCode s.nq.startCause, s.nq.flagsByte, byteOf s.nq.queue.length,
    byteOf s.nq.mask]
    ++ (fins 6).map (fun l => flagByte (s.lineLevel l)) ++ num16 s.sba.bEff
    ++ [byteOf (s.countPresence .online), byteOf (s.countPresence .offline), byteOf (s.countPresence .unseen)]

/-- READ_STATUS (R195). -/
def execReadStatus (tag : Byte) (body : List Byte) (s : State) : Host.Outcome State Fault Refusal :=
  .next (s.request .readStatus tag body fun s => (s, .accept s.statusItems))

end Sys2Proof.Machine
end

