-- ==== Sys2Proof/Machine/RunRequests.lean ====
section
/-! DEFINITION. Machine/RunRequests.lean: starting and stopping a run, RESTART, and the starts of the part
(R174, R178 to R182, R194). -/

namespace Sys2Proof.Machine

/-! ## The checks of START_RUN (R178) -/

/-- The first of a list that fails a test, as a detail code counted from `base`. -/
def firstFailing {n : Nat} (base : Nat) (bad : Fin n → Bool) : Option Nat :=
  ((fins n).find? bad).map fun i => base + i.val

/-- Check 4: a present unit whose field address a lower-numbered present unit has. -/
def State.addressTaken (s : State) (u : UnitNo) : Bool :=
  (fins 24).any fun v =>
    decide (v < u) && (s.unit v).cfg.present && (s.unit v).cfg.address == (s.unit u).cfg.address

/-- The first check that fails and the detail code of its first item (R178). -/
def State.configProblem (s : State) : Option Nat :=
  if s.presentUnits.isEmpty then some 0x00
  else
    ((firstFailing 0x40 fun u : UnitNo => (s.unit u).cfg.present && !(s.riser (s.unit u).cfg.riser).cfg.present).or
    ((firstFailing 0x60 fun u : UnitNo => (s.unit u).cfg.present && !(s.station (s.unit u).cfg.station).cfg.present).or
    ((firstFailing 0x80 fun u : UnitNo => (s.unit u).cfg.present && s.addressTaken u).or
    ((firstFailing 0xA0 fun r : RiserNo =>
        (s.riser r).cfg.present && !(decide (1 ≤ (s.members r).length) && decide ((s.members r).length ≤ 8))).or
    ((firstFailing 0xB0 fun r : RiserNo =>
        (s.riser r).cfg.present && decide ((s.members r).length < (s.riser r).cfg.quorum)).or
    (if (s.station s.tower.reference).cfg.present then none else some 0xC0))))))

/-! ## Clearing the live state -/

/-- A unit record with its live parts cleared (R1, R36, R133). -/
def UnitRec.cleared (x : UnitRec) : UnitRec := { cfg := x.cfg }

/-- A station record with its live part cleared (R2). -/
def StationRec.cleared (x : StationRec) : StationRec := { cfg := x.cfg }

/-- A riser record with its live part cleared (R61). -/
def RiserRec.cleared (x : RiserRec) : RiserRec := { cfg := x.cfg }

/-- The live records of CT, ME, RC, SBA and CE cleared; the tag counter keeps its value (R18, R58, R61, R85, R102,
R103). -/
def State.clearLive (s : State) : State :=
  { s with
    units := mapTable UnitRec.cleared s.units
    stations := mapTable StationRec.cleared s.stations
    risers := mapTable RiserRec.cleared s.risers
    sba := {}
    ce := { tagCounter := s.ce.tagCounter } }

/-- The member count of a present riser is formed (R60). -/
def State.formMembers (s : State) (r : RiserNo) : State :=
  s.modLive r fun l => { l with memberCount := (s.members r).length }

/-- The FLC at run start: speed latched, sweep 0 started, the rest as after a reset; the link, an owed RELEASE and the
post number are left (R126, R138, R139, R140, R179). -/
def Flc.runStart (f : Flc) (speed : LinkSpeed) : Flc :=
  { link := f.link, latchedSpeed := speed, releaseOwed := f.releaseOwed, sweep := { running := true }
    postNumber := f.postNumber }

/-- A run begins in operating state `o` (R179), up to the first grant. -/
def State.beginRun (o : OpState) (s : State) : State :=
  let s1 := ((s.modSlp fun p => { p with opState := o }).modFlc fun f => f.runStart s.tower.speed).clearLive
  (s1.presentRisers.foldl State.formMembers s1).recompute

/-- The run mode of START_RUN: 1 ADVISE, 2 COORDINATE (R178). -/
def runMode (b : Byte) : Option OpState := if b = 1 then some .advise else if b = 2 then some .coordinate else none

/-- What START_RUN does and answers (R178, R179). -/
def State.startRun (body : List Byte) (s : State) : State × Reply :=
  match body with
  | [m] =>
    match runMode m with
    | none => (s, .refuse .outOfRange 1)
    | some o =>
      match s.configProblem with
      | some code => (s, .refuse .configInvalid (byteOf code))
      | none => ((s.beginRun o).grantOnWork, .accept [opStateCode o])
  | _ => (s, .refuse .frameLength (byteOf body.length))

/-- START_RUN (R178, R179). -/
def execStartRun (tag : Byte) (body : List Byte) (s : State) : Host.Outcome State Fault Refusal :=
  .next (s.request .startRun tag body (State.startRun body))

/-! ## STOP_RUN (R180, R145) -/

/-- The RELEASE owed after a STOP_RUN: one already owed stays at its speed; otherwise COORDINATE owes one at the
latched speed (R145). -/
def releaseAfterStop (o : OpState) (f : Flc) : Option LinkSpeed :=
  match f.releaseOwed with
  | some v => some v
  | none => if o = .coordinate then some f.latchedSpeed else none

/-- The FLC at STOP_RUN: the transaction in progress goes on unheeded, all waiting work is dropped; the sweep counter,
the latched speed and the post number keep their values (R145, R138, R139, R167; assumption log 24). That the cursor and
the start of the stopped sweep are 0 is the model's choice (assumption log 29). -/
def Flc.stopped (f : Flc) (o : OpState) : Flc :=
  { link := f.link.map fun t => { t with heeded := false }
    latchedSpeed := f.latchedSpeed
    releaseOwed := releaseAfterStop o f
    sweep := { counter := f.sweep.counter }
    postNumber := f.postNumber }

/-- The run ends (R180), up to the RELEASE. -/
def State.endRun (s : State) : State :=
  ((s.modSlp fun p => { p with opState := .config }).modFlc fun f => f.stopped s.slp.opState).clearLive

/-- STOP_RUN (R180). -/
def execStopRun (tag : Byte) (body : List Byte) (s : State) : Host.Outcome State Fault Refusal :=
  .next (s.request .stopRun tag body fun s => (s.endRun.grantOnWork, .accept [opStateCode s.slp.opState]))

/-! ## RESTART (R181) -/

/-- RESTART: accepted; it takes effect when its ACCEPT has left the line (R181). -/
def execRestart (tag : Byte) (body : List Byte) (s : State) : Host.Outcome State Fault Refusal :=
  .next (s.request .restart tag body fun s =>
    (s.modSlp fun p => { p with restart := .accepted }, .accept [opStateCode s.slp.opState]))

/-- The NQ at a start: one START notice (R194). -/
def Nq.started (cause : StartCause) (mask : Nat) : Nq :=
  { queue := [⟨3, .none, .start cause⟩], mask := mask, startCause := cause }

/-- The lines at RESTART: an input starts its filter where its pin shows active (R159). -/
def State.restartLines (s : State) : Lu :=
  { lines := Vector.ofFn fun l => freshLine (s.line l).cfg s.lu.pins[l], pins := s.lu.pins }

/-- The part as RESTART leaves it: the configuration tables, the mask and the post number are kept (R181, R146, R103,
R160, R194). -/
def State.restarted (spd : Bool) (s : State) : State :=
  { pending := s.pending
    slp := { spd := spd, resetHeld := s.slp.resetHeld }
    units := mapTable UnitRec.cleared s.units
    stations := mapTable StationRec.cleared s.stations
    risers := mapTable RiserRec.cleared s.risers
    tower := s.tower
    flc := { postNumber := s.flc.postNumber }
    lu := s.restartLines
    nq := Nq.started .restart s.nq.mask
    choices := s.choices }

/-- RESTART_TAKES_EFFECT (R181): at the moment the ACCEPT of a RESTART has been sent. -/
def execRestartTakesEffect (spd : Bool) (s : State) : Host.Outcome State Fault Refusal :=
  .next (s.whileAlive fun s => if s.slp.restart = .due then s.restarted spd else s)

/-! ## Starts of the part (R182, R194) -/

/-- The part as a start leaves it; `held` tells whether RESETn is low (R182; assumption log 15). The levels at the
line pins come from outside and stay. -/
def State.started (cause : StartCause) (spd held : Bool) (s : State) : State :=
  { pending := s.pending
    slp := { spd := spd, resetHeld := held }
    lu := { pins := s.lu.pins }
    nq := Nq.started cause 0
    choices := s.choices }

/-- POWER_ON (R182). -/
def execPowerOn (spd : Bool) (s : State) : Host.Outcome State Fault Refusal :=
  .next (s.started .powerOn spd s.slp.resetHeld)

/-- SUPPLY_LOW_RESTART (R182). -/
def execSupplyLowRestart (spd : Bool) (s : State) : Host.Outcome State Fault Refusal :=
  .next (s.started .supplyLow spd s.slp.resetHeld)

/-- RESET_PIN_RELEASE (R182). -/
def execResetPinRelease (spd : Bool) (s : State) : Host.Outcome State Fault Refusal :=
  .next (s.started .resetPin spd false)

/-- RESET_PIN_ASSERT: no byte is taken, no frame is sent, FDE and every output inactive (R182; assumption log 15). -/
def execResetPinAssert (s : State) : Host.Outcome State Fault Refusal :=
  .next ((s.modSlp fun p => { p with resetHeld := true, receiver := .hunting, reply := none, stx := .idle }).modFlc
    fun f => { f with link := none })

end Sys2Proof.Machine
end

