-- ==== Sys2Proof/Machine/Supervisor.lean ====
section
/-! DEFINITION. Machine/Supervisor.lean: the Supervisor Link Port's receiver, request buffer and transmit side
(R168 to R171, R190), and the kinds that are no request (R170). -/

namespace Sys2Proof.Machine

/-! ## The receiver (R168) -/

/-- What a byte makes of the receiver: its next state and, at a frame's last CRC byte, the bytes of the frame after the
start byte where every stop bit was there and the CRC is good (R168, R183). -/
structure Received where
  receiver : Receiver
  frame : Option SupFrame := none
deriving DecidableEq, Repr

/-- A frame from the bytes that follow its start byte: length, kind, tag, body, CRC (R183). -/
def frameOf (got : List Byte) : Option SupFrame :=
  match got with
  | len :: kind :: tag :: rest =>
    if rest.length = len.toNat + 2 then
      if rest.drop len.toNat = bytesOf (crc16 (len :: kind :: tag :: rest.take len.toNat)) then
        some ⟨kind, tag, rest.take len.toNat⟩
      else none
    else none
  | _ => none

/-- The number of bytes that follow the start byte of a frame with this length byte. -/
def frameEnd (len : Byte) : Nat := len.toNat + 5

/-- A byte in a frame, `got` being the bytes so far with this one last (R168). -/
def inFrameByte (got : List Byte) (stopBits : Bool) : Received :=
  match got with
  | [] => ⟨.inFrame [] stopBits, none⟩
  | len :: _ =>
    if 120 < len.toNat then ⟨.hunting, none⟩
    else if frameEnd len ≤ got.length then ⟨.hunting, if stopBits then frameOf got else none⟩
    else ⟨.inFrame got stopBits, none⟩

/-- One byte into the receiver (R168). -/
def Receiver.byte (r : Receiver) (b : RxByte) : Received :=
  match r with
  | .hunting => if b.value = 0xA5 then ⟨.inFrame [] b.stopBit, none⟩ else ⟨.hunting, none⟩
  | .inFrame got ok => inFrameByte (got ++ [b.value]) (ok && b.stopBit)

/-- A complete frame goes to the request buffer, or meets two frames not yet taken (R169). -/
def State.placeFrame (f : SupFrame) (s : State) : State :=
  if s.slp.requests.length < 2 then s.modSlp fun p => { p with requests := p.requests ++ [f] }
  else s.modNq fun q => { q with requestOverrun := true }

/-- One byte received on SRX. -/
def State.receive (s : State) (b : RxByte) : State :=
  let x := s.slp.receiver.byte b
  let s1 := s.modSlp fun p => { p with receiver := x.receiver }
  match x.frame with
  | none => s1
  | some f => s1.placeFrame f

/-- Bytes received one after another. -/
def State.receiveAll (bs : List RxByte) (s : State) : State := bs.foldl State.receive s

/-- The receiver hunts. -/
def State.hunt (s : State) : State := s.modSlp fun p => { p with receiver := .hunting }

/-- SUPERVISOR_FRAME_COMPLETE (R168, R169). -/
def execSupervisorFrameComplete (bytes : List RxByte) (s : State) : Host.Outcome State Fault Refusal :=
  .next (s.whileAlive (State.receiveAll bytes))

/-- SUPERVISOR_INTER_BYTE_GAP: the partial frame is discarded, and the byte that ends the gap is taken by the hunting
receiver (R168). -/
def execSupervisorInterByteGap (before : List RxByte) (next : RxByte) (s : State) : Host.Outcome State Fault Refusal :=
  .next (s.whileAlive fun s => (s.receiveAll before).hunt.receive next)

/-- SUPERVISOR_LENGTH_DISCARD (R168). -/
def execSupervisorLengthDiscard (before : List RxByte) (length : RxByte) (s : State) :
    Host.Outcome State Fault Refusal :=
  .next (s.whileAlive (State.receiveAll (before ++ [length])))

/-! ## The transmit side (R170, R171, R190) -/

/-- The last byte of the reply has left: no reply is pending, and an accepted RESTART is due (R170, R181). -/
def State.replySent (s : State) : State :=
  s.modSlp fun p =>
    { p with reply := none, stx := .idle, restart := if p.restart = .accepted then .due else p.restart }

/-- The last byte of a notice has left: a pending reply goes next (R171). -/
def State.noticeSent (s : State) : State :=
  s.modSlp fun p => { p with stx := if p.reply.isSome then .reply else .idle }

/-- SUPERVISOR_FRAME_SENT (R171). -/
def execSupervisorFrameSent (s : State) : Host.Outcome State Fault Refusal :=
  .next (s.whileAlive fun s =>
    match s.slp.stx with
    | .idle => s
    | .reply => s.replySent
    | .notice _ => s.noticeSent)

/-- Whether a notice may begin: STX idle, no reply pending, and no restart due (R171, R181). -/
def State.mayNotify (s : State) : Bool :=
  s.slp.stx == .idle && s.slp.reply.isNone && s.slp.restart != .due

/-- NOTICE_SEND: the head notice leaves the queue as its sending begins (R171, R190). -/
def execNoticeSend (s : State) : Host.Outcome State Fault Refusal :=
  .next (s.whileAlive fun s =>
    match s.nq.queue with
    | [] => s
    | n :: rest =>
      if s.mayNotify then
        (s.modNq fun q => { q with queue := rest }).modSlp fun p => { p with stx := .notice n }
      else s)

/-- UNKNOWN_KIND: a frame whose kind is no request kind is refused (R170, R172). -/
def execUnknownKind (kind tag : Byte) (body : List Byte) (s : State) : Host.Outcome State Fault Refusal :=
  .next (if isRequestCode kind then s
    else match s.takeFrame ⟨kind, tag, body⟩ with
      | none => s
      | some s1 => s1.answer kind tag (.refuse .unknownKind kind))

end Sys2Proof.Machine
end

