-- ==== Sys2Proof/Machine/Timers.lean ====
section
/-! DEFINITION. Machine/Timers.lean: the seconds timebase (R4) and the expiries that follow from it (R9, R14, R48, R64,
R111, R114, R121, R140, R106). An expiry command acts only when its timer has run out (assumption logs 2 and 8). -/

namespace Sys2Proof.Machine

/-! ## A second boundary (R4) -/

/-- An age after a boundary: it stays at 65535 (R4). -/
def ageNext (age : Nat) : Nat := min 65535 (age + 1)

/-- A unit record at a boundary: the reading age and the dwell timer (R4, R48). -/
def UnitRec.tick (x : UnitRec) : UnitRec :=
  { x with
    reading := { x.reading with age := if x.reading.condition = .none then x.reading.age else ageNext x.reading.age }
    decision :=
      { x.decision with
        dwell := x.decision.dwell - 1
        dwellExpired := x.decision.dwellExpired || x.decision.dwell == 1 } }

/-- A station record at a boundary (R4). -/
def StationRec.tick (x : StationRec) : StationRec :=
  { x with live := { x.live with age := if x.live.status = .none then x.live.age else ageNext x.live.age } }

/-- A riser record at a boundary (R64). -/
def RiserRec.tick (x : RiserRec) : RiserRec :=
  { x with live :=
    { x.live with
      settle := x.live.settle - 1
      settleExpired := x.live.settleExpired || x.live.settle == 1 } }

/-- A context at a boundary: its window (R109, R112). -/
def Ctx.tick (c : Ctx) : Ctx := { c with window := c.window.map fun w => w - 1 }

/-- One second boundary while running (R4, R48, R64, R109). -/
def State.tick (s : State) : State :=
  { s with
    units := mapTable UnitRec.tick s.units
    stations := mapTable StationRec.tick s.stations
    risers := mapTable RiserRec.tick s.risers
    ce := { s.ce with ctxs := mapTable (fun c => c.map Ctx.tick) s.ce.ctxs }
    flc := { s.flc with sweep := { s.flc.sweep with elapsed := s.flc.sweep.elapsed + 1 } } }

/-- SECONDS_TIMEBASE_TICK (R4). -/
def execSecondsTimebaseTick (s : State) : Host.Outcome State Fault Refusal := .next (s.whileRunning State.tick)

/-! ## Ages (R9, R14) -/

/-- Whether a unit's age has reached the stale limit with the condition still FRESH or SENSOR_HOLD (R9). -/
def State.staleDue (s : State) (u : UnitNo) : Bool :=
  ((s.unit u).reading.condition == .fresh || (s.unit u).reading.condition == .sensorHold)
    && decide (s.tower.staleLimit ≤ (s.unit u).reading.age)

/-- UNIT_STALE_LIMIT (R9, R11). -/
def execUnitStaleLimit (u : UnitNo) (s : State) : Host.Outcome State Fault Refusal :=
  .next (s.whileRunning fun s => if s.staleDue u then (s.changeCondition u .stale).grantOnWork else s)

/-- Whether a station's age has reached its max age with the status still FRESH (R14). -/
def State.maxAgeDue (s : State) (st : StationNo) : Bool :=
  (s.station st).live.status == .fresh && decide ((s.station st).cfg.maxAge ≤ (s.station st).live.age)

/-- STATION_MAX_AGE (R14, R15). -/
def execStationMaxAge (st : StationNo) (s : State) : Host.Outcome State Fault Refusal :=
  .next (s.whileRunning fun s => if s.maxAgeDue st then (s.staleStation st).grantOnWork else s)

/-! ## Dwell and settle (R48, R64) -/

/-- DWELL_EXPIRY: an evaluation of the automatic class (R48). -/
def execDwellExpiry (u : UnitNo) (s : State) : Host.Outcome State Fault Refusal :=
  .next (s.whileRunning fun s =>
    if (s.unit u).decision.dwellExpired then
      ((s.modDecision u fun d => { d with dwellExpired := false }).ownEvent u .automatic).grantOnWork
    else s)

/-- SETTLE_EXPIRY (R64, R65, R70). -/
def execSettleExpiry (r : RiserNo) (s : State) : Host.Outcome State Fault Refusal :=
  .next (s.whileRunning fun s =>
    if (s.riser r).live.settleExpired then
      ((s.modLive r fun l => { l with settleExpired := false }).settleExpired r).grantOnWork
    else s)

/-! ## Windows of a context (R111, R114, R121) -/

/-- READY_WINDOW_EXPIRY (R111). -/
def execReadyWindowExpiry (r : RiserNo) (s : State) : Host.Outcome State Fault Refusal :=
  .next (s.whileRunning fun s =>
    match s.ctx r with
    | none => s
    | some c =>
      if c.phase = .rollReady ∧ c.window = some 0 then (s.ceCancel r c .readyTimeout).grantOnWork else s)

/-- The participants that become LATE at the expiry of a done window (R114, R121). -/
def Ctx.lateUnits (c : Ctx) : List UnitNo :=
  (c.participants.filter fun p => p.status != .done && p.status != .dropped).map (·.unit)

/-- The LATE mark of one unit (R55). -/
def State.markLate (d : Direction) (s : State) (u : UnitNo) : State :=
  s.modDecision u fun x => { x with late := some d }

/-- The context with those participants LATE. -/
def Ctx.withLate (c : Ctx) : Ctx :=
  { c with participants := c.participants.map fun p =>
      if p.status = .done ∨ p.status = .dropped then p else { p with status := .late } }

/-- A done window expires: LATE marks, and the end COMPLETE_LATE (R114, R121). -/
def State.doneExpires (r : RiserNo) (c : Ctx) (s : State) : State :=
  (c.lateUnits.foldl (State.markLate c.direction) (s.setCtx r (some c.withLate))).rollEnds r c.withLate .completeLate
    c.lateUnits.length

/-- DONE_WINDOW_EXPIRY (R114, R121). -/
def execDoneWindowExpiry (r : RiserNo) (s : State) : Host.Outcome State Fault Refusal :=
  .next (s.whileRunning fun s =>
    match s.ctx r with
    | none => s
    | some c => if c.phase = .rollDone ∧ c.window = some 0 then (s.doneExpires r c).grantOnWork else s)

/-! ## Sweeps and passes (R140, R106) -/

/-- Whether a POLL of this run is in flight. -/
def State.pollInFlight (s : State) : Bool :=
  match s.flc.link with
  | none => false
  | some t => t.requester == .sweep && t.heeded

/-- Whether the next sweep may start (R140; assumption log 10). -/
def State.sweepDue (s : State) : Bool :=
  s.flc.sweep.running && s.nextPoll.isNone && !s.pollInFlight
    && decide (s.tower.sweepPeriod ≤ s.flc.sweep.elapsed + 1)

/-- A sweep starts: the counter increases by one and the cursor returns to unit 0 (R140). -/
def State.startSweep (s : State) : State :=
  s.modFlc fun f => { f with sweep := { running := true, counter := f.sweep.counter + 1 } }

/-- SWEEP_START (R140). -/
def execSweepStart (s : State) : Host.Outcome State Fault Refusal :=
  .next (s.whileRunning fun s => if s.sweepDue then s.startSweep.grantOnWork else s)

/-- ROLL_PASS_DUE (R106): 250 ms have passed since the start of the pass (assumption log 11). -/
def execRollPassDue (r : RiserNo) (s : State) : Host.Outcome State Fault Refusal :=
  .next (s.whileRunning fun s =>
    match s.ctx r with
    | none => s
    | some c =>
      if c.passStart = some .recent then (s.setCtx r (some { c with passStart := some .due })).grantOnWork else s)

end Sys2Proof.Machine
end

