-- ==== Sys2Proof/Machine/Dispatch.lean ====
section
/-! DEFINITION. Machine/Dispatch.lean: the meaning of each command, one arm per constructor. -/

namespace Sys2Proof.Machine

/-- The effect of a command on everything but the queue. -/
def exec (i : Instr) (s : State) : Host.Outcome State Fault Refusal :=
  match i with
  | .powerOn spd => Sys2Proof.Machine.execPowerOn spd s
  | .resetPinAssert => Sys2Proof.Machine.execResetPinAssert s
  | .resetPinRelease spd => Sys2Proof.Machine.execResetPinRelease spd s
  | .supplyLowRestart spd => Sys2Proof.Machine.execSupplyLowRestart spd s
  | .supervisorFrameComplete bytes => Sys2Proof.Machine.execSupervisorFrameComplete bytes s
  | .supervisorInterByteGap before next => Sys2Proof.Machine.execSupervisorInterByteGap before next s
  | .supervisorFrameSent => Sys2Proof.Machine.execSupervisorFrameSent s
  | .noticeSend => Sys2Proof.Machine.execNoticeSend s
  | .unknownKind kind tag body => Sys2Proof.Machine.execUnknownKind kind tag body s
  | .loadUnit tag body => Sys2Proof.Machine.execLoadUnit tag body s
  | .loadRiser tag body => Sys2Proof.Machine.execLoadRiser tag body s
  | .loadStation tag body => Sys2Proof.Machine.execLoadStation tag body s
  | .loadLine tag body => Sys2Proof.Machine.execLoadLine tag body s
  | .loadTower tag body => Sys2Proof.Machine.execLoadTower tag body s
  | .readConfig tag body => Sys2Proof.Machine.execReadConfig tag body s
  | .startRun tag body => Sys2Proof.Machine.execStartRun tag body s
  | .stopRun tag body => Sys2Proof.Machine.execStopRun tag body s
  | .restart tag body => Sys2Proof.Machine.execRestart tag body s
  | .restartTakesEffect spd => Sys2Proof.Machine.execRestartTakesEffect spd s
  | .stationReading tag body => Sys2Proof.Machine.execStationReading tag body s
  | .setSetpoint tag body => Sys2Proof.Machine.execSetSetpoint tag body s
  | .setOverride tag body => Sys2Proof.Machine.execSetOverride tag body s
  | .lockRiser tag body => Sys2Proof.Machine.execLockRiser tag body s
  | .readUnit tag body => Sys2Proof.Machine.execReadUnit tag body s
  | .readRiser tag body => Sys2Proof.Machine.execReadRiser tag body s
  | .readStation tag body => Sys2Proof.Machine.execReadStation tag body s
  | .readBudget tag body => Sys2Proof.Machine.execReadBudget tag body s
  | .readStatus tag body => Sys2Proof.Machine.execReadStatus tag body s
  | .setNoticeMask tag body => Sys2Proof.Machine.execSetNoticeMask tag body s
  | .flushNotices tag body => Sys2Proof.Machine.execFlushNotices tag body s
  | .clearFlags tag body => Sys2Proof.Machine.execClearFlags tag body s
  | .postMail tag body => Sys2Proof.Machine.execPostMail tag body s
  | .takeMail tag body => Sys2Proof.Machine.execTakeMail tag body s
  | .cancelMail tag body => Sys2Proof.Machine.execCancelMail tag body s
  | .secondsTimebaseTick => Sys2Proof.Machine.execSecondsTimebaseTick s
  | .unitStaleLimit u => Sys2Proof.Machine.execUnitStaleLimit u s
  | .stationMaxAge st => Sys2Proof.Machine.execStationMaxAge st s
  | .dwellExpiry u => Sys2Proof.Machine.execDwellExpiry u s
  | .settleExpiry r => Sys2Proof.Machine.execSettleExpiry r s
  | .readyWindowExpiry r => Sys2Proof.Machine.execReadyWindowExpiry r s
  | .doneWindowExpiry r => Sys2Proof.Machine.execDoneWindowExpiry r s
  | .sweepStart => Sys2Proof.Machine.execSweepStart s
  | .fieldRequestSent => Sys2Proof.Machine.execFieldRequestSent s
  | .replyWindowExpiry => Sys2Proof.Machine.execReplyWindowExpiry s
  | .fieldInterByteGap => Sys2Proof.Machine.execFieldInterByteGap s
  | .broadcastQuietGapEnd => Sys2Proof.Machine.execBroadcastQuietGapEnd s
  | .readingReceived tRa wRa mode flags => Sys2Proof.Machine.execReadingReceived tRa wRa mode flags s
  | .ackReceived => Sys2Proof.Machine.execAckReceived s
  | .nakReceived reason => Sys2Proof.Machine.execNakReceived reason s
  | .deferReceived => Sys2Proof.Machine.execDeferReceived s
  | .phaseReceived tag token => Sys2Proof.Machine.execPhaseReceived tag token s
  | .mailReplyReceived bytes => Sys2Proof.Machine.execMailReplyReceived bytes s
  | .fieldCheckFailure => Sys2Proof.Machine.execFieldCheckFailure s
  | .foreignAddressFrame bytes => Sys2Proof.Machine.execForeignAddressFrame bytes s
  | .linePinChange line high => Sys2Proof.Machine.execLinePinChange line high s
  | .lineFilterExpiry line => Sys2Proof.Machine.execLineFilterExpiry line s
  | .rollPassDue r => Sys2Proof.Machine.execRollPassDue r s
  | .supervisorLengthDiscard before length => Sys2Proof.Machine.execSupervisorLengthDiscard before length s

end Sys2Proof.Machine
end

