-- ==== Sys2Proof/Machine/Core.lean ====
section
/-! DEFINITION. Machine/Core.lean: the machine the host's statements are about. -/

def Sys2Proof.core : Host.Core := { State := Sys2Proof.Machine.State, Fault := Sys2Proof.Machine.Fault, Refusal := Sys2Proof.Machine.Refusal, step := Sys2Proof.Machine.step, reset := Sys2Proof.Machine.State.reset }
end

