-- ==== Sys2Proof/Safety.lean ====
section
/-! DEFINITION. Safety.lean: what counts as a safe state and a well-behaved event, in the terms claims use. -/

namespace Sys2Proof.Machine

/-! ## Requests -/

/-- The kind, tag and body of a request command. -/
def requestOf : Instr → Option (ReqKind × Byte × List Byte)
  | .loadUnit t b => some (.loadUnit, t, b)
  | .loadRiser t b => some (.loadRiser, t, b)
  | .loadStation t b => some (.loadStation, t, b)
  | .loadLine t b => some (.loadLine, t, b)
  | .loadTower t b => some (.loadTower, t, b)
  | .readConfig t b => some (.readConfig, t, b)
  | .startRun t b => some (.startRun, t, b)
  | .stopRun t b => some (.stopRun, t, b)
  | .restart t b => some (.restart, t, b)
  | .stationReading t b => some (.stationReading, t, b)
  | .setSetpoint t b => some (.setSetpoint, t, b)
  | .setOverride t b => some (.setOverride, t, b)
  | .lockRiser t b => some (.lockRiser, t, b)
  | .readUnit t b => some (.readUnit, t, b)
  | .readRiser t b => some (.readRiser, t, b)
  | .readStation t b => some (.readStation, t, b)
  | .readBudget t b => some (.readBudget, t, b)
  | .readStatus t b => some (.readStatus, t, b)
  | .setNoticeMask t b => some (.setNoticeMask, t, b)
  | .flushNotices t b => some (.flushNotices, t, b)
  | .clearFlags t b => some (.clearFlags, t, b)
  | .postMail t b => some (.postMail, t, b)
  | .takeMail t b => some (.takeMail, t, b)
  | .cancelMail t b => some (.cancelMail, t, b)
  | _ => none

/-- Frame `f` is the one taken now: it is the oldest in the buffer, or it completes at this moment with the buffer empty
(R169, R170; assumption log 3). -/
def State.takes (s : State) (f : SupFrame) : Prop :=
  s.canTake = true ∧ (s.slp.requests = [] ∨ s.slp.requests.head? = some f)

/-- The state with the slot of the frame taken freed (R170). -/
def State.taken (s : State) : State := s.modSlp fun p => { p with requests := p.requests.tail }

/-! ## The notice queue (R188, R189) -/

/-- The fixed level of a notice's kind (R188). -/
def Content.fixedLevel : Content → Nat
  | .start _ => 3
  | .lineEdge role _ => edgeLevel role
  | .unitPresence _ => 2
  | .unitFault _ => 2
  | .frost _ _ => 2
  | .changeover _ _ _ _ _ => 2
  | .revoked _ _ => 2
  | .stationStatus _ => 2
  | .commandRefused _ => 2
  | .riserState _ _ => 1
  | .budget _ => 1
  | .unitHand _ => 1
  | .mailDone _ _ => 1
  | .unitMode _ => 0

/-- The mask is in 0..3, and the notice queue holds at most 32 notices, highest level first, none below the mask, each at
its kind's level. -/
structure NqSafe (q : Nq) : Prop where
  range : q.mask ≤ 3
  short : q.queue.length ≤ 32
  sorted : q.queue.Pairwise fun a b => b.level ≤ a.level
  masked : ∀ n ∈ q.queue, q.mask ≤ n.level
  levels : ∀ n ∈ q.queue, n.level = n.content.fixedLevel

/-! ## The supervisor receiver and request buffer (R168, R169) -/

/-- A partial frame is shorter than its length byte says, and that byte is in range. -/
def Receiver.safe : Receiver → Prop
  | .hunting => True
  | .inFrame [] _ => True
  | .inFrame (len :: got) _ => len.toNat ≤ 120 ∧ (len :: got).length < frameEnd len

/-- The receiver is safe, and the buffer holds at most two frames whose bodies fit. -/
structure SlpSafe (p : Slp) : Prop where
  receiver : p.receiver.safe
  two : p.requests.length ≤ 2
  bodies : ∀ f ∈ p.requests, f.body.length ≤ 120

/-! ## The replies of a UIM (R127, R184) -/

/-- A frame of one of the six kinds a UIM sends, with a body of the length that kind calls for. -/
def FieldFrame.FromUim (f : FieldFrame) : Prop :=
  f.kind = 0x41 ∧ f.body.length = 6 ∨ f.kind = 0x42 ∧ f.body.length = 0 ∨ f.kind = 0x43 ∧ f.body.length = 1 ∨
    f.kind = 0x44 ∧ f.body.length = 0 ∨ f.kind = 0x45 ∧ f.body.length = 2 ∨
    f.kind = 0x46 ∧ 1 ≤ f.body.length ∧ f.body.length ≤ 32

/-! ## What an event leaves alone -/

/-- The fields of a decision part that evaluations and group moves leave alone. -/
def Decision.sameOwner (a b : Decision) : Prop :=
  b.control = a.control ∧ b.forced = a.forced ∧ b.acknowledged = a.acknowledged ∧ b.late = a.late

/-- The mail slot a grant leaves: as it was, or POSTED become SENT with one attempt more (R162). -/
def MailSlot.granted (a b : MailSlot) : Prop :=
  b = a ∨ a.state = .posted ∧ b = { a with state := .sent, attempts := a.attempts + 1 }

/-- What an event and the grants it leads to leave alone: all but preferences and commanded values, riser states and
counts, the arbiter, the contexts, the notice queue, the command set, the transaction in progress, the places of the
sweep and of the round robin, the mail slot's sending, and the free choices. -/
structure RunFrame (s t : State) : Prop where
  pending : t.pending = s.pending
  slp : t.slp = s.slp
  stations : t.stations = s.stations
  tower : t.tower = s.tower
  lu : t.lu = s.lu
  nq : { t.nq with queue := s.nq.queue, noticeOverflow := s.nq.noticeOverflow } = s.nq
  cfg : ∀ u, (t.unit u).cfg = (s.unit u).cfg
  reading : ∀ u, (t.unit u).reading = (s.unit u).reading
  presence : ∀ u, (t.unit u).presence = (s.unit u).presence ∧ (t.unit u).misses = (s.unit u).misses
  owner : ∀ u, (s.unit u).decision.sameOwner (t.unit u).decision
  riser : ∀ r, (t.riser r).cfg = (s.riser r).cfg ∧ (t.riser r).live.memberCount = (s.riser r).live.memberCount ∧
    (t.riser r).live.locked = (s.riser r).live.locked
  speed : t.flc.latchedSpeed = s.flc.latchedSpeed
  post : t.flc.postNumber = s.flc.postNumber
  sweep : { t.flc.sweep with cursor := s.flc.sweep.cursor } = s.flc.sweep
  mail : s.flc.mail.granted t.flc.mail

/-- The configuration tables other than the notice mask (R176). -/
structure SameTables (s t : State) : Prop where
  units : ∀ u, (t.unit u).cfg = (s.unit u).cfg
  stations : ∀ st, (t.station st).cfg = (s.station st).cfg
  risers : ∀ r, (t.riser r).cfg = (s.riser r).cfg
  lines : ∀ l, (t.line l).cfg = (s.line l).cfg
  tower : t.tower = s.tower

/-! ## Ranges of the configuration records (R186, R59, R2, R148, R20, R9, R140) -/

/-- The ranges of a unit record's fields (R186). -/
structure UnitCfg.InRange (c : UnitCfg) : Prop where
  address : 1 ≤ c.address ∧ c.address ≤ 62
  epsilon : c.epsilon ≤ 950
  sMin : 10 ≤ c.sMin ∧ c.sMin ≤ 50
  defrostSpeed : 5 ≤ c.defrostSpeed ∧ c.defrostSpeed ≤ 50
  frostLimit : -2000 ≤ c.frostLimit ∧ c.frostLimit ≤ 500
  tSp : 1000 ≤ c.tSp ∧ c.tSp ≤ 3000
  db : 50 ≤ c.db ∧ c.db ≤ 500
  hm : c.hm ≤ 1000
  wMax : c.wMax ≤ 300
  minDwell : 30 ≤ c.minDwell ∧ c.minDwell ≤ 3600
  replyWindow : 5 ≤ c.replyWindow ∧ c.replyWindow ≤ 250
  deferLimit : c.deferLimit ≤ 7
  missLimit : 1 ≤ c.missLimit ∧ c.missLimit ≤ 15

/-- The ranges of a riser record's fields (R59). -/
structure RiserCfg.InRange (c : RiserCfg) : Prop where
  weight : 1 ≤ c.weight ∧ c.weight ≤ 100
  rank : c.rank ≤ 3
  quorum : 1 ≤ c.quorum ∧ c.quorum ≤ 8
  hold : 1 ≤ c.hold ∧ c.hold ≤ c.quorum
  settle : 10 ≤ c.settle ∧ c.settle ≤ 600
  readyWindow : 1 ≤ c.readyWindow ∧ c.readyWindow ≤ 30
  doneWindow : 5 ≤ c.doneWindow ∧ c.doneWindow ≤ 300

/-- The range of a station record's max age (R2). -/
def StationCfg.InRange (c : StationCfg) : Prop := 10 ≤ c.maxAge ∧ c.maxAge ≤ 3600

/-- The range of a line record's filter (R148). -/
def LineCfg.InRange (c : LineCfg) : Prop := 10 ≤ c.filter ∧ c.filter ≤ 2000

/-- The ranges of the tower record's fields (R20, R9, R140). -/
structure TowerCfg.InRange (c : TowerCfg) : Prop where
  tInRef : 1500 ≤ c.tInRef ∧ c.tInRef ≤ 3000
  bBase : c.bBase ≤ 400
  k : c.k ≤ 1000
  windLimit : c.windLimit ≤ 600
  staleLimit : 10 ≤ c.staleLimit ∧ c.staleLimit ≤ 600
  sweepPeriod : 1 ≤ c.sweepPeriod ∧ c.sweepPeriod ≤ 60

/-! ## The admission queue, the grant list and the contexts (R88, R89, R102) -/

/-- The riser state that goes with a context of this direction in this phase (R67 to R73, R102); absent where the
direction has no such phase. -/
def stateOfCtx : Direction → Phase → Option RiserState
  | .enter, .callPending => some .entering
  | .enter, .rollReady => some .entering
  | .enter, .commitPending => some .entering
  | .enter, .rollDone => some .entering
  | .enter, .cancelPending => some .leaving
  | .leave, .returnPending => some .leaving
  | .leave, .rollDone => some .leaving
  | _, _ => none

/-- The weights of the risers in LEAVING (R89). -/
def State.leavingWeight (s : State) : Nat :=
  sumWeights s.weight ((fins 6).filter fun r => (s.riser r).live.state == .leaving)

/-- Outside a run the outcome of a transaction in progress with a unit is heeded no more (R145). -/
def State.linkUnheeded (s : State) : Prop :=
  s.running = false → ∀ x, s.flc.link = some x → x.unit = none ∨ x.heeded = false

/-- The relation R88 fixes between the riser states and the arbiter's collections, with the draining weight (R89), the
states of risers with a context (R102), and nothing of it outside a run (R174, R145). -/
structure GroupsSafe (s : State) : Prop where
  queue : ∀ r, r ∈ s.sba.queue ↔ (s.riser r).live.state = .queued
  grants : ∀ r, r ∈ s.sba.grants ↔ (s.riser r).live.state = .entering ∨ (s.riser r).live.state = .free
  once : s.sba.queue.Nodup ∧ s.sba.grants.Nodup
  draining : s.sba.draining = s.leavingWeight
  ctxs : ∀ r c, s.ctx r = some c → stateOfCtx c.direction c.phase = some (s.riser r).live.state
  config : s.running = false → ∀ r, (s.riser r).live.state = .individual
  link : s.linkUnheeded

/-- The committed weight stays within the budget (R89, R92, R96), and nothing is granted outside a run (R174, R145). -/
structure BudgetSafe (s : State) : Prop where
  fits : s.committed ≤ s.sba.bEff
  config : s.running = false → s.sba.grants = []
  link : s.linkUnheeded

end Sys2Proof.Machine
end

