-- ==== Sys2Proof/Certificates/Slice0/Obligations.lean ====
section
/-! DEFINITION. Certificates/Slice0/Obligations.lean: the statements about this model. -/

open Sys2Proof Sys2Proof.Machine

/-! ## The machine -/

/-- One step takes the command at the front of the queue and leaves the rest; on an empty queue the part idles
(assumption log 1, the model's choice). -/
def Obligations.StepTakesTheFront : Prop :=
  (∀ (c : Instr) (rest : List Instr) (s : State),
    step { s with pending := c :: rest } = exec c { s with pending := rest }) ∧
  ∀ s : State, s.pending = [] → step s = .next s

/-- Every command completes, in every state, one in which its event cannot occur included (it then changes nothing:
assumption log 2, the model's choice), and leaves the commands that wait on the queue (assumption log 1, the model's
choice). -/
def Obligations.EveryCommandCompletes : Prop :=
  ∀ (i : Instr) (s : State), ∃ t : State, exec i s = .next t ∧ t.pending = s.pending

/-- The state after power-on (R182, R194, R186, R2, R59, R20, R9, R84, R126, R140, R146, R148). SPD, the pins, the
latched speed, and the cursor and start of the stopped sweep are the model's choice (assumption logs 13, 14 and 29). -/
def Obligations.ResetState : Prop :=
  State.reset.slp =
    { opState := .config, resetHeld := false, spd := false, receiver := .hunting, requests := [], reply := none,
      stx := .idle, restart := .none } ∧
  (∀ u, State.reset.unit u =
    { cfg :=
        { present := false, address := 1, riser := 0, station := 0, epsilon := 0, sMin := 20, defrostSpeed := 15,
          frostLimit := -100, tSp := 1500, db := 150, hm := 300, wMax := 120, minDwell := 300, replyWindow := 40,
          deferLimit := 2, missLimit := 3 }
      reading :=
        { air := none, reported := none, flags := ⟨false, false, false, false, false⟩, age := 0, condition := .none,
          clamped := false }
      decision :=
        { control := .auto, forced := none, preference := none, prefSpeed := none, commanded := none,
          acknowledged := none, dwell := 0, dwellExpired := false, lastHoa := none, lastHra := none, lastTexl := none,
          late := none }
      presence := .unseen
      misses := 0 }) ∧
  (∀ st, State.reset.station st =
    { cfg := { present := false, maxAge := 600 }, live := { air := none, age := 0, status := .none, clamped := false } }) ∧
  (∀ r, State.reset.riser r =
    { cfg :=
        { present := false, weight := 10, rank := 0, quorum := 1, hold := 1, settle := 90, readyWindow := 5,
          doneWindow := 60 }
      live :=
        { state := .individual, settle := 0, settleExpired := false, memberCount := 0, onlineMembers := 0, voters := [],
          locked := false, lastExit := .none } }) ∧
  State.reset.tower =
    { reference := 0, tInRef := 2100, bBase := 100, k := 60, windLimit := 150, staleLimit := 60, policy := .arrival,
      speed := .baud38400, sweepPeriod := 5 } ∧
  State.reset.sba = { bEff := 0, queue := [], grants := [], draining := 0 } ∧
  (∀ r, State.reset.ctx r = none) ∧ State.reset.ce.tagCounter = 0 ∧
  State.reset.flc =
    { link := none, latchedSpeed := .baud38400, releaseOwed := none, lastServed := 5, guarantee := 0,
      sweep := { running := false, counter := 0, cursor := 0, elapsed := 0 }, commands := [],
      mail := { state := .idle, unit := none, mail := none, attempts := 0, reply := none, reason := none },
      postNumber := 0 } ∧
  (∀ l, State.reset.line l =
    { cfg := { role := .none, polarity := .activeHigh, filter := 100 }, level := false, filterRemaining := none }) ∧
  State.reset.nq =
    { queue := [⟨3, .none, .start .powerOn⟩], mask := 0, noticeOverflow := false, requestOverrun := false,
      fieldCheck := false, startCause := .powerOn } ∧
  State.reset.pending = []

/-! ## What every step keeps -/

/-- The invariants hold at reset. -/
def Obligations.InvariantsAtReset : Prop :=
  NqSafe State.reset.nq ∧ SlpSafe State.reset.slp ∧ GroupsSafe State.reset ∧ BudgetSafe State.reset

/-- Every step keeps the notice queue at no more than 32 notices, highest level first, none below the mask, each at its
kind's fixed level (R188, R189, R191). -/
def Obligations.NoticeQueueKept : Prop :=
  ∀ s t : State, NqSafe s.nq → step s = .next t → NqSafe t.nq

/-- Every step keeps the receiver within a frame's length and the request buffer within its two slots (R168, R169). -/
def Obligations.RequestBufferKept : Prop :=
  ∀ s t : State, SlpSafe s.slp → step s = .next t → SlpSafe t.slp

/-- Every step keeps the relation between the riser states, the admission queue, the grant list, the draining weight and
the contexts (R88, R89, R102). -/
def Obligations.GroupsKept : Prop :=
  ∀ s t : State, GroupsSafe s → step s = .next t → GroupsSafe t

/-- Every step keeps the committed weight within the budget (R89, R92, R96). -/
def Obligations.BudgetKept : Prop :=
  ∀ s t : State, BudgetSafe s → step s = .next t → BudgetSafe t

/-- Only LOAD requests in CONFIG, SET_SETPOINT, SET_NOTICE_MASK and the starts change a configuration table (R176); so
every step keeps it that the tables of a run pass the checks of START_RUN (R178). -/
def Obligations.TablesChangeOnlyByTheirRequests : Prop :=
  (∀ (i : Instr) (s t : State), exec i s = .next t →
    (∀ spd, i ≠ .powerOn spd ∧ i ≠ .supplyLowRestart spd ∧ i ≠ .resetPinRelease spd) →
    ((∀ tag body, i ≠ .setNoticeMask tag body) → t.nq.mask = s.nq.mask) ∧
    ((s.slp.opState = .config → ∀ tag body, i ≠ .loadUnit tag body ∧ i ≠ .loadRiser tag body ∧
        i ≠ .loadStation tag body ∧ i ≠ .loadLine tag body ∧ i ≠ .loadTower tag body) →
      (∀ u, { (t.unit u).cfg with tSp := (s.unit u).cfg.tSp } = (s.unit u).cfg) ∧
      ((∀ tag body, i ≠ .setSetpoint tag body) → SameTables s t))) ∧
  ∀ s t : State, (s.running = true → s.configProblem = none) → step s = .next t →
    t.running = true → t.configProblem = none

/-! ## Starts (R181, R182, R194) -/

/-- Every start leaves the state of power-on with its own start cause; the commands waiting, the pin levels, the level of
RESETn and the count of free choices come from outside the part's records (assumption logs 13 and 15). -/
def Obligations.StartsLeaveThePowerOnState : Prop :=
  ∀ (s : State) (spd : Bool),
    exec (.powerOn spd) s = .next
      { State.reset with
        pending := s.pending, choices := s.choices, lu := { State.reset.lu with pins := s.lu.pins }
        slp := { State.reset.slp with spd := spd, resetHeld := s.slp.resetHeld } } ∧
    exec (.supplyLowRestart spd) s = .next
      { State.reset with
        pending := s.pending, choices := s.choices, lu := { State.reset.lu with pins := s.lu.pins }
        slp := { State.reset.slp with spd := spd, resetHeld := s.slp.resetHeld }
        nq := { queue := [⟨3, .none, .start .supplyLow⟩], startCause := .supplyLow } } ∧
    exec (.resetPinRelease spd) s = .next
      { State.reset with
        pending := s.pending, choices := s.choices, lu := { State.reset.lu with pins := s.lu.pins }
        slp := { State.reset.slp with spd := spd, resetHeld := false }
        nq := { queue := [⟨3, .none, .start .resetPin⟩], startCause := .resetPin } }

/-- RESETn going low stops both links and drives FDE and every output line inactive, and both stay inactive for as long as
it is low; meanwhile no byte is taken, no frame is sent and no request is taken: no command other than a start and a
change of a line's pin changes anything, and of the pin change only the level at the pin (R182). What the records hold
meanwhile, and that the part's own events wait, is the model's choice (assumption log 15). -/
def Obligations.ResetPinStopsThePart : Prop :=
  (∀ s : State, ∃ t : State, exec .resetPinAssert s = .next t ∧ t.pending = s.pending ∧
    t.slp = { s.slp with resetHeld := true, receiver := .hunting, reply := none, stx := .idle } ∧
    t.flc = { s.flc with link := none } ∧ t.units = s.units ∧ t.stations = s.stations ∧ t.risers = s.risers ∧
    t.tower = s.tower ∧ t.sba = s.sba ∧ t.ce = s.ce ∧ t.lu = s.lu ∧ t.nq = s.nq) ∧
  (∀ s : State, s.slp.resetHeld = true → s.fde = false ∧
    ∀ l, (s.line l).cfg.role = .outFault ∨ (s.line l).cfg.role = .outFree → s.lineLevel l = false) ∧
  (∀ (i : Instr) (s : State), s.slp.resetHeld = true →
    (∀ spd, i ≠ .powerOn spd ∧ i ≠ .supplyLowRestart spd ∧ i ≠ .resetPinRelease spd) → i ≠ .resetPinAssert →
    (∀ l high, i ≠ .linePinChange l high) → exec i s = .next s) ∧
  ∀ s : State, s.slp.resetHeld = true →
    (∀ l high, exec (.linePinChange l high) s = .next
      { s with lu := { s.lu with pins := updTable s.lu.pins l fun _ => high } }) ∧
    ∀ spd, ∃ t u : State, exec (.powerOn spd) s = .next t ∧ t.slp.resetHeld = true ∧
      exec (.supplyLowRestart spd) s = .next u ∧ u.slp.resetHeld = true

/-- RESTART is always accepted, and the part goes on as it is until its ACCEPT has left the line (R181). Taking effect, it
keeps the configuration tables, the mask and the post number, and leaves everything else as at power-on, with a START
notice of cause RESTART (R103, R146, R159, R160, R181, R194). -/
def Obligations.RestartKeepsTheTables : Prop :=
  (∀ (s : State) (tag : Byte), s.takes ⟨0x12, tag, []⟩ →
    exec (.restart tag []) s = .next
      ((s.taken.modSlp fun p => { p with restart := .accepted }).answer 0x12 tag (.accept [opStateCode s.slp.opState]))) ∧
  ∀ (s : State) (spd : Bool), s.slp.resetHeld = false → s.slp.restart = .due →
    ∃ t : State, exec (.restartTakesEffect spd) s = .next t ∧
      t.slp = { State.reset.slp with spd := spd } ∧
      (∀ u, t.unit u = { State.reset.unit u with cfg := (s.unit u).cfg }) ∧
      (∀ st, t.station st = { State.reset.station st with cfg := (s.station st).cfg }) ∧
      (∀ r, t.riser r = { State.reset.riser r with cfg := (s.riser r).cfg }) ∧
      t.tower = s.tower ∧ t.sba = State.reset.sba ∧ t.ce = State.reset.ce ∧
      t.flc = { State.reset.flc with postNumber := s.flc.postNumber } ∧
      t.nq = { queue := [⟨3, .none, .start .restart⟩], mask := s.nq.mask, startCause := .restart } ∧
      t.lu.pins = s.lu.pins ∧
      ∀ l, t.line l =
        { cfg := (s.line l).cfg
          level := false
          filterRemaining :=
            if (s.line l).cfg.role.isInput = true ∧ s.pinShowsActive l = true then some (s.line l).cfg.filter else none }

/-! ## The supervisor link (R168 to R172, R190) -/

/-- A frame as it stands on the line, received by the hunting receiver, goes to the request buffer whole; with both slots
occupied it is discarded and REQUEST_OVERRUN is set (R168, R169, R183). -/
def Obligations.FrameOnTheLineIsReceived : Prop :=
  ∀ (s : State) (f : SupFrame), s.slp.resetHeld = false → s.slp.receiver = .hunting → f.body.length ≤ 120 →
    exec (.supervisorFrameComplete (f.bytes.map fun b => ⟨b, true⟩)) s = .next
      (if s.slp.requests.length < 2 then { s with slp := { s.slp with requests := s.slp.requests ++ [f] } }
       else { s with nq := { s.nq with requestOverrun := true } })

/-- A frame with another CRC, or with a byte whose stop bit was missing, changes nothing; more than 20 ms between two bytes
of a frame discard the partial frame, and the byte that ends the gap is taken by the hunting receiver; a length byte above
120 discards the frame, and the receiver hunts (R168). -/
def Obligations.BadFramesAreDiscarded : Prop :=
  ∀ s : State, s.slp.resetHeld = false → s.slp.receiver = .hunting →
    (∀ (f : SupFrame) (crc : Word) (stop : List Bool), f.body.length ≤ 120 → stop.length = f.body.length + 6 →
      crc ≠ crc16 f.covered ∨ false ∈ stop →
      exec (.supervisorFrameComplete (List.zipWith RxByte.mk (0xA5 :: f.covered ++ bytesOf crc) stop)) s = .next s) ∧
    (∀ (f : SupFrame) (n : Nat) (b : RxByte), f.body.length ≤ 120 → 1 ≤ n → n < f.bytes.length →
      exec (.supervisorInterByteGap ((f.bytes.take n).map fun x => ⟨x, true⟩) b) s = .next
        { s with slp := { s.slp with receiver := if b.value = 0xA5 then .inFrame [] b.stopBit else .hunting } }) ∧
    ∀ (stop : Bool) (length : RxByte), 120 < length.value.toNat →
      exec (.supervisorLengthDiscard [⟨0xA5, stop⟩] length) s = .next s

/-- When the last byte of the reply has left, no reply is pending, and an accepted RESTART is due; when that of a notice
has left, a reply that waits goes next (R170, R171, R181). With no frame being sent the command changes nothing (assumption log 2,
the model's choice). -/
def Obligations.FrameSentFreesTheLine : Prop :=
  ∀ s : State, s.slp.resetHeld = false →
    (s.slp.stx = .reply → exec .supervisorFrameSent s = .next
      { s with
        slp :=
          { s.slp with
            reply := none, stx := .idle, restart := if s.slp.restart = .accepted then .due else s.slp.restart } }) ∧
    (∀ n, s.slp.stx = .notice n → exec .supervisorFrameSent s = .next
      { s with slp := { s.slp with stx := if s.slp.reply = none then .idle else .reply } }) ∧
    (s.slp.stx = .idle → exec .supervisorFrameSent s = .next s)

/-- With STX idle and no reply pending the head notice is sent, and it leaves the queue as its sending begins; a pending
reply and a frame being sent hold it back (R171, R190). The frame of a notice, item by item, of every kind of notice: kind
NOTICE, tag 0, the level, the notice kind, the subject and the contents (R187, R188; which items have a presence byte is
read from the spec in assumption log 16), with the codes of the enumerated items and the two bytes of a number (R187). The
bytes of every supervisor frame on the line, with its CRC computed bit by bit (R183). -/
def Obligations.HeadNoticeIsSent : Prop :=
  (∀ s : State, s.slp.resetHeld = false → s.slp.restart ≠ .due →
    (∀ n rest, s.nq.queue = n :: rest → s.slp.stx = .idle → s.slp.reply = none →
      exec .noticeSend s = .next { s with nq := { s.nq with queue := rest }, slp := { s.slp with stx := .notice n } }) ∧
    (s.nq.queue = [] ∨ s.slp.stx ≠ .idle ∨ s.slp.reply ≠ none → exec .noticeSend s = .next s)) ∧
  (∀ (level : Nat) (subject : Subject) (content : Content),
    let named : List Byte := match subject with
      | .none => [0, 0]
      | .unit u => [1, byteOf u.val]
      | .riser r => [2, byteOf r.val]
      | .station st => [3, byteOf st.val]
      | .line l => [4, byteOf l.val]
    let held : List Byte := match content with
      | .start c => [startCauseCode c]
      | .lineEdge role active => [roleCode role, flagByte active]
      | .unitPresence p => [presenceCode p]
      | .unitFault f =>
        [byteOf ((if f.fanOff then 1 else 0) + (if f.wheelFault then 2 else 0) + (if f.damperFault then 4 else 0) +
          (if f.sensorFault then 8 else 0) + (if f.localHand then 16 else 0))]
      | .frost entered none => [if entered then 0 else 1, 0]
      | .frost entered (some t) => [if entered then 0 else 1, 1] ++ num16 t
      | .changeover d tag res none late => [directionCode d, tag, resultCode res, 0, byteOf late]
      | .changeover d tag res (some why) late => [directionCode d, tag, resultCode res, 1, causeCode why, byteOf late]
      | .revoked st b => riserStateCode st :: num16 b
      | .stationStatus st => [stationStatusCode st]
      | .commandRefused why => [nakCode why]
      | .riserState st why => [riserStateCode st, causeCode why]
      | .budget b => num16 b
      | .unitHand entered => [if entered then 0 else 1]
      | .mailDone none attempts => [3, 0, byteOf attempts]
      | .mailDone (some why) attempts => [4, 1, mailFailureCode why, byteOf attempts]
      | .unitMode m => [modeCode (some m.mode), byteOf m.speed]
    let kind : Byte := match content with
      | .start _ => 0 | .lineEdge _ _ => 1 | .unitPresence _ => 2 | .unitFault _ => 3 | .frost _ _ => 4
      | .changeover _ _ _ _ _ => 5 | .revoked _ _ => 6 | .stationStatus _ => 7 | .commandRefused _ => 8
      | .riserState _ _ => 9 | .budget _ => 10 | .unitHand _ => 11 | .mailDone _ _ => 12 | .unitMode _ => 13
    Notice.frame ⟨level, subject, content⟩ = ⟨0x82, 0, [byteOf level, kind] ++ named ++ held⟩) ∧
  ([StartCause.powerOn, .resetPin, .supplyLow, .restart].map startCauseCode = [0, 1, 2, 3] ∧
    [Role.none, .inWind, .inFreeze, .inEmergency, .outFault, .outFree].map roleCode = [0, 1, 2, 3, 4, 5] ∧
    [Presence.unseen, .online, .offline].map presenceCode = [0, 1, 2] ∧
    [Condition.none, .fresh, .stale, .sensorHold].map conditionCode = [0, 1, 2, 3] ∧
    [StationStatus.none, .fresh, .stale].map stationStatusCode = [0, 1, 2] ∧
    [Control.auto, .forced, .hand].map controlCode = [0, 1, 2] ∧
    [RiserState.individual, .queued, .entering, .free, .leaving].map riserStateCode = [0, 1, 2, 3, 4] ∧
    [Cause.none, .votes, .revoked, .locked, .freeze, .emergency, .refused, .readyTimeout, .quorumLost, .quorum,
      .admitted, .complete].map causeCode = [0, 1, 2, 3, 4, 5, 6, 7, 8, 9, 10, 11] ∧
    [Direction.enter, .leave].map directionCode = [0, 1] ∧
    [Phase.callPending, .rollReady, .commitPending, .rollDone, .cancelPending, .returnPending].map phaseCode =
      [0, 1, 2, 3, 4, 5] ∧
    [PartStatus.pending, .ready, .done, .refused, .dropped, .late].map partStatusCode = [0, 1, 2, 3, 4, 5] ∧
    [Result.complete, .completeLate, .cancelled].map resultCode = [0, 1, 2] ∧
    [MailFailure.noReply, .offline].map mailFailureCode = [0, 1] ∧
    [NakReason.hand, .fault, .badMode].map nakCode = [1, 2, 3] ∧
    [none, some Mode.recoverHeat, some .recoverCool, some .bypass, some .freeCool, some .defrost, some .safe].map
      modeCode = [0, 1, 2, 3, 4, 5, 6] ∧
    flagByte true = 1 ∧ flagByte false = 0 ∧
    ∀ n : Int, num16 n = [BitVec.ofInt 8 (n / 256), BitVec.ofInt 8 n]) ∧
  (∀ f : SupFrame,
    let covered := byteOf f.body.length :: f.kind :: f.tag :: f.body
    f.bytes = 0xA5 :: covered ++ [(crc16 covered).extractLsb' 8 8, (crc16 covered).extractLsb' 0 8]) ∧
  crc16 [] = 0xFFFF ∧
  ∀ (l : List Byte) (b : Byte),
    let shift := fun c : Word => if c.msb then (c <<< 1) ^^^ 0x1021#16 else c <<< 1
    crc16 (l ++ [b]) = shift (shift (shift (shift (shift (shift (shift (shift (crc16 l ^^^ (b.setWidth 16 <<< 8)))))))))

/-- A frame whose kind is no request kind is refused with UNKNOWN_KIND, the codes of ACCEPT, REFUSE and NOTICE among them;
of every request kind a body length or an operating state that the catalogue does not allow is refused, in that order,
with FRAME_LENGTH or WRONG_STATE; nothing else changes (R170, R172, R173). A request whose frame the port does not take
now changes nothing (assumption log 3, the model's reading). Every answer: the frame of the ACCEPT or of the REFUSE, with
the tag and the kind of the request, and for a REFUSE the code of its reason and the detail, becomes the pending reply, and
goes out at once where STX is idle; nothing else changes (R171, R172; that it begins in the same step is assumption log 4,
the model's reading). -/
def Obligations.CatalogueRefusals : Prop :=
  (∀ (s : State) (kind tag : Byte) (body : List Byte), (∀ k ∈ ReqKind.all, k.code ≠ kind) → s.takes ⟨kind, tag, body⟩ →
    exec (.unknownKind kind tag body) s = .next (s.taken.answer kind tag (.refuse .unknownKind kind))) ∧
  (∀ k ∈ ReqKind.all, k.code ≠ 0x80 ∧ k.code ≠ 0x81 ∧ k.code ≠ 0x82) ∧
  (∀ (i : Instr) (k : ReqKind) (tag : Byte) (body : List Byte) (s : State), requestOf i = some (k, tag, body) →
    (¬ s.takes ⟨k.code, tag, body⟩ → exec i s = .next s) ∧
    (s.takes ⟨k.code, tag, body⟩ →
      (k.lengthOk body.length = false →
        exec i s = .next (s.taken.answer k.code tag (.refuse .frameLength (byteOf body.length)))) ∧
      (k.lengthOk body.length = true → k.allowed s.slp.opState = false →
        exec i s = .next (s.taken.answer k.code tag (.refuse .wrongState (opStateCode s.slp.opState)))))) ∧
  ([ReqKind.loadUnit, .loadRiser, .loadStation, .loadLine, .loadTower, .readConfig].map ReqKind.code =
      [0x01, 0x02, 0x03, 0x04, 0x05, 0x06] ∧
    [ReqKind.startRun, .stopRun, .restart, .stationReading, .setSetpoint, .setOverride, .lockRiser].map ReqKind.code =
      [0x10, 0x11, 0x12, 0x20, 0x21, 0x22, 0x23] ∧
    [ReqKind.readUnit, .readRiser, .readStation, .readBudget, .readStatus].map ReqKind.code =
      [0x30, 0x31, 0x32, 0x33, 0x34] ∧
    [ReqKind.setNoticeMask, .flushNotices, .clearFlags, .postMail, .takeMail, .cancelMail].map ReqKind.code =
      [0x40, 0x41, 0x42, 0x50, 0x51, 0x52] ∧
    [OpState.config, .advise, .coordinate].map opStateCode = [0, 1, 2]) ∧
  ∀ (s : State) (kind tag : Byte),
    let replies := fun f : SupFrame =>
      { s with slp := { s.slp with reply := some f, stx := if s.slp.stx = .idle then .reply else s.slp.stx } }
    (∀ items, s.answer kind tag (.accept items) = replies ⟨0x80, tag, kind :: items⟩) ∧
    ∀ reason detail, s.answer kind tag (.refuse reason detail) = replies ⟨0x81, tag,
      [kind,
        match reason with
        | .frameLength => 1 | .unknownKind => 2 | .wrongState => 3 | .outOfRange => 4 | .noSuchItem => 5
        | .configInvalid => 6 | .busy => 7 | .unitOffline => 8 | .notPermitted => 9,
        detail]⟩

/-! ## Configuration (R175 to R178) -/

/-- Every configuration record within its ranges is read back from its own bytes, and every byte string that is accepted
is the bytes of a record within its ranges: no bit of a record is dropped (R175, R177, R186). -/
def Obligations.RecordsRoundTrip : Prop :=
  (∀ c : UnitCfg, c.InRange → parseUnit (unitBytes c) = .ok c) ∧
  (∀ c : RiserCfg, c.InRange → parseRiser (riserBytes c) = .ok c) ∧
  (∀ c : StationCfg, c.InRange → parseStation (stationBytes c) = .ok c) ∧
  (∀ c : LineCfg, c.InRange → parseLine (lineBytes c) = .ok c) ∧
  (∀ c : TowerCfg, c.InRange → parseTower (towerBytes c) = .ok c) ∧
  (∀ b c, parseUnit b = .ok c → c.InRange ∧ unitBytes c = b) ∧
  (∀ b c, parseRiser b = .ok c → c.InRange ∧ riserBytes c = b) ∧
  (∀ b c, parseStation b = .ok c → c.InRange ∧ stationBytes c = b) ∧
  (∀ b c, parseLine b = .ok c → c.InRange ∧ lineBytes c = b) ∧
  (∀ b c, parseTower b = .ok c → c.InRange ∧ towerBytes c = b)

/-- A LOAD request in CONFIG with a record within its ranges replaces that record whole and changes no other; a loaded
line's live part starts afresh (R149, R175). -/
def Obligations.LoadStoresTheRecord : Prop :=
  ∀ (s : State) (tag : Byte), s.slp.opState = .config →
    (∀ (u : UnitNo) (c : UnitCfg), c.InRange → s.takes ⟨0x01, tag, byteOf u.val :: unitBytes c⟩ →
      exec (.loadUnit tag (byteOf u.val :: unitBytes c)) s = .next
        ((s.taken.modUnit u fun x => { x with cfg := c }).answer 0x01 tag (.accept []))) ∧
    (∀ (r : RiserNo) (c : RiserCfg), c.InRange → s.takes ⟨0x02, tag, byteOf r.val :: riserBytes c⟩ →
      exec (.loadRiser tag (byteOf r.val :: riserBytes c)) s = .next
        ((s.taken.modRiser r fun x => { x with cfg := c }).answer 0x02 tag (.accept []))) ∧
    (∀ (st : StationNo) (c : StationCfg), c.InRange → s.takes ⟨0x03, tag, byteOf st.val :: stationBytes c⟩ →
      exec (.loadStation tag (byteOf st.val :: stationBytes c)) s = .next
        ((s.taken.modStation st fun x => { x with cfg := c }).answer 0x03 tag (.accept []))) ∧
    (∀ (l : LineNo) (c : LineCfg), c.InRange → s.takes ⟨0x04, tag, byteOf l.val :: lineBytes c⟩ →
      exec (.loadLine tag (byteOf l.val :: lineBytes c)) s = .next
        ((s.taken.modLine l fun _ =>
          { cfg := c
            level := false
            filterRemaining :=
              if c.role.isInput = true ∧ (s.lu.pins[l] = true ↔ c.polarity = .activeHigh) then some c.filter else none
          }).answer 0x04 tag (.accept []))) ∧
    (∀ c : TowerCfg, c.InRange → s.takes ⟨0x05, tag, towerBytes c⟩ →
      exec (.loadTower tag (towerBytes c)) s = .next
        (({ s.taken with tower := c } : State).answer 0x05 tag (.accept [])))

/-- A LOAD request of the right length is refused, and nothing else changes, with NO_SUCH_ITEM for an item number out of
the numbering, else with OUT_OF_RANGE for a record that is not the bytes of any record within its ranges; the detail is
then the index, counted from 1 in the order the record carries its fields, of the first field outside its range (R59,
R172, R175, R186). -/
def Obligations.LoadRefusals : Prop :=
  ∀ (s : State) (tag n : Byte), s.slp.opState = .config →
    (∀ b : List Byte, b.length = 23 → s.takes ⟨0x01, tag, n :: b⟩ →
      (24 ≤ n.toNat → exec (.loadUnit tag (n :: b)) s = .next (s.taken.answer 0x01 tag (.refuse .noSuchItem n))) ∧
      (n.toNat < 24 → (∀ c : UnitCfg, c.InRange → unitBytes c ≠ b) → ∃ i, 1 ≤ i ∧ i ≤ 16 ∧
        exec (.loadUnit tag (n :: b)) s = .next (s.taken.answer 0x01 tag (.refuse .outOfRange (byteOf i))))) ∧
    (∀ (present address riser station sMin defrost window deferLimit missLimit : Byte)
        (epsilon frost tSp db hm wMax dwell : Word) (i : Nat),
      let record := [present, address, riser, station] ++ bytesOf epsilon ++ [sMin, defrost] ++ bytesOf frost ++
        bytesOf tSp ++ bytesOf db ++ bytesOf hm ++ bytesOf wMax ++ bytesOf dwell ++ [window, deferLimit, missLimit]
      let good : List Bool :=
        [decide (present.toNat ≤ 1), decide (1 ≤ address.toNat ∧ address.toNat ≤ 62), decide (riser.toNat ≤ 5),
          decide (station.toNat ≤ 7), decide (epsilon.toNat ≤ 950), decide (10 ≤ sMin.toNat ∧ sMin.toNat ≤ 50),
          decide (5 ≤ defrost.toNat ∧ defrost.toNat ≤ 50), decide (-2000 ≤ frost.toInt ∧ frost.toInt ≤ 500),
          decide (1000 ≤ tSp.toInt ∧ tSp.toInt ≤ 3000), decide (50 ≤ db.toNat ∧ db.toNat ≤ 500),
          decide (hm.toNat ≤ 1000), decide (wMax.toNat ≤ 300), decide (30 ≤ dwell.toNat ∧ dwell.toNat ≤ 3600),
          decide (5 ≤ window.toNat ∧ window.toNat ≤ 250), decide (deferLimit.toNat ≤ 7),
          decide (1 ≤ missLimit.toNat ∧ missLimit.toNat ≤ 15)]
      n.toNat < 24 → s.takes ⟨0x01, tag, n :: record⟩ → (∀ j, j < i → good[j]? = some true) → good[i]? = some false →
      exec (.loadUnit tag (n :: record)) s = .next (s.taken.answer 0x01 tag (.refuse .outOfRange (byteOf (i + 1))))) ∧
    (∀ b : List Byte, b.length = 10 → s.takes ⟨0x02, tag, n :: b⟩ →
      (6 ≤ n.toNat → exec (.loadRiser tag (n :: b)) s = .next (s.taken.answer 0x02 tag (.refuse .noSuchItem n))) ∧
      (n.toNat < 6 → (∀ c : RiserCfg, c.InRange → riserBytes c ≠ b) → ∃ i, 1 ≤ i ∧ i ≤ 8 ∧
        exec (.loadRiser tag (n :: b)) s = .next (s.taken.answer 0x02 tag (.refuse .outOfRange (byteOf i))))) ∧
    (∀ (present weight rank quorum hold window : Byte) (settle done : Word) (i : Nat),
      let record := [present, weight, rank, quorum, hold] ++ bytesOf settle ++ [window] ++ bytesOf done
      let good : List Bool :=
        [decide (present.toNat ≤ 1), decide (1 ≤ weight.toNat ∧ weight.toNat ≤ 100), decide (rank.toNat ≤ 3),
          decide (1 ≤ quorum.toNat ∧ quorum.toNat ≤ 8), decide (1 ≤ hold.toNat ∧ hold.toNat ≤ quorum.toNat),
          decide (10 ≤ settle.toNat ∧ settle.toNat ≤ 600), decide (1 ≤ window.toNat ∧ window.toNat ≤ 30),
          decide (5 ≤ done.toNat ∧ done.toNat ≤ 300)]
      n.toNat < 6 → s.takes ⟨0x02, tag, n :: record⟩ → (∀ j, j < i → good[j]? = some true) → good[i]? = some false →
      exec (.loadRiser tag (n :: record)) s = .next (s.taken.answer 0x02 tag (.refuse .outOfRange (byteOf (i + 1))))) ∧
    (∀ b : List Byte, b.length = 3 → s.takes ⟨0x03, tag, n :: b⟩ →
      (8 ≤ n.toNat → exec (.loadStation tag (n :: b)) s = .next (s.taken.answer 0x03 tag (.refuse .noSuchItem n))) ∧
      (n.toNat < 8 → (∀ c : StationCfg, c.InRange → stationBytes c ≠ b) → ∃ i, 1 ≤ i ∧ i ≤ 2 ∧
        exec (.loadStation tag (n :: b)) s = .next (s.taken.answer 0x03 tag (.refuse .outOfRange (byteOf i))))) ∧
    (∀ (present : Byte) (maxAge : Word) (i : Nat),
      let record := present :: bytesOf maxAge
      let good : List Bool := [decide (present.toNat ≤ 1), decide (10 ≤ maxAge.toNat ∧ maxAge.toNat ≤ 3600)]
      n.toNat < 8 → s.takes ⟨0x03, tag, n :: record⟩ → (∀ j, j < i → good[j]? = some true) → good[i]? = some false →
      exec (.loadStation tag (n :: record)) s = .next
        (s.taken.answer 0x03 tag (.refuse .outOfRange (byteOf (i + 1))))) ∧
    (∀ b : List Byte, b.length = 4 → s.takes ⟨0x04, tag, n :: b⟩ →
      (6 ≤ n.toNat → exec (.loadLine tag (n :: b)) s = .next (s.taken.answer 0x04 tag (.refuse .noSuchItem n))) ∧
      (n.toNat < 6 → (∀ c : LineCfg, c.InRange → lineBytes c ≠ b) → ∃ i, 1 ≤ i ∧ i ≤ 3 ∧
        exec (.loadLine tag (n :: b)) s = .next (s.taken.answer 0x04 tag (.refuse .outOfRange (byteOf i))))) ∧
    (∀ (role polarity : Byte) (filter : Word) (i : Nat),
      let record := [role, polarity] ++ bytesOf filter
      let good : List Bool :=
        [decide (role.toNat ≤ 5), decide (polarity.toNat ≤ 1), decide (10 ≤ filter.toNat ∧ filter.toNat ≤ 2000)]
      n.toNat < 6 → s.takes ⟨0x04, tag, n :: record⟩ → (∀ j, j < i → good[j]? = some true) → good[i]? = some false →
      exec (.loadLine tag (n :: record)) s = .next (s.taken.answer 0x04 tag (.refuse .outOfRange (byteOf (i + 1))))) ∧
    (∀ b : List Byte, b.length = 14 → s.takes ⟨0x05, tag, b⟩ → (∀ c : TowerCfg, c.InRange → towerBytes c ≠ b) →
      ∃ i, 1 ≤ i ∧ i ≤ 9 ∧
        exec (.loadTower tag b) s = .next (s.taken.answer 0x05 tag (.refuse .outOfRange (byteOf i)))) ∧
    ∀ (reference policy speed period : Byte) (tIn bBase k wind stale : Word) (i : Nat),
      let record := reference :: (bytesOf tIn ++ bytesOf bBase ++ bytesOf k ++ bytesOf wind ++ bytesOf stale ++
        [policy, speed, period])
      let good : List Bool :=
        [decide (reference.toNat ≤ 7), decide (1500 ≤ tIn.toInt ∧ tIn.toInt ≤ 3000), decide (bBase.toNat ≤ 400),
          decide (k.toNat ≤ 1000), decide (wind.toNat ≤ 600), decide (10 ≤ stale.toNat ∧ stale.toNat ≤ 600),
          decide (policy.toNat ≤ 1), decide (speed.toNat ≤ 2), decide (1 ≤ period.toNat ∧ period.toNat ≤ 60)]
      s.takes ⟨0x05, tag, record⟩ → (∀ j, j < i → good[j]? = some true) → good[i]? = some false →
      exec (.loadTower tag record) s = .next (s.taken.answer 0x05 tag (.refuse .outOfRange (byteOf (i + 1))))

/-- READ_CONFIG returns the record named, laid out as the matching LOAD carries it, in every operating state, and changes
nothing else; a table code outside 1..5 and an index outside the numbering are refused (R177). -/
def Obligations.ReadConfigReturnsTheRecord : Prop :=
  ∀ (s : State) (tag : Byte),
    (∀ u : UnitNo, s.takes ⟨0x06, tag, [1, byteOf u.val]⟩ → exec (.readConfig tag [1, byteOf u.val]) s = .next
      (s.taken.answer 0x06 tag (.accept (1 :: byteOf u.val :: unitBytes (s.unit u).cfg)))) ∧
    (∀ r : RiserNo, s.takes ⟨0x06, tag, [2, byteOf r.val]⟩ → exec (.readConfig tag [2, byteOf r.val]) s = .next
      (s.taken.answer 0x06 tag (.accept (2 :: byteOf r.val :: riserBytes (s.riser r).cfg)))) ∧
    (∀ st : StationNo, s.takes ⟨0x06, tag, [3, byteOf st.val]⟩ → exec (.readConfig tag [3, byteOf st.val]) s = .next
      (s.taken.answer 0x06 tag (.accept (3 :: byteOf st.val :: stationBytes (s.station st).cfg)))) ∧
    (∀ l : LineNo, s.takes ⟨0x06, tag, [4, byteOf l.val]⟩ → exec (.readConfig tag [4, byteOf l.val]) s = .next
      (s.taken.answer 0x06 tag (.accept (4 :: byteOf l.val :: lineBytes (s.line l).cfg)))) ∧
    (s.takes ⟨0x06, tag, [5, 0]⟩ → exec (.readConfig tag [5, 0]) s = .next
      (s.taken.answer 0x06 tag (.accept (5 :: 0 :: towerBytes s.tower)))) ∧
    (∀ table index : Byte, s.takes ⟨0x06, tag, [table, index]⟩ → table.toNat < 1 ∨ 5 < table.toNat →
      exec (.readConfig tag [table, index]) s = .next (s.taken.answer 0x06 tag (.refuse .outOfRange 1))) ∧
    ∀ table index : Byte, s.takes ⟨0x06, tag, [table, index]⟩ →
      table = 1 ∧ 24 ≤ index.toNat ∨ table = 2 ∧ 6 ≤ index.toNat ∨ table = 3 ∧ 8 ≤ index.toNat ∨
        table = 4 ∧ 6 ≤ index.toNat ∨ table = 5 ∧ 1 ≤ index.toNat →
      exec (.readConfig tag [table, index]) s = .next (s.taken.answer 0x06 tag (.refuse .noSuchItem index))

/-! ## Runs (R174, R178 to R180) -/

/-- The seven checks of START_RUN: what passes, and the detail code of each, given by its first item in ascending number
where the checks before it pass; another run mode than 1 or 2, and tables that fail a check, refuse it, and nothing else
changes (R178). -/
def Obligations.StartRunRefusals : Prop :=
  (∀ s : State,
    (s.configProblem = none ↔
      (∃ u, (s.unit u).cfg.present = true) ∧
      (∀ u, (s.unit u).cfg.present = true →
        (s.riser (s.unit u).cfg.riser).cfg.present = true ∧ (s.station (s.unit u).cfg.station).cfg.present = true ∧
        ∀ v, v < u → (s.unit v).cfg.present = true → (s.unit v).cfg.address ≠ (s.unit u).cfg.address) ∧
      (∀ r, (s.riser r).cfg.present = true →
        1 ≤ (s.members r).length ∧ (s.members r).length ≤ 8 ∧ (s.riser r).cfg.quorum ≤ (s.members r).length) ∧
      (s.station s.tower.reference).cfg.present = true) ∧
    ((∀ u, (s.unit u).cfg.present = false) → s.configProblem = some 0x00) ∧
    (∀ u, (s.unit u).cfg.present = true → (s.riser (s.unit u).cfg.riser).cfg.present = false →
      (∀ v, v < u → (s.unit v).cfg.present = true → (s.riser (s.unit v).cfg.riser).cfg.present = true) →
      s.configProblem = some (0x40 + u.val)) ∧
    ∀ u, (∀ v, (s.unit v).cfg.present = true → (s.riser (s.unit v).cfg.riser).cfg.present = true) →
      (s.unit u).cfg.present = true → (s.station (s.unit u).cfg.station).cfg.present = false →
      (∀ v, v < u → (s.unit v).cfg.present = true → (s.station (s.unit v).cfg.station).cfg.present = true) →
      s.configProblem = some (0x60 + u.val)) ∧
  (∀ s : State,
    let named := ∀ u, (s.unit u).cfg.present = true →
      (s.riser (s.unit u).cfg.riser).cfg.present = true ∧ (s.station (s.unit u).cfg.station).cfg.present = true
    let taken := fun u : UnitNo =>
      ∃ v, v < u ∧ (s.unit v).cfg.present = true ∧ (s.unit v).cfg.address = (s.unit u).cfg.address
    let apart := ∀ u, (s.unit u).cfg.present = true → ¬ taken u
    let sized := fun r : RiserNo => 1 ≤ (s.members r).length ∧ (s.members r).length ≤ 8
    (∀ u, named → (s.unit u).cfg.present = true → taken u →
      (∀ w, w < u → (s.unit w).cfg.present = true → ¬ taken w) → s.configProblem = some (0x80 + u.val)) ∧
    ((∃ u, (s.unit u).cfg.present = true) → named → apart →
      (∀ r, (s.riser r).cfg.present = true → ¬ sized r →
        (∀ q, q < r → (s.riser q).cfg.present = true → sized q) → s.configProblem = some (0xA0 + r.val)) ∧
      ((∀ r, (s.riser r).cfg.present = true → sized r) →
        (∀ r, (s.riser r).cfg.present = true → (s.members r).length < (s.riser r).cfg.quorum →
          (∀ q, q < r → (s.riser q).cfg.present = true → (s.riser q).cfg.quorum ≤ (s.members q).length) →
          s.configProblem = some (0xB0 + r.val)) ∧
        ((∀ r, (s.riser r).cfg.present = true → (s.riser r).cfg.quorum ≤ (s.members r).length) →
          (s.station s.tower.reference).cfg.present = false → s.configProblem = some 0xC0)))) ∧
  ∀ (s : State) (tag m : Byte), s.slp.opState = .config → s.takes ⟨0x10, tag, [m]⟩ →
    (m ≠ 1 → m ≠ 2 → exec (.startRun tag [m]) s = .next (s.taken.answer 0x10 tag (.refuse .outOfRange 1))) ∧
    ∀ code, m = 1 ∨ m = 2 → s.configProblem = some code →
      exec (.startRun tag [m]) s = .next (s.taken.answer 0x10 tag (.refuse .configInvalid (byteOf code)))

/-- An accepted START_RUN begins the run with every live record at its run-start value, and polls the first present unit
at once where the link is free (R179, R140, R145). -/
def Obligations.StartRunBeginsARun : Prop :=
  ∀ (s : State) (tag : Byte) (o : OpState), o ≠ .config → s.slp.opState = .config →
    s.takes ⟨0x10, tag, [opStateCode o]⟩ → s.configProblem = none →
    ∃ t : State, exec (.startRun tag [opStateCode o]) s = .next (t.answer 0x10 tag (.accept [opStateCode o])) ∧
      t.pending = s.pending ∧ t.slp = { s.taken.slp with opState := o } ∧ t.tower = s.tower ∧ t.lu = s.lu ∧ t.nq = s.nq ∧
      (∀ u, t.unit u = { cfg := (s.unit u).cfg }) ∧ (∀ st, t.station st = { cfg := (s.station st).cfg }) ∧
      (∀ r, t.riser r =
        { cfg := (s.riser r).cfg
          live := { memberCount := if (s.riser r).cfg.present = true then (s.members r).length else 0 } }) ∧
      t.sba = {} ∧ (∀ r, t.ctx r = none) ∧ t.ce.tagCounter = s.ce.tagCounter ∧
      (s.flc.link ≠ none → t.flc =
        { link := s.flc.link, latchedSpeed := s.tower.speed, releaseOwed := s.flc.releaseOwed
          sweep := { running := true, counter := 0, cursor := 0, elapsed := 0 }, postNumber := s.flc.postNumber }) ∧
      ∀ u, (s.unit u).cfg.present = true → (∀ v, v < u → (s.unit v).cfg.present = false) → s.flc.link = none →
        s.flc.releaseOwed = none → t.flc =
          { link := some
              { frame := ⟨byteOf (s.unit u).cfg.address, 0x01, []⟩, requester := .sweep, unit := some u
                speed := s.tower.speed }
            latchedSpeed := s.tower.speed
            sweep := { running := true, counter := 0, cursor := u.val + 1, elapsed := 0 }
            postNumber := s.flc.postNumber }

/-- STOP_RUN returns to CONFIG with every live record cleared; a transaction in progress runs on unheeded, and in
COORDINATE one RELEASE is owed, sent at once where the link is IDLE; notices, flags, tables, the tag counter and the
post number are kept (R145, R180; the sweep counter: assumption log 24). -/
def Obligations.StopRunEndsTheRun : Prop :=
  ∀ (s : State) (tag : Byte), s.slp.opState ≠ .config → s.takes ⟨0x11, tag, []⟩ →
    ∃ t : State, exec (.stopRun tag []) s = .next (t.answer 0x11 tag (.accept [opStateCode s.slp.opState])) ∧
      t.pending = s.pending ∧ t.slp = { s.taken.slp with opState := .config } ∧ t.tower = s.tower ∧ t.lu = s.lu ∧
      t.nq = s.nq ∧
      (∀ u, t.unit u = { cfg := (s.unit u).cfg }) ∧ (∀ st, t.station st = { cfg := (s.station st).cfg }) ∧
      (∀ r, t.riser r = { cfg := (s.riser r).cfg }) ∧ t.sba = {} ∧ (∀ r, t.ctx r = none) ∧
      t.ce.tagCounter = s.ce.tagCounter ∧ t.flc.latchedSpeed = s.flc.latchedSpeed ∧ t.flc.commands = [] ∧
      t.flc.mail = {} ∧ t.flc.postNumber = s.flc.postNumber ∧ t.flc.sweep.running = false ∧ t.flc.lastServed = 5 ∧
      t.flc.guarantee = 0 ∧
      (∀ x, s.flc.link = some x → t.flc.link = some { x with heeded := false } ∧
        (s.flc.releaseOwed = none → t.flc.releaseOwed =
          if s.slp.opState = .coordinate then some s.flc.latchedSpeed else none) ∧
        ∀ v, s.flc.releaseOwed = some v → t.flc.releaseOwed = some v) ∧
      (s.flc.link = none → s.flc.releaseOwed = none → s.slp.opState = .coordinate →
        t.flc.releaseOwed = none ∧ t.flc.link = some
          { frame := ⟨63, 0x08, [255]⟩, requester := .releaseAll, unit := none, speed := s.flc.latchedSpeed }) ∧
      (s.flc.link = none → s.flc.releaseOwed = none → s.slp.opState = .advise →
        t.flc.releaseOwed = none ∧ t.flc.link = none)

/-! ## Requests that act on a run (R12, R13, R44, R45, R78) -/

/-- STATION_READING commits the clamped values: the station is FRESH with age 0, STATION_STATUS is posted unless it was
FRESH, the event is handed on (R15) and work it makes is granted; the ACCEPT tells what was clamped (R3, R12, R13). -/
def Obligations.StationReadingCommits : Prop :=
  ∀ (s : State) (tag : Byte) (st : StationNo) (t w v : Word),
    s.takes ⟨0x20, tag, byteOf st.val :: (bytesOf t ++ bytesOf w ++ bytesOf v)⟩ → s.running = true →
    (s.station st).cfg.present = true →
    let tOa := max (-4000) (min 6000 t.toInt)
    let wOa := min 300 w.toNat
    let wind := min 600 v.toNat
    let m := s.taken.modStation st fun x =>
      { x with
        live :=
          { air := some ⟨tOa, wOa, wind⟩, age := 0, status := .fresh
            clamped := decide (tOa ≠ t.toInt ∨ wOa ≠ w.toNat ∨ wind ≠ v.toNat) } }
    let n := if (s.station st).live.status = .fresh then m else m.post 2 (.station st) (.stationStatus .fresh)
    let z := (n.stationEvent st).grantOnWork
    RunFrame m z ∧
    exec (.stationReading tag (byteOf st.val :: (bytesOf t ++ bytesOf w ++ bytesOf v))) s = .next
      (z.answer 0x20 tag (.accept
        [flagByte (decide (tOa ≠ t.toInt)), flagByte (decide (wOa ≠ w.toNat)), flagByte (decide (wind ≠ v.toNat)), 1]))

/-- A station event is handed on in the order of R15: the recompute of the reference station's budget, the evaluations of
the units mapped to it in ascending number, the recounts of the risers with such a member in ascending number. The
recompute takes a new B_eff, posts BUDGET, revokes where it fell, and ends in the admission scan (R86). Revocation chooses
the lowest rank, and of equals the entry nearest the tail, until the committed weight fits, and takes the whole choice off
the grant list before it withdraws any (R96, R97). The scan admits by first fit from the head, none while a freeze or
emergency line is active, and leaves nobody who fits (R92); the admitted risers are then handed on in order: ENTERING with
a new ENTER context in COORDINATE, FREE with settle started and the members evaluated in ADVISE (R66, R93, R103, R108).
The cursor of a context before its first roll is the model's 1 (assumption log 30). -/
def Obligations.StationEventOrder : Prop :=
  (∀ (s : State) (st : StationNo),
    s.stationEvent st =
      (s.mappedRisers st).foldl (fun s r => s.recount r)
        ((s.mappedUnits st).foldl (fun s u => s.evaluate u .automatic)
          (if s.tower.reference = st then s.recompute else s)) ∧
    (∀ u, u ∈ s.mappedUnits st ↔ (s.unit u).cfg.present = true ∧ (s.unit u).cfg.station = st) ∧
    (s.mappedUnits st).Pairwise (· < ·) ∧
    (∀ r, r ∈ s.mappedRisers st ↔
      ∃ u, (s.unit u).cfg.present = true ∧ (s.unit u).cfg.riser = r ∧ (s.unit u).cfg.station = st) ∧
    (s.mappedRisers st).Pairwise (· < ·)) ∧
  (∀ s : State,
    let b := effectiveBudget s.tower (s.station s.tower.reference).live (s.roleActive .inWind)
    let m := ({ s with sba := { s.sba with bEff := b } } : State).post 1 .none (.budget b)
    (b = s.sba.bEff → s.recompute = s) ∧ (s.sba.bEff < b → s.recompute = m.scan) ∧
    (b < s.sba.bEff → s.recompute = m.revoke.scan)) ∧
  (∀ s : State,
    let weight := fun r => (s.riser r).cfg.weight
    let rank := fun r => (s.riser r).cfg.rank
    let chosen := fun l : List RiserNo => chooseRevoked weight rank s.sba.bEff l.length l
    s.revoke =
      (chosen s.sba.grants).foldl (fun m r => m.withdraw r .revoked false)
        ((chosen s.sba.grants).foldl (fun m r =>
          ({ m with sba := { m.sba with grants := m.sba.grants.erase r } } : State).post 2 (.riser r)
            (.revoked (m.riser r).live.state m.sba.bEff)) s) ∧
    ∀ l : List RiserNo,
      ((l.map weight).sum ≤ s.sba.bEff → chosen l = []) ∧
      ∀ front r back, s.sba.bEff < (l.map weight).sum → l = front ++ r :: back → r ∉ front →
        (∀ q ∈ front, rank r ≤ rank q) → (∀ q ∈ back, rank r < rank q) → chosen l = r :: chosen (front ++ back)) ∧
  (∀ s : State,
    let weight := fun r => (s.riser r).cfg.weight
    let headroom : Int := (s.sba.bEff : Int) - (s.sba.grants.map weight).sum - s.sba.draining
    let walk := scanWalk weight headroom s.sba.queue
    let held := s.running = true ∧ (s.roleActive .inFreeze = true ∨ s.roleActive .inEmergency = true)
    (held → s.scan = s) ∧
    (¬ held → s.scan = walk.2.foldl State.admitRiser
      { s with sba := { s.sba with queue := walk.1, grants := s.sba.grants ++ walk.2 } }) ∧
    ∀ r ∈ walk.1, headroom - (walk.2.map weight).sum < weight r) ∧
  (∀ (w : RiserNo → Nat) (h : Int) (r : RiserNo) (l : List RiserNo),
    scanWalk w h [] = ([], []) ∧
    ((w r : Int) ≤ h → scanWalk w h (r :: l) = ((scanWalk w (h - w r) l).1, r :: (scanWalk w (h - w r) l).2)) ∧
    (h < w r → scanWalk w h (r :: l) = (r :: (scanWalk w h l).1, (scanWalk w h l).2))) ∧
  ∀ (s : State) (r : RiserNo),
    let goes := fun st : RiserState =>
      (s.modLive r fun l => { l with state := st }).post 1 (.riser r) (.riserState st .admitted)
    let us := (s.members r).filter fun u =>
      (s.unit u).presence == .online && (s.unit u).decision.control == .auto && !(s.unit u).reading.flags.damperFault
    let called := (goes .entering).setCtx r (some
      { direction := .enter, tag := s.ce.tagCounter, phase := .callPending
        participants := us.map fun u => ⟨u, .pending⟩, cursor := 1, passStart := none, window := none, repairs := [] })
    let opened := ((goes .free).modRiser r fun x =>
      { x with live := { x.live with settle := x.cfg.settle, settleExpired := false } }).evaluateAll (s.members r) .riser
    (s.coordinate = true → s.admitRiser r = { called with ce := { called.ce with tagCounter := s.ce.tagCounter + 1 } }) ∧
    (s.coordinate = false → s.admitRiser r = opened.modLive r fun l =>
      { l with
        voters := (opened.members r).filter fun u => opened.votes u
        onlineMembers := ((opened.members r).filter fun u => (opened.unit u).presence == .online).length })

/-- SET_SETPOINT writes the clamped setpoint in every operating state; while running it is also an evaluation event of the
unit (R45). -/
def Obligations.SetSetpointWrites : Prop :=
  ∀ (s : State) (tag : Byte) (u : UnitNo) (t : Word), s.takes ⟨0x21, tag, byteOf u.val :: bytesOf t⟩ →
    (s.unit u).cfg.present = true →
    let v := max 1000 (min 3000 t.toInt)
    let m := s.taken.modUnit u fun x => { x with cfg := { x.cfg with tSp := v } }
    let reply := Reply.accept (num16 v ++ [flagByte (decide (v ≠ t.toInt))])
    (s.running = false → exec (.setSetpoint tag (byteOf u.val :: bytesOf t)) s = .next (m.answer 0x21 tag reply)) ∧
    (s.running = true → RunFrame m (m.ownEvent u .automatic).grantOnWork ∧
      exec (.setSetpoint tag (byteOf u.val :: bytesOf t)) s = .next
        ((m.ownEvent u .automatic).grantOnWork.answer 0x21 tag reply))

/-- SET_OVERRIDE records the forced mode, with the speed R44 gives it, or makes it absent, and changes the control as R43
shows; where anything changed, a unit that leaves AUTO is dropped from its riser's context (R115) and the unit is then
evaluated with cause class control and its riser recounted; the ACCEPT holds the control, the forced mode, whether the
speed was clamped, and the commanded mode that is left. FREE_COOL and codes above 6 are refused (R42, R43, R44). That the
forced mode and its speed are one optional item of the ACCEPT is the model's reading (assumption log 16). -/
def Obligations.SetOverrideRecords : Prop :=
  ∀ (s : State) (tag : Byte) (u : UnitNo) (code speed : Byte), s.running = true →
    s.takes ⟨0x22, tag, [byteOf u.val, code, speed]⟩ → (s.unit u).cfg.present = true →
    (6 < code.toNat → exec (.setOverride tag [byteOf u.val, code, speed]) s = .next
      (s.taken.answer 0x22 tag (.refuse .outOfRange 2))) ∧
    (code = 4 → exec (.setOverride tag [byteOf u.val, code, speed]) s = .next
      (s.taken.answer 0x22 tag (.refuse .notPermitted 4))) ∧
    (code.toNat ≤ 6 → code ≠ 4 →
      let forced : Option ModeSpeed :=
        if code = 0 then none
        else if code = 1 then some ⟨.recoverHeat, min 100 (max (s.unit u).cfg.sMin speed.toNat)⟩
        else if code = 2 then some ⟨.recoverCool, 100⟩
        else if code = 3 then some ⟨.bypass, 0⟩
        else if code = 5 then some ⟨.defrost, (s.unit u).cfg.defrostSpeed⟩
        else some ⟨.safe, 0⟩
      let control : Control :=
        if (s.unit u).decision.control = .hand then .hand else if forced.isSome then .forced else .auto
      let changed := (s.unit u).decision.forced ≠ forced ∨ (s.unit u).decision.control ≠ control
      let m := s.taken.modDecision u fun d => { d with forced := forced, control := control }
      let dropped := if (s.unit u).decision.control = .auto ∧ control ≠ .auto then m.drop u else m
      let z := (if changed then
          (dropped.evaluate u .control).recount (s.unit u).cfg.riser else s.taken).grantOnWork
      RunFrame m z ∧
      exec (.setOverride tag [byteOf u.val, code, speed]) s = .next (z.answer 0x22 tag (.accept
        (controlCode control ::
          (match forced with
            | none => [0]
            | some v => [1, modeCode (some v.mode), byteOf v.speed]) ++
          flagByte (decide (code = 1 ∧ min 100 (max (s.unit u).cfg.sMin speed.toNat) ≠ speed.toNat)) ::
          (match (z.unit u).decision.commanded with
            | none => [0, 0]
            | some v => [modeCode (some v.mode), byteOf v.speed])))))

/-- LOCK_RISER sets or clears the lock; on, of a riser not locked, it withdraws the riser with cause LOCKED; off, it makes
the joining check of an INDIVIDUAL riser (R78). The withdrawal, of any cause, by the riser's state and in ENTERING by the
phase of its context: the change of state with its RISER_STATE notice and last exit cause, what becomes of the context and
its CHANGEOVER notice, the weight released or made draining weight, and the scan at the end, which a revocation leaves to
its recompute (R51, R69, R71 to R74, R79, R94, R97, R117, R119, R120). A cleared cursor is the model's 1 (assumption log
30).
That a dropped context evaluates every unit on its list, DROPPED ones included, is the model's choice (assumption log 31). -/
def Obligations.LockRiserLocks : Prop :=
  (∀ (s : State) (tag : Byte) (r : RiserNo), s.running = true → (s.riser r).cfg.present = true →
    (s.takes ⟨0x23, tag, [byteOf r.val, 1]⟩ →
      let m := s.taken.modLive r fun l => { l with locked := true }
      let z := (if (s.riser r).live.locked = true then s.taken else m.withdraw r .locked true).grantOnWork
      RunFrame m z ∧ exec (.lockRiser tag [byteOf r.val, 1]) s = .next
        (z.answer 0x23 tag (.accept
          [1, riserStateCode (z.riser r).live.state, causeCode (z.riser r).live.lastExit]))) ∧
    (s.takes ⟨0x23, tag, [byteOf r.val, 0]⟩ →
      let m := s.taken.modLive r fun l => { l with locked := false }
      let z := (if (s.riser r).live.state = .individual then m.joinCheck r else m).grantOnWork
      RunFrame m z ∧ exec (.lockRiser tag [byteOf r.val, 0]) s = .next
        (z.answer 0x23 tag (.accept
          [0, riserStateCode (z.riser r).live.state, causeCode (z.riser r).live.lastExit]))) ∧
    ∀ v : Byte, 1 < v.toNat → s.takes ⟨0x23, tag, [byteOf r.val, v]⟩ →
      exec (.lockRiser tag [byteOf r.val, v]) s = .next (s.taken.answer 0x23 tag (.refuse .outOfRange 2))) ∧
  ∀ (s : State) (r : RiserNo) (cause : Cause) (doScan : Bool),
    let goes := fun (st : RiserState) (m : State) =>
      (m.modLive r fun l => { l with state := st, lastExit := cause }).post 1 (.riser r) (.riserState st cause)
    let individual := fun m : State =>
      (m.modLive r fun l => { l with state := .individual }).post 1 (.riser r) (.riserState .individual .complete)
    let settle := fun m : State =>
      m.modRiser r fun x => { x with live := { x.live with settle := x.cfg.settle, settleExpired := false } }
    let release := fun m : State => m.modSba fun b => { b with grants := b.grants.erase r }
    let toDraining := fun m : State =>
      m.modSba fun b => { b with grants := b.grants.erase r, draining := b.draining + (m.riser r).cfg.weight }
    let recounted := fun m : State => m.modLive r fun l =>
      { l with
        voters := (m.members r).filter fun u => m.votes u
        onlineMembers := ((m.members r).filter fun u => (m.unit u).presence == .online).length }
    let returned := fun m : State =>
      ((m.members r).foldl (fun m u => if (m.unit u).decision.control = .auto then
          m.modDecision u fun d => { d with dwell := 0, dwellExpired := false } else m)
        ((m.members r).foldl (fun m u =>
          if (m.unit u).decision.commanded.map (·.mode) = some .freeCool ∧ (m.unit u).decision.control = .auto then
            m.commandMode u ⟨.bypass, 0⟩ else m) m)).evaluateAll (m.members r) .riser
    let scanned := fun m : State => if doScan then m.scan else m
    let drained := fun m : State => m.modSba fun b => { b with draining := b.draining - (m.riser r).cfg.weight }
    let leftLeaving := fun m : State =>
      scanned (drained (recounted (returned ((settle (individual m)).setCtx r none))))
    let leaves := fun (ps : List Participant) (m : State) =>
      let n := m.setCtx r (some
        { direction := .leave, tag := m.ce.tagCounter, phase := .returnPending, participants := ps, cursor := 1
          passStart := none, window := none, repairs := [] })
      { n with ce := { n.ce with tagCounter := n.ce.tagCounter + 1 } }
    let changeover := fun (d : Direction) (tag : Byte) (res : Result) (why : Option Cause) (m : State) =>
      m.post 2 (.riser r) (.changeover d tag res why 0)
    (∀ m : State, m.returnMembers r = returned m) ∧
    ((s.riser r).live.state = .individual ∨ (s.riser r).live.state = .leaving → s.withdraw r cause doScan = s) ∧
    ((s.riser r).live.state = .queued → s.withdraw r cause doScan =
      (goes .individual s).modSba fun b => { b with queue := b.queue.erase r }) ∧
    ((s.riser r).live.state = .free → s.coordinate = false → s.withdraw r cause doScan =
      scanned (release (recounted (returned (settle (goes .individual s)))))) ∧
    ((s.riser r).live.state = .free → s.coordinate = true →
      let us := (s.members r).filter fun u => (s.unit u).presence == .online && (s.unit u).decision.control == .auto
      (us = [] → s.withdraw r cause doScan = leftLeaving (toDraining (goes .leaving s))) ∧
      (us ≠ [] → s.withdraw r cause doScan =
        scanned (toDraining (leaves (us.map fun u => ⟨u, .pending⟩) (goes .leaving s))))) ∧
    ∀ c, (s.riser r).live.state = .entering → s.ctx r = some c →
      (c.phase = .callPending → s.withdraw r cause doScan =
        scanned (release (recounted (((settle (changeover c.direction c.tag .cancelled (some cause)
          (goes .individual s))).setCtx r none).evaluateAll (c.participants.map (·.unit)) .riser)))) ∧
      (c.phase = .rollReady ∨ c.phase = .commitPending → s.withdraw r cause doScan =
        scanned (toDraining ((goes .leaving s).setCtx r (some
          { c with phase := .cancelPending, window := none, cursor := 1, passStart := none, repairs := []
                   reason := cause })))) ∧
      (c.phase = .rollDone →
        let rest := c.participants.filter fun p => p.status != .dropped
        let turned := toDraining (leaves (rest.map fun p => { p with status := .pending }) (goes .leaving s))
        (rest ≠ [] → s.withdraw r cause doScan = scanned turned) ∧
        (rest = [] → s.withdraw r cause doScan =
          leftLeaving (changeover .leave s.ce.tagCounter .complete none turned))) ∧
      (c.phase = .cancelPending ∨ c.phase = .returnPending → s.withdraw r cause doScan = s)

/-- While running, a request that names a unit, riser or station that is not present is refused with NO_SUCH_ITEM and
changes nothing else; SET_SETPOINT is refused so in CONFIG too (R12, R16, R17, R44, R45, R78, R82, R161). -/
def Obligations.AbsentItemsAreRefused : Prop :=
  ∀ (i : Instr) (k : ReqKind) (tag n : Byte) (rest : List Byte) (s : State),
    s.running = true ∨ k = .setSetpoint → requestOf i = some (k, tag, n :: rest) →
    s.takes ⟨k.code, tag, n :: rest⟩ → k.lengthOk (rest.length + 1) = true →
    ((k = .setSetpoint ∨ k = .setOverride ∨ k = .readUnit ∨ k = .postMail) ∧
        (∀ u : UnitNo, u.val = n.toNat → (s.unit u).cfg.present = false) ∨
      (k = .lockRiser ∨ k = .readRiser) ∧ (∀ r : RiserNo, r.val = n.toNat → (s.riser r).cfg.present = false) ∨
      (k = .stationReading ∨ k = .readStation) ∧
        (∀ st : StationNo, st.val = n.toNat → (s.station st).cfg.present = false)) →
    exec i s = .next (s.taken.answer k.code tag (.refuse .noSuchItem n))

/-! ## Requests that read (R16, R17, R57, R82, R100, R123, R147, R195) -/

/-- READ_UNIT, READ_RISER, READ_STATION, READ_BUDGET and READ_STATUS answer the records as they stand, item by item in the
order of their rules, and change nothing else (R16, R17, R57, R82, R100, R123, R147, R187, R195). Which of the items that
can be absent carry a presence byte of their own is read from the spec in assumption log 16. The lines: the level of an
input is the accepted one; OUT_FAULT is driven active while running with a present unit OFFLINE or with one of the three
fault flags, OUT_FREE while running with a present riser in ENTERING or FREE, and both only while RESETn is high; the pin
of an output shows its level under its polarity, and no other pin is driven (R148, R157 to R159, R182). -/
def Obligations.ReadsAnswerTheRecords : Prop :=
  (∀ (s : State) (tag : Byte),
    (s.running = true →
      (∀ u : UnitNo, (s.unit u).cfg.present = true → s.takes ⟨0x30, tag, [byteOf u.val]⟩ →
        let x := (s.unit u).reading
        let d := (s.unit u).decision
        let modeSpeed := fun m : Option ModeSpeed =>
          match m with
          | none => [0, 0]
          | some v => [modeCode (some v.mode), byteOf v.speed]
        let optional16 := fun n : Option Int =>
          match n with
          | none => [0]
          | some v => 1 :: num16 v
        exec (.readUnit tag [byteOf u.val]) s = .next (s.taken.answer 0x30 tag (.accept
          (conditionCode x.condition ::
            (match x.air with
              | none => [0, 0, 0, 0, 0]
              | some a => 1 :: num16 a.tRa ++ num16 a.wRa) ++
            [modeCode x.reported,
              byteOf ((if x.flags.fanOff then 1 else 0) + (if x.flags.wheelFault then 2 else 0) +
                (if x.flags.damperFault then 4 else 0) + (if x.flags.sensorFault then 8 else 0) +
                (if x.flags.localHand then 16 else 0))] ++
            num16 x.age ++ [flagByte x.clamped] ++
            controlCode d.control ::
            (match d.forced with
              | none => [0]
              | some v => [1, modeCode (some v.mode), byteOf v.speed]) ++
            modeCode d.preference ::
            (match d.prefSpeed with
              | none => [0]
              | some v => [1, byteOf v]) ++
            modeSpeed d.commanded ++ modeSpeed d.acknowledged ++ num16 d.dwell ++ optional16 d.lastHoa ++
            optional16 d.lastHra ++ optional16 d.lastTexl ++
            (match d.late with
              | none => [0]
              | some .enter => [1, 0]
              | some .leave => [1, 1]) ++
            [flagByte (s.isParticipant u), byteOf (s.unit u).cfg.address, presenceCode (s.unit u).presence,
              byteOf (s.unit u).misses] ++
            (match s.flc.commands.findIdx? (fun e => e.unit == u) with
              | none => [0]
              | some i =>
                1 :: modeSpeed (s.flc.commands[i]?.map (·.content)) ++
                  [byteOf (i + 1), flagByte (match s.flc.link with
                    | none => false
                    | some t => match t.requester with
                      | .command _ => t.unit == some u && t.heeded
                      | _ => false)]))))) ∧
      (∀ r : RiserNo, (s.riser r).cfg.present = true → s.takes ⟨0x31, tag, [byteOf r.val]⟩ →
        exec (.readRiser tag [byteOf r.val]) s = .next (s.taken.answer 0x31 tag (.accept
          (byteOf r.val :: riserStateCode (s.riser r).live.state :: num16 (s.riser r).live.settle ++
            [byteOf (s.riser r).live.memberCount, byteOf (s.riser r).live.onlineMembers,
              byteOf (s.riser r).live.voters.length, byteOf (s.riser r).live.voters.length] ++
            (s.riser r).live.voters.map (fun u => byteOf u.val) ++
            [byteOf (s.riser r).cfg.quorum, byteOf (s.riser r).cfg.hold, flagByte (s.riser r).live.locked,
              causeCode (s.riser r).live.lastExit] ++
            (match s.sba.queue.findIdx? (fun q => q == r) with
              | none => [0]
              | some i => [1, byteOf (i + 1)]) ++
            (match s.ctx r with
              | none => [0]
              | some c =>
                [1, directionCode c.direction, c.tag, phaseCode c.phase,
                  byteOf (c.participants.filter fun p => p.status != .dropped).length] ++
                (match c.window with
                  | none => [0]
                  | some w => 1 :: num16 w) ++
                byteOf c.participants.length ::
                (c.participants.flatMap fun p => [byteOf p.unit.val, partStatusCode p.status]) ++
                [byteOf c.repairs.length]))))) ∧
      (∀ st : StationNo, (s.station st).cfg.present = true → s.takes ⟨0x32, tag, [byteOf st.val]⟩ →
        exec (.readStation tag [byteOf st.val]) s = .next (s.taken.answer 0x32 tag (.accept
          ([byteOf st.val, flagByte (decide (s.tower.reference = st)),
              stationStatusCode (s.station st).live.status] ++
            (match (s.station st).live.air with
              | none => [0, 0, 0, 0, 0, 0, 0]
              | some a => 1 :: num16 a.tOa ++ num16 a.wOa ++ num16 a.wind) ++
            num16 (s.station st).live.age ++
            [flagByte (s.station st).live.clamped, byteOf (s.mappedUnits st).length])))) ∧
      (s.takes ⟨0x33, tag, []⟩ →
        let ref := (s.station s.tower.reference).live
        let air := if ref.status = .none then none else ref.air
        let optional16 := fun f : OutdoorAir → Int =>
          match air with
          | none => [0]
          | some a => 1 :: num16 (f a)
        let windHigh := match air with
          | none => false
          | some a => decide (s.tower.windLimit ≤ a.wind)
        let windLines := (fins 6).filter fun l => (s.line l).cfg.role == .inWind && (s.line l).level
        let committed := (s.sba.grants.map fun r => (s.riser r).cfg.weight).sum
        let leaving := (fins 6).filter fun r => (s.riser r).live.state == .leaving
        exec (.readBudget tag []) s = .next (s.taken.answer 0x33 tag (.accept
          (num16 s.sba.bEff ++ [byteOf s.tower.reference.val, stationStatusCode ref.status] ++
            optional16 (·.tOa) ++ optional16 (fun a => (a.wind : Int)) ++
            optional16 (fun a => (derating s.tower a.tOa : Int)) ++
            optional16 (fun a => (rawBudget s.tower a.tOa : Int)) ++
            [flagByte (decide (ref.status = .stale)),
              flagByte (air.isSome && (windHigh || s.roleActive .inWind)), flagByte windHigh] ++
            byteOf windLines.length :: windLines.map (fun l => byteOf l.val) ++
            policyCode s.tower.policy :: num16 committed ++ num16 s.sba.draining ++
            num16 ((s.sba.bEff : Int) - committed - s.sba.draining) ++
            byteOf s.sba.queue.length :: (s.sba.queue.flatMap fun r =>
              [byteOf r.val, byteOf (s.riser r).cfg.weight, byteOf (s.riser r).cfg.rank]) ++
            byteOf s.sba.grants.length :: (s.sba.grants.flatMap fun r =>
              [byteOf r.val, byteOf (s.riser r).cfg.weight, byteOf (s.riser r).cfg.rank,
                riserStateCode (s.riser r).live.state]) ++
            byteOf leaving.length :: leaving.flatMap fun r => [byteOf r.val, byteOf (s.riser r).cfg.weight]))))) ∧
    (s.takes ⟨0x34, tag, []⟩ →
      exec (.readStatus tag []) s = .next (s.taken.answer 0x34 tag (.accept
        ([opStateCode s.slp.opState, startCauseCode s.nq.startCause,
            byteOf ((if s.nq.noticeOverflow then 1 else 0) + (if s.nq.requestOverrun then 2 else 0) +
              (if s.nq.fieldCheck then 4 else 0)),
            byteOf s.nq.queue.length, byteOf s.nq.mask, flagByte (s.lineLevel 0), flagByte (s.lineLevel 1),
            flagByte (s.lineLevel 2), flagByte (s.lineLevel 3), flagByte (s.lineLevel 4), flagByte (s.lineLevel 5)] ++
          num16 s.sba.bEff ++
          [byteOf (s.countPresence .online), byteOf (s.countPresence .offline), byteOf (s.countPresence .unseen)]))))) ∧
  ∀ s : State,
    (∀ p, s.countPresence p =
      ((fins 24).filter fun u => (s.unit u).cfg.present && (s.unit u).presence == p).length) ∧
    ∀ l,
      let x := s.line l
      let fault := s.running = true ∧ ∃ u, (s.unit u).cfg.present = true ∧
        ((s.unit u).presence = .offline ∨ (s.unit u).reading.flags.wheelFault = true ∨
          (s.unit u).reading.flags.damperFault = true ∨ (s.unit u).reading.flags.sensorFault = true)
      let free := s.running = true ∧ ∃ r, (s.riser r).cfg.present = true ∧
        ((s.riser r).live.state = .entering ∨ (s.riser r).live.state = .free)
      (x.cfg.role = .none → s.lineLevel l = false ∧ s.pinDriven l = none) ∧
      (x.cfg.role = .inWind ∨ x.cfg.role = .inFreeze ∨ x.cfg.role = .inEmergency →
        s.lineLevel l = x.level ∧ s.pinDriven l = none) ∧
      (x.cfg.role = .outFault → (s.lineLevel l = true ↔ fault ∧ s.slp.resetHeld = false)) ∧
      (x.cfg.role = .outFree → (s.lineLevel l = true ↔ free ∧ s.slp.resetHeld = false)) ∧
      (x.cfg.role = .outFault ∨ x.cfg.role = .outFree →
        s.pinDriven l = some (if x.cfg.polarity = .activeHigh then s.lineLevel l else !s.lineLevel l))

/-! ## Notices (R188 to R193) -/

/-- How the queue takes a posted notice (R189). -/
def Obligations.PostedNoticeIsPlaced : Prop :=
  ∀ (q : Nq) (n : Notice),
    (n.level < q.mask → q.post n = q) ∧
    (q.mask ≤ n.level → q.queue.length < 32 → (q.queue.Pairwise fun a b => b.level ≤ a.level) →
      q.post n =
        { q with queue := q.queue.filter (fun m => n.level ≤ m.level) ++ n :: q.queue.filter (fun m => m.level < n.level) }) ∧
    (q.mask ≤ n.level → q.queue.length = 32 → (q.queue.Pairwise fun a b => b.level ≤ a.level) →
      ∀ front old back, q.queue = front ++ old :: back → (∀ m ∈ front, old.level < m.level) →
        (∀ m ∈ back, m.level = old.level) →
        (old.level < n.level → n.level ≤ 3 → q.post n =
          { q with
            queue := (front ++ back).filter (fun m => n.level ≤ m.level) ++
              n :: (front ++ back).filter (fun m => m.level < n.level)
            noticeOverflow := true }) ∧
        (n.level ≤ old.level → n.level ≤ 3 → q.post n = { q with noticeOverflow := true }))

/-- FLUSH_NOTICES, in every operating state: every notice leaves the queue, no flag changes, a notice being sent is left,
the ACCEPT holds the number removed, 0..32, and goes before any notice posted after (R192). -/
def Obligations.FlushNoticesEmptiesTheQueue : Prop :=
  ∀ (s : State) (tag : Byte), s.takes ⟨0x41, tag, []⟩ →
    ∃ t : State, exec (.flushNotices tag []) s = .next t ∧
      t = (s.taken.modNq fun q => { q with queue := [] }).answer 0x41 tag (.accept [byteOf s.nq.queue.length]) ∧
      t.nq = { s.nq with queue := [] } ∧ (∀ n, s.slp.stx = .notice n → t.slp.stx = .notice n) ∧
      t.slp.reply = some ⟨0x80, tag, [0x41, byteOf s.nq.queue.length]⟩ ∧
      (NqSafe s.nq → (byteOf s.nq.queue.length).toNat = s.nq.queue.length ∧ s.nq.queue.length ≤ 32) ∧
      ∀ level subject content, exec .noticeSend (t.post level subject content) = .next (t.post level subject content)

/-- SET_NOTICE_MASK stores a mask of 0..3, removes what a raised mask excludes, sets no flag, and answers the mask, the
number removed and the depth left; another mask is refused (R191). CLEAR_FLAGS clears each flag its byte names and leaves
the others; a byte with any of bits 3 to 7 is refused and clears nothing (R193). -/
def Obligations.MaskAndFlagsAreSet : Prop :=
  (∀ (s : State) (tag m : Byte), s.takes ⟨0x40, tag, [m]⟩ →
    (3 < m.toNat → exec (.setNoticeMask tag [m]) s = .next (s.taken.answer 0x40 tag (.refuse .outOfRange 1))) ∧
    (m.toNat ≤ 3 →
      let kept := if s.nq.mask < m.toNat then s.nq.queue.filter fun n => m.toNat ≤ n.level else s.nq.queue
      exec (.setNoticeMask tag [m]) s = .next
        ((s.taken.modNq fun q => { q with mask := m.toNat, queue := kept }).answer 0x40 tag
          (.accept [m, byteOf (s.nq.queue.length - kept.length), byteOf kept.length])))) ∧
  ∀ (s : State) (tag b : Byte), s.takes ⟨0x42, tag, [b]⟩ →
    (8 ≤ b.toNat → exec (.clearFlags tag [b]) s = .next (s.taken.answer 0x42 tag (.refuse .outOfRange 1))) ∧
    (b.toNat < 8 →
      let q := { s.nq with
        noticeOverflow := if b.getLsbD 0 then false else s.nq.noticeOverflow
        requestOverrun := if b.getLsbD 1 then false else s.nq.requestOverrun
        fieldCheck := if b.getLsbD 2 then false else s.nq.fieldCheck }
      exec (.clearFlags tag [b]) s = .next
        ((s.taken.modNq fun _ => q).answer 0x42 tag (.accept
          [byteOf ((if q.noticeOverflow then 1 else 0) + (if q.requestOverrun then 2 else 0) +
            (if q.fieldCheck then 4 else 0))])))

/-! ## Mail (R160 to R167) -/

/-- POST_MAIL to a present unit, while running: a slot that is not IDLE refuses with BUSY, a unit that is not ONLINE with
UNIT_OFFLINE; else the post number advances and the slot is POSTED with the mail, and sent at once where the link and the
higher classes leave it room (R161, R162). -/
def Obligations.PostMailPosts : Prop :=
  ∀ (s : State) (tag : Byte) (u : UnitNo) (mail : List Byte), s.running = true → 1 ≤ mail.length → mail.length ≤ 32 →
    s.takes ⟨0x50, tag, byteOf u.val :: mail⟩ → (s.unit u).cfg.present = true →
    (∀ v, s.flc.mail.state ≠ .idle → s.flc.mail.unit = some v → exec (.postMail tag (byteOf u.val :: mail)) s = .next
      (s.taken.answer 0x50 tag (.refuse .busy (byteOf v.val)))) ∧
    (s.flc.mail.state = .idle → (s.unit u).presence ≠ .online → exec (.postMail tag (byteOf u.val :: mail)) s = .next
      (s.taken.answer 0x50 tag (.refuse .unitOffline (byteOf u.val)))) ∧
    (s.flc.mail.state = .idle → (s.unit u).presence = .online →
      let m := s.taken.modFlc fun f =>
        { f with
          postNumber := f.postNumber + 1
          mail := { state := .posted, unit := some u, mail := some mail, attempts := 0, reply := none, reason := none } }
      RunFrame m m.grantOnWork ∧ exec (.postMail tag (byteOf u.val :: mail)) s = .next
        (m.grantOnWork.answer 0x50 tag
          (.accept [byteOf u.val, byteOf mail.length, s.flc.postNumber + 1])))

/-- TAKE_MAIL hands over a result and frees the slot; it is refused with BUSY while the exchange goes on and with
WRONG_STATE when the slot is IDLE, and the slot is then unchanged (R165). CANCEL_MAIL, in every operating state and every
state of the slot, leaves it IDLE with everything absent and the attempts at 0; the post number and the transaction in
flight are kept, and no notice is posted (R166). -/
def Obligations.MailIsTakenOrCancelled : Prop :=
  (∀ (s : State) (tag : Byte) (u : UnitNo), s.takes ⟨0x51, tag, []⟩ →
    let cleared := s.taken.modFlc fun f =>
      { f with mail := { state := .idle, unit := none, mail := none, attempts := 0, reply := none, reason := none } }
    (∀ reply, s.flc.mail.state = .answered → s.flc.mail.unit = some u → s.flc.mail.reply = some reply →
      exec (.takeMail tag []) s = .next (cleared.answer 0x51 tag (.accept
        ([byteOf u.val, s.flc.postNumber, byteOf s.flc.mail.attempts, 3, byteOf reply.length] ++ reply)))) ∧
    (∀ why, s.flc.mail.state = .failed → s.flc.mail.unit = some u → s.flc.mail.reason = some why →
      exec (.takeMail tag []) s = .next (cleared.answer 0x51 tag (.accept
        [byteOf u.val, s.flc.postNumber, byteOf s.flc.mail.attempts, 4, if why = .noReply then 0 else 1]))) ∧
    (s.flc.mail.state = .posted ∨ s.flc.mail.state = .sent → s.flc.mail.unit = some u →
      exec (.takeMail tag []) s = .next (s.taken.answer 0x51 tag (.refuse .busy (byteOf u.val)))) ∧
    (s.flc.mail.state = .idle →
      exec (.takeMail tag []) s = .next (s.taken.answer 0x51 tag (.refuse .wrongState (opStateCode s.slp.opState))))) ∧
  ∀ (s : State) (tag : Byte), s.takes ⟨0x52, tag, []⟩ →
    exec (.cancelMail tag []) s = .next
      ((s.taken.modFlc fun f =>
        { f with mail := { state := .idle, unit := none, mail := none, attempts := 0, reply := none, reason := none }
        }).answer 0x52 tag (.accept [mailStateCode s.flc.mail.state]))

/-! ## The seconds timebase and the expiries (R4, R9, R14, R48, R64, R111, R114, R121, R140, R106) -/

/-- A second boundary while running advances every age that advances by one, up to 65535, and counts every dwell timer,
settle timer and window down by one, to 0; it changes nothing else. In CONFIG it changes nothing (R4, R48, R64, R109).
The marks of timers just run out and the count of boundaries in the sweep are the model's (assumption logs 8 and 10). -/
def Obligations.SecondBoundary : Prop :=
  ∀ s : State, s.slp.resetHeld = false →
    (s.running = false → exec .secondsTimebaseTick s = .next s) ∧
    (s.running = true → ∃ t : State, exec .secondsTimebaseTick s = .next t ∧
      t.pending = s.pending ∧ t.slp = s.slp ∧ t.tower = s.tower ∧ t.sba = s.sba ∧ t.lu = s.lu ∧ t.nq = s.nq ∧
      t.choices = s.choices ∧ t.ce.tagCounter = s.ce.tagCounter ∧
      t.flc = { s.flc with sweep := { s.flc.sweep with elapsed := s.flc.sweep.elapsed + 1 } } ∧
      (∀ u, t.unit u = { s.unit u with
        reading := { (s.unit u).reading with
          age :=
            if (s.unit u).reading.condition = .none then (s.unit u).reading.age
            else min 65535 ((s.unit u).reading.age + 1) }
        decision := { (s.unit u).decision with
          dwell := (s.unit u).decision.dwell - 1
          dwellExpired := (s.unit u).decision.dwellExpired || decide ((s.unit u).decision.dwell = 1) } }) ∧
      (∀ st, t.station st = { s.station st with
        live := { (s.station st).live with
          age :=
            if (s.station st).live.status = .none then (s.station st).live.age
            else min 65535 ((s.station st).live.age + 1) } }) ∧
      (∀ r, t.riser r = { s.riser r with
        live := { (s.riser r).live with
          settle := (s.riser r).live.settle - 1
          settleExpired := (s.riser r).live.settleExpired || decide ((s.riser r).live.settle = 1) } }) ∧
      ∀ r, t.ctx r = (s.ctx r).map fun c => { c with window := c.window.map fun w => w - 1 })

/-- A unit whose age has reached the stale limit while FRESH or SENSOR_HOLD becomes STALE, keeps the rest of its reading,
and is evaluated and its riser recounted; a FRESH station whose age has reached its max age becomes STALE, keeps its
values, posts STATION_STATUS and is handed on; otherwise the commands change nothing (R9, R11, R14, R15; assumption
log 2). -/
def Obligations.AgesReachTheirLimits : Prop :=
  (∀ (s : State) (u : UnitNo), s.slp.resetHeld = false → s.running = true →
    let m := s.modUnit u fun x => { x with reading := { x.reading with condition := .stale } }
    let due := ((s.unit u).reading.condition = .fresh ∨ (s.unit u).reading.condition = .sensorHold) ∧
      s.tower.staleLimit ≤ (s.unit u).reading.age
    (due → RunFrame m (m.ownEvent u .automatic).grantOnWork ∧
      exec (.unitStaleLimit u) s = .next (m.ownEvent u .automatic).grantOnWork) ∧
    (¬ due → exec (.unitStaleLimit u) s = .next s)) ∧
  ∀ (s : State) (st : StationNo), s.slp.resetHeld = false → s.running = true →
    let m := s.modStation st fun x => { x with live := { x.live with status := .stale } }
    let z := ((m.post 2 (.station st) (.stationStatus .stale)).stationEvent st).grantOnWork
    let due := (s.station st).live.status = .fresh ∧ (s.station st).cfg.maxAge ≤ (s.station st).live.age
    (due → RunFrame m z ∧ exec (.stationMaxAge st) s = .next z) ∧ (¬ due → exec (.stationMaxAge st) s = .next s)

/-- The expiry of a dwell timer is an evaluation event of the automatic class for its unit (R48, R42). The expiry of a
settle timer makes the joining check of an INDIVIDUAL riser and the vote test of a FREE one, on the count held, and
changes nothing of a riser in another state (R64, R65, R70). A timer that has not run out does not expire (assumption logs
2 and 8). What these events lead to: an event of a unit is its evaluation and the recount of its riser (R42, R63); the
recount forms the voters by the seven conditions of R62 and the online members, in chain order, and applies them by the
riser's state (R63, R70); the joining check and its five conditions (R65); and the place of a joining riser on the queue,
behind those it does not go ahead of by rank and, under FIXED, by number, with the scan that follows (R87, R90). -/
def Obligations.DwellAndSettleExpire : Prop :=
  (∀ (s : State) (u : UnitNo), s.slp.resetHeld = false → s.running = true →
    let m := s.modDecision u fun d => { d with dwellExpired := false }
    ((s.unit u).decision.dwellExpired = true →
      RunFrame m (m.ownEvent u .automatic).grantOnWork ∧
      exec (.dwellExpiry u) s = .next (m.ownEvent u .automatic).grantOnWork) ∧
    ((s.unit u).decision.dwellExpired = false → exec (.dwellExpiry u) s = .next s)) ∧
  (∀ (s : State) (r : RiserNo), s.slp.resetHeld = false → s.running = true →
    let m := s.modLive r fun l => { l with settleExpired := false }
    let n :=
      match (s.riser r).live.state with
      | .individual => m.joinCheck r
      | .free =>
        if (s.riser r).live.voters.length < (s.riser r).cfg.hold ∧ (s.riser r).live.settle = 0 then
          m.withdraw r .votes true
        else m
      | .queued => m
      | .entering => m
      | .leaving => m
    ((s.riser r).live.settleExpired = true →
      RunFrame m n.grantOnWork ∧ exec (.settleExpiry r) s = .next n.grantOnWork) ∧
    ((s.riser r).live.settleExpired = false → exec (.settleExpiry r) s = .next s)) ∧
  (∀ (s : State) (u : UnitNo) (cls : CauseClass),
    s.ownEvent u cls = (s.evaluate u cls).recount (s.unit u).cfg.riser) ∧
  (∀ (s : State) (u : UnitNo), s.votes u = true ↔
    (s.unit u).presence = .online ∧ (s.unit u).decision.control = .auto ∧ (s.unit u).reading.flags.fanOff = false ∧
    (s.unit u).reading.condition = .fresh ∧ (s.station (s.unit u).cfg.station).live.status = .fresh ∧
    (s.unit u).reading.flags.damperFault = false ∧ (s.unit u).decision.preference = some .freeCool) ∧
  (∀ (s : State) (r : RiserNo),
    (∀ u, u ∈ s.members r ↔ (s.unit u).cfg.present = true ∧ (s.unit u).cfg.riser = r) ∧
    (s.members r).Pairwise (· < ·) ∧
    let voters := (s.members r).filter fun u => s.votes u
    let m := s.modLive r fun l =>
      { l with
        voters := voters
        onlineMembers := ((s.members r).filter fun u => (s.unit u).presence == .online).length }
    let x := s.riser r
    (x.live.state = .individual → s.recount r = m.joinCheck r) ∧
    (x.live.state = .queued →
      s.recount r = if voters.length < x.cfg.quorum then m.withdraw r .votes true else m) ∧
    (x.live.state = .free →
      s.recount r = if voters.length < x.cfg.hold ∧ x.live.settle = 0 then m.withdraw r .votes true else m) ∧
    (x.live.state = .entering ∨ x.live.state = .leaving → s.recount r = m)) ∧
  ∀ (s : State) (r : RiserNo),
    let passes := (s.riser r).cfg.quorum ≤ (s.riser r).live.voters.length ∧ (s.riser r).live.settle = 0 ∧
      (s.riser r).live.locked = false ∧ s.roleActive .inFreeze = false ∧ s.roleActive .inEmergency = false
    let ahead := fun q : RiserNo => (s.riser q).cfg.rank < (s.riser r).cfg.rank ∨
      (s.riser q).cfg.rank = (s.riser r).cfg.rank ∧ s.tower.policy = .fixed ∧ r < q
    let m := (s.modLive r fun l => { l with state := .queued }).post 1 (.riser r) (.riserState .queued .quorum)
    (¬ passes → s.joinCheck r = s) ∧
    ∀ front back, passes → s.sba.queue = front ++ back → (∀ q ∈ front, ¬ ahead q) →
      (∀ q rest, back = q :: rest → ahead q) →
      s.joinCheck r = ({ m with sba := { s.sba with queue := front ++ r :: back } } : State).scan

/-- The expiry of a ready window while the ready roll goes on cancels the context with READY_TIMEOUT: the riser becomes
LEAVING, its grant becomes draining weight, and the cancel waits to be sent; otherwise the command changes nothing
(R68, R111, R117; assumption log 2). In the second clause the link is taken as BUSY, so that no grant follows in the same
step. A cancel by the phase of its context, with any reason: in CALL_PENDING the context ends CANCELLED and the grant is
released; in ROLL_READY and COMMIT_PENDING the cancel waits to be sent; later phases are not cancelled (R68, R94, R116 to
R118, R122). A cleared cursor is the model's 1 (assumption log 30).
That a dropped context evaluates every unit on its list, DROPPED ones included, is the model's choice (assumption log 31). -/
def Obligations.ReadyWindowExpires : Prop :=
  (∀ (s : State) (r : RiserNo), s.slp.resetHeld = false → s.running = true →
    (∀ c, s.ctx r = some c → c.phase = .rollReady → c.window = some 0 →
      RunFrame s (s.ceCancel r c .readyTimeout).grantOnWork ∧
      exec (.readyWindowExpiry r) s = .next (s.ceCancel r c .readyTimeout).grantOnWork) ∧
    (∀ c x, s.ctx r = some c → c.phase = .rollReady → c.window = some 0 → s.flc.link = some x → r ∉ s.sba.queue →
      ∃ t : State, exec (.readyWindowExpiry r) s = .next t ∧
        (t.riser r).live.state = .leaving ∧ (t.riser r).live.lastExit = .readyTimeout ∧
        t.ctx r = some { c with
          phase := .cancelPending, window := none, cursor := 1, passStart := none, repairs := []
          reason := .readyTimeout } ∧
        t.sba.draining = s.sba.draining + (s.riser r).cfg.weight) ∧
    ((∀ c, s.ctx r = some c → c.phase ≠ .rollReady ∨ c.window ≠ some 0) → exec (.readyWindowExpiry r) s = .next s)) ∧
  ∀ (s : State) (r : RiserNo) (c : Ctx) (reason : Cause),
    let goes := fun (st : RiserState) (m : State) =>
      (m.modLive r fun l => { l with state := st, lastExit := reason }).post 1 (.riser r) (.riserState st reason)
    let recounted := fun m : State => m.modLive r fun l =>
      { l with
        voters := (m.members r).filter fun u => m.votes u
        onlineMembers := ((m.members r).filter fun u => (m.unit u).presence == .online).length }
    let settle := fun m : State =>
      m.modRiser r fun x => { x with live := { x.live with settle := x.cfg.settle, settleExpired := false } }
    (c.phase = .callPending → s.ceCancel r c reason =
      ((recounted (((settle (goes .individual (s.post 2 (.riser r)
        (.changeover c.direction c.tag .cancelled (some reason) 0)))).setCtx r none).evaluateAll
          (c.participants.map (·.unit)) .riser)).modSba fun b => { b with grants := b.grants.erase r }).scan) ∧
    (c.phase = .rollReady ∨ c.phase = .commitPending →
      let m := goes .leaving (s.setCtx r (some
        { c with phase := .cancelPending, window := none, cursor := 1, passStart := none, repairs := []
                 reason := reason }))
      s.ceCancel r c reason = (m.modSba fun b =>
        { b with grants := b.grants.erase r, draining := b.draining + (m.riser r).cfg.weight }).scan) ∧
    (c.phase = .rollDone ∨ c.phase = .cancelPending ∨ c.phase = .returnPending → s.ceCancel r c reason = s)

/-- The expiry of a done window while the done roll goes on marks every participant that is neither DONE nor DROPPED LATE,
its unit with the direction, and ends the changeover COMPLETE_LATE with their number; otherwise the command changes
nothing (R55, R114, R121, R122; assumption log 2). The end of a done roll, whatever its result: the CHANGEOVER notice, and
after an ENTER the riser FREE with settle started and no context, the participants evaluated, then the other members, and
the recount (R67); after a LEAVE the riser INDIVIDUAL with settle started and no context, the members returned, the
recount, the draining weight released and the scan (R72, R95). In the clauses that name what is left, the link is taken
as BUSY, so that no grant follows in the same step. -/
def Obligations.DoneWindowExpires : Prop :=
  (∀ (s : State) (r : RiserNo), s.slp.resetHeld = false → s.running = true →
    (∀ c, s.ctx r = some c → c.phase = .rollDone → c.window = some 0 →
      let late := (c.participants.filter fun p => p.status != .done && p.status != .dropped).map (·.unit)
      let marked := { c with participants := c.participants.map fun p =>
        if p.status = .done ∨ p.status = .dropped then p else { p with status := .late } }
      let m := late.foldl (fun s u => s.modDecision u fun d => { d with late := some c.direction }) s
      let z := ((m.setCtx r (some marked)).rollEnds r marked .completeLate late.length).grantOnWork
      RunFrame m z ∧ exec (.doneWindowExpiry r) s = .next z) ∧
    (∀ c x, s.ctx r = some c → c.phase = .rollDone → c.window = some 0 → c.direction = .enter → s.flc.link = some x →
      ∃ t : State, exec (.doneWindowExpiry r) s = .next t ∧
        (t.riser r).live.state = .free ∧ (t.riser r).live.settle = (s.riser r).cfg.settle ∧ t.ctx r = none ∧
        t.sba = s.sba ∧
        ∀ p ∈ c.participants, p.status ≠ .done → p.status ≠ .dropped →
          (t.unit p.unit).decision.late = some .enter) ∧
    (∀ c x, s.ctx r = some c → c.phase = .rollDone → c.window = some 0 → c.direction = .leave → s.flc.link = some x →
      r ∉ s.sba.queue →
      ∃ t : State, exec (.doneWindowExpiry r) s = .next t ∧
        (t.riser r).live.state = .individual ∧ (t.riser r).live.settle = (s.riser r).cfg.settle ∧ t.ctx r = none ∧
        t.sba.draining = s.sba.draining - (s.riser r).cfg.weight ∧
        ∀ p ∈ c.participants, p.status ≠ .done → p.status ≠ .dropped →
          (t.unit p.unit).decision.late = some .leave) ∧
    ((∀ c, s.ctx r = some c → c.phase ≠ .rollDone ∨ c.window ≠ some 0) → exec (.doneWindowExpiry r) s = .next s)) ∧
  ∀ (s : State) (r : RiserNo) (c : Ctx) (res : Result) (late : Nat),
    let told := s.post 2 (.riser r) (.changeover c.direction c.tag res none late)
    let goes := fun st : RiserState =>
      (((told.modLive r fun l => { l with state := st }).post 1 (.riser r) (.riserState st .complete)).modRiser r
        fun x => { x with live := { x.live with settle := x.cfg.settle, settleExpired := false } }).setCtx r none
    let recounted := fun m : State => m.modLive r fun l =>
      { l with
        voters := (m.members r).filter fun u => m.votes u
        onlineMembers := ((m.members r).filter fun u => (m.unit u).presence == .online).length }
    let us := c.participants.map (·.unit)
    (c.direction = .enter → s.rollEnds r c res late =
      recounted (((goes .free).evaluateAll us .riser).evaluateAll
        ((s.members r).filter fun u => !us.contains u) .riser)) ∧
    (c.direction = .leave →
      let m := recounted ((goes .individual).returnMembers r)
      s.rollEnds r c res late =
        (m.modSba fun b => { b with draining := b.draining - (m.riser r).cfg.weight }).scan)

/-- The next sweep starts when the previous one is complete and the sweep period has passed: the counter goes up by one and
the cursor returns to unit 0 (R140). When 250 ms have passed since the start of a roll pass, the next pass may start
(R106). Otherwise the commands change nothing (assumption logs 2, 10 and 11). -/
def Obligations.SweepsAndPassesStart : Prop :=
  (∀ s : State, s.slp.resetHeld = false → s.running = true →
    let m := s.modFlc fun f =>
      { f with sweep := { running := true, counter := f.sweep.counter + 1, cursor := 0, elapsed := 0 } }
    let pollDone := ∀ x, s.flc.link = some x → x.requester ≠ .sweep ∨ x.heeded = false
    let due := s.flc.sweep.running = true ∧ s.nextPoll = none ∧ pollDone ∧
      s.tower.sweepPeriod ≤ s.flc.sweep.elapsed + 1
    (due → RunFrame m m.grantOnWork ∧ exec .sweepStart s = .next m.grantOnWork) ∧
    (¬ due → exec .sweepStart s = .next s)) ∧
  ∀ (s : State) (r : RiserNo), s.slp.resetHeld = false → s.running = true →
    (∀ c, s.ctx r = some c → c.passStart = some .recent →
      let m := s.setCtx r (some { c with passStart := some .due })
      RunFrame m m.grantOnWork ∧ exec (.rollPassDue r) s = .next m.grantOnWork) ∧
    ((∀ c, s.ctx r = some c → c.passStart ≠ some .recent) → exec (.rollPassDue r) s = .next s)

/-! ## The field link (R126 to R145) -/

/-- When the last byte of a frame has left, the reply window of the unit addressed opens at its configured length, or the
quiet gap of a broadcast runs; a broadcast whose quiet gap runs ends after it: the link becomes IDLE and the next grant is
made; with no quiet gap running the command changes nothing (R128, R129, R132; assumption log 2). FDE is active exactly
while a frame of the part is being sent and RESETn is high (R126, R182). A well-formed frame for
another address than the addressed unit's is discarded and the window goes on running; bytes that are no well-formed frame
are a check failure, whatever address they hold (R129, R131). The command that received bytes are: a frame of the six
kinds a UIM sends, each with its own body length, with a good CRC, is its kind's command where it carries the addressed
unit's field address, else a frame for another address; all other bytes are a check failure (R127, R129, R184, R185;
naming the event by its command is the model's, assumption log 26). -/
def Obligations.FieldFramesPass : Prop :=
  (∀ (s : State) (x : Txn), s.slp.resetHeld = false → s.flc.link = some x → x.stage = .sending →
    (∀ u, x.unit = some u → exec .fieldRequestSent s = .next
      { s with flc := { s.flc with link := some { x with stage := .window (s.unit u).cfg.replyWindow } } }) ∧
    (x.unit = none → exec .fieldRequestSent s = .next
      { s with flc := { s.flc with link := some { x with stage := .quietGap } } })) ∧
  (∀ (s : State) (x : Txn), s.slp.resetHeld = false → s.flc.link = some x → x.unit = none → x.stage = .quietGap →
    let z := (s.modFlc fun f => { f with link := none }).grantNext
    RunFrame s z ∧ exec .broadcastQuietGapEnd s = .next z) ∧
  (∀ s : State, s.fde = true ↔ s.slp.resetHeld = false ∧ ∃ x, s.flc.link = some x ∧ x.stage = .sending) ∧
  (∀ s : State, (∀ x, s.flc.link = some x → x.unit ≠ none ∨ x.stage ≠ .quietGap) →
    exec .broadcastQuietGapEnd s = .next s) ∧
  (∀ (s : State) (x : Txn) (u : UnitNo) (ms : Nat), s.slp.resetHeld = false → s.flc.link = some x → x.unit = some u →
    x.stage = .window ms →
    (∀ f : FieldFrame, f.FromUim → f.address ≠ byteOf (s.unit u).cfg.address →
      exec (.foreignAddressFrame f.bytes) s = .next s) ∧
    ∀ bytes, (∀ f : FieldFrame, f.FromUim → f.bytes ≠ bytes) →
      exec (.foreignAddressFrame bytes) s = exec .fieldCheckFailure s) ∧
  ∀ a : Byte,
    (∀ (t w : Word) (mode flags : Byte),
      fieldCommand a (FieldFrame.bytes ⟨a, 0x41, bytesOf t ++ bytesOf w ++ [mode, flags]⟩) =
        .readingReceived t w mode flags) ∧
    fieldCommand a (FieldFrame.bytes ⟨a, 0x42, []⟩) = .ackReceived ∧
    (∀ reason : Byte, fieldCommand a (FieldFrame.bytes ⟨a, 0x43, [reason]⟩) = .nakReceived reason) ∧
    fieldCommand a (FieldFrame.bytes ⟨a, 0x44, []⟩) = .deferReceived ∧
    (∀ tag token : Byte, fieldCommand a (FieldFrame.bytes ⟨a, 0x45, [tag, token]⟩) = .phaseReceived tag token) ∧
    (∀ mail : List Byte, 1 ≤ mail.length → mail.length ≤ 32 →
      fieldCommand a (FieldFrame.bytes ⟨a, 0x46, mail⟩) = .mailReplyReceived mail) ∧
    (∀ f : FieldFrame, f.FromUim → f.address ≠ a → fieldCommand a f.bytes = .foreignAddressFrame f.bytes) ∧
    ∀ bytes, (∀ f : FieldFrame, f.FromUim → f.bytes ≠ bytes) → fieldCommand a bytes = .fieldCheckFailure

/-- A transaction that ends MISSED, by its window, a gap inside a reply or a check failure: the miss count goes up by one,
not above the limit, and a unit not OFFLINE whose count reaches the limit becomes OFFLINE with condition NONE; FIELD_CHECK
is set but for the window; no other unit's presence and no other part of a reading changes (R10, R131, R134, R135). The
work of going OFFLINE in its order: UNIT_PRESENCE, the command entry, the drop, the mail slot that fails with OFFLINE and
MAIL_DONE, the condition NONE handed on; the requester is then told nothing, and of a unit that is not lost a poll or a
query makes nothing more of the miss (R10, R106, R135, R141, R164). A drop: the participant DROPPED and its repair gone,
then the quorum test of an ENTER not yet committed, and the tests of the rolls (R111, R114 to R116, R120, R121), a cleared
cursor being the model's 1 (assumption log 30). For every requester, a gap or a check failure is the expiry of the window
with FIELD_CHECK set (R131). -/
def Obligations.MissedOutcome : Prop :=
  (∀ (s : State) (x : Txn) (u : UnitNo) (ms : Nat), s.slp.resetHeld = false → s.flc.link = some x → x.unit = some u →
    x.stage = .window ms → x.heeded = true →
    ∀ i, i = .replyWindowExpiry ∨ i = .fieldInterByteGap ∨ i = .fieldCheckFailure →
      let n := min (s.unit u).cfg.missLimit ((s.unit u).misses + 1)
      let lost := (s.unit u).presence ≠ .offline ∧ n = (s.unit u).cfg.missLimit
      ∃ t : State, exec i s = .next t ∧ t.pending = s.pending ∧ t.slp = s.slp ∧ SameTables s t ∧
        (t.unit u).misses = n ∧
        (lost → (t.unit u).presence = .offline ∧ (t.unit u).reading = { (s.unit u).reading with condition := .none } ∧
          ∀ e ∈ t.flc.commands, e.unit ≠ u) ∧
        (¬ lost → (t.unit u).presence = (s.unit u).presence ∧ (t.unit u).reading = (s.unit u).reading) ∧
        (∀ v, v ≠ u → (t.unit v).misses = (s.unit v).misses ∧ (t.unit v).presence = (s.unit v).presence ∧
          (t.unit v).reading = (s.unit v).reading) ∧
        t.nq.fieldCheck = (s.nq.fieldCheck || decide (i ≠ .replyWindowExpiry)) ∧
        let counted := ({ s with nq :=
          { s.nq with fieldCheck := s.nq.fieldCheck || decide (i ≠ .replyWindowExpiry) } } : State).modUnit u
            fun y => { y with misses := n }
        let off := (counted.modUnit u fun y => { y with presence := .offline }).post 2 (.unit u) (.unitPresence .offline)
        let dropped := (off.modFlc fun f => { f with commands := f.commands.filter fun e => e.unit != u }).drop u
        let mailed :=
          if (dropped.flc.mail.state = .posted ∨ dropped.flc.mail.state = .sent) ∧ dropped.flc.mail.unit = some u then
            (dropped.modFlc fun f => { f with mail := { f.mail with state := .failed, reason := some .offline } }).post 1
              (.unit u) (.mailDone (some .offline) dropped.flc.mail.attempts)
          else dropped
        let handed := (mailed.modUnit u fun y => { y with reading := { y.reading with condition := .none } }).ownEvent u
          .automatic
        (lost → t = (handed.modFlc fun f => { f with link := none }).grantNext) ∧
        (¬ lost → x.requester = .sweep ∨ (∃ key, x.requester = .query key) →
          t = (counted.modFlc fun f => { f with link := none }).grantNext)) ∧
  (∀ (s : State) (x : Txn) (u : UnitNo) (ms : Nat), s.slp.resetHeld = false → s.flc.link = some x → x.unit = some u →
    x.stage = .window ms → ∀ i, i = .fieldInterByteGap ∨ i = .fieldCheckFailure →
      exec i s = exec .replyWindowExpiry { s with nq := { s.nq with fieldCheck := true } }) ∧
  ∀ (s : State) (u : UnitNo),
    let r := (s.unit u).cfg.riser
    ((∀ c, s.ctx r = some c → ∀ p ∈ c.participants, p.unit = u → p.status = .dropped) → s.drop u = s) ∧
    ∀ c, s.ctx r = some c → (∃ p ∈ c.participants, p.unit = u ∧ p.status ≠ .dropped) →
      let d := { c with
        participants := c.participants.map fun p => if p.unit = u then { p with status := .dropped } else p
        repairs := c.repairs.filter fun p => p.unit != u }
      let m := s.setCtx r (some d)
      let rest := d.participants.filter fun p => p.status != .dropped
      let ready := { d with phase := .commitPending, window := none, cursor := 1, passStart := none, repairs := [] }
      (d.direction = .enter → d.phase = .callPending ∨ d.phase = .rollReady ∨ d.phase = .commitPending →
        rest.length < (s.riser r).cfg.quorum → s.drop u = m.ceCancel r d .quorumLost) ∧
      (d.direction = .enter → (s.riser r).cfg.quorum ≤ rest.length →
        (d.phase = .callPending ∨ d.phase = .commitPending → s.drop u = m) ∧
        (d.phase = .rollReady → (∀ p ∈ rest, p.status = .ready) → s.drop u = m.setCtx r (some ready)) ∧
        (d.phase = .rollReady → (∃ p ∈ rest, p.status ≠ .ready) → s.drop u = m)) ∧
      (d.direction = .leave → d.phase = .returnPending →
        (rest = [] → s.drop u = m.rollEnds r d .complete 0) ∧ (rest ≠ [] → s.drop u = m)) ∧
      (d.phase = .rollDone → (∀ p ∈ rest, p.status = .done) → s.drop u = m.rollEnds r d .complete 0) ∧
      (d.phase = .rollDone → (∃ p ∈ rest, p.status ≠ .done) → s.drop u = m) ∧
      (d.phase = .cancelPending → s.drop u = m)

/-- An outcome of a transaction left by STOP_RUN changes no presence and no miss count and is handed to no requester: the
link becomes IDLE and the next grant is made (R5, R145). -/
def Obligations.UnheededOutcome : Prop :=
  ∀ (s : State) (x : Txn) (u : UnitNo) (ms : Nat), s.slp.resetHeld = false → s.flc.link = some x → x.unit = some u →
    x.stage = .window ms → x.heeded = false →
    let z := (s.modFlc fun f => { f with link := none }).grantNext
    RunFrame s z ∧ exec .replyWindowExpiry s = .next z ∧ exec .ackReceived s = .next z ∧
    (∀ b, exec (.nakReceived b) s = .next z) ∧ (∀ a b, exec (.phaseReceived a b) s = .next z) ∧
    (∀ a b c d, exec (.readingReceived a b c d) s = .next z) ∧
    ∀ b : List Byte, 1 ≤ b.length → b.length ≤ 32 → exec (.mailReplyReceived b) s = .next z

/-- Any answer sets the miss count to 0 and makes the unit ONLINE, and a READING that answers a poll is committed: the
values clamped and stored, or kept under SENSOR_FAULT; the flags and the reported mode replaced; the age 0; the control
taken from LOCAL_HAND (R3, R6, R7, R8, R43, R134, R136, R141). The event in its order: UNIT_PRESENCE where the unit was
not ONLINE, the reading, UNIT_FAULT on a change of a fault flag, UNIT_HAND and the control with the drop of a unit that
leaves AUTO, the LATE mark cleared by the mode moved to, the evaluation of its class, the resync, and the recount (R5, R8,
R11, R42, R43, R54 to R56, R63, R104, R115, R136); that UNIT_HAND stands before the notices of that drop is the model's
reading (assumption log 20). An answer of another kind to a poll commits nothing; of a unit that was not
ONLINE it posts UNIT_PRESENCE and has the riser recounted (R134, R136, R141). -/
def Obligations.ReadingIsCommitted : Prop :=
  (∀ (s : State) (x : Txn) (u : UnitNo) (ms : Nat) (tRa wRa : Word) (mode flags : Byte), s.slp.resetHeld = false →
    s.flc.link = some x → x.unit = some u → x.stage = .window ms → x.heeded = true → x.requester = .sweep →
    ∃ t : State, exec (.readingReceived tRa wRa mode flags) s = .next t ∧ t.pending = s.pending ∧ t.slp = s.slp ∧
      SameTables s t ∧ (t.unit u).misses = 0 ∧ (t.unit u).presence = .online ∧
      (t.unit u).reading.flags = ⟨flags.getLsbD 0, flags.getLsbD 1, flags.getLsbD 2, flags.getLsbD 3, flags.getLsbD 4⟩ ∧
      (t.unit u).reading.reported =
        (if mode = 1 then some .recoverHeat else if mode = 2 then some .recoverCool else if mode = 3 then some .bypass
         else if mode = 4 then some .freeCool else if mode = 5 then some .defrost else if mode = 6 then some .safe
         else none) ∧
      (t.unit u).reading.age = 0 ∧
      (flags.getLsbD 3 = false → (t.unit u).reading.condition = .fresh ∧
        (t.unit u).reading.air = some ⟨max (-4000) (min 6000 tRa.toInt), min 300 wRa.toNat⟩ ∧
        ((t.unit u).reading.clamped = true ↔
          ¬ (-4000 ≤ tRa.toInt ∧ tRa.toInt ≤ 6000 ∧ wRa.toNat ≤ 300))) ∧
      (flags.getLsbD 3 = true → (t.unit u).reading.condition = .sensorHold ∧
        (t.unit u).reading.air = (s.unit u).reading.air ∧ (t.unit u).reading.clamped = (s.unit u).reading.clamped) ∧
      (flags.getLsbD 4 = true → (t.unit u).decision.control = .hand) ∧
      (flags.getLsbD 4 = false → (t.unit u).decision.control =
        if (s.unit u).decision.control = .hand then
          (if (s.unit u).decision.forced = none then .auto else .forced)
        else (s.unit u).decision.control) ∧
      ∀ v, v ≠ u → (t.unit v).misses = (s.unit v).misses ∧ (t.unit v).presence = (s.unit v).presence ∧
        (t.unit v).reading = (s.unit v).reading ∧ (t.unit v).decision.control = (s.unit v).decision.control) ∧
  (∀ (s : State) (x : Txn) (u : UnitNo) (ms : Nat), s.slp.resetHeld = false → s.flc.link = some x → x.unit = some u →
    x.stage = .window ms → x.heeded = true → x.requester = .sweep →
    let counted := s.modUnit u fun y => { y with misses := 0 }
    let online := if (s.unit u).presence = .online then counted
      else (counted.modUnit u fun y => { y with presence := .online }).post 2 (.unit u) (.unitPresence .online)
    (∀ (tRa wRa : Word) (mode flags : Byte),
      let old := (s.unit u).reading.flags
      let f : UnitFlags :=
        ⟨flags.getLsbD 0, flags.getLsbD 1, flags.getLsbD 2, flags.getLsbD 3, flags.getLsbD 4⟩
      let d := (s.unit u).decision
      let stored := online.modUnit u fun y => { y with reading := commitReading ⟨tRa, wRa, mode, flags⟩ y.reading }
      let told :=
        if old.wheelFault ≠ f.wheelFault ∨ old.damperFault ≠ f.damperFault ∨ old.sensorFault ≠ f.sensorFault then
          stored.post 2 (.unit u) (.unitFault f) else stored
      let held : Control := if f.localHand then .hand
        else if d.control = .hand then (if d.forced = none then .auto else .forced) else d.control
      let handed :=
        if held = d.control then told
        else
          let noted := if held = Control.hand then told.post 1 (.unit u) (.unitHand true)
            else if d.control = .hand then told.post 1 (.unit u) (.unitHand false) else told
          let changed := noted.modDecision u fun y => { y with control := held }
          if d.control = .auto then changed.drop u else changed
      let unmarked :=
        if (d.late = some .enter ∧ mode = 4) ∨ (d.late = some .leave ∧ mode = 3) then
          handed.modDecision u fun y => { y with late := none } else handed
      let decided := unmarked.evaluate u (if held = d.control then .automatic else .control)
      let synced :=
        match (decided.unit u).decision.commanded with
        | none => decided
        | some c =>
          if decided.coordinate = true ∧ (decided.unit u).reading.reported ≠ some c.mode ∧
              (∀ e ∈ decided.flc.commands, e.unit ≠ u) ∧ decided.isParticipant u = false ∧ held ≠ Control.hand then
            decided.postCommand u c else decided
      exec (.readingReceived tRa wRa mode flags) s = .next
        ((synced.recount (s.unit u).cfg.riser).modFlc fun g => { g with link := none }).grantNext) ∧
    ∀ i, i = .ackReceived ∨ (∃ b, i = .nakReceived b) ∨ (∃ a b, i = .phaseReceived a b) ∨
        (∃ b : List Byte, 1 ≤ b.length ∧ b.length ≤ 32 ∧ i = .mailReplyReceived b) →
      exec i s = .next (((if (s.unit u).presence = .online then online
        else online.recount (s.unit u).cfg.riser).modFlc fun g => { g with link := none }).grantNext)) ∧
  ∀ (s : State) (u : UnitNo), s.isParticipant u = true ↔
    ∃ c, s.ctx (s.unit u).cfg.riser = some c ∧ ∃ p ∈ c.participants, p.unit = u ∧ p.status ≠ .dropped

/-- The outcome of a SET_MODE, for an ONLINE unit with no changeover in progress: an ACK acknowledges the content sent and
removes the entry if its content is still that; a NAK removes the entry and posts COMMAND_REFUSED with its reason; an
answer of another kind, and a miss of a unit not lost by it, move the entry to the tail (R143, R184). The same for a unit
in any presence and with changeovers in progress: the whole step, every answer of another kind named, with UNIT_PRESENCE
before and the recount after where the unit was not ONLINE, and with the next grant at the end (R128, R134, R136, R143). A
posting replaces the unit's entry in place, or appends one (R142). -/
def Obligations.CommandOutcomes : Prop :=
  (∀ (s : State) (x : Txn) (u : UnitNo) (ms : Nat) (sent : ModeSpeed), s.slp.resetHeld = false → s.flc.link = some x →
    x.unit = some u → x.stage = .window ms → x.heeded = true → x.requester = .command sent →
    (s.unit u).presence = .online → (∀ r, s.ctx r = none) →
    (∃ t : State, exec .ackReceived s = .next t ∧ (t.unit u).decision.acknowledged = some sent ∧
      t.flc.commands = s.flc.commands.filter (fun e => e != ⟨u, sent⟩) ∧ t.nq = s.nq ∧ (t.unit u).misses = 0) ∧
    (∀ b : Byte, ∃ t : State, exec (.nakReceived b) s = .next t ∧
      t.flc.commands = s.flc.commands.filter (fun e => e.unit != u) ∧
      t.nq = s.nq.post ⟨2, .unit u, .commandRefused (if b = 1 then .hand else if b = 2 then .fault else .badMode)⟩ ∧
      (t.unit u).decision = (s.unit u).decision ∧ (t.unit u).misses = 0) ∧
    (∀ a b, ∃ t : State, exec (.phaseReceived a b) s = .next t ∧
      t.flc.commands =
        s.flc.commands.filter (fun e => e.unit != u) ++ s.flc.commands.filter (fun e => e.unit == u) ∧
      t.nq = s.nq ∧ (t.unit u).decision = (s.unit u).decision) ∧
    ((s.unit u).misses + 1 < (s.unit u).cfg.missLimit → ∃ t : State, exec .replyWindowExpiry s = .next t ∧
      t.flc.commands =
        s.flc.commands.filter (fun e => e.unit != u) ++ s.flc.commands.filter (fun e => e.unit == u) ∧
      t.nq = s.nq ∧ (t.unit u).decision = (s.unit u).decision ∧ (t.unit u).misses = (s.unit u).misses + 1)) ∧
  (∀ (s : State) (x : Txn) (u : UnitNo) (ms : Nat) (sent : ModeSpeed), s.slp.resetHeld = false → s.flc.link = some x →
    x.unit = some u → x.stage = .window ms → x.heeded = true → x.requester = .command sent →
    let counted := s.modUnit u fun y => { y with misses := 0 }
    let met := if (s.unit u).presence = .online then counted
      else (counted.modUnit u fun y => { y with presence := .online }).post 2 (.unit u) (.unitPresence .online)
    let closed := fun y : State => (y.modFlc fun f => { f with link := none }).grantNext
    let ends := fun y : State =>
      closed (if (s.unit u).presence = .online then y else y.recount (s.unit u).cfg.riser)
    let toTail := fun y : State => y.modFlc fun f =>
      { f with commands := f.commands.filter (fun e => e.unit != u) ++ f.commands.filter fun e => e.unit == u }
    let n := min (s.unit u).cfg.missLimit ((s.unit u).misses + 1)
    exec .ackReceived s = .next (ends ((met.modDecision u fun d => { d with acknowledged := some sent }).modFlc fun f =>
      { f with commands := f.commands.filter fun e => e != ⟨u, sent⟩ })) ∧
    (∀ b : Byte, exec (.nakReceived b) s = .next (ends ((met.modFlc fun f =>
      { f with commands := f.commands.filter fun e => e.unit != u }).post 2 (.unit u)
        (.commandRefused (if b = 1 then .hand else if b = 2 then .fault else .badMode))))) ∧
    (∀ i, (∃ a b c d, i = .readingReceived a b c d) ∨ (∃ a b, i = .phaseReceived a b) ∨
        (∃ b : List Byte, 1 ≤ b.length ∧ b.length ≤ 32 ∧ i = .mailReplyReceived b) →
      exec i s = .next (ends (toTail met))) ∧
    ((s.unit u).presence = .offline ∨ n ≠ (s.unit u).cfg.missLimit →
      exec .replyWindowExpiry s = .next (closed (toTail (s.modUnit u fun y => { y with misses := n }))))) ∧
  ∀ (s : State) (u : UnitNo) (c : ModeSpeed),
    ((∀ e ∈ s.flc.commands, e.unit ≠ u) →
      s.postCommand u c = s.modFlc fun f => { f with commands := f.commands ++ [⟨u, c⟩] }) ∧
    ∀ front e back, s.flc.commands = front ++ e :: back → (∀ x ∈ front, x.unit ≠ u) → e.unit = u →
      s.postCommand u c = s.modFlc fun f => { f with commands := front ++ ⟨u, c⟩ :: back }

/-- The outcome of a MAIL, for an ONLINE unit with no changeover in progress and the slot SENT with the post number the
transaction carries: a MAIL_REPLY is held and MAIL_DONE posted; an answer of another kind, and a miss of a unit not lost
by it, send the slot back to POSTED below three attempts, and fail it with NO_REPLY and MAIL_DONE at three; a miss that
makes the unit OFFLINE fails the slot of that unit with OFFLINE (R162 to R164). The same for a unit in any presence and
with changeovers in progress: the whole step, every answer of another kind named, with UNIT_PRESENCE before and the recount
after where the unit was not ONLINE, and with the next grant at the end; an outcome that meets a slot that is not SENT, or
another post number, is discarded by the slot (R128, R134, R136, R162). -/
def Obligations.MailOutcomes : Prop :=
  (∀ (s : State) (x : Txn) (u : UnitNo) (ms : Nat), s.slp.resetHeld = false → s.flc.link = some x → x.unit = some u →
    x.stage = .window ms → x.heeded = true → x.requester = .mail s.flc.postNumber → s.flc.mail.state = .sent →
    (s.unit u).presence = .online → (∀ r, s.ctx r = none) →
    (∀ b : List Byte, 1 ≤ b.length → b.length ≤ 32 → ∃ t : State, exec (.mailReplyReceived b) s = .next t ∧
      t.flc.mail = { s.flc.mail with state := .answered, reply := some b } ∧
      t.nq = s.nq.post ⟨1, .unit u, .mailDone none s.flc.mail.attempts⟩) ∧
    (s.flc.mail.attempts < 3 → ∃ t : State, exec .ackReceived s = .next t ∧
      MailSlot.granted { s.flc.mail with state := .posted } t.flc.mail ∧ t.nq = s.nq) ∧
    (3 ≤ s.flc.mail.attempts → ∃ t : State, exec .ackReceived s = .next t ∧
      t.flc.mail = { s.flc.mail with state := .failed, reason := some .noReply } ∧
      t.nq = s.nq.post ⟨1, .unit u, .mailDone (some .noReply) s.flc.mail.attempts⟩) ∧
    ((s.unit u).misses + 1 < (s.unit u).cfg.missLimit →
      (s.flc.mail.attempts < 3 → ∃ t : State, exec .replyWindowExpiry s = .next t ∧
        MailSlot.granted { s.flc.mail with state := .posted } t.flc.mail ∧ t.nq = s.nq) ∧
      (3 ≤ s.flc.mail.attempts → ∃ t : State, exec .replyWindowExpiry s = .next t ∧
        t.flc.mail = { s.flc.mail with state := .failed, reason := some .noReply } ∧
        t.nq = s.nq.post ⟨1, .unit u, .mailDone (some .noReply) s.flc.mail.attempts⟩)) ∧
    ((s.unit u).cfg.missLimit ≤ (s.unit u).misses + 1 → s.flc.mail.unit = some u →
      ∃ t : State, exec .replyWindowExpiry s = .next t ∧ (t.unit u).presence = .offline ∧
        t.flc.mail = { s.flc.mail with state := .failed, reason := some .offline })) ∧
  ∀ (s : State) (x : Txn) (u : UnitNo) (ms : Nat) (post : Byte), s.slp.resetHeld = false → s.flc.link = some x →
    x.unit = some u → x.stage = .window ms → x.heeded = true → x.requester = .mail post →
    let counted := s.modUnit u fun y => { y with misses := 0 }
    let met := if (s.unit u).presence = .online then counted
      else (counted.modUnit u fun y => { y with presence := .online }).post 2 (.unit u) (.unitPresence .online)
    let closed := fun y : State => (y.modFlc fun f => { f with link := none }).grantNext
    let ends := fun y : State =>
      closed (if (s.unit u).presence = .online then y else y.recount (s.unit u).cfg.riser)
    let n := min (s.unit u).cfg.missLimit ((s.unit u).misses + 1)
    let missed := s.modUnit u fun y => { y with misses := n }
    let kept := (s.unit u).presence = .offline ∨ n ≠ (s.unit u).cfg.missLimit
    let mine := s.flc.mail.state = .sent ∧ s.flc.postNumber = post
    let retried := fun y : State =>
      if s.flc.mail.attempts < 3 then y.modFlc fun f => { f with mail := { f.mail with state := .posted } }
      else (y.modFlc fun f => { f with mail := { f.mail with state := .failed, reason := some .noReply } }).post 1
        (.unit u) (.mailDone (some .noReply) s.flc.mail.attempts)
    (mine →
      (∀ b : List Byte, 1 ≤ b.length → b.length ≤ 32 → exec (.mailReplyReceived b) s = .next (ends
        ((met.modFlc fun f => { f with mail := { f.mail with state := .answered, reply := some b } }).post 1 (.unit u)
          (.mailDone none s.flc.mail.attempts)))) ∧
      (∀ i, i = .ackReceived ∨ (∃ b, i = .nakReceived b) ∨ (∃ a b, i = .phaseReceived a b) ∨
          (∃ a b c d, i = .readingReceived a b c d) → exec i s = .next (ends (retried met))) ∧
      (kept → exec .replyWindowExpiry s = .next (closed (retried missed)))) ∧
    (¬ mine →
      (∀ i, i = .ackReceived ∨ (∃ b, i = .nakReceived b) ∨ (∃ a b, i = .phaseReceived a b) ∨
          (∃ a b c d, i = .readingReceived a b c d) ∨
          (∃ b : List Byte, 1 ≤ b.length ∧ b.length ≤ 32 ∧ i = .mailReplyReceived b) → exec i s = .next (ends met)) ∧
      (kept → exec .replyWindowExpiry s = .next (closed missed)))

/-- A PHASE that answers a query, for a unit whose roll still queries it, by the action the tables give (R110, R113,
R121): a status is set, and where every remaining participant is then READY the context waits to commit, and where
every one is DONE the changeover ends COMPLETE (R111, R114); a refusal makes the status REFUSED and cancels the context
with REFUSED (R110, R117); a repair is queued at the tail, unless the participant has one queued (R107); or nothing. A
token outside 0..5, an answer of any other kind, a participant the roll no longer queries and a miss of a unit not lost
by it change nothing of the context (R106, R184). The end of a repair's transaction removes the repair, whatever the
outcome (R107). An outcome that comes when the context has ended, or has another direction, tag or phase than when it
was asked for, is discarded (R105). A unit that was not ONLINE becomes it, with UNIT_PRESENCE before and the recount
after (R134, R136). A cleared cursor is the model's 1 (assumption log 30). -/
def Obligations.PhaseIsTaken : Prop :=
  (∀ (s : State) (x : Txn) (u : UnitNo) (ms : Nat) (key : CtxKey) (c : Ctx) (tag token : Byte),
    s.slp.resetHeld = false → s.flc.link = some x → x.unit = some u → x.stage = .window ms → x.heeded = true →
    x.requester = .query key → s.ctx key.riser = some c → c.key key.riser = key →
    let counted := s.modUnit u fun y => { y with misses := 0 }
    let m := if (s.unit u).presence = .online then counted
      else (counted.modUnit u fun y => { y with presence := .online }).post 2 (.unit u) (.unitPresence .online)
    let ends := fun y : State => ((if (s.unit u).presence = .online then y
      else y.recount (s.unit u).cfg.riser).modFlc fun f => { f with link := none }).grantNext
    let status := fun st : PartStatus =>
      { c with participants := c.participants.map fun p => if p.unit = u then { p with status := st } else p }
    let remaining := fun st : PartStatus => (status st).participants.filter fun p => p.status != .dropped
    (∀ (p : Participant) (t : Token), p ∈ c.participants → p.unit = u → c.calls p = true → tokenOfCode token = some t →
      (∃ y : State, RunFrame m (ends y) ∧ exec (.phaseReceived tag token) s = .next (ends y)) ∧
      (c.action tag t = .nothing → exec (.phaseReceived tag token) s = .next (ends m)) ∧
      (∀ st, c.action tag t = .becomes st →
        (c.phase = .rollReady → (∀ q ∈ remaining st, q.status = .ready) →
          exec (.phaseReceived tag token) s = .next (ends (m.setCtx key.riser (some
            { status st with phase := .commitPending, window := none, cursor := 1, passStart := none, repairs := [] }
          )))) ∧
        (c.phase = .rollDone → (∀ q ∈ remaining st, q.status = .done) →
          exec (.phaseReceived tag token) s = .next (ends
            ((m.setCtx key.riser (some (status st))).rollEnds key.riser (status st) .complete 0))) ∧
        ((c.phase = .rollReady ∧ ∃ q ∈ remaining st, q.status ≠ .ready) ∨
            (c.phase = .rollDone ∧ ∃ q ∈ remaining st, q.status ≠ .done) →
          exec (.phaseReceived tag token) s = .next (ends (m.setCtx key.riser (some (status st)))))) ∧
      (c.action tag t = .refused → exec (.phaseReceived tag token) s = .next (ends
        ((m.setCtx key.riser (some (status .refused))).ceCancel key.riser (status .refused) .refused))) ∧
      ∀ k, c.action tag t = .repair k →
        ((∃ q ∈ c.repairs, q.unit = u) → exec (.phaseReceived tag token) s = .next (ends m)) ∧
        ((∀ q ∈ c.repairs, q.unit ≠ u) → exec (.phaseReceived tag token) s = .next (ends
          (m.setCtx key.riser (some { c with repairs := c.repairs ++ [⟨u, k⟩] }))))) ∧
    (∀ p : Participant, c.calls p = true ↔
      c.phase = .rollReady ∧ p.status = .pending ∨ c.phase = .rollDone ∧ p.status ≠ .done ∧ p.status ≠ .dropped) ∧
    (5 < token.toNat ∨ (∀ p ∈ c.participants, p.unit = u → c.calls p = false) →
      exec (.phaseReceived tag token) s = .next (ends m)) ∧
    (∀ i, i = .ackReceived ∨ (∃ b, i = .nakReceived b) ∨ (∃ a b c d, i = .readingReceived a b c d) ∨
        (∃ b : List Byte, 1 ≤ b.length ∧ b.length ≤ 32 ∧ i = .mailReplyReceived b) → exec i s = .next (ends m)) ∧
    let n := min (s.unit u).cfg.missLimit ((s.unit u).misses + 1)
    ((s.unit u).presence = .offline ∨ n ≠ (s.unit u).cfg.missLimit → exec .replyWindowExpiry s = .next
      (((s.modUnit u fun y => { y with misses := n }).modFlc fun f => { f with link := none }).grantNext))) ∧
  (∀ b : Byte, tokenOfCode b =
    if b = 0 then some .idle else if b = 1 then some .preparing else if b = 2 then some .ready
    else if b = 3 then some .refuse else if b = 4 then some .moving else if b = 5 then some .done else none) ∧
  ∀ (s : State) (x : Txn) (u : UnitNo) (ms : Nat) (key : CtxKey),
    s.slp.resetHeld = false → s.flc.link = some x → x.unit = some u → x.stage = .window ms → x.heeded = true →
    let counted := s.modUnit u fun y => { y with misses := 0 }
    let met := if (s.unit u).presence = .online then counted
      else (counted.modUnit u fun y => { y with presence := .online }).post 2 (.unit u) (.unitPresence .online)
    let closed := fun y : State => (y.modFlc fun f => { f with link := none }).grantNext
    let ends := fun y : State =>
      closed (if (s.unit u).presence = .online then y else y.recount (s.unit u).cfg.riser)
    let n := min (s.unit u).cfg.missLimit ((s.unit u).misses + 1)
    let missed := s.modUnit u fun y => { y with misses := n }
    let kept := (s.unit u).presence = .offline ∨ n ≠ (s.unit u).cfg.missLimit
    let answer := fun i : Instr => i = .ackReceived ∨ (∃ b, i = .nakReceived b) ∨ (∃ a b, i = .phaseReceived a b) ∨
      (∃ a b c d, i = .readingReceived a b c d) ∨
      ∃ b : List Byte, 1 ≤ b.length ∧ b.length ≤ 32 ∧ i = .mailReplyReceived b
    (∀ c, x.requester = .repair key → s.ctx key.riser = some c → c.key key.riser = key →
      let gone := fun y : State => y.setCtx key.riser (some
        { c with repairs := c.repairs.filter fun q => q.unit != u })
      (∀ i, answer i → exec i s = .next (ends (gone met))) ∧
      (kept → exec .replyWindowExpiry s = .next (closed (gone missed)))) ∧
    (x.requester = .query key ∨ x.requester = .repair key →
      (∀ c, s.ctx key.riser = some c → ¬ (c.direction = key.direction ∧ c.tag = key.tag ∧ c.phase = key.phase)) →
      (∀ i, answer i → exec i s = .next (ends met)) ∧ (kept → exec .replyWindowExpiry s = .next (closed missed)))

/-- The tables of the rolls: what a PHASE reply does, by direction, phase, token and whether its tag is the context's
(R110, R113, R121). -/
def Obligations.RollTables : Prop :=
  ∀ (c : Ctx) (tag : Byte) (t : Token),
    (c.phase = .rollReady →
      (tag = c.tag → t = .ready → c.action tag t = .becomes .ready) ∧
      (tag = c.tag → t = .preparing → c.action tag t = .nothing) ∧
      (tag = c.tag → t = .refuse → c.action tag t = .refused) ∧
      (tag ≠ c.tag ∨ t = .idle ∨ t = .moving ∨ t = .done → c.action tag t = .repair .call)) ∧
    (c.phase = .rollDone → c.direction = .enter →
      (tag = c.tag → t = .done → c.action tag t = .becomes .done) ∧
      (tag = c.tag → t = .ready ∨ t = .preparing ∨ t = .idle → c.action tag t = .repair .commit) ∧
      (tag ≠ c.tag ∨ t = .moving ∨ t = .refuse → c.action tag t = .nothing)) ∧
    (c.phase = .rollDone → c.direction = .leave →
      (tag = c.tag → t = .done → c.action tag t = .becomes .done) ∧
      (tag = c.tag → t = .moving → c.action tag t = .nothing) ∧
      (tag ≠ c.tag ∨ t = .ready ∨ t = .preparing ∨ t = .idle ∨ t = .refuse → c.action tag t = .repair .giveBack))

/-- A DEFER from the addressed unit adds one to the count; at or below the unit's limit the window starts again at its
full value and nothing else changes; above it the transaction ends MISSED, as at the expiry of its window; every
transaction begins with count 0 (R130). -/
def Obligations.DeferStretchesTheWindow : Prop :=
  (∀ (s : State) (x : Txn) (u : UnitNo) (ms : Nat), s.slp.resetHeld = false → s.flc.link = some x → x.unit = some u →
    x.stage = .window ms →
    (x.deferCount + 1 ≤ (s.unit u).cfg.deferLimit → exec .deferReceived s = .next
      { s with flc := { s.flc with link := some ({ x with
        deferCount := x.deferCount + 1, stage := .window (s.unit u).cfg.replyWindow }) } }) ∧
    ((s.unit u).cfg.deferLimit < x.deferCount + 1 → exec .deferReceived s = exec .replyWindowExpiry s) ∧
    ((s.unit u).cfg.deferLimit = 0 → exec .deferReceived s = exec .replyWindowExpiry s) ∧
    ((s.unit u).cfg.deferLimit = 2 → x.deferCount = 2 → exec .deferReceived s = exec .replyWindowExpiry s)) ∧
  ∀ (frame : FieldFrame) (req : Requester) (u : Option UnitNo) (v : LinkSpeed) (s : State) (x : Txn),
    (s.beginTxn frame req u v).flc.link = some x → x.deferCount = 0

/-- The arbiter's grant with the link IDLE: the highest class with work, or POLL where a poll waits and the guarantee
count is 8; and the count after it (R137, R139). When a class has work (R105, R106, R137). CHANGEOVER serves the first
riser with work after the one served last, wrapping from 5 to 0, and that riser becomes the one served last (R138): its
broadcast, else the repair at the head, else the query of its roll, which continues the pass past the cursor or starts
the next one (R105 to R107; assumption log 11). COMMAND sends the head entry, MAIL the mail with one attempt more, POLL
the least qualifying unit at or after the cursor, which moves past it; an OFFLINE unit qualifies only in a sweep whose
number is a multiple of 8 (R140, R143, R162, R184). A BUSY link grants nothing; an owed RELEASE goes before every class
(R137, R145). The grant made where work appears with the link IDLE is this one, except that where two or more classes have
work any one of them may be taken: which one is a free value (R137; assumption logs 5 to 7). -/
def Obligations.GrantsByPrecedence : Prop :=
  (∀ s : State, s.flc.link = none → s.flc.releaseOwed = none → s.running = true →
    let poll := s.hasWork .poll
    (poll = true → s.flc.guarantee = 8 → s.nextClass = some .poll ∧ guaranteeAfter poll .poll 8 = 0) ∧
    (poll = false ∨ s.flc.guarantee ≠ 8 →
      (s.hasWork .changeover = true → s.nextClass = some .changeover) ∧
      (s.hasWork .changeover = false → s.hasWork .command = true → s.nextClass = some .command) ∧
      (s.hasWork .changeover = false → s.hasWork .command = false → s.hasWork .mail = true →
        s.nextClass = some .mail) ∧
      (s.hasWork .changeover = false → s.hasWork .command = false → s.hasWork .mail = false → poll = true →
        s.nextClass = some .poll)) ∧
    (s.hasWork .changeover = false → s.hasWork .command = false → s.hasWork .mail = false → poll = false →
      s.grantNext = s) ∧
    (∀ k n, k ≠ .poll → n < 8 → guaranteeAfter true k n = n + 1) ∧ (∀ n, guaranteeAfter true .poll n = 0) ∧
    (∀ k n, guaranteeAfter false k n = 0) ∧
    ∀ k, s.nextClass = some k → s.grantNext =
      (s.modFlc fun f => { f with guarantee := guaranteeAfter poll k f.guarantee }).grantClass k) ∧
  (∀ s : State,
    let idle := s.flc.link = none ∧ s.flc.releaseOwed = none ∧ s.running = true
    let granted := fun (k : LinkClass) (m : State) =>
      let g := m.modFlc fun f => { f with guarantee := guaranteeAfter (s.hasWork .poll) k f.guarantee }
      match k with
      | .changeover => g.grantChangeover
      | .command => g.grantCommand
      | .mail => g.grantMail
      | .poll => g.grantPoll
    let release := fun v : LinkSpeed => s.modFlc fun f =>
      { f with
        releaseOwed := none
        link := some { frame := ⟨63, 0x08, [255]⟩, requester := .releaseAll, unit := none, speed := v } }
    (s.flc.link ≠ none → s.grantNext = s ∧ s.grantOnWork = s) ∧
    (∀ v, s.flc.link = none → s.flc.releaseOwed = some v → s.grantNext = release v ∧ s.grantOnWork = release v) ∧
    (s.flc.releaseOwed = none → s.running = false → s.grantNext = s ∧ s.grantOnWork = s) ∧
    (idle → (∀ k, s.hasWork k = false) → s.grantOnWork = s) ∧
    (∀ k, idle → s.hasWork k = true → (∀ j, j ≠ k → s.hasWork j = false) → s.grantOnWork = granted k s) ∧
    ∀ j k, idle → j ≠ k → s.hasWork j = true → s.hasWork k = true →
      ∃ i, s.hasWork i = true ∧ s.grantOnWork = granted i { s with choices := s.choices + 1 }) ∧
  (∀ (s : State) (r : RiserNo), s.ctxHasWork r = true ↔ ∃ c, s.ctx r = some c ∧
    (c.phase = .callPending ∨ c.phase = .commitPending ∨ c.phase = .cancelPending ∨ c.phase = .returnPending ∨
      (c.phase = .rollReady ∨ c.phase = .rollDone) ∧
        (c.repairs ≠ [] ∨ (c.passStart ≠ some .recent ∧ ∃ p ∈ c.participants, c.calls p = true) ∨
          (c.passStart ≠ none ∧ ∃ p ∈ c.participants.drop (c.cursor - 1), c.calls p = true)))) ∧
  (∀ s : State,
    (s.hasWork .changeover = true ↔ ∃ r, s.ctxHasWork r = true) ∧
    (s.hasWork .command = true ↔ s.slp.opState = .coordinate ∧ s.flc.commands ≠ []) ∧
    (s.hasWork .mail = true ↔ s.flc.mail.state = .posted) ∧ (s.hasWork .poll = true ↔ ∃ u, s.nextPoll = some u) ∧
    (∀ k : RiserNo, s.ctxHasWork (s.flc.lastServed + 1 + k) = true →
      (∀ j, j < k → s.ctxHasWork (s.flc.lastServed + 1 + j) = false) →
      s.nextRiser = some (s.flc.lastServed + 1 + k)) ∧
    (∀ u : UnitNo,
      let qualifies := fun v => (s.unit v).cfg.present = true ∧
        ((s.unit v).presence ≠ .offline ∨ s.flc.sweep.counter.toNat % 8 = 0)
      s.nextPoll = some u ↔ s.flc.sweep.running = true ∧ s.flc.sweep.cursor ≤ u.val ∧ qualifies u ∧
        ∀ v, v < u → s.flc.sweep.cursor ≤ v.val → ¬ qualifies v)) ∧
  ∀ s : State,
    let sends := fun (u : UnitNo) (kind : Byte) (body : List Byte) (req : Requester) (m : State) =>
      let x : Txn :=
        { frame := ⟨byteOf (s.unit u).cfg.address, kind, body⟩, requester := req, unit := some u
          speed := s.flc.latchedSpeed }
      m.modFlc fun f => { f with link := some x }
    (∀ r c, s.nextRiser = some r → s.ctx r = some c →
      let m := s.modFlc fun f => { f with lastServed := r }
      let key : CtxKey := ⟨r, c.direction, c.tag, c.phase⟩
      (c.phase = .callPending ∨ c.phase = .commitPending ∨ c.phase = .cancelPending ∨ c.phase = .returnPending →
        s.grantChangeover = m.grantBroadcast r c) ∧
      (c.phase = .rollReady ∨ c.phase = .rollDone →
        (∀ u k rest, c.repairs = ⟨u, k⟩ :: rest →
          (k = .call → s.grantChangeover = sends u 0x03
            (byteOf r.val :: c.tag :: 4 :: byteOf c.listed.length :: c.listed.map byteOf) (.repair key) m) ∧
          (k = .commit → s.grantChangeover = sends u 0x05 [byteOf r.val, c.tag] (.repair key) m) ∧
          (k = .giveBack → s.grantChangeover = sends u 0x07
            (byteOf r.val :: c.tag :: byteOf c.listed.length :: c.listed.map byteOf) (.repair key) m)) ∧
        (c.repairs = [] → ∀ front p back, (∀ q ∈ front, c.calls q = false) → c.calls p = true →
          (c.passStart ≠ none → c.participants.drop (c.cursor - 1) = front ++ p :: back →
            s.grantChangeover = (sends p.unit 0x04 [byteOf r.val, c.tag] (.query key) m).setCtx r
              (some { c with cursor := c.cursor + front.length + 1 })) ∧
          (c.passStart = none ∨
              (c.passStart = some .due ∧ ∀ q ∈ c.participants.drop (c.cursor - 1), c.calls q = false) →
            c.participants = front ++ p :: back →
            s.grantChangeover = (sends p.unit 0x04 [byteOf r.val, c.tag] (.query key) m).setCtx r
              (some { c with cursor := 1 + front.length + 1, passStart := some .recent }))))) ∧
    (∀ e rest, s.flc.commands = e :: rest → s.grantCommand = sends e.unit 0x02
      [match e.content.mode with
        | .recoverHeat => 1 | .recoverCool => 2 | .bypass => 3 | .freeCool => 4 | .defrost => 5 | .safe => 6,
        byteOf e.content.speed] (.command e.content) s) ∧
    (∀ u b, s.flc.mail.unit = some u → s.flc.mail.mail = some b → s.grantMail =
      (sends u 0x09 b (.mail s.flc.postNumber) s).modFlc fun f =>
        { f with mail := { f.mail with state := .sent, attempts := f.mail.attempts + 1 } }) ∧
    ∀ u, s.nextPoll = some u → s.grantPoll =
      (sends u 0x01 [] .sweep s).modFlc fun f => { f with sweep := { f.sweep with cursor := u.val + 1 } }

/-- The broadcasts of a context at their grants: the frame on the line, and the roll that begins after a call, a commit
or a return, with its window and the cursor at the first participant (R109, R112, R120, R184); units READY at a commit,
and those remaining at a return, that are in AUTO are commanded with it (R50). At the grant of a GROUP_CANCEL the context
ends CANCELLED with its reason: the CHANGEOVER notice, the riser INDIVIDUAL with settle started and no context, the
participants evaluated, the recount, the draining weight released and the scan (R68, R95, R118).
That the units evaluated are all those on the list, DROPPED ones included, is the model's choice (assumption log 31). -/
def Obligations.BroadcastsAreSent : Prop :=
  ∀ (s : State) (r : RiserNo) (c : Ctx),
    let remaining := c.participants.filter fun p => p.status != .dropped
    let address := fun p : Participant => (s.unit p.unit).cfg.address
    let sent := fun (kind : Byte) (body : List Byte) => some
      ({ frame := ⟨63, kind, byteOf r.val :: c.tag :: body⟩, requester := .broadcast r, unit := none
         speed := s.flc.latchedSpeed } : Txn)
    let t := s.grantBroadcast r c
    (c.phase = .callPending →
      t.flc.link = sent 0x03 (4 :: byteOf c.participants.length :: c.participants.map fun p => byteOf (address p)) ∧
      t.ctx r = some { c with
        phase := .rollReady, window := some (s.riser r).cfg.readyWindow, cursor := 1, passStart := none, repairs := []
        listed := c.participants.map address }) ∧
    (c.phase = .commitPending →
      t.flc.link = sent 0x05 [] ∧
      t.ctx r = some { c with
        phase := .rollDone, window := some (s.riser r).cfg.doneWindow, cursor := 1, passStart := none, repairs := [] } ∧
      ∀ p ∈ c.participants, p.status = .ready → (s.unit p.unit).decision.control = .auto →
        (t.unit p.unit).decision.commanded.map (·.mode) = some .freeCool) ∧
    (c.phase = .returnPending →
      t.flc.link = sent 0x07 (byteOf remaining.length :: remaining.map fun p => byteOf (address p)) ∧
      t.ctx r = some { c with
        phase := .rollDone, window := some (s.riser r).cfg.doneWindow, cursor := 1, passStart := none, repairs := []
        listed := remaining.map address } ∧
      ∀ p ∈ c.participants, p.status ≠ .dropped → (s.unit p.unit).decision.control = .auto →
        (t.unit p.unit).decision.commanded.map (·.mode) = some .bypass) ∧
    (c.phase = .cancelPending →
      let told := (s.modFlc fun f => { f with link := sent 0x06 [] }).post 2 (.riser r)
        (.changeover c.direction c.tag .cancelled (some c.reason) 0)
      let gone := (((told.modLive r fun l => { l with state := .individual }).post 1 (.riser r)
        (.riserState .individual .complete)).modRiser r
          fun x => { x with live := { x.live with settle := x.cfg.settle, settleExpired := false } }).setCtx r none
      let own := gone.evaluateAll (c.participants.map (·.unit)) .riser
      let recounted := own.modLive r fun l =>
        { l with
          voters := (own.members r).filter fun u => own.votes u
          onlineMembers := ((own.members r).filter fun u => (own.unit u).presence == .online).length }
      t = (recounted.modSba fun b => { b with draining := b.draining - (recounted.riser r).cfg.weight }).scan ∧
      t.flc.link = sent 0x06 [] ∧
      (r ∉ s.sba.queue → (t.riser r).live.state = .individual ∧ (t.riser r).live.settle = (s.riser r).cfg.settle ∧
        t.ctx r = none ∧ t.sba.draining = s.sba.draining - (s.riser r).cfg.weight))

/-! ## The lines (R148 to R155) -/

/-- A pin change of an input line starts the filter on a departure from the accepted level, stops it on the return, and
leaves one that runs; of a line without an input role only the pin changes (R150). -/
def Obligations.PinChangeFilters : Prop :=
  ∀ (s : State) (l : LineNo) (high : Bool), s.slp.resetHeld = false →
    let m := { s with lu := { s.lu with pins := updTable s.lu.pins l fun _ => high } }
    let active := if (s.line l).cfg.polarity = .activeHigh then high else !high
    ((s.line l).cfg.role.isInput = false → exec (.linePinChange l high) s = .next m) ∧
    ((s.line l).cfg.role.isInput = true → active = (s.line l).level → exec (.linePinChange l high) s = .next
      (m.modLine l fun x => { x with filterRemaining := none })) ∧
    ((s.line l).cfg.role.isInput = true → active ≠ (s.line l).level → (s.line l).filterRemaining = none →
      exec (.linePinChange l high) s = .next
        (m.modLine l fun x => { x with filterRemaining := some (s.line l).cfg.filter })) ∧
    ((s.line l).cfg.role.isInput = true → active ≠ (s.line l).level → (s.line l).filterRemaining ≠ none →
      exec (.linePinChange l high) s = .next m)

/-- The expiry of a filter is an edge: the accepted level is reversed, the filter is absent, and LINE_EDGE is posted at
the level of the role; in CONFIG that is all, and while running the blocks then take the edge; a filter that does not run
does not expire (R150 to R155; assumption log 2). The role levels, and what the blocks make of them: freeze activation
withdraws every present riser with cause FREEZE in ascending number, freeze release makes the joining check of every
INDIVIDUAL one (R77, R153); emergency release starts the settle timer of every present riser and then evaluates every
present unit in ascending number with cause class emergency, each with the recount of its riser (R76, R155). -/
def Obligations.FilterExpiryIsAnEdge : Prop :=
  (∀ (s : State) (l : LineNo), s.slp.resetHeld = false →
    let level := !(s.line l).level
    let role := (s.line l).cfg.role
    let m := s.modLine l fun x => { x with level := level, filterRemaining := none }
    let n := m.post (if role = .inWind then 1 else 3) (.line l) (.lineEdge role level)
    let effect := match role with
      | .inWind => n.recompute
      | .inFreeze =>
        if s.roleActive .inFreeze = false ∧ m.roleActive .inFreeze = true then n.freezeOn
        else if s.roleActive .inFreeze = true ∧ m.roleActive .inFreeze = false then n.freezeOff else n
      | .inEmergency =>
        if s.roleActive .inEmergency = false ∧ m.roleActive .inEmergency = true then n.emergencyOn
        else if s.roleActive .inEmergency = true ∧ m.roleActive .inEmergency = false then n.emergencyOff else n
      | _ => n
    let runs := role.isInput = true ∧ (s.line l).filterRemaining ≠ none ∧ s.pinShowsActive l ≠ (s.line l).level
    (runs → s.running = false → exec (.lineFilterExpiry l) s = .next n) ∧
    (runs → s.running = true → RunFrame m effect.grantOnWork ∧
      exec (.lineFilterExpiry l) s = .next effect.grantOnWork) ∧
    (¬ runs → exec (.lineFilterExpiry l) s = .next s)) ∧
  ∀ s : State,
    (∀ role, s.roleActive role = true ↔ ∃ l, (s.line l).cfg.role = role ∧ (s.line l).level = true) ∧
    (∀ r, r ∈ s.presentRisers ↔ (s.riser r).cfg.present = true) ∧ s.presentRisers.Pairwise (· < ·) ∧
    (∀ u, u ∈ s.presentUnits ↔ (s.unit u).cfg.present = true) ∧ s.presentUnits.Pairwise (· < ·) ∧
    s.freezeOn = s.presentRisers.foldl (fun m r => m.withdraw r .freeze true) s ∧
    s.freezeOff =
      s.presentRisers.foldl (fun m r => if (m.riser r).live.state = .individual then m.joinCheck r else m) s ∧
    s.emergencyOff =
      s.presentUnits.foldl (fun m u => (m.evaluate u .emergency).recount (m.unit u).cfg.riser)
        (s.presentRisers.foldl (fun m r => m.modRiser r fun x =>
          { x with live := { x.live with settle := x.cfg.settle, settleExpired := false } }) s)

/-- After the activation of the emergency input in a run, every present riser is INDIVIDUAL with settle 0, waits for
nothing and holds no grant, no context exists, the draining weight is that of LEAVING risers alone, and every present unit
is commanded SAFE; in COORDINATE the command set then holds SAFE with speed 0 for every present unit that is ONLINE and
not in HAND, whatever it was commanded before (assumption log 28), and in ADVISE nothing is posted to it (R75, R89, R124,
R144, R154). The last exit cause of every riser that was not INDIVIDUAL is EMERGENCY, and of the others it is kept. The
activation in its order: the contexts abandoned; every present riser in ascending number, one that is not INDIVIDUAL
becoming it with its RISER_STATE notice and leaving its collection, and every settle timer 0; every present unit in
ascending number evaluated with cause class emergency, posted SAFE (assumption log 28), and its riser recounted (R75, R79,
R99, R124, R144, R154). -/
def Obligations.EmergencyMakesSafe : Prop :=
  (∀ (s : State) (l : LineNo), s.slp.resetHeld = false → s.running = true → s.configProblem = none →
    (s.line l).cfg.role = .inEmergency → (s.line l).filterRemaining ≠ none → s.pinShowsActive l = true →
    (s.line l).level = false → s.roleActive .inEmergency = false →
    ∃ t : State, exec (.lineFilterExpiry l) s = .next t ∧ t.roleActive .inEmergency = true ∧ (∀ r, t.ctx r = none) ∧
      (∀ r, (s.riser r).cfg.present = true → (t.riser r).live.state = .individual ∧ (t.riser r).live.settle = 0 ∧
        (t.riser r).live.lastExit =
          if (s.riser r).live.state = .individual then (s.riser r).live.lastExit else .emergency) ∧
      (∀ u, (s.unit u).cfg.present = true → (t.unit u).decision.commanded.map (·.mode) = some .safe) ∧
      (s.slp.opState = .coordinate → ∀ u, (s.unit u).cfg.present = true → (s.unit u).presence = .online →
        (s.unit u).decision.control ≠ .hand → ⟨u, ⟨.safe, 0⟩⟩ ∈ t.flc.commands) ∧
      (s.slp.opState = .advise → t.flc.commands = s.flc.commands) ∧
      (GroupsSafe s → t.sba.draining = t.leavingWeight ∧
        ∀ r, (s.riser r).cfg.present = true → r ∉ t.sba.queue ∧ r ∉ t.sba.grants)) ∧
  ∀ s : State,
    let takesRiser := fun (m : State) (r : RiserNo) =>
      let still := fun y : State => y.modLive r fun l => { l with settle := 0, settleExpired := false }
      let gone := still ((m.modLive r fun l => { l with state := .individual, lastExit := .emergency }).post 1 (.riser r)
        (.riserState .individual .emergency))
      match (m.riser r).live.state with
      | .individual => still m
      | .queued => gone.modSba fun b => { b with queue := b.queue.erase r }
      | .entering => gone.modSba fun b => { b with grants := b.grants.erase r }
      | .free => gone.modSba fun b => { b with grants := b.grants.erase r }
      | .leaving => gone.modSba fun b => { b with draining := b.draining - (m.riser r).cfg.weight }
    let takesUnit := fun (m : State) (u : UnitNo) =>
      let n := m.evaluate u .emergency
      (if n.slp.opState = .coordinate ∧ (n.unit u).presence = .online ∧ (n.unit u).decision.control ≠ .hand then
        n.postCommand u ⟨.safe, 0⟩ else n).recount (m.unit u).cfg.riser
    s.emergencyOn = s.presentUnits.foldl takesUnit (s.presentRisers.foldl takesRiser
      { s with ce := { s.ce with ctxs := Vector.replicate 6 none } })

/-! ## The arithmetic and the evaluator (R19 to R56) -/

/-- Enthalpy: the rounding of R21 on its integer N; and R22: the bounds of every computed enthalpy, where they are taken,
and the growth of N and of the enthalpy with the temperature and with the humidity ratio. -/
def Obligations.EnthalpyBoundsAndGrowth : Prop :=
  let n := fun (t : Int) (w : Nat) => 1006000 * t + 25010000 * (w : Int) + 186 * (w : Int) * t
  (∀ (t : Int) (w : Nat),
    2 * (1000000 * enthalpy t w - n t w) ≤ 1000000 ∧ -1000000 ≤ 2 * (1000000 * enthalpy t w - n t w) ∧
    (2 * (1000000 * enthalpy t w - n t w) = 1000000 → 0 < n t w) ∧
    (2 * (1000000 * enthalpy t w - n t w) = -1000000 → n t w < 0)) ∧
  (∀ (t : Int) (w : Nat), -4000 ≤ t → t ≤ 6000 → w ≤ 300 → -4024 ≤ enthalpy t w ∧ enthalpy t w ≤ 13874) ∧
  n (-4000) 0 = -4024000000 ∧ enthalpy (-4000) 0 = -4024 ∧ n 6000 300 = 13873800000 ∧ enthalpy 6000 300 = 13874 ∧
  (∀ (t t' : Int) (w : Nat), t < t' → n t w < n t' w ∧ enthalpy t w < enthalpy t' w) ∧
  ∀ (t : Int) (w w' : Nat), -4000 ≤ t → t ≤ 6000 → w < w' → n t w < n t w' ∧ enthalpy t w < enthalpy t w'

/-- The cold derating and B_raw (R31), and the halvings made on it afterwards (R32 to R34). -/
def Obligations.DeratingAndRawBudget : Prop :=
  ∀ (t : TowerCfg) (tOa : Int), t.InRange → -4000 ≤ tOa → tOa ≤ 6000 →
    (derating t tOa : Int) = (t.k : Int) * max 0 (t.tInRef - tOa) / 1000 ∧
    (rawBudget t tOa : Int) = max 0 ((t.bBase : Int) - derating t tOa) ∧
    derating t tOa ≤ 7000 ∧ rawBudget t tOa ≤ t.bBase ∧ t.bBase ≤ 400 ∧
    (t.tInRef ≤ tOa → derating t tOa = 0 ∧ rawBudget t tOa = t.bBase) ∧
    (t.k = 0 → derating t tOa = 0 ∧ rawBudget t tOa = t.bBase) ∧
    (t.bBase ≤ derating t tOa → rawBudget t tOa = 0) ∧
    (t.k = 1000 → t.tInRef = 3000 → tOa = -4000 → derating t tOa = 7000) ∧
    ∀ (ref : StationLive) (wind : Bool) (a : OutdoorAir), ref.air = some a → a.tOa = tOa →
      let windy := wind = true ∨ t.windLimit ≤ a.wind
      (ref.status = .none → effectiveBudget t ref wind = 0) ∧
      (ref.status = .fresh → ¬ windy → effectiveBudget t ref wind = rawBudget t tOa) ∧
      (ref.status = .fresh → windy → effectiveBudget t ref wind = rawBudget t tOa / 2) ∧
      (ref.status = .stale → ¬ windy → effectiveBudget t ref wind = rawBudget t tOa / 2) ∧
      (ref.status = .stale → windy → effectiveBudget t ref wind = rawBudget t tOa / 4)

/-- The preference tests in their order, each with its entry and stay form (R39 to R41). The wheel arithmetic they use:
the raw speed is the ceiling of its quotient, the speed is it within the minimum speed and 100, and the effectiveness and
the frost estimate are rounded to nearest, ties away from zero (R24 to R27). The preference step: with the unit ONLINE,
FRESH and its fan on and its station reporting, the tests decide and the last values are replaced; with the station NONE
all five become absent; else all are held (R29, R38); and FROST is posted where the preference becomes DEFROST or leaves
it, with the T_exl of that evaluation (R42). An evaluation is the preference step and then the mapping step, and several
units are taken one after another in the order given (R37). -/
def Obligations.PreferenceTests : Prop :=
  (∀ (c : UnitCfg) (f : UnitFlags) (cur : Option Mode) (ra : ReturnAir) (oa : OutdoorAir),
      let heating := if cur = some .recoverHeat ∨ cur = some .defrost then oa.tOa < c.tSp else oa.tOa < c.tSp - c.db
      let recovery := 0 < c.epsilon ∧ f.wheelFault = false ∧ oa.tOa + 50 < ra.tRa
      let tExl := exhaustLeaving c.epsilon (wheelSpeed c ra.tRa oa.tOa) ra.tRa oa.tOa
      let frost := tExl ≤ c.frostLimit ∨ cur = some .defrost ∧ tExl < c.frostLimit + 100
      let hOa := enthalpy oa.tOa oa.wOa
      let hRa := enthalpy ra.tRa ra.wRa
      let cool := 0 < c.epsilon ∧ f.wheelFault = false ∧ ra.tRa < oa.tOa ∧
        (if cur = some .recoverCool then hRa + (c.hm / 2 : Nat) ≤ hOa else hRa + c.hm ≤ hOa)
      let free := f.damperFault = false ∧ hOa < hRa ∧
        (if cur = some .freeCool then oa.tOa < ra.tRa ∧ oa.wOa ≤ c.wMax + 10
         else oa.tOa ≤ ra.tRa - c.db ∧ oa.wOa ≤ c.wMax)
      let v := preferenceTests c f cur ra oa
      (heating → ¬ recovery → v = ⟨.bypass, none, none⟩) ∧
      (heating → recovery → frost → v = ⟨.defrost, none, some tExl⟩) ∧
      (heating → recovery → ¬ frost → v = ⟨.recoverHeat, some (wheelSpeed c ra.tRa oa.tOa), some tExl⟩) ∧
      (¬ heating → cool → v = ⟨.recoverCool, none, none⟩) ∧
      (¬ heating → ¬ cool → free → v = ⟨.freeCool, none, none⟩) ∧
      (¬ heating → ¬ cool → ¬ free → v = ⟨.bypass, none, none⟩)) ∧
  (∀ (c : UnitCfg) (tRa tOa : Int), 0 < c.epsilon → tOa < tRa →
    let per := (c.epsilon : Int) * (tRa - tOa)
    (100000 * (c.tSp - tOa) ≤ per * rawSpeed c tRa tOa ∧ per * (rawSpeed c tRa tOa - 1) < 100000 * (c.tSp - tOa)) ∧
    (wheelSpeed c tRa tOa : Int) = min 100 (max (c.sMin : Int) (rawSpeed c tRa tOa))) ∧
  (∀ epsilon speed : Nat,
    2 * ((epsilon : Int) * speed) - 100 < 200 * effEpsilon epsilon speed ∧
      200 * effEpsilon epsilon speed ≤ 2 * ((epsilon : Int) * speed) + 100) ∧
  (∀ (epsilon speed : Nat) (tRa tOa : Int), tOa < tRa →
    2 * (effEpsilon epsilon speed * (tRa - tOa)) - 1000 < 2000 * (tRa - exhaustLeaving epsilon speed tRa tOa) ∧
      2000 * (tRa - exhaustLeaving epsilon speed tRa tOa) ≤ 2 * (effEpsilon epsilon speed * (tRa - tOa)) + 1000) ∧
  (∀ (s : State) (u : UnitNo),
    let x := s.unit u
    let d := x.decision
    let st := (s.station x.cfg.station).live
    let good := x.presence = .online ∧ x.reading.condition = .fresh ∧ x.reading.flags.fanOff = false
    let decides := fun (e : Decision) =>
      let m := s.modDecision u fun _ => e
      if d.preference = some .defrost ∧ e.preference ≠ some .defrost then
        m.post 2 (.unit u) (.frost false e.lastTexl)
      else if d.preference ≠ some .defrost ∧ e.preference = some .defrost then
        m.post 2 (.unit u) (.frost true e.lastTexl)
      else m
    (st.status = .none → s.preferenceStep u = decides { d with
      preference := none, prefSpeed := none, lastHoa := none, lastHra := none, lastTexl := none }) ∧
    (st.status ≠ .none → ¬ good → s.preferenceStep u = s) ∧
    ∀ ra oa, st.status ≠ .none → good → x.reading.air = some ra → st.air = some oa →
      let v := preferenceTests x.cfg x.reading.flags d.preference ra oa
      s.preferenceStep u = decides { d with
        preference := some v.preference, prefSpeed := v.speed, lastHoa := some (enthalpy oa.tOa oa.wOa)
        lastHra := some (enthalpy ra.tRa ra.wRa), lastTexl := v.tExl }) ∧
  ∀ (s : State) (u : UnitNo) (us : List UnitNo) (cls : CauseClass),
    s.evaluate u cls = (s.preferenceStep u).mappingStep u cls ∧
      s.evaluateAll [] cls = s ∧ s.evaluateAll (u :: us) cls = (s.evaluate u cls).evaluateAll us cls

/-- The mapping step: the row that applies, the speed rule within RECOVER_HEAT, and the dwell rule of a change of mode
(R46, R47, R48, R49): a change taken commands the mode at its speed and starts dwell, and a change of speed alone leaves
dwell; either posts UNIT_MODE and, in COORDINATE for a unit that is ONLINE and not in HAND, the unit's entry in the command
set (R53). The changes set by the CE and by the return of a riser are made so too, for a unit in AUTO whose mode differs
(R50, R51). -/
def Obligations.MappingStep : Prop :=
  ∀ (s : State) (u : UnitNo) (cls : CauseClass),
    let d := (s.unit u).decision
    let after := ((s.mappingStep u cls).unit u).decision
    let announced := fun (c : ModeSpeed) (e : Decision) =>
      let n := (s.modDecision u fun _ => e).post 0 (.unit u) (.unitMode c)
      if s.slp.opState = .coordinate ∧ (s.unit u).presence = .online ∧ e.control ≠ .hand then n.postCommand u c else n
    let moved := fun c : ModeSpeed =>
      { d with commanded := some c, dwell := (s.unit u).cfg.minDwell, dwellExpired := false }
    (∀ c, s.commandMode u c = announced c (moved c)) ∧
    (∀ mode, s.setGroupMode mode u =
      if d.control = .auto ∧ d.commanded.map (·.mode) ≠ some mode then announced ⟨mode, 0⟩ (moved ⟨mode, 0⟩) else s) ∧
    let row : Option (ModeSpeed × Bool) :=
      if s.roleActive .inEmergency then some (⟨.safe, 0⟩, false)
      else match d.control with
        | .forced => d.forced.map fun m => (m, false)
        | .hand => none
        | .auto =>
          if s.isParticipant u then none
          else if (s.riser (s.unit u).cfg.riser).live.state = .free ∧ (s.unit u).reading.flags.damperFault = false then
            some (⟨.freeCool, 0⟩, false)
          else match d.preference with
            | some .recoverHeat => d.prefSpeed.map fun v => (⟨.recoverHeat, v⟩, true)
            | some .recoverCool => some (⟨.recoverCool, 100⟩, false)
            | some .bypass => some (⟨.bypass, 0⟩, false)
            | some .freeCool => some (⟨.bypass, 0⟩, false)
            | some .defrost => some (⟨.defrost, (s.unit u).cfg.defrostSpeed⟩, false)
            | some .safe => none
            | none => none
    (row = none → s.mappingStep u cls = s) ∧
    ∀ m threshold, row = some (m, threshold) →
      (d.commanded.map (·.mode) ≠ some m.mode →
        (cls ≠ .automatic ∨ m.mode = .defrost ∨ d.dwell = 0 →
          s.mappingStep u cls = announced m (moved m) ∧
          after = { d with commanded := some m, dwell := (s.unit u).cfg.minDwell, dwellExpired := false }) ∧
        (cls = .automatic → m.mode ≠ .defrost → d.dwell ≠ 0 → s.mappingStep u cls = s)) ∧
      ∀ old, d.commanded = some old → old.mode = m.mode →
        (m.mode ≠ .recoverHeat → s.mappingStep u cls = s) ∧
        (m.mode = .recoverHeat →
          ((if threshold then m.speed + 5 ≤ old.speed ∨ old.speed + 5 ≤ m.speed ∨
              m.speed ≠ old.speed ∧ (m.speed = (s.unit u).cfg.sMin ∨ m.speed = 100)
            else m.speed ≠ old.speed) → s.mappingStep u cls = announced m { d with commanded := some m } ∧
              after = { d with commanded := some m }) ∧
          (¬ (if threshold then m.speed + 5 ≤ old.speed ∨ old.speed + 5 ≤ m.speed ∨
              m.speed ≠ old.speed ∧ (m.speed = (s.unit u).cfg.sMin ∨ m.speed = 100)
            else m.speed ≠ old.speed) → s.mappingStep u cls = s))
end

