-- ==== Sys2Proof/Laws/State.lean ====
section
/-! SUPPORT. Laws/State.lean: what each update of State leaves in each field, by rfl, so that no proof unfolds a record
update; and the tables' own lemmas. -/

namespace Sys2Proof.Machine

/-! ## Tables -/

theorem mem_fins : ∀ {n : Nat} (i : Fin n), i ∈ fins n
  | 0, i => i.elim0
  | n + 1, i => by
    cases i using Fin.cases with
    | zero => simp [fins]
    | succ j => simp [fins, mem_fins j]

@[simp] theorem updTable_get {α : Type} {n : Nat} (v : Vector α n) (i j : Fin n) (f : α → α) :
    (updTable v i f)[j] = if i = j then f v[i] else v[j] := by
  simp only [updTable, Fin.getElem_fin, Vector.getElem_set, Fin.ext_iff]

@[simp] theorem mapTable_get {α β : Type} {n : Nat} (f : α → β) (v : Vector α n) (i : Fin n) :
    (mapTable f v)[i] = f v[i] := by
  simp [mapTable, Fin.getElem_fin]

@[simp] theorem updTable_getElem {α : Type} {n : Nat} (v : Vector α n) (i : Fin n) (f : α → α) (j : Nat) (h : j < n) :
    (updTable v i f)[j] = if i.val = j then f v[i] else v[j] := by
  simp only [updTable, Fin.getElem_fin, Vector.getElem_set]

@[simp] theorem mapTable_getElem {α β : Type} {n : Nat} (f : α → β) (v : Vector α n) (j : Nat) (h : j < n) :
    (mapTable f v)[j] = f v[j] := by
  simp [mapTable]

/-! ## One lemma for each update and field -/

@[simp] theorem modUnit_pending (i : UnitNo) (f : UnitRec → UnitRec) (s : State) : (s.modUnit i f).pending = s.pending := rfl
@[simp] theorem modUnit_slp (i : UnitNo) (f : UnitRec → UnitRec) (s : State) : (s.modUnit i f).slp = s.slp := rfl
@[simp] theorem modUnit_stations (i : UnitNo) (f : UnitRec → UnitRec) (s : State) : (s.modUnit i f).stations = s.stations := rfl
@[simp] theorem modUnit_risers (i : UnitNo) (f : UnitRec → UnitRec) (s : State) : (s.modUnit i f).risers = s.risers := rfl
@[simp] theorem modUnit_tower (i : UnitNo) (f : UnitRec → UnitRec) (s : State) : (s.modUnit i f).tower = s.tower := rfl
@[simp] theorem modUnit_sba (i : UnitNo) (f : UnitRec → UnitRec) (s : State) : (s.modUnit i f).sba = s.sba := rfl
@[simp] theorem modUnit_ce (i : UnitNo) (f : UnitRec → UnitRec) (s : State) : (s.modUnit i f).ce = s.ce := rfl
@[simp] theorem modUnit_flc (i : UnitNo) (f : UnitRec → UnitRec) (s : State) : (s.modUnit i f).flc = s.flc := rfl
@[simp] theorem modUnit_lu (i : UnitNo) (f : UnitRec → UnitRec) (s : State) : (s.modUnit i f).lu = s.lu := rfl
@[simp] theorem modUnit_nq (i : UnitNo) (f : UnitRec → UnitRec) (s : State) : (s.modUnit i f).nq = s.nq := rfl
@[simp] theorem modUnit_choices (i : UnitNo) (f : UnitRec → UnitRec) (s : State) : (s.modUnit i f).choices = s.choices := rfl
@[simp] theorem modUnit_station (i : UnitNo) (f : UnitRec → UnitRec) (s : State) (st : StationNo) : (s.modUnit i f).station st = s.station st := rfl
@[simp] theorem modUnit_riser (i : UnitNo) (f : UnitRec → UnitRec) (s : State) (r : RiserNo) : (s.modUnit i f).riser r = s.riser r := rfl
@[simp] theorem modUnit_ctx (i : UnitNo) (f : UnitRec → UnitRec) (s : State) (q : RiserNo) : (s.modUnit i f).ctx q = s.ctx q := rfl
@[simp] theorem modUnit_line (i : UnitNo) (f : UnitRec → UnitRec) (s : State) (l : LineNo) : (s.modUnit i f).line l = s.line l := rfl

@[simp] theorem modDecision_pending (i : UnitNo) (f : Decision → Decision) (s : State) : (s.modDecision i f).pending = s.pending := rfl
@[simp] theorem modDecision_slp (i : UnitNo) (f : Decision → Decision) (s : State) : (s.modDecision i f).slp = s.slp := rfl
@[simp] theorem modDecision_stations (i : UnitNo) (f : Decision → Decision) (s : State) : (s.modDecision i f).stations = s.stations := rfl
@[simp] theorem modDecision_risers (i : UnitNo) (f : Decision → Decision) (s : State) : (s.modDecision i f).risers = s.risers := rfl
@[simp] theorem modDecision_tower (i : UnitNo) (f : Decision → Decision) (s : State) : (s.modDecision i f).tower = s.tower := rfl
@[simp] theorem modDecision_sba (i : UnitNo) (f : Decision → Decision) (s : State) : (s.modDecision i f).sba = s.sba := rfl
@[simp] theorem modDecision_ce (i : UnitNo) (f : Decision → Decision) (s : State) : (s.modDecision i f).ce = s.ce := rfl
@[simp] theorem modDecision_flc (i : UnitNo) (f : Decision → Decision) (s : State) : (s.modDecision i f).flc = s.flc := rfl
@[simp] theorem modDecision_lu (i : UnitNo) (f : Decision → Decision) (s : State) : (s.modDecision i f).lu = s.lu := rfl
@[simp] theorem modDecision_nq (i : UnitNo) (f : Decision → Decision) (s : State) : (s.modDecision i f).nq = s.nq := rfl
@[simp] theorem modDecision_choices (i : UnitNo) (f : Decision → Decision) (s : State) : (s.modDecision i f).choices = s.choices := rfl
@[simp] theorem modDecision_station (i : UnitNo) (f : Decision → Decision) (s : State) (st : StationNo) : (s.modDecision i f).station st = s.station st := rfl
@[simp] theorem modDecision_riser (i : UnitNo) (f : Decision → Decision) (s : State) (r : RiserNo) : (s.modDecision i f).riser r = s.riser r := rfl
@[simp] theorem modDecision_ctx (i : UnitNo) (f : Decision → Decision) (s : State) (q : RiserNo) : (s.modDecision i f).ctx q = s.ctx q := rfl
@[simp] theorem modDecision_line (i : UnitNo) (f : Decision → Decision) (s : State) (l : LineNo) : (s.modDecision i f).line l = s.line l := rfl

@[simp] theorem modStation_pending (i : StationNo) (f : StationRec → StationRec) (s : State) : (s.modStation i f).pending = s.pending := rfl
@[simp] theorem modStation_slp (i : StationNo) (f : StationRec → StationRec) (s : State) : (s.modStation i f).slp = s.slp := rfl
@[simp] theorem modStation_units (i : StationNo) (f : StationRec → StationRec) (s : State) : (s.modStation i f).units = s.units := rfl
@[simp] theorem modStation_risers (i : StationNo) (f : StationRec → StationRec) (s : State) : (s.modStation i f).risers = s.risers := rfl
@[simp] theorem modStation_tower (i : StationNo) (f : StationRec → StationRec) (s : State) : (s.modStation i f).tower = s.tower := rfl
@[simp] theorem modStation_sba (i : StationNo) (f : StationRec → StationRec) (s : State) : (s.modStation i f).sba = s.sba := rfl
@[simp] theorem modStation_ce (i : StationNo) (f : StationRec → StationRec) (s : State) : (s.modStation i f).ce = s.ce := rfl
@[simp] theorem modStation_flc (i : StationNo) (f : StationRec → StationRec) (s : State) : (s.modStation i f).flc = s.flc := rfl
@[simp] theorem modStation_lu (i : StationNo) (f : StationRec → StationRec) (s : State) : (s.modStation i f).lu = s.lu := rfl
@[simp] theorem modStation_nq (i : StationNo) (f : StationRec → StationRec) (s : State) : (s.modStation i f).nq = s.nq := rfl
@[simp] theorem modStation_choices (i : StationNo) (f : StationRec → StationRec) (s : State) : (s.modStation i f).choices = s.choices := rfl
@[simp] theorem modStation_unit (i : StationNo) (f : StationRec → StationRec) (s : State) (u : UnitNo) : (s.modStation i f).unit u = s.unit u := rfl
@[simp] theorem modStation_riser (i : StationNo) (f : StationRec → StationRec) (s : State) (r : RiserNo) : (s.modStation i f).riser r = s.riser r := rfl
@[simp] theorem modStation_ctx (i : StationNo) (f : StationRec → StationRec) (s : State) (q : RiserNo) : (s.modStation i f).ctx q = s.ctx q := rfl
@[simp] theorem modStation_line (i : StationNo) (f : StationRec → StationRec) (s : State) (l : LineNo) : (s.modStation i f).line l = s.line l := rfl

@[simp] theorem modRiser_pending (i : RiserNo) (f : RiserRec → RiserRec) (s : State) : (s.modRiser i f).pending = s.pending := rfl
@[simp] theorem modRiser_slp (i : RiserNo) (f : RiserRec → RiserRec) (s : State) : (s.modRiser i f).slp = s.slp := rfl
@[simp] theorem modRiser_units (i : RiserNo) (f : RiserRec → RiserRec) (s : State) : (s.modRiser i f).units = s.units := rfl
@[simp] theorem modRiser_stations (i : RiserNo) (f : RiserRec → RiserRec) (s : State) : (s.modRiser i f).stations = s.stations := rfl
@[simp] theorem modRiser_tower (i : RiserNo) (f : RiserRec → RiserRec) (s : State) : (s.modRiser i f).tower = s.tower := rfl
@[simp] theorem modRiser_sba (i : RiserNo) (f : RiserRec → RiserRec) (s : State) : (s.modRiser i f).sba = s.sba := rfl
@[simp] theorem modRiser_ce (i : RiserNo) (f : RiserRec → RiserRec) (s : State) : (s.modRiser i f).ce = s.ce := rfl
@[simp] theorem modRiser_flc (i : RiserNo) (f : RiserRec → RiserRec) (s : State) : (s.modRiser i f).flc = s.flc := rfl
@[simp] theorem modRiser_lu (i : RiserNo) (f : RiserRec → RiserRec) (s : State) : (s.modRiser i f).lu = s.lu := rfl
@[simp] theorem modRiser_nq (i : RiserNo) (f : RiserRec → RiserRec) (s : State) : (s.modRiser i f).nq = s.nq := rfl
@[simp] theorem modRiser_choices (i : RiserNo) (f : RiserRec → RiserRec) (s : State) : (s.modRiser i f).choices = s.choices := rfl
@[simp] theorem modRiser_unit (i : RiserNo) (f : RiserRec → RiserRec) (s : State) (u : UnitNo) : (s.modRiser i f).unit u = s.unit u := rfl
@[simp] theorem modRiser_station (i : RiserNo) (f : RiserRec → RiserRec) (s : State) (st : StationNo) : (s.modRiser i f).station st = s.station st := rfl
@[simp] theorem modRiser_ctx (i : RiserNo) (f : RiserRec → RiserRec) (s : State) (q : RiserNo) : (s.modRiser i f).ctx q = s.ctx q := rfl
@[simp] theorem modRiser_line (i : RiserNo) (f : RiserRec → RiserRec) (s : State) (l : LineNo) : (s.modRiser i f).line l = s.line l := rfl

@[simp] theorem modLive_pending (i : RiserNo) (f : RiserLive → RiserLive) (s : State) : (s.modLive i f).pending = s.pending := rfl
@[simp] theorem modLive_slp (i : RiserNo) (f : RiserLive → RiserLive) (s : State) : (s.modLive i f).slp = s.slp := rfl
@[simp] theorem modLive_units (i : RiserNo) (f : RiserLive → RiserLive) (s : State) : (s.modLive i f).units = s.units := rfl
@[simp] theorem modLive_stations (i : RiserNo) (f : RiserLive → RiserLive) (s : State) : (s.modLive i f).stations = s.stations := rfl
@[simp] theorem modLive_tower (i : RiserNo) (f : RiserLive → RiserLive) (s : State) : (s.modLive i f).tower = s.tower := rfl
@[simp] theorem modLive_sba (i : RiserNo) (f : RiserLive → RiserLive) (s : State) : (s.modLive i f).sba = s.sba := rfl
@[simp] theorem modLive_ce (i : RiserNo) (f : RiserLive → RiserLive) (s : State) : (s.modLive i f).ce = s.ce := rfl
@[simp] theorem modLive_flc (i : RiserNo) (f : RiserLive → RiserLive) (s : State) : (s.modLive i f).flc = s.flc := rfl
@[simp] theorem modLive_lu (i : RiserNo) (f : RiserLive → RiserLive) (s : State) : (s.modLive i f).lu = s.lu := rfl
@[simp] theorem modLive_nq (i : RiserNo) (f : RiserLive → RiserLive) (s : State) : (s.modLive i f).nq = s.nq := rfl
@[simp] theorem modLive_choices (i : RiserNo) (f : RiserLive → RiserLive) (s : State) : (s.modLive i f).choices = s.choices := rfl
@[simp] theorem modLive_unit (i : RiserNo) (f : RiserLive → RiserLive) (s : State) (u : UnitNo) : (s.modLive i f).unit u = s.unit u := rfl
@[simp] theorem modLive_station (i : RiserNo) (f : RiserLive → RiserLive) (s : State) (st : StationNo) : (s.modLive i f).station st = s.station st := rfl
@[simp] theorem modLive_ctx (i : RiserNo) (f : RiserLive → RiserLive) (s : State) (q : RiserNo) : (s.modLive i f).ctx q = s.ctx q := rfl
@[simp] theorem modLive_line (i : RiserNo) (f : RiserLive → RiserLive) (s : State) (l : LineNo) : (s.modLive i f).line l = s.line l := rfl

@[simp] theorem setCtx_pending (i : RiserNo) (c : Option Ctx) (s : State) : (s.setCtx i c).pending = s.pending := rfl
@[simp] theorem setCtx_slp (i : RiserNo) (c : Option Ctx) (s : State) : (s.setCtx i c).slp = s.slp := rfl
@[simp] theorem setCtx_units (i : RiserNo) (c : Option Ctx) (s : State) : (s.setCtx i c).units = s.units := rfl
@[simp] theorem setCtx_stations (i : RiserNo) (c : Option Ctx) (s : State) : (s.setCtx i c).stations = s.stations := rfl
@[simp] theorem setCtx_risers (i : RiserNo) (c : Option Ctx) (s : State) : (s.setCtx i c).risers = s.risers := rfl
@[simp] theorem setCtx_tower (i : RiserNo) (c : Option Ctx) (s : State) : (s.setCtx i c).tower = s.tower := rfl
@[simp] theorem setCtx_sba (i : RiserNo) (c : Option Ctx) (s : State) : (s.setCtx i c).sba = s.sba := rfl
@[simp] theorem setCtx_flc (i : RiserNo) (c : Option Ctx) (s : State) : (s.setCtx i c).flc = s.flc := rfl
@[simp] theorem setCtx_lu (i : RiserNo) (c : Option Ctx) (s : State) : (s.setCtx i c).lu = s.lu := rfl
@[simp] theorem setCtx_nq (i : RiserNo) (c : Option Ctx) (s : State) : (s.setCtx i c).nq = s.nq := rfl
@[simp] theorem setCtx_choices (i : RiserNo) (c : Option Ctx) (s : State) : (s.setCtx i c).choices = s.choices := rfl
@[simp] theorem setCtx_unit (i : RiserNo) (c : Option Ctx) (s : State) (u : UnitNo) : (s.setCtx i c).unit u = s.unit u := rfl
@[simp] theorem setCtx_station (i : RiserNo) (c : Option Ctx) (s : State) (st : StationNo) : (s.setCtx i c).station st = s.station st := rfl
@[simp] theorem setCtx_riser (i : RiserNo) (c : Option Ctx) (s : State) (r : RiserNo) : (s.setCtx i c).riser r = s.riser r := rfl
@[simp] theorem setCtx_line (i : RiserNo) (c : Option Ctx) (s : State) (l : LineNo) : (s.setCtx i c).line l = s.line l := rfl

@[simp] theorem modLine_pending (i : LineNo) (f : LineRec → LineRec) (s : State) : (s.modLine i f).pending = s.pending := rfl
@[simp] theorem modLine_slp (i : LineNo) (f : LineRec → LineRec) (s : State) : (s.modLine i f).slp = s.slp := rfl
@[simp] theorem modLine_units (i : LineNo) (f : LineRec → LineRec) (s : State) : (s.modLine i f).units = s.units := rfl
@[simp] theorem modLine_stations (i : LineNo) (f : LineRec → LineRec) (s : State) : (s.modLine i f).stations = s.stations := rfl
@[simp] theorem modLine_risers (i : LineNo) (f : LineRec → LineRec) (s : State) : (s.modLine i f).risers = s.risers := rfl
@[simp] theorem modLine_tower (i : LineNo) (f : LineRec → LineRec) (s : State) : (s.modLine i f).tower = s.tower := rfl
@[simp] theorem modLine_sba (i : LineNo) (f : LineRec → LineRec) (s : State) : (s.modLine i f).sba = s.sba := rfl
@[simp] theorem modLine_ce (i : LineNo) (f : LineRec → LineRec) (s : State) : (s.modLine i f).ce = s.ce := rfl
@[simp] theorem modLine_flc (i : LineNo) (f : LineRec → LineRec) (s : State) : (s.modLine i f).flc = s.flc := rfl
@[simp] theorem modLine_nq (i : LineNo) (f : LineRec → LineRec) (s : State) : (s.modLine i f).nq = s.nq := rfl
@[simp] theorem modLine_choices (i : LineNo) (f : LineRec → LineRec) (s : State) : (s.modLine i f).choices = s.choices := rfl
@[simp] theorem modLine_unit (i : LineNo) (f : LineRec → LineRec) (s : State) (u : UnitNo) : (s.modLine i f).unit u = s.unit u := rfl
@[simp] theorem modLine_station (i : LineNo) (f : LineRec → LineRec) (s : State) (st : StationNo) : (s.modLine i f).station st = s.station st := rfl
@[simp] theorem modLine_riser (i : LineNo) (f : LineRec → LineRec) (s : State) (r : RiserNo) : (s.modLine i f).riser r = s.riser r := rfl
@[simp] theorem modLine_ctx (i : LineNo) (f : LineRec → LineRec) (s : State) (q : RiserNo) : (s.modLine i f).ctx q = s.ctx q := rfl

@[simp] theorem modSlp_pending (f : Slp → Slp) (s : State) : (s.modSlp f).pending = s.pending := rfl
@[simp] theorem modSlp_units (f : Slp → Slp) (s : State) : (s.modSlp f).units = s.units := rfl
@[simp] theorem modSlp_stations (f : Slp → Slp) (s : State) : (s.modSlp f).stations = s.stations := rfl
@[simp] theorem modSlp_risers (f : Slp → Slp) (s : State) : (s.modSlp f).risers = s.risers := rfl
@[simp] theorem modSlp_tower (f : Slp → Slp) (s : State) : (s.modSlp f).tower = s.tower := rfl
@[simp] theorem modSlp_sba (f : Slp → Slp) (s : State) : (s.modSlp f).sba = s.sba := rfl
@[simp] theorem modSlp_ce (f : Slp → Slp) (s : State) : (s.modSlp f).ce = s.ce := rfl
@[simp] theorem modSlp_flc (f : Slp → Slp) (s : State) : (s.modSlp f).flc = s.flc := rfl
@[simp] theorem modSlp_lu (f : Slp → Slp) (s : State) : (s.modSlp f).lu = s.lu := rfl
@[simp] theorem modSlp_nq (f : Slp → Slp) (s : State) : (s.modSlp f).nq = s.nq := rfl
@[simp] theorem modSlp_choices (f : Slp → Slp) (s : State) : (s.modSlp f).choices = s.choices := rfl
@[simp] theorem modSlp_unit (f : Slp → Slp) (s : State) (u : UnitNo) : (s.modSlp f).unit u = s.unit u := rfl
@[simp] theorem modSlp_station (f : Slp → Slp) (s : State) (st : StationNo) : (s.modSlp f).station st = s.station st := rfl
@[simp] theorem modSlp_riser (f : Slp → Slp) (s : State) (r : RiserNo) : (s.modSlp f).riser r = s.riser r := rfl
@[simp] theorem modSlp_ctx (f : Slp → Slp) (s : State) (q : RiserNo) : (s.modSlp f).ctx q = s.ctx q := rfl
@[simp] theorem modSlp_line (f : Slp → Slp) (s : State) (l : LineNo) : (s.modSlp f).line l = s.line l := rfl

@[simp] theorem modSba_pending (f : Sba → Sba) (s : State) : (s.modSba f).pending = s.pending := rfl
@[simp] theorem modSba_slp (f : Sba → Sba) (s : State) : (s.modSba f).slp = s.slp := rfl
@[simp] theorem modSba_units (f : Sba → Sba) (s : State) : (s.modSba f).units = s.units := rfl
@[simp] theorem modSba_stations (f : Sba → Sba) (s : State) : (s.modSba f).stations = s.stations := rfl
@[simp] theorem modSba_risers (f : Sba → Sba) (s : State) : (s.modSba f).risers = s.risers := rfl
@[simp] theorem modSba_tower (f : Sba → Sba) (s : State) : (s.modSba f).tower = s.tower := rfl
@[simp] theorem modSba_ce (f : Sba → Sba) (s : State) : (s.modSba f).ce = s.ce := rfl
@[simp] theorem modSba_flc (f : Sba → Sba) (s : State) : (s.modSba f).flc = s.flc := rfl
@[simp] theorem modSba_lu (f : Sba → Sba) (s : State) : (s.modSba f).lu = s.lu := rfl
@[simp] theorem modSba_nq (f : Sba → Sba) (s : State) : (s.modSba f).nq = s.nq := rfl
@[simp] theorem modSba_choices (f : Sba → Sba) (s : State) : (s.modSba f).choices = s.choices := rfl
@[simp] theorem modSba_unit (f : Sba → Sba) (s : State) (u : UnitNo) : (s.modSba f).unit u = s.unit u := rfl
@[simp] theorem modSba_station (f : Sba → Sba) (s : State) (st : StationNo) : (s.modSba f).station st = s.station st := rfl
@[simp] theorem modSba_riser (f : Sba → Sba) (s : State) (r : RiserNo) : (s.modSba f).riser r = s.riser r := rfl
@[simp] theorem modSba_ctx (f : Sba → Sba) (s : State) (q : RiserNo) : (s.modSba f).ctx q = s.ctx q := rfl
@[simp] theorem modSba_line (f : Sba → Sba) (s : State) (l : LineNo) : (s.modSba f).line l = s.line l := rfl

@[simp] theorem modFlc_pending (f : Flc → Flc) (s : State) : (s.modFlc f).pending = s.pending := rfl
@[simp] theorem modFlc_slp (f : Flc → Flc) (s : State) : (s.modFlc f).slp = s.slp := rfl
@[simp] theorem modFlc_units (f : Flc → Flc) (s : State) : (s.modFlc f).units = s.units := rfl
@[simp] theorem modFlc_stations (f : Flc → Flc) (s : State) : (s.modFlc f).stations = s.stations := rfl
@[simp] theorem modFlc_risers (f : Flc → Flc) (s : State) : (s.modFlc f).risers = s.risers := rfl
@[simp] theorem modFlc_tower (f : Flc → Flc) (s : State) : (s.modFlc f).tower = s.tower := rfl
@[simp] theorem modFlc_sba (f : Flc → Flc) (s : State) : (s.modFlc f).sba = s.sba := rfl
@[simp] theorem modFlc_ce (f : Flc → Flc) (s : State) : (s.modFlc f).ce = s.ce := rfl
@[simp] theorem modFlc_lu (f : Flc → Flc) (s : State) : (s.modFlc f).lu = s.lu := rfl
@[simp] theorem modFlc_nq (f : Flc → Flc) (s : State) : (s.modFlc f).nq = s.nq := rfl
@[simp] theorem modFlc_choices (f : Flc → Flc) (s : State) : (s.modFlc f).choices = s.choices := rfl
@[simp] theorem modFlc_unit (f : Flc → Flc) (s : State) (u : UnitNo) : (s.modFlc f).unit u = s.unit u := rfl
@[simp] theorem modFlc_station (f : Flc → Flc) (s : State) (st : StationNo) : (s.modFlc f).station st = s.station st := rfl
@[simp] theorem modFlc_riser (f : Flc → Flc) (s : State) (r : RiserNo) : (s.modFlc f).riser r = s.riser r := rfl
@[simp] theorem modFlc_ctx (f : Flc → Flc) (s : State) (q : RiserNo) : (s.modFlc f).ctx q = s.ctx q := rfl
@[simp] theorem modFlc_line (f : Flc → Flc) (s : State) (l : LineNo) : (s.modFlc f).line l = s.line l := rfl

@[simp] theorem modNq_pending (f : Nq → Nq) (s : State) : (s.modNq f).pending = s.pending := rfl
@[simp] theorem modNq_slp (f : Nq → Nq) (s : State) : (s.modNq f).slp = s.slp := rfl
@[simp] theorem modNq_units (f : Nq → Nq) (s : State) : (s.modNq f).units = s.units := rfl
@[simp] theorem modNq_stations (f : Nq → Nq) (s : State) : (s.modNq f).stations = s.stations := rfl
@[simp] theorem modNq_risers (f : Nq → Nq) (s : State) : (s.modNq f).risers = s.risers := rfl
@[simp] theorem modNq_tower (f : Nq → Nq) (s : State) : (s.modNq f).tower = s.tower := rfl
@[simp] theorem modNq_sba (f : Nq → Nq) (s : State) : (s.modNq f).sba = s.sba := rfl
@[simp] theorem modNq_ce (f : Nq → Nq) (s : State) : (s.modNq f).ce = s.ce := rfl
@[simp] theorem modNq_flc (f : Nq → Nq) (s : State) : (s.modNq f).flc = s.flc := rfl
@[simp] theorem modNq_lu (f : Nq → Nq) (s : State) : (s.modNq f).lu = s.lu := rfl
@[simp] theorem modNq_choices (f : Nq → Nq) (s : State) : (s.modNq f).choices = s.choices := rfl
@[simp] theorem modNq_unit (f : Nq → Nq) (s : State) (u : UnitNo) : (s.modNq f).unit u = s.unit u := rfl
@[simp] theorem modNq_station (f : Nq → Nq) (s : State) (st : StationNo) : (s.modNq f).station st = s.station st := rfl
@[simp] theorem modNq_riser (f : Nq → Nq) (s : State) (r : RiserNo) : (s.modNq f).riser r = s.riser r := rfl
@[simp] theorem modNq_ctx (f : Nq → Nq) (s : State) (q : RiserNo) : (s.modNq f).ctx q = s.ctx q := rfl
@[simp] theorem modNq_line (f : Nq → Nq) (s : State) (l : LineNo) : (s.modNq f).line l = s.line l := rfl

@[simp] theorem post_pending (k : Nat) (x : Subject) (c : Content) (s : State) : (s.post k x c).pending = s.pending := rfl
@[simp] theorem post_slp (k : Nat) (x : Subject) (c : Content) (s : State) : (s.post k x c).slp = s.slp := rfl
@[simp] theorem post_units (k : Nat) (x : Subject) (c : Content) (s : State) : (s.post k x c).units = s.units := rfl
@[simp] theorem post_stations (k : Nat) (x : Subject) (c : Content) (s : State) : (s.post k x c).stations = s.stations := rfl
@[simp] theorem post_risers (k : Nat) (x : Subject) (c : Content) (s : State) : (s.post k x c).risers = s.risers := rfl
@[simp] theorem post_tower (k : Nat) (x : Subject) (c : Content) (s : State) : (s.post k x c).tower = s.tower := rfl
@[simp] theorem post_sba (k : Nat) (x : Subject) (c : Content) (s : State) : (s.post k x c).sba = s.sba := rfl
@[simp] theorem post_ce (k : Nat) (x : Subject) (c : Content) (s : State) : (s.post k x c).ce = s.ce := rfl
@[simp] theorem post_flc (k : Nat) (x : Subject) (c : Content) (s : State) : (s.post k x c).flc = s.flc := rfl
@[simp] theorem post_lu (k : Nat) (x : Subject) (c : Content) (s : State) : (s.post k x c).lu = s.lu := rfl
@[simp] theorem post_choices (k : Nat) (x : Subject) (c : Content) (s : State) : (s.post k x c).choices = s.choices := rfl
@[simp] theorem post_unit (k : Nat) (x : Subject) (c : Content) (s : State) (u : UnitNo) : (s.post k x c).unit u = s.unit u := rfl
@[simp] theorem post_station (k : Nat) (x : Subject) (c : Content) (s : State) (st : StationNo) : (s.post k x c).station st = s.station st := rfl
@[simp] theorem post_riser (k : Nat) (x : Subject) (c : Content) (s : State) (r : RiserNo) : (s.post k x c).riser r = s.riser r := rfl
@[simp] theorem post_ctx (k : Nat) (x : Subject) (c : Content) (s : State) (q : RiserNo) : (s.post k x c).ctx q = s.ctx q := rfl
@[simp] theorem post_line (k : Nat) (x : Subject) (c : Content) (s : State) (l : LineNo) : (s.post k x c).line l = s.line l := rfl

/-! ## The field that changes -/

@[simp] theorem modUnit_unit (i : UnitNo) (f : UnitRec → UnitRec) (s : State) (u : UnitNo) :
    (s.modUnit i f).unit u = if i = u then f (s.unit i) else s.unit u := updTable_get s.units i u f

@[simp] theorem modDecision_unit (i : UnitNo) (f : Decision → Decision) (s : State) (u : UnitNo) :
    (s.modDecision i f).unit u =
      if i = u then { s.unit i with decision := f (s.unit i).decision } else s.unit u := updTable_get s.units i u _

@[simp] theorem modStation_station (i : StationNo) (f : StationRec → StationRec) (s : State) (st : StationNo) :
    (s.modStation i f).station st = if i = st then f (s.station i) else s.station st := updTable_get s.stations i st f

@[simp] theorem modRiser_riser (i : RiserNo) (f : RiserRec → RiserRec) (s : State) (r : RiserNo) :
    (s.modRiser i f).riser r = if i = r then f (s.riser i) else s.riser r := updTable_get s.risers i r f

@[simp] theorem modLive_riser (i : RiserNo) (f : RiserLive → RiserLive) (s : State) (r : RiserNo) :
    (s.modLive i f).riser r =
      if i = r then { s.riser i with live := f (s.riser i).live } else s.riser r := updTable_get s.risers i r _

@[simp] theorem setCtx_ctx (i : RiserNo) (c : Option Ctx) (s : State) (r : RiserNo) :
    (s.setCtx i c).ctx r = if i = r then c else s.ctx r := updTable_get s.ce.ctxs i r _

@[simp] theorem setCtx_tagCounter (i : RiserNo) (c : Option Ctx) (s : State) :
    (s.setCtx i c).ce.tagCounter = s.ce.tagCounter := rfl

@[simp] theorem modLine_line (i : LineNo) (f : LineRec → LineRec) (s : State) (l : LineNo) :
    (s.modLine i f).line l = if i = l then f (s.line i) else s.line l := updTable_get s.lu.lines i l f

@[simp] theorem modLine_pins (i : LineNo) (f : LineRec → LineRec) (s : State) : (s.modLine i f).lu.pins = s.lu.pins := rfl

@[simp] theorem modSlp_slp (f : Slp → Slp) (s : State) : (s.modSlp f).slp = f s.slp := rfl

@[simp] theorem modSba_sba (f : Sba → Sba) (s : State) : (s.modSba f).sba = f s.sba := rfl

@[simp] theorem modFlc_flc (f : Flc → Flc) (s : State) : (s.modFlc f).flc = f s.flc := rfl

@[simp] theorem modNq_nq (f : Nq → Nq) (s : State) : (s.modNq f).nq = f s.nq := rfl

@[simp] theorem post_nq (k : Nat) (x : Subject) (c : Content) (s : State) :
    (s.post k x c).nq = s.nq.post ⟨k, x, c⟩ := rfl

end Sys2Proof.Machine
end

