-- ==== Sys2Proof/Laws/Notices.lean ====
section
/-! SUPPORT. Laws/Notices.lean: what taking a posted notice does to the queue (R189). -/

namespace Sys2Proof.Machine

theorem mem_placeNotice {n m : Notice} {l : List Notice} : m ∈ placeNotice n l ↔ m = n ∨ m ∈ l := by
  induction l with
  | nil => simp [placeNotice]
  | cons a l ih =>
    unfold placeNotice
    split
    · simp only [List.mem_cons, ih]
      exact or_left_comm
    · simp

theorem length_placeNotice (n : Notice) (l : List Notice) : (placeNotice n l).length = l.length + 1 := by
  induction l with
  | nil => rfl
  | cons a l ih =>
    unfold placeNotice
    split <;> simp [ih]

/-- Placing keeps the queue sorted by level. -/
theorem sorted_placeNotice {n : Notice} {l : List Notice} (h : l.Pairwise fun a b => b.level ≤ a.level) :
    (placeNotice n l).Pairwise fun a b => b.level ≤ a.level := by
  induction l with
  | nil => simp [placeNotice]
  | cons a l ih =>
    rw [List.pairwise_cons] at h
    unfold placeNotice
    split
    · next hn =>
      rw [List.pairwise_cons]
      refine ⟨fun m hm => ?_, ih h.2⟩
      rcases mem_placeNotice.1 hm with rfl | hm
      · exact hn
      · exact h.1 m hm
    · next hn =>
      rw [List.pairwise_cons, List.pairwise_cons]
      refine ⟨fun m hm => ?_, h⟩
      rcases List.mem_cons.1 hm with rfl | hm
      · omega
      · have := h.1 m hm
        omega

theorem dropOldest_sublist (k : Nat) (l : List Notice) : (dropOldest k l).Sublist l := by
  induction l with
  | nil => exact List.Sublist.refl _
  | cons a l ih =>
    unfold dropOldest
    split
    · exact List.sublist_cons_self a l
    · exact ih.cons_cons a

theorem length_dropOldest {k : Nat} {l : List Notice} (h : ∃ m ∈ l, m.level = k) :
    (dropOldest k l).length + 1 = l.length := by
  induction l with
  | nil => simp at h
  | cons a l ih =>
    unfold dropOldest
    split
    · rfl
    · next hk =>
      obtain ⟨m, hm, e⟩ := h
      rcases List.mem_cons.1 hm with rfl | hm
      · exact absurd e hk
      · simpa using ih ⟨m, hm, e⟩

theorem lowestLevel_le {l : List Notice} {m : Notice} (h : m ∈ l) : lowestLevel l ≤ m.level := by
  induction l with
  | nil => simp at h
  | cons a l ih =>
    have e : lowestLevel (a :: l) = min a.level (lowestLevel l) := rfl
    rcases List.mem_cons.1 h with rfl | h
    · omega
    · have := ih h
      omega

/-- A lowest level below 3 is some notice's level. -/
theorem lowestLevel_attained {l : List Notice} (h : lowestLevel l < 3) : ∃ m ∈ l, m.level = lowestLevel l := by
  induction l with
  | nil => exact absurd h (by decide)
  | cons a l ih =>
    have e : lowestLevel (a :: l) = min a.level (lowestLevel l) := rfl
    by_cases ha : a.level ≤ lowestLevel l
    · exact ⟨a, by simp, by omega⟩
    · obtain ⟨m, hm, em⟩ := ih (by omega)
      exact ⟨m, by simp [hm], by omega⟩

theorem fixedLevel_le (c : Content) : c.fixedLevel ≤ 3 := by
  cases c with
  | lineEdge role lv => cases role <;> simp [Content.fixedLevel, edgeLevel]
  | _ => simp [Content.fixedLevel]

/-- Taking a posted notice keeps the queue safe (R189). -/
theorem NqSafe.post {q : Nq} {n : Notice} (h : NqSafe q) (hn : n.level = n.content.fixedLevel) : NqSafe (q.post n) := by
  have h3 := fixedLevel_le n.content
  unfold Nq.post
  split
  · exact h
  · next hm =>
    split
    · next hs =>
      refine ⟨h.range, ?_, sorted_placeNotice h.sorted, fun m hm' => ?_, fun m hm' => ?_⟩
      · simp only [length_placeNotice]
        omega
      · rcases mem_placeNotice.1 hm' with rfl | hm'
        · exact Nat.le_of_not_lt hm
        · exact h.masked m hm'
      · rcases mem_placeNotice.1 hm' with rfl | hm'
        · exact hn
        · exact h.levels m hm'
    · next hs =>
      split
      · next hl =>
        have sub := dropOldest_sublist (lowestLevel q.queue) q.queue
        have len := length_dropOldest (lowestLevel_attained (l := q.queue) (by omega))
        have short := h.short
        refine ⟨h.range, ?_, sorted_placeNotice (h.sorted.sublist sub), fun m hm' => ?_, fun m hm' => ?_⟩
        · simp only [length_placeNotice]
          omega
        · rcases mem_placeNotice.1 hm' with rfl | hm'
          · exact Nat.le_of_not_lt hm
          · exact h.masked m (sub.subset hm')
        · rcases mem_placeNotice.1 hm' with rfl | hm'
          · exact hn
          · exact h.levels m (sub.subset hm')
      · exact ⟨h.range, h.short, h.sorted, h.masked, h.levels⟩

@[simp] theorem Nq.post_mask (q : Nq) (n : Notice) : (q.post n).mask = q.mask := by
  unfold Nq.post; split <;> (try split) <;> (try split) <;> rfl

/-- A post changes the queue and NOTICE_OVERFLOW alone. -/
theorem Nq.post_frame (q : Nq) (n : Notice) :
    { q.post n with queue := q.queue, noticeOverflow := q.noticeOverflow } = q := by
  unfold Nq.post; split <;> (try split) <;> (try split) <;> rfl

end Sys2Proof.Machine
end

