-- ==== Sys2Proof/Laws/Cascade.lean ====
section
/-! SUPPORT. Laws/Cascade.lean: what evaluations, recounts, scans, recomputes and the changes of contexts they cause can
do, said once for each operation: they are cascades. -/

namespace Sys2Proof.Machine

/-- What evaluations, recounts, scans, recomputes and the changes of contexts they cause leave alone: all but the
decisions, the riser states and counts, the arbiter, the contexts, the command set and the notice queue. -/
structure EventFrame (s t : State) : Prop where
  pending : t.pending = s.pending
  slp : t.slp = s.slp
  stations : t.stations = s.stations
  tower : t.tower = s.tower
  lu : t.lu = s.lu
  choices : t.choices = s.choices
  flc : { t.flc with commands := s.flc.commands } = s.flc
  nq : { t.nq with queue := s.nq.queue, noticeOverflow := s.nq.noticeOverflow } = s.nq
  cfg : ∀ u, (t.unit u).cfg = (s.unit u).cfg
  reading : ∀ u, (t.unit u).reading = (s.unit u).reading
  presence : ∀ u, (t.unit u).presence = (s.unit u).presence ∧ (t.unit u).misses = (s.unit u).misses
  owner : ∀ u, (s.unit u).decision.sameOwner (t.unit u).decision
  riser : ∀ r, (t.riser r).cfg = (s.riser r).cfg ∧ (t.riser r).live.memberCount = (s.riser r).live.memberCount ∧
    (t.riser r).live.locked = (s.riser r).live.locked

/-- An event frame that also keeps the notice queue safe and posts no command to a unit that is not ONLINE. -/
structure Cascade (s t : State) : Prop extends EventFrame s t where
  nqSafe : NqSafe s.nq → NqSafe t.nq
  commands : ∀ u, (s.unit u).presence ≠ .online → ∀ e ∈ t.flc.commands, e.unit = u → e ∈ s.flc.commands

theorem Decision.sameOwner.rfl (d : Decision) : d.sameOwner d := ⟨Eq.refl _, Eq.refl _, Eq.refl _, Eq.refl _⟩

theorem Decision.sameOwner.trans {a b c : Decision} (h : a.sameOwner b) (k : b.sameOwner c) : a.sameOwner c :=
  ⟨k.1.trans h.1, k.2.1.trans h.2.1, k.2.2.1.trans h.2.2.1, k.2.2.2.trans h.2.2.2⟩

theorem EventFrame.rfl (s : State) : EventFrame s s :=
  ⟨Eq.refl _, Eq.refl _, Eq.refl _, Eq.refl _, Eq.refl _, Eq.refl _, Eq.refl _, Eq.refl _, fun _ => Eq.refl _,
    fun _ => Eq.refl _, fun _ => ⟨Eq.refl _, Eq.refl _⟩, fun _ => Decision.sameOwner.rfl _,
    fun _ => ⟨Eq.refl _, Eq.refl _, Eq.refl _⟩⟩

theorem EventFrame.trans {a b c : State} (h : EventFrame a b) (k : EventFrame b c) : EventFrame a c where
  pending := k.pending.trans h.pending
  slp := k.slp.trans h.slp
  stations := k.stations.trans h.stations
  tower := k.tower.trans h.tower
  lu := k.lu.trans h.lu
  choices := k.choices.trans h.choices
  flc := by
    have e := congrArg (fun f : Flc => { f with commands := a.flc.commands }) k.flc
    exact e.trans h.flc
  nq := by
    have e := congrArg (fun q : Nq => { q with queue := a.nq.queue, noticeOverflow := a.nq.noticeOverflow }) k.nq
    exact e.trans h.nq
  cfg u := (k.cfg u).trans (h.cfg u)
  reading u := (k.reading u).trans (h.reading u)
  presence u := ⟨(k.presence u).1.trans (h.presence u).1, (k.presence u).2.trans (h.presence u).2⟩
  owner u := (h.owner u).trans (k.owner u)
  riser r := ⟨(k.riser r).1.trans (h.riser r).1, (k.riser r).2.1.trans (h.riser r).2.1,
    (k.riser r).2.2.trans (h.riser r).2.2⟩

namespace Cascade

theorem rfl (s : State) : Cascade s s := ⟨EventFrame.rfl s, id, fun _ _ _ h _ => h⟩

theorem trans {a b c : State} (h : Cascade a b) (k : Cascade b c) : Cascade a c :=
  ⟨h.toEventFrame.trans k.toEventFrame, fun q => k.nqSafe (h.nqSafe q), fun u hu e he hv =>
    h.commands u hu e (k.commands u (by rw [(h.presence u).1]; exact hu) e he hv) hv⟩

theorem ite {s a b : State} {p : Prop} [Decidable p] (h : Cascade s a) (k : Cascade s b) :
    Cascade s (if p then a else b) := by
  split
  · exact h
  · exact k

/-- A walk over a list, each place of which is a cascade. -/
theorem foldl {α : Type} {f : State → α → State} (h : ∀ s a, Cascade s (f s a)) (l : List α) (s : State) :
    Cascade s (l.foldl f s) := by
  induction l generalizing s with
  | nil => exact rfl s
  | cons a l ih => exact (h s a).trans (ih _)

end Cascade

/-! ## The updates -/

theorem cascade_post (k : Nat) (x : Subject) (c : Content) (s : State) (h : k = c.fixedLevel) :
    Cascade s (s.post k x c) := by
  refine ⟨⟨?_, ?_, ?_, ?_, ?_, ?_, ?_, ?_, ?_, ?_, ?_, ?_, ?_⟩, fun q => q.post h, fun _ _ _ e _ => e⟩
  case refine_8 => exact Nq.post_frame _ _
  all_goals intros; first | rfl | exact ⟨rfl, rfl⟩ | exact ⟨rfl, rfl, rfl⟩ | exact Decision.sameOwner.rfl _

theorem cascade_modUnit (u : UnitNo) (f : UnitRec → UnitRec) (s : State)
    (h : ∀ x : UnitRec, (f x).cfg = x.cfg ∧ (f x).reading = x.reading ∧ (f x).presence = x.presence ∧
      (f x).misses = x.misses ∧ x.decision.sameOwner (f x).decision) : Cascade s (s.modUnit u f) := by
  refine ⟨⟨rfl, rfl, rfl, rfl, rfl, rfl, rfl, rfl, ?_, ?_, ?_, ?_, fun _ => ⟨rfl, rfl, rfl⟩⟩, id, fun _ _ _ e _ => e⟩ <;> intro v <;>
    rw [modUnit_unit] <;> split
  · next e => exact e ▸ (h _).1
  · rfl
  · next e => exact e ▸ (h _).2.1
  · rfl
  · next e => exact e ▸ ⟨(h _).2.2.1, (h _).2.2.2.1⟩
  · exact ⟨rfl, rfl⟩
  · next e => exact e ▸ (h _).2.2.2.2
  · exact Decision.sameOwner.rfl _

theorem cascade_modDecision (u : UnitNo) (f : Decision → Decision) (s : State) (h : ∀ x : Decision, x.sameOwner (f x)) :
    Cascade s (s.modDecision u f) :=
  cascade_modUnit u _ s fun x => ⟨rfl, rfl, rfl, rfl, h x.decision⟩

theorem cascade_modRiser (r : RiserNo) (f : RiserRec → RiserRec) (s : State)
    (h : ∀ x : RiserRec, (f x).cfg = x.cfg ∧ (f x).live.memberCount = x.live.memberCount ∧ (f x).live.locked = x.live.locked) :
    Cascade s (s.modRiser r f) := by
  refine ⟨⟨rfl, rfl, rfl, rfl, rfl, rfl, rfl, rfl, fun _ => rfl, fun _ => rfl, fun _ => ⟨rfl, rfl⟩,
    fun _ => Decision.sameOwner.rfl _, fun q => ?_⟩, id, fun _ _ _ e _ => e⟩
  rw [modRiser_riser]
  split
  · next e => exact e ▸ h _
  · exact ⟨rfl, rfl, rfl⟩

theorem cascade_modLive (r : RiserNo) (f : RiserLive → RiserLive) (s : State)
    (h : ∀ x : RiserLive, (f x).memberCount = x.memberCount ∧ (f x).locked = x.locked) : Cascade s (s.modLive r f) :=
  cascade_modRiser r _ s fun x => ⟨rfl, h x.live⟩

theorem cascade_modSba (f : Sba → Sba) (s : State) : Cascade s (s.modSba f) :=
  ⟨⟨rfl, rfl, rfl, rfl, rfl, rfl, rfl, rfl, fun _ => rfl, fun _ => rfl, fun _ => ⟨rfl, rfl⟩,
    fun _ => Decision.sameOwner.rfl _, fun _ => ⟨rfl, rfl, rfl⟩⟩, id, fun _ _ _ e _ => e⟩

theorem cascade_ce (e : Ce) (s : State) : Cascade s { s with ce := e } :=
  ⟨⟨rfl, rfl, rfl, rfl, rfl, rfl, rfl, rfl, fun _ => rfl, fun _ => rfl, fun _ => ⟨rfl, rfl⟩,
    fun _ => Decision.sameOwner.rfl _, fun _ => ⟨rfl, rfl, rfl⟩⟩, id, fun _ _ _ e _ => e⟩

theorem cascade_setCtx (r : RiserNo) (c : Option Ctx) (s : State) : Cascade s (s.setCtx r c) := cascade_ce _ s

theorem cascade_commands (f : List CmdEntry → List CmdEntry) (s : State)
    (h : ∀ u, (s.unit u).presence ≠ .online → ∀ e ∈ f s.flc.commands, e.unit = u → e ∈ s.flc.commands) :
    Cascade s (s.modFlc fun x => { x with commands := f x.commands }) :=
  ⟨⟨rfl, rfl, rfl, rfl, rfl, rfl, rfl, rfl, fun _ => rfl, fun _ => rfl, fun _ => ⟨rfl, rfl⟩,
    fun _ => Decision.sameOwner.rfl _, fun _ => ⟨rfl, rfl, rfl⟩⟩, id, h⟩

/-! ## The Mode Evaluator -/

theorem preferenceOf_sameOwner (x : UnitRec) (st : StationLive) : x.decision.sameOwner (preferenceOf x st) := by
  unfold preferenceOf
  split
  · exact ⟨rfl, rfl, rfl, rfl⟩
  · split
    · split
      · exact ⟨rfl, rfl, rfl, rfl⟩
      · exact Decision.sameOwner.rfl _
    · exact Decision.sameOwner.rfl _

theorem cascade_postFrost (u : UnitNo) (old new : Option Mode) (t : Option Int) (s : State) :
    Cascade s (s.postFrost u old new t) :=
  .ite (cascade_post _ _ _ _ rfl) (.ite (cascade_post _ _ _ _ rfl) (.rfl s))

/-- The unit record `u` with this decision part. -/
theorem cascade_setDecision (u : UnitNo) (d : Decision) (s : State) (h : (s.unit u).decision.sameOwner d) :
    Cascade s (s.modDecision u fun _ => d) := by
  refine ⟨⟨rfl, rfl, rfl, rfl, rfl, rfl, rfl, rfl, ?_, ?_, ?_, ?_, fun _ => ⟨rfl, rfl, rfl⟩⟩, id, fun _ _ _ e _ => e⟩ <;> intro v <;>
    rw [modDecision_unit] <;> split
  · next e => exact e ▸ rfl
  · rfl
  · next e => exact e ▸ rfl
  · rfl
  · next e => exact e ▸ ⟨rfl, rfl⟩
  · exact ⟨rfl, rfl⟩
  · next e => exact e ▸ h
  · exact Decision.sameOwner.rfl _

theorem cascade_preferenceStep (u : UnitNo) (s : State) : Cascade s (s.preferenceStep u) :=
  (cascade_setDecision u _ s (preferenceOf_sameOwner _ _)).trans (cascade_postFrost ..)

/-- A posting places nothing but an entry of the unit itself (R142). -/
theorem mem_placeCommand {u : UnitNo} {c : ModeSpeed} {e : CmdEntry} {l : List CmdEntry}
    (h : e ∈ placeCommand u c l) : e.unit = u ∨ e ∈ l := by
  induction l with
  | nil => exact .inl (List.mem_singleton.1 h ▸ rfl)
  | cons a l ih =>
    unfold placeCommand at h
    split at h
    · rcases List.mem_cons.1 h with h | h
      · exact .inl (h ▸ rfl)
      · exact .inr (List.mem_cons_of_mem _ h)
    · rcases List.mem_cons.1 h with h | h
      · exact .inr (h ▸ List.mem_cons_self)
      · exact (ih h).imp_right (List.mem_cons_of_mem _)

theorem cascade_postCommand (u : UnitNo) (c : ModeSpeed) (s : State) (h : (s.unit u).presence = .online) :
    Cascade s (s.postCommand u c) :=
  cascade_commands (placeCommand u c) s fun v hv e he hev => by
    rcases mem_placeCommand he with h' | h'
    · exact absurd (hev ▸ h' ▸ h : (s.unit v).presence = .online) hv
    · exact h'

theorem cascade_postWhereHeard (u : UnitNo) (c : ModeSpeed) (s : State) : Cascade s (s.postWhereHeard u c) := by
  unfold State.postWhereHeard
  split
  · next h => exact cascade_postCommand _ _ _ (by simp only [Bool.and_eq_true, beq_iff_eq] at h; exact h.1.2)
  · exact .rfl _

theorem cascade_announceCommanded (u : UnitNo) (c : ModeSpeed) (s : State) : Cascade s (s.announceCommanded u c) :=
  (cascade_post 0 (.unit u) (.unitMode c) s rfl).trans (cascade_postWhereHeard ..)

theorem cascade_commandMode (u : UnitNo) (c : ModeSpeed) (s : State) : Cascade s (s.commandMode u c) := by
  unfold State.commandMode
  refine .trans (cascade_modUnit u _ s ?_) (cascade_announceCommanded ..)
  exact fun _ => ⟨rfl, rfl, rfl, rfl, rfl, rfl, rfl, rfl⟩

theorem cascade_commandSpeed (u : UnitNo) (c : ModeSpeed) (s : State) : Cascade s (s.commandSpeed u c) := by
  unfold State.commandSpeed
  refine .trans (cascade_modDecision u _ s ?_) (cascade_announceCommanded ..)
  exact fun _ => ⟨rfl, rfl, rfl, rfl⟩

theorem cascade_mappingStep (u : UnitNo) (cls : CauseClass) (s : State) : Cascade s (s.mappingStep u cls) := by
  unfold State.mappingStep
  dsimp only
  split
  · exact .rfl s
  · split
    · exact .ite (cascade_commandMode ..) (.rfl s)
    · exact .ite (.ite (cascade_commandSpeed ..) (.rfl s)) (.ite (cascade_commandMode ..) (.rfl s))

theorem cascade_evaluate (u : UnitNo) (cls : CauseClass) (s : State) : Cascade s (s.evaluate u cls) :=
  (cascade_preferenceStep u s).trans (cascade_mappingStep ..)

theorem cascade_evaluateAll (us : List UnitNo) (cls : CauseClass) (s : State) : Cascade s (s.evaluateAll us cls) :=
  .foldl (fun s u => cascade_evaluate u cls s) us s

theorem cascade_setGroupMode (m : Mode) (s : State) (u : UnitNo) : Cascade s (s.setGroupMode m u) :=
  .ite (cascade_commandMode ..) (.rfl s)

theorem cascade_returnToBypass (s : State) (u : UnitNo) : Cascade s (s.returnToBypass u) :=
  .ite (cascade_setGroupMode ..) (.rfl s)

theorem cascade_clearDwell (s : State) (u : UnitNo) : Cascade s (s.clearDwell u) :=
  .ite (cascade_modDecision u _ s fun _ => ⟨rfl, rfl, rfl, rfl⟩) (.rfl s)

theorem cascade_returnMembers (r : RiserNo) (s : State) : Cascade s (s.returnMembers r) :=
  ((Cascade.foldl cascade_returnToBypass _ s).trans (.foldl cascade_clearDwell _ _)).trans (cascade_evaluateAll ..)

/-! ## The Riser Coordinator, the arbiter and the Changeover Engine -/

theorem cascade_riserTo (r : RiserNo) (st : RiserState) (c : Cause) (e : Bool) (s : State) :
    Cascade s (s.riserTo r st c e) := by
  unfold State.riserTo
  refine .trans (cascade_modLive r _ s ?_) (cascade_post 1 (.riser r) (.riserState st c) _ rfl)
  exact fun _ => ⟨rfl, rfl⟩

theorem cascade_startSettle (r : RiserNo) (s : State) : Cascade s (s.startSettle r) :=
  cascade_modRiser r _ s fun _ => ⟨rfl, rfl, rfl⟩

theorem cascade_clearSettle (r : RiserNo) (s : State) : Cascade s (s.clearSettle r) :=
  cascade_modLive r _ s fun _ => ⟨rfl, rfl⟩

theorem cascade_count (r : RiserNo) (s : State) : Cascade s (s.count r) := cascade_modLive r _ s fun _ => ⟨rfl, rfl⟩

theorem cascade_enqueue (r : RiserNo) (s : State) : Cascade s (s.enqueue r) := cascade_modSba _ s

theorem cascade_dequeue (r : RiserNo) (s : State) : Cascade s (s.dequeue r) := cascade_modSba _ s

theorem cascade_ungrant (r : RiserNo) (s : State) : Cascade s (s.ungrant r) := cascade_modSba _ s

theorem cascade_drain (r : RiserNo) (s : State) : Cascade s (s.drain r) := cascade_modSba _ s

theorem cascade_undrain (r : RiserNo) (s : State) : Cascade s (s.undrain r) := cascade_modSba _ s

theorem cascade_newContext (r : RiserNo) (d : Direction) (ph : Phase) (us : List UnitNo) (s : State) :
    Cascade s (s.newContext r d ph us) := cascade_ce _ s

theorem cascade_postChangeover (r : RiserNo) (c : Ctx) (res : Result) (why : Option Cause) (n : Nat) (s : State) :
    Cascade s (s.postChangeover r c res why n) := cascade_post _ _ _ s rfl

theorem cascade_admitRiser (s : State) (r : RiserNo) : Cascade s (s.admitRiser r) :=
  .ite ((cascade_riserTo ..).trans (cascade_newContext ..))
    ((((cascade_riserTo ..).trans (cascade_startSettle ..)).trans (cascade_evaluateAll ..)).trans (cascade_count ..))

theorem cascade_scan (s : State) : Cascade s s.scan :=
  .ite (.rfl s) ((cascade_modSba _ s).trans (.foldl cascade_admitRiser _ _))

theorem cascade_scanIf (b : Bool) (s : State) : Cascade s (s.scanIf b) := .ite (cascade_scan s) (.rfl s)

theorem cascade_joinCheck (r : RiserNo) (s : State) : Cascade s (s.joinCheck r) :=
  .ite (((cascade_riserTo ..).trans (cascade_enqueue ..)).trans (cascade_scan _)) (.rfl s)

theorem cascade_completeLeaving (r : RiserNo) (b : Bool) (s : State) : Cascade s (s.completeLeaving r b) :=
  ((((((cascade_riserTo ..).trans (cascade_startSettle ..)).trans (cascade_setCtx ..)).trans
    (cascade_returnMembers ..)).trans (cascade_count ..)).trans (cascade_undrain ..)).trans (cascade_scanIf ..)

theorem cascade_afterContextDrop (r : RiserNo) (us : List UnitNo) (b : Bool) (s : State) :
    Cascade s (s.afterContextDrop r us b) :=
  (((((cascade_startSettle r s).trans (cascade_setCtx ..)).trans (cascade_evaluateAll ..)).trans
    (cascade_count ..)).trans (cascade_ungrant ..)).trans (cascade_scanIf ..)

theorem cascade_ceCancel (r : RiserNo) (c : Ctx) (why : Cause) (s : State) : Cascade s (s.ceCancel r c why) := by
  unfold State.ceCancel
  split
  · exact ((cascade_postChangeover ..).trans (cascade_riserTo ..)).trans (cascade_afterContextDrop ..)
  · exact ((((cascade_setCtx ..).trans (cascade_riserTo ..)).trans (cascade_ungrant ..)).trans
      (cascade_drain ..)).trans (cascade_scan _)
  · exact ((((cascade_setCtx ..).trans (cascade_riserTo ..)).trans (cascade_ungrant ..)).trans
      (cascade_drain ..)).trans (cascade_scan _)
  · exact .rfl s
  · exact .rfl s
  · exact .rfl s

theorem cascade_withdrawEntering (r : RiserNo) (c : Ctx) (why : Cause) (b : Bool) (s : State) :
    Cascade s (s.withdrawEntering r c why b) := by
  unfold State.withdrawEntering
  have mid (p : State) (h : Cascade s p) (c' : Ctx) :
      Cascade s ((((p.riserTo r .leaving why true).setCtx r (some c')).ungrant r).drain r) :=
    (((h.trans (cascade_riserTo ..)).trans (cascade_setCtx ..)).trans (cascade_ungrant ..)).trans (cascade_drain ..)
  split
  · exact ((cascade_riserTo ..).trans (cascade_postChangeover ..)).trans (cascade_afterContextDrop ..)
  · exact (mid s (.rfl s) _).trans (cascade_scanIf ..)
  · exact (mid s (.rfl s) _).trans (cascade_scanIf ..)
  · exact .ite ((mid _ (cascade_ce _ s) _).trans ((cascade_postChangeover ..).trans (cascade_completeLeaving ..)))
      ((mid _ (cascade_ce _ s) _).trans (cascade_scanIf ..))
  · exact .rfl s
  · exact .rfl s

theorem cascade_withdrawFree (r : RiserNo) (why : Cause) (b : Bool) (s : State) :
    Cascade s (s.withdrawFree r why b) :=
  .ite
    (.ite ((((cascade_riserTo ..).trans (cascade_ungrant ..)).trans (cascade_drain ..)).trans
        (cascade_completeLeaving ..))
      (((((cascade_riserTo ..).trans (cascade_newContext ..)).trans (cascade_ungrant ..)).trans
        (cascade_drain ..)).trans (cascade_scanIf ..)))
    ((((((cascade_riserTo ..).trans (cascade_startSettle ..)).trans (cascade_returnMembers ..)).trans
      (cascade_count ..)).trans (cascade_ungrant ..)).trans (cascade_scanIf ..))

theorem cascade_withdraw (r : RiserNo) (why : Cause) (b : Bool) (s : State) : Cascade s (s.withdraw r why b) := by
  unfold State.withdraw
  split
  · exact .rfl s
  · exact .rfl s
  · exact (cascade_riserTo ..).trans (cascade_dequeue ..)
  · exact cascade_withdrawFree ..
  · split
    · exact cascade_withdrawEntering ..
    · exact (cascade_riserTo ..).trans (cascade_afterContextDrop ..)

theorem cascade_applyCount (r : RiserNo) (s : State) : Cascade s (s.applyCount r) := by
  unfold State.applyCount
  dsimp only
  split
  · exact cascade_joinCheck ..
  · exact .ite (cascade_withdraw ..) (.rfl s)
  · exact .ite (cascade_withdraw ..) (.rfl s)
  · exact .rfl s
  · exact .rfl s

theorem cascade_recount (r : RiserNo) (s : State) : Cascade s (s.recount r) :=
  (cascade_count r s).trans (cascade_applyCount ..)

theorem cascade_settleExpired (r : RiserNo) (s : State) : Cascade s (s.settleExpired r) := by
  unfold State.settleExpired
  split
  · exact cascade_joinCheck ..
  · exact cascade_applyCount ..
  · exact .rfl s
  · exact .rfl s
  · exact .rfl s

theorem cascade_ownEvent (u : UnitNo) (cls : CauseClass) (s : State) : Cascade s (s.ownEvent u cls) :=
  (cascade_evaluate u cls s).trans (cascade_recount ..)

theorem cascade_enterComplete (r : RiserNo) (c : Ctx) (res : Result) (n : Nat) (s : State) :
    Cascade s (s.enterComplete r c res n) :=
  ((((((cascade_postChangeover ..).trans (cascade_riserTo ..)).trans (cascade_startSettle ..)).trans
    (cascade_setCtx ..)).trans (cascade_evaluateAll ..)).trans (cascade_evaluateAll ..)).trans (cascade_count ..)

theorem cascade_leaveComplete (r : RiserNo) (c : Ctx) (res : Result) (n : Nat) (s : State) :
    Cascade s (s.leaveComplete r c res n) := (cascade_postChangeover ..).trans (cascade_completeLeaving ..)

theorem cascade_rollEnds (r : RiserNo) (c : Ctx) (res : Result) (n : Nat) (s : State) :
    Cascade s (s.rollEnds r c res n) := by
  unfold State.rollEnds
  split
  · exact cascade_enterComplete ..
  · exact cascade_leaveComplete ..

theorem cascade_cancelComplete (r : RiserNo) (c : Ctx) (s : State) : Cascade s (s.cancelComplete r c) :=
  (((((((cascade_postChangeover ..).trans (cascade_riserTo ..)).trans (cascade_startSettle ..)).trans
    (cascade_setCtx ..)).trans (cascade_evaluateAll ..)).trans (cascade_count ..)).trans (cascade_undrain ..)).trans
    (cascade_scan _)

theorem cascade_rollTest (r : RiserNo) (c : Ctx) (s : State) : Cascade s (s.rollTest r c) := by
  unfold State.rollTest
  split
  · exact .ite (cascade_setCtx ..) (.rfl s)
  · exact .ite (cascade_rollEnds ..) (.rfl s)
  all_goals exact .rfl s

theorem cascade_dropTest (r : RiserNo) (c : Ctx) (s : State) : Cascade s (s.dropTest r c) := by
  unfold State.dropTest
  split
  · exact .ite (cascade_ceCancel ..) (.rfl s)
  · exact .ite (cascade_ceCancel ..) (.rfl s)
  · exact .ite (cascade_ceCancel ..) (cascade_rollTest ..)
  · exact .ite (cascade_leaveComplete ..) (.rfl s)
  · exact cascade_rollTest ..
  · exact .rfl s

theorem cascade_drop (u : UnitNo) (s : State) : Cascade s (s.drop u) := by
  unfold State.drop
  split
  · exact .rfl s
  · exact .ite ((cascade_setCtx ..).trans (cascade_dropTest ..)) (.rfl s)

theorem cascade_revokeOne (s : State) (r : RiserNo) : Cascade s (s.revokeOne r) :=
  (cascade_ungrant r s).trans (cascade_post _ _ _ _ rfl)

theorem cascade_revoke (s : State) : Cascade s s.revoke :=
  (Cascade.foldl cascade_revokeOne _ s).trans (.foldl (fun s r => cascade_withdraw r .revoked false s) _ _)

theorem cascade_recompute (s : State) : Cascade s s.recompute :=
  have h : Cascade s ((s.modSba fun b => { b with bEff := s.budgetNow }).post 1 .none (.budget s.budgetNow)) :=
    (cascade_modSba _ s).trans (cascade_post _ _ _ _ rfl)
  .ite (.rfl s) (.ite ((h.trans (cascade_revoke _)).trans (cascade_scan _)) (h.trans (cascade_scan _)))

theorem cascade_emergencyRiser (s : State) (r : RiserNo) : Cascade s (s.emergencyRiser r) := by
  unfold State.emergencyRiser
  split
  · exact cascade_clearSettle ..
  · exact ((cascade_riserTo ..).trans (cascade_clearSettle ..)).trans (cascade_dequeue ..)
  · exact ((cascade_riserTo ..).trans (cascade_clearSettle ..)).trans (cascade_ungrant ..)
  · exact ((cascade_riserTo ..).trans (cascade_clearSettle ..)).trans (cascade_ungrant ..)
  · exact ((cascade_riserTo ..).trans (cascade_clearSettle ..)).trans (cascade_undrain ..)

theorem cascade_emergencyUnit (s : State) (u : UnitNo) : Cascade s (s.emergencyUnit u) :=
  ((cascade_evaluate u .emergency s).trans (cascade_postWhereHeard ..)).trans (cascade_recount ..)

theorem cascade_emergencyOn (s : State) : Cascade s s.emergencyOn :=
  ((cascade_ce _ s).trans (.foldl cascade_emergencyRiser _ _)).trans (.foldl cascade_emergencyUnit _ _)

theorem cascade_emergencyOff (s : State) : Cascade s s.emergencyOff :=
  (Cascade.foldl (fun s r => cascade_startSettle r s) _ s).trans
    (.foldl (fun s u => cascade_ownEvent u .emergency s) _ _)

theorem cascade_freezeOn (s : State) : Cascade s s.freezeOn :=
  .foldl (fun s r => cascade_withdraw r .freeze true s) _ s

theorem cascade_joinIfIndividual (s : State) (r : RiserNo) : Cascade s (s.joinIfIndividual r) :=
  .ite (cascade_joinCheck r s) (.rfl s)

theorem cascade_freezeOff (s : State) : Cascade s s.freezeOff := .foldl cascade_joinIfIndividual _ s

/-! ## The Condition Table's hand-offs -/

theorem cascade_recountAll (rs : List RiserNo) (s : State) : Cascade s (s.recountAll rs) :=
  .foldl (fun s r => cascade_recount r s) rs s

theorem cascade_stationEvent (st : StationNo) (s : State) : Cascade s (s.stationEvent st) :=
  ((Cascade.ite (cascade_recompute s) (.rfl s)).trans (cascade_evaluateAll ..)).trans (cascade_recountAll ..)

end Sys2Proof.Machine
end

