-- ==== Sys2Proof/Laws/Link.lean ====
section
/-! SUPPORT. Laws/Link.lean: what the link arbiter's grants can do, said once: they stay within RunFrame. -/

namespace Sys2Proof.Machine

/-- A run frame that also keeps the notice queue safe and posts no command to a unit that is not ONLINE. -/
structure Ran (s t : State) : Prop extends RunFrame s t where
  nqSafe : NqSafe s.nq → NqSafe t.nq
  commands : ∀ u, (s.unit u).presence ≠ .online → ∀ e ∈ t.flc.commands, e.unit = u → e ∈ s.flc.commands

/-- A cascade leaves every part of the FLC but the command set. -/
theorem flc_of_cascade {s t : State} (h : Cascade s t) :
    t.flc = { s.flc with commands := t.flc.commands } :=
  (congrArg (fun f : Flc => { f with commands := t.flc.commands }) h.flc)

/-- Every cascade stays within a run frame. -/
theorem Cascade.ran {s t : State} (h : Cascade s t) : Ran s t where
  pending := h.pending
  slp := h.slp
  stations := h.stations
  tower := h.tower
  lu := h.lu
  nq := h.nq
  cfg := h.cfg
  reading := h.reading
  presence := h.presence
  owner := h.owner
  riser := h.riser
  speed := by rw [flc_of_cascade h]
  post := by rw [flc_of_cascade h]
  sweep := by rw [flc_of_cascade h]
  mail := .inl (by rw [flc_of_cascade h])
  nqSafe := h.nqSafe
  commands := h.commands

namespace Ran

theorem rfl (s : State) : Ran s s := (Cascade.rfl s).ran

theorem trans_cascade {a b c : State} (h : Ran a b) (k : Cascade b c) : Ran a c where
  pending := k.pending.trans h.pending
  slp := k.slp.trans h.slp
  stations := k.stations.trans h.stations
  tower := k.tower.trans h.tower
  lu := k.lu.trans h.lu
  nq := by
    have e := congrArg (fun q : Nq => { q with queue := a.nq.queue, noticeOverflow := a.nq.noticeOverflow }) k.nq
    exact e.trans h.nq
  cfg u := (k.cfg u).trans (h.cfg u)
  reading u := (k.reading u).trans (h.reading u)
  presence u := ⟨(k.presence u).1.trans (h.presence u).1, (k.presence u).2.trans (h.presence u).2⟩
  owner u := (h.owner u).trans (k.owner u)
  riser r := ⟨(k.riser r).1.trans (h.riser r).1, (k.riser r).2.1.trans (h.riser r).2.1,
    (k.riser r).2.2.trans (h.riser r).2.2⟩
  speed := k.ran.speed.trans h.speed
  post := k.ran.post.trans h.post
  sweep := by
    have e : c.flc.sweep = b.flc.sweep := by rw [flc_of_cascade k]
    exact (congrArg (fun w : Sweep => { w with cursor := a.flc.sweep.cursor }) e).trans h.sweep
  mail := by
    have e : c.flc.mail = b.flc.mail := by rw [flc_of_cascade k]
    rw [e]
    exact h.mail
  nqSafe q := k.nqSafe (h.nqSafe q)
  commands u hu e he hv :=
    h.commands u hu e (k.commands u (by rw [(h.presence u).1]; exact hu) e he hv) hv

theorem cascade_trans {a b c : State} (h : Cascade a b) (k : Ran b c) : Ran a c where
  pending := k.pending.trans h.pending
  slp := k.slp.trans h.slp
  stations := k.stations.trans h.stations
  tower := k.tower.trans h.tower
  lu := k.lu.trans h.lu
  nq := by
    have e := congrArg (fun q : Nq => { q with queue := a.nq.queue, noticeOverflow := a.nq.noticeOverflow }) k.nq
    exact e.trans h.nq
  cfg u := (k.cfg u).trans (h.cfg u)
  reading u := (k.reading u).trans (h.reading u)
  presence u := ⟨(k.presence u).1.trans (h.presence u).1, (k.presence u).2.trans (h.presence u).2⟩
  owner u := (h.owner u).trans (k.owner u)
  riser r := ⟨(k.riser r).1.trans (h.riser r).1, (k.riser r).2.1.trans (h.riser r).2.1,
    (k.riser r).2.2.trans (h.riser r).2.2⟩
  speed := k.speed.trans h.ran.speed
  post := k.post.trans h.ran.post
  sweep := (congrArg (fun w : Sweep => { w with cursor := a.flc.sweep.cursor }) k.sweep).trans h.ran.sweep
  mail := by
    have e : b.flc.mail = a.flc.mail := by rw [flc_of_cascade h]
    exact e ▸ k.mail
  nqSafe q := k.nqSafe (h.nqSafe q)
  commands u hu e he hv :=
    h.commands u hu e (k.commands u (by rw [(h.presence u).1]; exact hu) e he hv) hv

theorem ite {s a b : State} {p : Prop} [Decidable p] (h : Ran s a) (k : Ran s b) : Ran s (if p then a else b) := by
  split
  · exact h
  · exact k

/-- A change of the FLC alone that stays within the frame. -/
theorem modFlc (f : Flc → Flc) (s : State) (hs : (f s.flc).latchedSpeed = s.flc.latchedSpeed)
    (hp : (f s.flc).postNumber = s.flc.postNumber)
    (hw : { (f s.flc).sweep with cursor := s.flc.sweep.cursor } = s.flc.sweep)
    (hm : s.flc.mail.granted (f s.flc).mail) (hc : (f s.flc).commands = s.flc.commands := by rfl) :
    Ran s (s.modFlc f) :=
  ⟨⟨Eq.refl _, Eq.refl _, Eq.refl _, Eq.refl _, Eq.refl _, Eq.refl _, fun _ => Eq.refl _, fun _ => Eq.refl _,
    fun _ => ⟨Eq.refl _, Eq.refl _⟩, fun _ => Decision.sameOwner.rfl _, fun _ => ⟨Eq.refl _, Eq.refl _, Eq.refl _⟩,
    hs, hp, hw, hm⟩, id, fun _ _ _ he _ => hc ▸ he⟩

/-- After a change of the FLC that leaves the mail slot alone. -/
theorem modFlc_trans {t : State} (f : Flc → Flc) (s : State) (hs : (f s.flc).latchedSpeed = s.flc.latchedSpeed)
    (hp : (f s.flc).postNumber = s.flc.postNumber)
    (hw : { (f s.flc).sweep with cursor := s.flc.sweep.cursor } = s.flc.sweep)
    (hm : (f s.flc).mail = s.flc.mail) (k : Ran (s.modFlc f) t)
    (hc : (f s.flc).commands = s.flc.commands := by rfl) : Ran s t where
  pending := k.pending
  slp := k.slp
  stations := k.stations
  tower := k.tower
  lu := k.lu
  nq := k.nq
  cfg := k.cfg
  reading := k.reading
  presence := k.presence
  owner := k.owner
  riser := k.riser
  speed := k.speed.trans hs
  post := k.post.trans hp
  sweep := (congrArg (fun w : Sweep => { w with cursor := s.flc.sweep.cursor }) k.sweep).trans hw
  mail := by
    have e := k.mail
    rw [modFlc_flc, hm] at e
    exact e
  nqSafe := k.nqSafe
  commands u hu e he hv := hc ▸ k.commands u hu e he hv

/-- The count of free choices is outside the frame. -/
theorem choices_trans {s t : State} (n : Nat) (k : Ran { s with choices := n } t) : Ran s t :=
  ⟨⟨k.pending, k.slp, k.stations, k.tower, k.lu, k.nq, k.cfg, k.reading, k.presence, k.owner, k.riser, k.speed, k.post,
    k.sweep, k.mail⟩, k.nqSafe, k.commands⟩

end Ran

theorem Sweep.with_cursor (w : Sweep) (n : Nat) : { { w with cursor := n } with cursor := w.cursor } = w := rfl

theorem ran_beginTxn (fr : FieldFrame) (q : Requester) (u : Option UnitNo) (v : LinkSpeed) (s : State) :
    Ran s (s.beginTxn fr q u v) := .modFlc _ s rfl rfl rfl (.inl rfl)

theorem ran_beginUnicast (fr : FieldFrame) (q : Requester) (u : UnitNo) (s : State) : Ran s (s.beginUnicast fr q u) :=
  ran_beginTxn ..

theorem ran_beginBroadcast (fr : FieldFrame) (r : RiserNo) (s : State) : Ran s (s.beginBroadcast fr r) :=
  ran_beginTxn ..

theorem ran_grantBroadcast (r : RiserNo) (c : Ctx) (s : State) : Ran s (s.grantBroadcast r c) := by
  unfold State.grantBroadcast
  split
  · exact (ran_beginBroadcast ..).trans_cascade (cascade_setCtx ..)
  · exact (ran_beginBroadcast ..).trans_cascade ((cascade_setCtx ..).trans (.foldl (cascade_setGroupMode _) _ _))
  · exact (ran_beginBroadcast ..).trans_cascade (cascade_cancelComplete ..)
  · exact (ran_beginBroadcast ..).trans_cascade ((cascade_setCtx ..).trans (.foldl (cascade_setGroupMode _) _ _))
  · exact .rfl s
  · exact .rfl s

theorem ran_grantCtx (r : RiserNo) (c : Ctx) (w : CtxWork) (s : State) : Ran s (s.grantCtx r c w) := by
  unfold State.grantCtx
  split
  · exact ran_grantBroadcast ..
  · exact ran_beginUnicast ..
  · exact (ran_beginUnicast ..).trans_cascade (cascade_setCtx ..)

theorem ran_grantChangeover (s : State) : Ran s s.grantChangeover := by
  unfold State.grantChangeover
  split
  · exact .rfl s
  · next r _ =>
    split
    · exact .rfl s
    · split
      · exact .rfl s
      · exact Ran.modFlc_trans (fun f => { f with lastServed := r }) s rfl rfl rfl rfl (ran_grantCtx ..)

theorem ran_grantCommand (s : State) : Ran s s.grantCommand := by
  unfold State.grantCommand
  split
  · exact .rfl s
  · exact ran_beginUnicast ..

theorem ran_grantPoll (s : State) : Ran s s.grantPoll := by
  unfold State.grantPoll
  split
  · exact .rfl s
  · unfold State.beginUnicast State.beginTxn
    exact Ran.modFlc_trans _ s rfl rfl rfl rfl (.modFlc _ _ rfl rfl rfl (.inl rfl))

/-- The slot may be sent only when it is POSTED. -/
theorem ran_grantMail (s : State) (h : s.flc.mail.state = .posted) : Ran s s.grantMail := by
  unfold State.grantMail
  split
  · unfold State.beginUnicast State.beginTxn
    exact Ran.modFlc_trans _ s rfl rfl rfl rfl (.modFlc _ _ rfl rfl rfl (.inr ⟨h, rfl⟩))
  · exact .rfl s

theorem ran_grant (k : LinkClass) (s : State) (h : s.hasWork k = true) : Ran s (s.grant k) := by
  refine Ran.modFlc_trans (fun f => { f with guarantee := guaranteeAfter (s.hasWork .poll) k f.guarantee }) s rfl rfl
    rfl rfl (t := s.grant k) ?_
  unfold State.grant
  unfold State.grantClass
  cases k with
  | changeover => exact ran_grantChangeover _
  | command => exact ran_grantCommand _
  | mail => exact ran_grantMail _ (by simpa [State.hasWork] using h)
  | poll => exact ran_grantPoll _

theorem mem_workingClasses {s : State} {k : LinkClass} (h : k ∈ s.workingClasses) : s.hasWork k = true :=
  (List.mem_filter.1 h).2

/-- The class granted has work (R137). -/
theorem hasWork_of_nextClass {s : State} {k : LinkClass} (h : s.nextClass = some k) : s.hasWork k = true := by
  unfold State.nextClass at h
  split at h
  · next hp => exact Option.some.inj h ▸ hp.1
  · exact mem_workingClasses (List.mem_of_head? h)

theorem hasWork_of_chosen {s : State} {n : Nat} {k : LinkClass} (h : chosenClass n s.workingClasses = some k) :
    s.hasWork k = true := mem_workingClasses (List.mem_of_getElem? h)

theorem ran_sendRelease (v : LinkSpeed) (s : State) : Ran s (s.sendRelease v) :=
  Ran.modFlc_trans (fun f => { f with releaseOwed := none }) s rfl rfl rfl rfl (ran_beginTxn ..)

theorem ran_grantNext (s : State) : Ran s s.grantNext := by
  unfold State.grantNext
  split
  · exact .rfl s
  · split
    · exact ran_sendRelease ..
    · split
      · split
        · exact .rfl s
        · next h => exact ran_grant _ s (hasWork_of_nextClass h)
      · exact .rfl s

theorem ran_grantOnWork (s : State) : Ran s s.grantOnWork := by
  unfold State.grantOnWork
  split
  · split
    · exact .rfl s
    · next h => exact .choices_trans _ (ran_grant _ _ (hasWork_of_chosen h))
  · exact ran_grantNext s

theorem ran_endTxn (s : State) : Ran s s.endTxn := .modFlc _ s rfl rfl rfl (.inl rfl)

/-- While the link is BUSY nothing is granted (R137). -/
theorem grantNext_of_busy {s : State} (h : s.flc.link.isSome = true) : s.grantNext = s := by
  simp [State.grantNext, h]

theorem grantOnWork_of_busy {s : State} (h : s.flc.link.isSome = true) : s.grantOnWork = s := by
  unfold State.grantOnWork
  rw [if_neg, grantNext_of_busy h]
  rintro ⟨h', -⟩
  rw [Option.isNone_iff_eq_none] at h'
  simp [h'] at h

end Sys2Proof.Machine
end

