-- ==== Sys2Proof/Laws/Keeps.lean ====
section
/-! SUPPORT. Laws/Keeps.lean: what every event of the part keeps: the commands waiting, the supervisor link port, the
configuration tables, and the safety of the notice queue. -/

namespace Sys2Proof.Machine

theorem SameTables.rfl (s : State) : SameTables s s :=
  ⟨fun _ => Eq.refl _, fun _ => Eq.refl _, fun _ => Eq.refl _, fun _ => Eq.refl _, Eq.refl _⟩

theorem SameTables.trans {a b c : State} (h : SameTables a b) (k : SameTables b c) : SameTables a c :=
  ⟨fun u => (k.units u).trans (h.units u), fun st => (k.stations st).trans (h.stations st),
    fun r => (k.risers r).trans (h.risers r), fun l => (k.lines l).trans (h.lines l), k.tower.trans h.tower⟩

/-- What every event of the part keeps. -/
structure Keeps (s t : State) : Prop where
  pending : t.pending = s.pending
  slp : t.slp = s.slp
  tables : SameTables s t
  nqSafe : NqSafe s.nq → NqSafe t.nq
  mask : t.nq.mask = s.nq.mask

theorem Ran.keeps {s t : State} (h : Ran s t) : Keeps s t where
  pending := h.pending
  slp := h.slp
  tables := ⟨h.cfg, fun st => by unfold State.station; rw [h.stations], fun r => (h.riser r).1,
    fun l => by unfold State.line; rw [h.lu], h.tower⟩
  nqSafe := h.nqSafe
  mask := by
    have e : ∀ p q : Nq, { p with queue := q.queue, noticeOverflow := q.noticeOverflow } = q → p.mask = q.mask :=
      fun p q h => by rw [← h]
    exact e _ _ h.nq

theorem Cascade.keeps {s t : State} (h : Cascade s t) : Keeps s t := h.ran.keeps

namespace Keeps

theorem rfl (s : State) : Keeps s s := ⟨Eq.refl _, Eq.refl _, SameTables.rfl s, id, Eq.refl _⟩

theorem trans {a b c : State} (h : Keeps a b) (k : Keeps b c) : Keeps a c :=
  ⟨k.pending.trans h.pending, k.slp.trans h.slp, h.tables.trans k.tables, fun q => k.nqSafe (h.nqSafe q),
    k.mask.trans h.mask⟩

theorem ite {s a b : State} {p : Prop} [Decidable p] (h : Keeps s a) (k : Keeps s b) :
    Keeps s (if p then a else b) := by
  split
  · exact h
  · exact k

theorem foldl {α : Type} {f : State → α → State} (h : ∀ s a, Keeps s (f s a)) (l : List α) (s : State) :
    Keeps s (l.foldl f s) := by
  induction l generalizing s with
  | nil => exact rfl s
  | cons a l ih => exact (h s a).trans (ih _)

theorem modUnit (u : UnitNo) (f : UnitRec → UnitRec) (s : State) (h : ∀ x, (f x).cfg = x.cfg) :
    Keeps s (s.modUnit u f) := by
  refine ⟨Eq.refl _, Eq.refl _, ⟨fun v => ?_, fun _ => Eq.refl _, fun _ => Eq.refl _, fun _ => Eq.refl _, Eq.refl _⟩, id,
    Eq.refl _⟩
  rw [modUnit_unit]
  split
  · next e => exact e ▸ h _
  · exact Eq.refl _

theorem modDecision (u : UnitNo) (f : Decision → Decision) (s : State) : Keeps s (s.modDecision u f) :=
  modUnit u _ s fun _ => Eq.refl _

theorem modLive (r : RiserNo) (f : RiserLive → RiserLive) (s : State) : Keeps s (s.modLive r f) := by
  refine ⟨Eq.refl _, Eq.refl _, ⟨fun _ => Eq.refl _, fun _ => Eq.refl _, fun q => ?_, fun _ => Eq.refl _, Eq.refl _⟩, id,
    Eq.refl _⟩
  rw [modLive_riser]
  split
  · next e => exact e ▸ Eq.refl _
  · exact Eq.refl _

theorem modStation (st : StationNo) (f : StationRec → StationRec) (s : State) (h : ∀ x, (f x).cfg = x.cfg) :
    Keeps s (s.modStation st f) := by
  refine ⟨Eq.refl _, Eq.refl _, ⟨fun _ => Eq.refl _, fun q => ?_, fun _ => Eq.refl _, fun _ => Eq.refl _, Eq.refl _⟩, id,
    Eq.refl _⟩
  rw [modStation_station]
  split
  · next e => exact e ▸ h _
  · exact Eq.refl _

theorem modLine (l : LineNo) (f : LineRec → LineRec) (s : State) (h : ∀ x, (f x).cfg = x.cfg) :
    Keeps s (s.modLine l f) := by
  refine ⟨Eq.refl _, Eq.refl _, ⟨fun _ => Eq.refl _, fun _ => Eq.refl _, fun _ => Eq.refl _, fun q => ?_, Eq.refl _⟩, id,
    Eq.refl _⟩
  rw [modLine_line]
  split
  · next e => exact e ▸ h _
  · exact Eq.refl _

theorem modFlc (f : Flc → Flc) (s : State) : Keeps s (s.modFlc f) :=
  ⟨Eq.refl _, Eq.refl _, ⟨fun _ => Eq.refl _, fun _ => Eq.refl _, fun _ => Eq.refl _, fun _ => Eq.refl _, Eq.refl _⟩, id,
    Eq.refl _⟩

theorem setCtx (r : RiserNo) (c : Option Ctx) (s : State) : Keeps s (s.setCtx r c) := (cascade_setCtx r c s).keeps

theorem post (k : Nat) (x : Subject) (c : Content) (s : State) (h : k = c.fixedLevel) : Keeps s (s.post k x c) :=
  (cascade_post k x c s h).keeps

end Keeps

/-! ## The reported-mode resync -/

theorem keeps_resync (u : UnitNo) (s : State) : Keeps s (s.resync u) := by
  unfold State.resync
  dsimp only
  split
  · exact .rfl s
  · exact .ite (.modFlc ..) (.rfl s)

/-! ## The Condition Table -/

theorem keeps_setControl (u : UnitNo) (k : Control) (s : State) : Keeps s (s.setControl u k) := by
  unfold State.setControl
  exact .ite ((Keeps.modDecision ..).trans (cascade_drop ..).keeps) (.modDecision ..)

theorem keeps_postHand (u : UnitNo) (old new : Control) (s : State) : Keeps s (s.postHand u old new) :=
  .ite (.post _ _ _ _ rfl) (.ite (.post _ _ _ _ rfl) (.rfl s))

theorem keeps_takeHand (u : UnitNo) (s : State) : Keeps s (s.takeHand u) :=
  .ite (.rfl s) ((keeps_postHand ..).trans (keeps_setControl ..))

theorem keeps_clearLate (u : UnitNo) (s : State) : Keeps s (s.clearLate u) := by
  unfold State.clearLate
  split
  · exact .rfl s
  · exact .ite (.modDecision ..) (.rfl s)

theorem keeps_takeReading (u : UnitNo) (s : State) : Keeps s (s.takeReading u) :=
  (((keeps_takeHand u s).trans (keeps_clearLate ..)).trans (cascade_evaluate ..).keeps).trans (keeps_resync ..)

theorem keeps_postFault (u : UnitNo) (old new : UnitFlags) (s : State) : Keeps s (s.postFault u old new) :=
  .ite (.post _ _ _ _ rfl) (.rfl s)

theorem keeps_commit (u : UnitNo) (f : ReadingFrame) (s : State) : Keeps s (s.commit u f) := by
  unfold State.commit
  refine .trans (.trans (.trans (.modUnit u _ s ?_) (keeps_postFault ..)) (keeps_takeReading ..))
    (cascade_recount ..).keeps
  exact fun _ => rfl

theorem keeps_changeCondition (u : UnitNo) (c : Condition) (s : State) : Keeps s (s.changeCondition u c) := by
  unfold State.changeCondition
  refine .trans (.modUnit u _ s ?_) (cascade_ownEvent ..).keeps
  exact fun _ => rfl

theorem keeps_commitStation (st : StationNo) (t : Int) (w v : Nat) (s : State) : Keeps s (s.commitStation st t w v) := by
  unfold State.commitStation
  have h : Keeps s (s.modStation st fun x => { x with live := Machine.commitStation t w v }) :=
    .modStation st _ s fun _ => rfl
  refine .trans (.ite h (h.trans (.post 2 _ _ _ ?_))) (cascade_stationEvent ..).keeps
  exact rfl

theorem keeps_staleStation (st : StationNo) (s : State) : Keeps s (s.staleStation st) := by
  unfold State.staleStation
  refine .trans (.trans (.modStation st _ s ?_) (.post 2 _ _ _ ?_)) (cascade_stationEvent ..).keeps
  · exact fun _ => rfl
  · exact rfl

/-! ## Outcomes of transactions -/

theorem keeps_commandOutcome (u : UnitNo) (c : ModeSpeed) (o : FieldOutcome) (s : State) :
    Keeps s (s.commandOutcome u c o) := by
  unfold State.commandOutcome
  split
  · exact (Keeps.modDecision ..).trans (.modFlc ..)
  · exact (Keeps.modFlc ..).trans (.post _ _ _ _ rfl)
  all_goals exact .modFlc ..

theorem keeps_mailNoReply (u : UnitNo) (s : State) : Keeps s (s.mailNoReply u) :=
  .ite (.modFlc ..) ((Keeps.modFlc ..).trans (.post _ _ _ _ rfl))

theorem keeps_mailOutcome (p : Byte) (u : UnitNo) (o : FieldOutcome) (s : State) : Keeps s (s.mailOutcome p u o) := by
  unfold State.mailOutcome
  split
  · split
    · exact (Keeps.modFlc ..).trans (.post _ _ _ _ rfl)
    all_goals exact keeps_mailNoReply ..
  · exact .rfl s

theorem cascade_rollTakes (r : RiserNo) (c : Ctx) (u : UnitNo) (a : RollAction) (s : State) :
    Cascade s (s.rollTakes r c u a) := by
  unfold State.rollTakes
  split
  · exact .rfl s
  · exact (cascade_setCtx ..).trans (cascade_rollTest ..)
  · exact (cascade_setCtx ..).trans (cascade_ceCancel ..)
  · exact cascade_setCtx ..

theorem cascade_queryOutcome (k : CtxKey) (u : UnitNo) (o : FieldOutcome) (s : State) :
    Cascade s (s.queryOutcome k u o) := by
  unfold State.queryOutcome
  split
  · split
    · exact .rfl s
    · exact .ite (cascade_rollTakes ..) (.rfl s)
  · exact .rfl s

theorem cascade_repairOutcome (k : CtxKey) (u : UnitNo) (s : State) : Cascade s (s.repairOutcome k u) := by
  unfold State.repairOutcome
  split
  · exact .rfl s
  · exact cascade_setCtx ..

theorem keeps_handOutcome (q : Requester) (u : UnitNo) (o : FieldOutcome) (s : State) :
    Keeps s (s.handOutcome q u o) := by
  unfold State.handOutcome
  split
  · split
    · exact keeps_commit ..
    all_goals exact .rfl s
  · exact keeps_commandOutcome ..
  · exact keeps_mailOutcome ..
  · exact (cascade_queryOutcome ..).keeps
  · exact (cascade_repairOutcome ..).keeps
  · exact .rfl s
  · exact .rfl s

theorem keeps_failMail (u : UnitNo) (s : State) : Keeps s (s.failMail u) :=
  .ite ((Keeps.modFlc ..).trans (.post _ _ _ _ rfl)) (.rfl s)

theorem keeps_goOffline (u : UnitNo) (s : State) : Keeps s (s.goOffline u) := by
  unfold State.goOffline
  refine .trans (.trans (.trans (.trans (.trans (.modUnit u _ s ?_) (.post 2 _ _ _ ?_)) (.modFlc ..))
    (cascade_drop ..).keeps) (keeps_failMail ..)) (keeps_changeCondition ..)
  · exact fun _ => rfl
  · exact rfl

theorem keeps_takeMiss (t : Txn) (u : UnitNo) (s : State) : Keeps s (s.takeMiss t u) := by
  unfold State.takeMiss
  refine .ite (.trans (.modUnit u _ s ?_) (keeps_goOffline ..)) (.trans (.modUnit u _ s ?_) (keeps_handOutcome ..)) <;>
    exact fun _ => rfl

theorem keeps_goOnline (u : UnitNo) (s : State) : Keeps s (s.goOnline u) := by
  unfold State.goOnline
  refine .trans (.modUnit u _ s ?_) (.post 2 _ _ _ ?_)
  · exact fun _ => rfl
  · exact rfl

theorem keeps_takeAnswer (t : Txn) (u : UnitNo) (o : FieldOutcome) (s : State) : Keeps s (s.takeAnswer t u o) := by
  unfold State.takeAnswer
  have h : Keeps s (s.modUnit u fun x => { x with misses := 0 }) := .modUnit u _ s fun _ => rfl
  have k := (h.trans (keeps_goOnline u _)).trans (keeps_handOutcome t.requester u o _)
  exact .ite (h.trans (keeps_handOutcome ..)) (.ite k (k.trans (cascade_recount ..).keeps))

theorem keeps_finishTxn (t : Txn) (u : UnitNo) (o : FieldOutcome) (s : State) : Keeps s (s.finishTxn t u o) := by
  unfold State.finishTxn
  refine .trans (.trans ?_ (.modFlc ..)) (ran_grantNext _).keeps
  exact .ite (.ite (keeps_takeMiss ..) (keeps_takeAnswer ..)) (.rfl s)

theorem keeps_fieldOutcome (o : FieldOutcome) (s : State) : Keeps s (s.fieldOutcome o) := by
  unfold State.fieldOutcome
  split
  · exact .rfl s
  · split
    · exact keeps_finishTxn ..
    · exact .rfl s

theorem keeps_fieldCheck (s : State) : Keeps s (s.modNq fun q => { q with fieldCheck := true }) :=
  ⟨rfl, rfl, ⟨fun _ => rfl, fun _ => rfl, fun _ => rfl, fun _ => rfl, rfl⟩, fun h => ⟨h.range, h.short, h.sorted, h.masked, h.levels⟩, rfl⟩

theorem keeps_checkFailure (s : State) : Keeps s s.checkFailure := by
  unfold State.checkFailure
  split
  · exact .rfl s
  · split
    · exact (keeps_fieldCheck s).trans (keeps_finishTxn ..)
    · exact .rfl s

/-! ## What stops while RESETn is held, or while no run goes on -/

theorem keeps_whileAlive {f : State → State} (h : ∀ s, Keeps s (f s)) (s : State) : Keeps s (s.whileAlive f) :=
  .ite (.rfl s) (h s)

theorem keeps_whileRunning {f : State → State} (h : ∀ s, Keeps s (f s)) (s : State) : Keeps s (s.whileRunning f) :=
  keeps_whileAlive (fun s => .ite (h s) (.rfl s)) s

end Sys2Proof.Machine
end

