-- ==== Sys2Proof/Laws/Quiet.lean ====
section
/-! SUPPORT. Laws/Quiet.lean: what leaves the riser records, the arbiter and the contexts alone: the evaluations and what
they cause. -/

namespace Sys2Proof.Machine

/-- What leaves the riser records, the arbiter, the contexts and the operating state alone. -/
structure Quiet (s t : State) : Prop where
  risers : t.risers = s.risers
  sba : t.sba = s.sba
  ce : t.ce = s.ce
  slp : t.slp = s.slp
  link : t.flc.link = s.flc.link

namespace Quiet

theorem rfl (s : State) : Quiet s s := ⟨Eq.refl _, Eq.refl _, Eq.refl _, Eq.refl _, Eq.refl _⟩

theorem trans {a b c : State} (h : Quiet a b) (k : Quiet b c) : Quiet a c :=
  ⟨k.risers.trans h.risers, k.sba.trans h.sba, k.ce.trans h.ce, k.slp.trans h.slp, k.link.trans h.link⟩

theorem ite {s a b : State} {p : Prop} [Decidable p] (h : Quiet s a) (k : Quiet s b) :
    Quiet s (if p then a else b) := by
  split
  · exact h
  · exact k

theorem foldl {α : Type} {f : State → α → State} (h : ∀ s a, Quiet s (f s a)) (l : List α) (s : State) :
    Quiet s (l.foldl f s) := by
  induction l generalizing s with
  | nil => exact rfl s
  | cons a l ih => exact (h s a).trans (ih _)

theorem modUnit (u : UnitNo) (f : UnitRec → UnitRec) (s : State) : Quiet s (s.modUnit u f) :=
  ⟨Eq.refl _, Eq.refl _, Eq.refl _, Eq.refl _, Eq.refl _⟩

theorem modDecision (u : UnitNo) (f : Decision → Decision) (s : State) : Quiet s (s.modDecision u f) :=
  ⟨Eq.refl _, Eq.refl _, Eq.refl _, Eq.refl _, Eq.refl _⟩

theorem post (k : Nat) (x : Subject) (c : Content) (s : State) : Quiet s (s.post k x c) :=
  ⟨Eq.refl _, Eq.refl _, Eq.refl _, Eq.refl _, Eq.refl _⟩

theorem modFlc (f : Flc → Flc) (s : State) (h : (f s.flc).link = s.flc.link) : Quiet s (s.modFlc f) :=
  ⟨Eq.refl _, Eq.refl _, Eq.refl _, Eq.refl _, h⟩

end Quiet

theorem quiet_preferenceStep (u : UnitNo) (s : State) : Quiet s (s.preferenceStep u) :=
  (Quiet.modDecision u _ s).trans (.ite (.post ..) (.ite (.post ..) (.rfl _)))

theorem quiet_postCommand (u : UnitNo) (c : ModeSpeed) (s : State) : Quiet s (s.postCommand u c) := .modFlc _ s rfl

theorem quiet_postWhereHeard (u : UnitNo) (c : ModeSpeed) (s : State) : Quiet s (s.postWhereHeard u c) :=
  .ite (quiet_postCommand ..) (.rfl s)

theorem quiet_announceCommanded (u : UnitNo) (c : ModeSpeed) (s : State) : Quiet s (s.announceCommanded u c) :=
  (Quiet.post 0 (.unit u) (.unitMode c) s).trans (quiet_postWhereHeard ..)

theorem quiet_commandMode (u : UnitNo) (c : ModeSpeed) (s : State) : Quiet s (s.commandMode u c) :=
  (Quiet.modUnit u _ s).trans (quiet_announceCommanded ..)

theorem quiet_mappingStep (u : UnitNo) (cls : CauseClass) (s : State) : Quiet s (s.mappingStep u cls) := by
  unfold State.mappingStep
  dsimp only
  split
  · exact .rfl s
  · split
    · exact .ite (quiet_commandMode ..) (.rfl s)
    · exact .ite (.ite ((Quiet.modDecision ..).trans (quiet_announceCommanded ..)) (.rfl s))
        (.ite (quiet_commandMode ..) (.rfl s))

theorem quiet_evaluate (u : UnitNo) (cls : CauseClass) (s : State) : Quiet s (s.evaluate u cls) :=
  (quiet_preferenceStep u s).trans (quiet_mappingStep ..)

theorem quiet_evaluateAll (us : List UnitNo) (cls : CauseClass) (s : State) : Quiet s (s.evaluateAll us cls) :=
  .foldl (fun s u => quiet_evaluate u cls s) us s

theorem quiet_setGroupMode (m : Mode) (s : State) (u : UnitNo) : Quiet s (s.setGroupMode m u) :=
  .ite (quiet_commandMode ..) (.rfl s)

theorem quiet_returnMembers (r : RiserNo) (s : State) : Quiet s (s.returnMembers r) :=
  ((Quiet.foldl (fun s u => .ite (quiet_setGroupMode .bypass s u) (.rfl s)) _ s).trans
    (.foldl (fun s u => .ite (Quiet.modDecision u _ s) (.rfl s)) _ _)).trans (quiet_evaluateAll ..)

theorem quiet_resync (u : UnitNo) (s : State) : Quiet s (s.resync u) := by
  unfold State.resync
  dsimp only
  split
  · exact .rfl s
  · exact .ite (quiet_postCommand ..) (.rfl s)

theorem quiet_clearLate (u : UnitNo) (s : State) : Quiet s (s.clearLate u) := by
  unfold State.clearLate
  split
  · exact .rfl s
  · exact .ite (.modDecision ..) (.rfl s)

theorem quiet_postHand (u : UnitNo) (old new : Control) (s : State) : Quiet s (s.postHand u old new) :=
  .ite (.post ..) (.ite (.post ..) (.rfl s))

theorem quiet_failMail (u : UnitNo) (s : State) : Quiet s (s.failMail u) :=
  .ite ((Quiet.modFlc _ s rfl).trans (.post ..)) (.rfl s)

theorem quiet_commandOutcome (u : UnitNo) (c : ModeSpeed) (o : FieldOutcome) (s : State) :
    Quiet s (s.commandOutcome u c o) := by
  unfold State.commandOutcome
  split
  · exact (Quiet.modDecision ..).trans (.modFlc _ _ rfl)
  · exact (Quiet.modFlc _ _ rfl).trans (.post ..)
  all_goals exact .modFlc _ _ rfl

theorem quiet_mailOutcome (p : Byte) (u : UnitNo) (o : FieldOutcome) (s : State) : Quiet s (s.mailOutcome p u o) := by
  have h : Quiet s (s.mailNoReply u) := .ite (.modFlc _ _ rfl) ((Quiet.modFlc _ _ rfl).trans (.post ..))
  unfold State.mailOutcome
  split
  · split
    · exact (Quiet.modFlc _ _ rfl).trans (.post ..)
    all_goals exact h
  · exact .rfl s

end Sys2Proof.Machine
end

