-- ==== Sys2Proof/Laws/RiserEdit.lean ====
section
/-! SUPPORT. Laws/RiserEdit.lean: the changes that an operation makes to one riser, written down field by field. -/

namespace Sys2Proof.Machine

/-- `t` is `s` with riser `r` in state `x` with context `c`, the queue `Q`, the grants `G` and the draining weight `D`;
the other risers' states and contexts, every configuration and the budget stand. -/
structure RiserEdit (r : RiserNo) (s t : State) (x : RiserState) (c : Option Ctx) (Q G : List RiserNo) (D : Nat) :
    Prop where
  st : (t.riser r).live.state = x
  other : ∀ p, p ≠ r → (t.riser p).live.state = (s.riser p).live.state
  cfg : ∀ p, (t.riser p).cfg = (s.riser p).cfg
  ctx : t.ctx r = c
  octx : ∀ p, p ≠ r → t.ctx p = s.ctx p
  queue : t.sba.queue = Q
  grants : t.sba.grants = G
  draining : t.sba.draining = D
  bEff : t.sba.bEff = s.sba.bEff

namespace RiserEdit

variable {r : RiserNo} {s t u : State} {x : RiserState} {c : Option Ctx} {Q G : List RiserNo} {D : Nat}

theorem start (r s) : RiserEdit r s s (s.riser r).live.state (s.ctx r) s.sba.queue s.sba.grants s.sba.draining :=
  ⟨rfl, fun _ _ => rfl, fun _ => rfl, rfl, fun _ _ => rfl, rfl, rfl, rfl, rfl⟩

theorem quiet (h : RiserEdit r s t x c Q G D) (k : Quiet t u) : RiserEdit r s u x c Q G D := by
  have e : ∀ p, u.riser p = t.riser p := fun p => by unfold State.riser; rw [k.risers]
  have f : ∀ p, u.ctx p = t.ctx p := fun p => by unfold State.ctx; rw [k.ce]
  refine ⟨by rw [e]; exact h.st, fun p hp => by rw [e]; exact h.other p hp, fun p => by rw [e]; exact h.cfg p,
      by rw [f]; exact h.ctx, fun p hp => by rw [f]; exact h.octx p hp, by rw [k.sba]; exact h.queue, by rw [k.sba]; exact h.grants, by rw [k.sba]; exact h.draining, by rw [k.sba]; exact h.bEff⟩

theorem modRiser (f : RiserRec → RiserRec) (hf : ∀ y, (f y).cfg = y.cfg) (y : RiserState)
    (h : RiserEdit r s t x c Q G D) (hy : (f (t.riser r)).live.state = y) : RiserEdit r s (t.modRiser r f) y c Q G D :=
  by
  refine ⟨by rw [modRiser_riser, if_pos rfl]; exact hy,
      fun p hp => by rw [modRiser_riser,
      if_neg (Ne.symm hp)]; exact h.other p hp, fun p => ?_, h.ctx, h.octx, h.queue, h.grants, h.draining, h.bEff⟩
  rw [modRiser_riser]; split
  · next e => subst e; rw [hf]; exact h.cfg _
  · exact h.cfg p

theorem riserTo (h : RiserEdit r s t x c Q G D) (y : RiserState) (cause : Cause) (b : Bool) :
    RiserEdit r s (t.riserTo r y cause b) y c Q G D := by
  unfold State.riserTo
  exact (modRiser
      (fun x => { x with live := { x.live with state := y, lastExit := if b then cause else x.live.lastExit } })
      (fun _ => rfl) y h rfl).quiet (.post ..)

theorem startSettle (h : RiserEdit r s t x c Q G D) : RiserEdit r s (t.startSettle r) x c Q G D :=
  modRiser (fun y => { y with live := { y.live with settle := y.cfg.settle, settleExpired := false } }) (fun _ => rfl)
    x h h.st

theorem clearSettle (h : RiserEdit r s t x c Q G D) : RiserEdit r s (t.clearSettle r) x c Q G D :=
  modRiser (fun y => { y with live := { y.live with settle := 0, settleExpired := false } }) (fun _ => rfl) x h h.st

theorem count (h : RiserEdit r s t x c Q G D) : RiserEdit r s (t.count r) x c Q G D :=
  modRiser
    (fun y => { y with live := { y.live with voters := (t.members r).filter t.votes, onlineMembers := ((t.members r).filter t.isOnline).length } }) (fun _ => rfl) x h h.st

theorem setCtx (h : RiserEdit r s t x c Q G D) (c') : RiserEdit r s (t.setCtx r c') x c' Q G D :=
  ⟨h.st, h.other, h.cfg, by rw [setCtx_ctx, if_pos rfl],
      fun p hp => by rw [setCtx_ctx, if_neg (Ne.symm hp)]; exact h.octx p hp, h.queue, h.grants, h.draining, h.bEff⟩

theorem newContext (h : RiserEdit r s t x c Q G D) (d ph us) : RiserEdit r s (t.newContext r d ph us)
    x (some { direction := d, tag := t.ce.tagCounter, phase := ph, participants := us.map fun u => ⟨u, .pending⟩ })
    Q G D :=
  ⟨h.st, h.other, h.cfg, by unfold State.newContext State.ctx; rw [updTable_get, if_pos rfl],
      fun p hp => by unfold State.newContext; show (updTable _ _ _)[p] = _; rw [updTable_get,
      if_neg (Ne.symm hp)]; exact h.octx p hp, h.queue, h.grants, h.draining, h.bEff⟩

theorem tag (h : RiserEdit r s t x c Q G D) (n) : RiserEdit r s { t with ce := { t.ce with tagCounter := n } }
    x c Q G D :=
  ⟨h.st, h.other, h.cfg, h.ctx, h.octx, h.queue, h.grants, h.draining, h.bEff⟩

theorem ungrant (h : RiserEdit r s t x c Q G D) : RiserEdit r s (t.ungrant r) x c Q (G.erase r) D :=
  ⟨h.st, h.other, h.cfg, h.ctx, h.octx, h.queue, by rw [← h.grants]; rfl, h.draining, h.bEff⟩

theorem dequeue (h : RiserEdit r s t x c Q G D) : RiserEdit r s (t.dequeue r) x c (Q.erase r) G D :=
  ⟨h.st, h.other, h.cfg, h.ctx, h.octx, by rw [← h.queue]; rfl, h.grants, h.draining, h.bEff⟩

theorem drain (h : RiserEdit r s t x c Q G D) : RiserEdit r s (t.drain r) x c Q G (D + s.weight r) :=
  ⟨h.st, h.other, h.cfg, h.ctx, h.octx, h.queue, h.grants,
    by rw [← h.draining]; show _ + t.weight r = _; unfold State.weight; rw [h.cfg], h.bEff⟩

theorem undrain (h : RiserEdit r s t x c Q G D) : RiserEdit r s (t.undrain r) x c Q G (D - s.weight r) :=
  ⟨h.st, h.other, h.cfg, h.ctx, h.octx, h.queue, h.grants,
    by rw [← h.draining]; show _ - t.weight r = _; unfold State.weight; rw [h.cfg], h.bEff⟩
end RiserEdit

end Sys2Proof.Machine
end

