-- ==== Sys2Proof/Laws/Coherent.lean ====
section
/-! SUPPORT. Laws/Coherent.lean: every operation of the groups keeps the relation between riser states, the arbiter and the
contexts (R88, R89, R102). -/

namespace Sys2Proof.Machine

/-- The relation of GroupsSafe, with risers `L` revoked but not yet withdrawn, and risers `A` admitted by a walk but not
yet handed on. -/
structure Coherent (s : State) (L A : List RiserNo) : Prop where
  queue : ∀ r, r ∈ s.sba.queue ↔ (s.riser r).live.state = .queued ∧ r ∉ A
  grants : ∀ r, r ∈ s.sba.grants ↔ (((s.riser r).live.state = .entering ∨ (s.riser r).live.state = .free) ∧ r ∉ L) ∨
    r ∈ A
  adm : ∀ r ∈ A, (s.riser r).live.state = .queued
  once : s.sba.queue.Nodup ∧ s.sba.grants.Nodup
  draining : s.sba.draining = s.leavingWeight
  ctxs : ∀ r c, s.ctx r = some c → stateOfCtx c.direction c.phase = some (s.riser r).live.state

/-! ## The draining weight -/

theorem leavingWeight_eq_sum (s : State) :
    s.leavingWeight = ((fins 6).map fun r => if (s.riser r).live.state = .leaving then s.weight r else 0).sum := by
  unfold State.leavingWeight sumWeights
  generalize fins 6 = l
  induction l with
  | nil => rfl
  | cons a l ih =>
    rw [List.filter_cons]
    by_cases h : (s.riser a).live.state = .leaving <;> simp [h, ih]

theorem sum_of_one_change (l : List RiserNo) (r : RiserNo) (f g : RiserNo → Nat) (h : ∀ p, p ≠ r → f p = g p)
    (hn : l.Nodup) : (l.map f).sum + (if r ∈ l then g r else 0) = (l.map g).sum + (if r ∈ l then f r else 0) := by
  induction l with
  | nil => rfl
  | cons a l ih =>
    have := ih (List.nodup_cons.1 hn).2
    by_cases e : a = r
    · subst e
      have hx := (List.nodup_cons.1 hn).1
      simp [hx] at *
      omega
    · have := h a e
      simp [Ne.symm e] at *
      omega

theorem leavingWeight_edit {r s t x c Q G D} (h : RiserEdit r s t x c Q G D) :
    t.leavingWeight + (if (s.riser r).live.state = .leaving then s.weight r else 0)
    = s.leavingWeight + (if x = .leaving then s.weight r else 0) := by
  have k := sum_of_one_change (fins 6) r (fun p => if (t.riser p).live.state = .leaving then t.weight p else 0)
      (fun p => if (s.riser p).live.state = .leaving then s.weight p else 0)
    (fun p hp => by rw [h.other p hp]; unfold State.weight; rw [h.cfg]) (by decide)
  rw [leavingWeight_eq_sum, leavingWeight_eq_sum]
  rw [if_pos (mem_fins r), if_pos (mem_fins r)] at k
  rw [h.st] at k
  have : t.weight r = s.weight r := by unfold State.weight; rw [h.cfg]
  rw [this] at k
  exact k

/-- An edit of one riser that agrees with the relation. -/
theorem Coherent.edit {r s t x c Q G D L A L' A'} (g : Coherent s L A) (h : RiserEdit r s t x c Q G D)
    (oL : ∀ p, p ≠ r → (p ∈ L' ↔ p ∈ L)) (oA : ∀ p, p ≠ r → (p ∈ A' ↔ p ∈ A))
    (hq : ∀ p, p ≠ r → (p ∈ Q ↔ p ∈ s.sba.queue)) (hqr : r ∈ Q ↔ x = .queued ∧ r ∉ A')
    (hg : ∀ p, p ≠ r → (p ∈ G ↔ p ∈ s.sba.grants)) (hgr : r ∈ G ↔ ((x = .entering ∨ x = .free) ∧ r ∉ L') ∨ r ∈ A')
    (ha : r ∈ A' → x = .queued)
    (ho : Q.Nodup ∧ G.Nodup)
    (hd : D + (if (s.riser r).live.state = .leaving then s.weight r else 0) = s.sba.draining +
        (if x = .leaving then s.weight r else 0))
    (hc : ∀ c', c = some c' → stateOfCtx c'.direction c'.phase = some x) : Coherent t L' A' := by
  refine ⟨fun p => ?_, fun p => ?_, fun p hp => ?_, by rw [h.queue, h.grants]; exact ho, ?_, fun p c' hc' => ?_⟩
  · by_cases e : p = r
    · subst e; rw [h.queue, h.st]; exact hqr
    · rw [h.queue, h.other p e, hq p e, g.queue, oA p e]
  · by_cases e : p = r
    · subst e; rw [h.grants, h.st]; exact hgr
    · rw [h.grants, h.other p e, hg p e, g.grants, oA p e, oL p e]
  · by_cases e : p = r
    · subst e; rw [h.st]; exact ha hp
    · rw [h.other p e]; exact g.adm p ((oA p e).1 hp)
  · have := leavingWeight_edit h; rw [h.draining]; have := g.draining; omega
  · by_cases e : p = r
    · subst e; rw [h.st]; exact hc c' (h.ctx ▸ hc')
    · rw [h.other p e]; exact g.ctxs p c' (h.octx p e ▸ hc')

theorem Coherent.quiet {s t L A} (g : Coherent s L A) (k : Quiet s t) : Coherent t L A := by
  have e : ∀ p, t.riser p = s.riser p := fun p => by unfold State.riser; rw [k.risers]
  have f : ∀ p, t.ctx p = s.ctx p := fun p => by unfold State.ctx; rw [k.ce]
  refine ⟨?_, ?_, ?_, ?_, ?_, ?_⟩
  · intro r; rw [k.sba, e]; exact g.queue r
  · intro r; rw [k.sba, e]; exact g.grants r
  · intro r; rw [e]; exact g.adm r
  · rw [k.sba]; exact g.once
  · rw [k.sba, g.draining, leavingWeight_eq_sum, leavingWeight_eq_sum]; unfold State.weight; simp only [e]
  · intro r c; rw [e, f]; exact g.ctxs r c

/-- an edit that leaves everything the invariant sees -/
theorem Coherent.same {r s t L A} (g : Coherent s L A)
    (h : RiserEdit r s t (s.riser r).live.state (s.ctx r) s.sba.queue s.sba.grants s.sba.draining) : Coherent t L A :=
  g.edit h (fun _ _ => Iff.rfl) (fun _ _ => Iff.rfl) (fun _ _ => Iff.rfl) (g.queue r) (fun _ _ => Iff.rfl) (g.grants r)
      (g.adm r) g.once rfl (g.ctxs r)

theorem mem_erase_of_ne {p r : RiserNo} (l : List RiserNo) (h : p ≠ r) : p ∈ l.erase r ↔ p ∈ l := List.mem_erase_of_ne h

theorem not_mem_erase_of_nodup {r : RiserNo} {l : List RiserNo} (h : l.Nodup) : r ∉ l.erase r := h.not_mem_erase

theorem Coherent.weight_le_draining {s L A} (g : Coherent s L A) {r} (h : (s.riser r).live.state = .leaving) :
    s.weight r ≤ s.sba.draining := by
  rw [g.draining, leavingWeight_eq_sum]
  have : ∀ l : List RiserNo, r ∈ l → s.weight r ≤
      (l.map fun r => if (s.riser r).live.state = .leaving then s.weight r else 0).sum := by
    intro l
    induction l with
    | nil => intro h; cases h
    | cons a l ih =>
      intro hm
      rcases List.mem_cons.1 hm with rfl | hm
      · simp [h]
      · have := ih hm; simp at *; omega
  exact this _ (mem_fins r)

theorem mem_scanWalk (w) (l : List RiserNo) : ∀ h p, p ∈ l ↔ p ∈ (scanWalk w h l).1 ∨ p ∈ (scanWalk w h l).2 := by
  induction l with
  | nil => intro h p; simp [scanWalk]
  | cons a l ih =>
    intro h p; unfold scanWalk; split
    · rw [List.mem_cons, ih (h - w a) p]; simp; exact or_left_comm
    · rw [List.mem_cons, ih h p]; simp [or_assoc]

theorem scanWalk_sublist (w) (l : List RiserNo) : ∀ h, (scanWalk w h l).1.Sublist l ∧ (scanWalk w h l).2.Sublist l := by
  induction l with
  | nil => intro h; simp [scanWalk]
  | cons a l ih =>
    intro h; unfold scanWalk; split
    · exact ⟨(ih _).1.cons _, (ih _).2.cons_cons _⟩
    · exact ⟨(ih _).1.cons_cons _, (ih _).2.cons _⟩

theorem scanWalk_disjoint (w) (l : List RiserNo) (hn : l.Nodup) : ∀ h p, p ∈ (scanWalk w h l).1
    → p ∉ (scanWalk w h l).2 := by
  induction l with
  | nil => intro h p; simp [scanWalk]
  | cons a l ih =>
    intro h p; unfold scanWalk
    have hn' := List.nodup_cons.1 hn
    split
    · intro h1 h2
      rcases List.mem_cons.1 h2 with rfl | h2
      · exact hn'.1 ((scanWalk_sublist _ _ _).1.subset h1)
      · exact ih hn'.2 _ p h1 h2
    · intro h1 h2
      rcases List.mem_cons.1 h1 with rfl | h1
      · exact hn'.1 ((scanWalk_sublist _ _ _).2.subset h2)
      · exact ih hn'.2 _ p h1 h2

theorem Coherent.ctx_eq_none {s L A r} (g : Coherent s L A)
    (h : (s.riser r).live.state = .queued ∨ (s.riser r).live.state = .individual ∨ (s.riser r).live.state = .free) :
    s.ctx r = none := by
  cases hc : s.ctx r with
  | none => rfl
  | some c =>
    have := g.ctxs r c hc
    rcases h with h | h | h <;> rw [h] at this <;> cases hd : c.direction <;> cases hp : c.phase <;> rw [hd,
        hp] at this <;> cases this

theorem coherent_admit {s A r} (g : Coherent s [] (r :: A)) (hn : r ∉ A) : Coherent (s.admitRiser r) [] A := by
  have hq := g.adm r (by simp)
  have hQ : r ∉ s.sba.queue := fun h => ((g.queue r).1 h).2 (by simp)
  have hG : r ∈ s.sba.grants := (g.grants r).2 (.inr (by simp))
  have c0 := Coherent.ctx_eq_none g (.inl hq)
  have oA : ∀ p, p ≠ r → (p ∈ A ↔ p ∈ r :: A) := by intro p hp; simp [hp]
  unfold State.admitRiser
  split
  · have h := ((RiserEdit.start r s).riserTo .entering .admitted false).newContext .enter .callPending
      (s.enterParticipants r)
    refine g.edit h (fun _ _ => Iff.rfl) oA (fun _ _ => Iff.rfl) ?_ (fun _ _ => Iff.rfl) ?_ ?_ g.once ?_ ?_
    · simp [hQ]
    · simp [hG]
    · intro h; exact absurd h hn
    · rw [hq]; simp
    · intro c' e; cases e; rfl
  · have h :=
      ((((RiserEdit.start r s).riserTo .free .admitted false).startSettle).quiet
      (quiet_evaluateAll (s.members r) .riser _)).count
    refine g.edit h (fun _ _ => Iff.rfl) oA (fun _ _ => Iff.rfl) ?_ (fun _ _ => Iff.rfl) ?_ ?_ g.once ?_ ?_
    · simp [hQ]
    · simp [hG]
    · intro h; exact absurd h hn
    · rw [hq]; simp
    · rw [c0]; intro c' e; cases e

theorem coherent_admits (A : List RiserNo) : ∀ s, Coherent s [] A → A.Nodup → Coherent (A.foldl State.admitRiser s)
    [] [] := by
  induction A with
  | nil => intro s g _; exact g
  | cons a l ih => intro s g hn; exact ih _ (coherent_admit g (List.nodup_cons.1 hn).1) (List.nodup_cons.1 hn).2

theorem coherent_scan {s} (g : Coherent s [] []) : Coherent s.scan [] [] := by
  unfold State.scan
  split
  · exact g
  · have hsub := scanWalk_sublist s.weight s.sba.queue s.headroom
    have hm := mem_scanWalk s.weight s.sba.queue s.headroom
    have hd := scanWalk_disjoint s.weight s.sba.queue g.once.1 s.headroom
    generalize scanWalk s.weight s.headroom s.sba.queue = w at *
    refine coherent_admits w.2 _ ?_ (g.once.1.sublist hsub.2)
    refine ⟨fun r => ?_, fun r => ?_, fun r hr => ?_, ⟨g.once.1.sublist hsub.1, ?_⟩, g.draining, g.ctxs⟩
    · show r ∈ w.1 ↔ _ ∧ _
      have a := g.queue r
      simp at a
      constructor
      · intro h; exact ⟨a.1 ((hm r).2 (.inl h)), hd r h⟩
      · rintro ⟨h1, h2⟩
        rcases (hm r).1 (a.2 h1) with h | h
        · exact h
        · exact absurd h h2
    · show r ∈ s.sba.grants ++ w.2 ↔ _
      have := g.grants r
      simp at this ⊢
      rw [this]
    · have a := g.queue r
      simp at a
      exact a.1 ((hm r).2 (.inr hr))
    · show (s.sba.grants ++ w.2).Nodup
      rw [List.nodup_append]
      refine ⟨g.once.2, g.once.1.sublist hsub.2, fun a ha b hb e => ?_⟩
      subst e
      have a1 := (g.queue a).1 ((hm a).2 (.inr hb))
      have a2 := (g.grants a).1 ha
      rw [a1.1] at a2
      simp at a2

theorem coherent_scanIf {s L} (g : Coherent s L []) (b : Bool) (h : b = true → L = []) : Coherent (s.scanIf b) L [] :=
  by
  unfold State.scanIf
  split
  · next hb => rw [h hb] at g ⊢; exact coherent_scan g
  · exact g

theorem coherent_join {s} (r) (hi : (s.riser r).live.state = .individual) (g : Coherent s [] []) :
    Coherent (s.joinCheck r) [] [] := by
  unfold State.joinCheck
  split
  · apply coherent_scan
    have hQ : r ∉ s.sba.queue := fun h => by have := ((g.queue r).1 h).1; rw [hi] at this; cases this
    have hG : r ∉ s.sba.grants := fun h => by have := ((g.grants r).1 h); rw [hi] at this; simp at this
    have pm : ∀ (rank : RiserNo → Nat) pol (l : List RiserNo) p, p ∈ placeRiser rank pol r l ↔ p = r ∨ p ∈ l := by
      intro rank pol l p; induction l with
      | nil => simp [placeRiser]
      | cons a l ih => unfold placeRiser; split <;> simp [ih]; exact or_left_comm
    have pn : ∀ (rank : RiserNo → Nat) pol (l : List RiserNo), l.Nodup → r ∉ l → (placeRiser rank pol r l).Nodup := by
      intro rank pol l; induction l with
      | nil => intro _ _; simp [placeRiser]
      | cons a l ih =>
        intro hn hr; unfold placeRiser; split
        · exact List.nodup_cons.2 ⟨hr, hn⟩
        · have := List.nodup_cons.1 hn
          refine List.nodup_cons.2 ⟨fun h => ?_, ih this.2 (fun h => hr (by simp [h]))⟩
          rcases (pm _ _ _ _).1 h with h | h
          · exact hr (by simp [h])
          · exact this.1 h
    have h := (RiserEdit.start r s).riserTo .queued .quorum false
    have h2 : RiserEdit r s ((s.riserTo r .queued .quorum false).enqueue r) .queued (s.ctx r)
        (placeRiser s.rank s.tower.policy r s.sba.queue) s.sba.grants s.sba.draining := by
      refine ⟨h.st, h.other, h.cfg, h.ctx, h.octx, ?_, h.grants, h.draining, h.bEff⟩
      show placeRiser (s.riserTo r .queued .quorum false).rank _ r _ = _
      have : (s.riserTo r .queued .quorum false).rank = s.rank := by funext p; unfold State.rank; rw [h.cfg]
      rw [this]; rfl
    refine g.edit h2 (fun _ _ => Iff.rfl) (fun _ _ => Iff.rfl) (fun p hp => by rw [pm]; simp [hp]) ?_ (fun _ _ => Iff.rfl) ?_ ?_ ⟨pn _ _ _ g.once.1 hQ, g.once.2⟩ ?_ ?_
    · rw [pm]; simp
    · simp [hG]
    · intro h; cases h
    · rw [hi]; simp
    · rw [Coherent.ctx_eq_none g (.inr (.inl hi))]; intro c e; cases e
  · exact g

/-- A riser becomes INDIVIDUAL without a context. -/
theorem coherent_indiv {s t L L' r c Q G D} (g : Coherent s L []) (h : RiserEdit r s t .individual c Q G D)
    (oL : ∀ p, p ≠ r → (p ∈ L' ↔ p ∈ L))
   (hc : c = none) (hQ : Q = s.sba.queue.erase r ∨ (Q = s.sba.queue ∧ (s.riser r).live.state ≠ .queued))
   (hG : G = s.sba.grants.erase r ∨
       (G = s.sba.grants ∧ (s.riser r).live.state ≠ .entering ∧ (s.riser r).live.state ≠ .free))
   (hD : (D = s.sba.draining ∧ (s.riser r).live.state ≠ .leaving) ∨
       (D = s.sba.draining - s.weight r ∧ (s.riser r).live.state = .leaving)) : Coherent t L' [] := by
  refine g.edit h oL (fun _ _ => Iff.rfl) ?_ ?_ ?_ ?_ ?_ ?_ ?_ ?_
  · intro p hp; rcases hQ with rfl | ⟨rfl, _⟩
    · exact mem_erase_of_ne _ hp
    · exact Iff.rfl
  · rcases hQ with rfl | ⟨rfl, hx⟩
    · simp [not_mem_erase_of_nodup g.once.1]
    · have := g.queue r; simp [hx] at this; simp [this]
  · intro p hp; rcases hG with rfl | ⟨rfl, _⟩
    · exact mem_erase_of_ne _ hp
    · exact Iff.rfl
  · rcases hG with rfl | ⟨rfl, hx⟩
    · simp [not_mem_erase_of_nodup g.once.2]
    · have := g.grants r; simp [hx] at this; simp [this]
  · intro h; cases h
  · refine ⟨?_, ?_⟩
    · rcases hQ with rfl | ⟨rfl, _⟩
      · exact g.once.1.erase _
      · exact g.once.1
    · rcases hG with rfl | ⟨rfl, _⟩
      · exact g.once.2.erase _
      · exact g.once.2
  · rcases hD with ⟨rfl, hx⟩ | ⟨rfl, hx⟩
    · simp [hx]
    · have := g.weight_le_draining hx; simp [hx]; omega
  · rw [hc]; intro c e; cases e

/-- An ENTERING or FREE riser becomes LEAVING, its grant become draining weight. -/
theorem coherent_leaving {s t L L' r c} (g : Coherent s L [])
    (h : RiserEdit r s t .leaving c s.sba.queue (s.sba.grants.erase r) (s.sba.draining + s.weight r))
    (oL : ∀ p, p ≠ r → (p ∈ L' ↔ p ∈ L))
   (hs : (s.riser r).live.state = .entering ∨ (s.riser r).live.state = .free)
   (hc : ∀ c', c = some c' → stateOfCtx c'.direction c'.phase = some .leaving) : Coherent t L' [] := by
  refine g.edit h oL (fun _ _ => Iff.rfl) (fun _ _ => Iff.rfl) ?_ (fun p hp => mem_erase_of_ne _ hp) ?_ ?_ ⟨g.once.1,
      g.once.2.erase _⟩ ?_ hc
  · have := g.queue r; rcases hs with hs | hs <;> rw [hs] at this <;> simp at this <;> simp [this]
  · simp [not_mem_erase_of_nodup g.once.2]
  · intro h; cases h
  · rcases hs with hs | hs <;> rw [hs] <;> simp

theorem coherent_completeLeaving {s t L L' r c} {Q G D} (g : Coherent s L []) (h : RiserEdit r s t .leaving c Q G D)
    (b : Bool) (hb : b = true → L' = [])
   (oL : ∀ p, p ≠ r → (p ∈ L' ↔ p ∈ L))
   (hQ : Q = s.sba.queue) (hq : (s.riser r).live.state ≠ .queued)
   (hG : (G = s.sba.grants ∧ D = s.sba.draining ∧ (s.riser r).live.state = .leaving) ∨
         (G = s.sba.grants.erase r ∧ D = s.sba.draining + s.weight r ∧ (s.riser r).live.state ≠ .leaving))
   : Coherent (t.completeLeaving r b) L' [] := by
  unfold State.completeLeaving
  refine coherent_scanIf ?_ b hb
  have k :=
      (((((h.riserTo .individual .complete false).startSettle).setCtx none).quiet
      (quiet_returnMembers r _)).count).undrain
  rcases hG with ⟨e1, e2, e3⟩ | ⟨e1, e2, e3⟩
  · exact coherent_indiv g k oL rfl (.inr ⟨hQ, hq⟩) (.inr ⟨e1, by rw [e3]; simp, by rw [e3]; simp⟩) (.inr ⟨by rw [e2],
      e3⟩)
  · exact coherent_indiv g k oL rfl (.inr ⟨hQ, hq⟩) (.inl e1) (.inl ⟨by omega, e3⟩)

theorem coherent_afterDrop {s t L L' r c} {D} (g : Coherent s L [])
    (h : RiserEdit r s t .individual c s.sba.queue s.sba.grants D) (us) (b : Bool) (hb : b = true → L' = [])
   (oL : ∀ p, p ≠ r → (p ∈ L' ↔ p ∈ L))
   (hs : (s.riser r).live.state = .entering) (hD : D = s.sba.draining) : Coherent
       (t.afterContextDrop r us b) L' [] := by
  unfold State.afterContextDrop
  refine coherent_scanIf ?_ b hb
  have k := ((((h.startSettle).setCtx none).quiet (quiet_evaluateAll us .riser _)).count).ungrant
  exact coherent_indiv g k oL rfl (.inr ⟨rfl, by rw [hs]; simp⟩) (.inl rfl) (.inl ⟨hD, by rw [hs]; simp⟩)

/-- entering context phases -/
theorem Coherent.ctx_of_entering {s L A r c} (g : Coherent s L A) (hs : (s.riser r).live.state = .entering)
    (hc : s.ctx r = some c) : c.direction = .enter
    ∧ (c.phase = .callPending ∨ c.phase = .rollReady ∨ c.phase = .commitPending ∨ c.phase = .rollDone) := by
  have := g.ctxs r c hc
  rw [hs] at this
  cases hd : c.direction <;> cases hp : c.phase <;> rw [hd, hp] at this <;> simp [stateOfCtx] at this <;> simp

theorem quiet_postChangeover (r : RiserNo) (c : Ctx) (res : Result) (reason : Option Cause) (n : Nat) (s : State) :
    Quiet s (s.postChangeover r c res reason n) := Quiet.post ..

theorem RiserEdit.undrained {r s t x c Q G} (h : RiserEdit r s t x c Q G (s.sba.draining + s.weight r - s.weight r)) :
    RiserEdit r s t x c Q G s.sba.draining := by
  rw [Nat.add_sub_cancel] at h; exact h

theorem coherent_withdrawEntering {s L L' r c} (g : Coherent s L []) (hs : (s.riser r).live.state = .entering)
    (hc : s.ctx r = some c) (cause) (b : Bool) (hb : b = true → L' = [])
   (oL : ∀ p, p ≠ r → (p ∈ L' ↔ p ∈ L)) : Coherent (s.withdrawEntering r c cause b) L' [] := by
  obtain ⟨hd, hp⟩ := Coherent.ctx_of_entering g hs hc
  have st : RiserEdit r s s .entering (some c) s.sba.queue s.sba.grants s.sba.draining := by have := RiserEdit.start r s; rw [hs, hc] at this; exact this
  unfold State.withdrawEntering
  rcases hp with hp | hp | hp | hp <;> rw [hp] <;> dsimp only
  · exact coherent_afterDrop g
      ((st.riserTo .individual cause true).quiet (quiet_postChangeover ..)) c.units b hb oL hs rfl
  · refine coherent_scanIf ?_ b hb
    refine coherent_leaving g ((((st.riserTo .leaving cause true).setCtx _).ungrant).drain) oL (.inl hs) ?_
    intro c' e; cases e; show stateOfCtx c.direction .cancelPending = _; rw [hd]; rfl
  · refine coherent_scanIf ?_ b hb
    refine coherent_leaving g ((((st.riserTo .leaving cause true).setCtx _).ungrant).drain) oL (.inl hs) ?_
    intro c' e; cases e; show stateOfCtx c.direction .cancelPending = _; rw [hd]; rfl
  · have k :=
      (((((st.tag (s.ce.tagCounter + 1)).riserTo .leaving cause true).setCtx
      (some (c.converted s.ce.tagCounter))).ungrant).drain)
    split
    · exact coherent_completeLeaving g (k.quiet (quiet_postChangeover ..)) b hb oL rfl (by rw [hs]; simp) (.inr ⟨rfl,
        rfl, by rw [hs]; simp⟩)
    · refine coherent_scanIf ?_ b hb
      refine coherent_leaving g k oL (.inl hs) ?_
      intro c' e; cases e; rfl

theorem coherent_withdrawFree {s L L' r} (g : Coherent s L []) (hs : (s.riser r).live.state = .free) (cause) (b : Bool)
    (hb : b = true → L' = [])
   (oL : ∀ p, p ≠ r → (p ∈ L' ↔ p ∈ L)) : Coherent (s.withdrawFree r cause b) L' [] := by
  have st : RiserEdit r s s .free (s.ctx r) s.sba.queue s.sba.grants s.sba.draining := by have := RiserEdit.start r s; rw [hs] at this; exact this
  have hc := Coherent.ctx_eq_none g (.inr (.inr hs))
  unfold State.withdrawFree
  split
  · split
    · exact coherent_completeLeaving g (((st.riserTo .leaving cause true).ungrant).drain) b hb oL rfl (by rw [hs]; simp) (.inr ⟨rfl, rfl, by rw [hs]; simp⟩)
    · refine coherent_scanIf ?_ b hb
      refine coherent_leaving g
          ((((st.riserTo .leaving cause true).newContext .leave .returnPending
          (s.leaveParticipants r)).ungrant).drain) oL (.inr hs) ?_
      intro c' e; cases e; rfl
  · refine coherent_scanIf ?_ b hb
    exact coherent_indiv g (((((st.riserTo .individual cause true).startSettle).quiet (quiet_returnMembers r _)).count).ungrant) oL hc (.inr ⟨rfl, by rw [hs]; simp⟩) (.inl rfl) (.inl ⟨rfl, by rw [hs]; simp⟩)

theorem coherent_weak {s L L' r} (g : Coherent s L []) (oL : ∀ p, p ≠ r → (p ∈ L' ↔ p ∈ L))
    (h1 : (s.riser r).live.state ≠ .entering) (h2 : (s.riser r).live.state ≠ .free) : Coherent s L' [] := by
  refine ⟨g.queue, fun p => ?_, g.adm, g.once, g.draining, g.ctxs⟩
  by_cases e : p = r
  · subst e; rw [g.grants]; simp [h1, h2]
  · rw [g.grants, oL p e]

theorem coherent_withdraw {s L L' r} (g : Coherent s L []) (cause) (b : Bool) (hb : b = true → L' = [])
   (oL : ∀ p, p ≠ r → (p ∈ L' ↔ p ∈ L)) : Coherent (s.withdraw r cause b) L' [] := by
  unfold State.withdraw
  split
  · next hs => exact coherent_weak g oL (by rw [hs]; simp) (by rw [hs]; simp)
  · next hs => exact coherent_weak g oL (by rw [hs]; simp) (by rw [hs]; simp)
  · next hs =>
    have st := RiserEdit.start r s
    exact coherent_indiv g ((st.riserTo .individual cause true).dequeue) oL (Coherent.ctx_eq_none g (.inl hs)) (.inl rfl) (.inr ⟨rfl, by rw [hs]; simp, by rw [hs]; simp⟩) (.inl ⟨rfl, by rw [hs]; simp⟩)
  · next hs => exact coherent_withdrawFree g hs cause b hb oL
  · next hs =>
    split
    · next c hc => exact coherent_withdrawEntering g hs hc cause b hb oL
    · next hc =>
      exact coherent_afterDrop g ((RiserEdit.start r s).riserTo .individual cause true) [] b hb oL hs rfl

theorem coherent_withdraw' {s r} (g : Coherent s [] []) (cause b) : Coherent (s.withdraw r cause b) [] [] :=
  coherent_withdraw g cause b (fun _ => rfl) (fun _ _ => Iff.rfl)

theorem coherent_ceCancel {s r c} (c0 : Ctx) (g : Coherent s [] []) (hc : s.ctx r = some c0)
    (hd : c0.direction = c.direction) (hp : c0.phase = c.phase) (why) : Coherent (s.ceCancel r c why) [] [] := by
  have hx := g.ctxs r c0 hc
  rw [hd, hp] at hx
  have nr : ∀ p : RiserNo, p ≠ r → (p ∈ ([] : List RiserNo) ↔ p ∈ ([] : List RiserNo)) := fun _ _ => Iff.rfl
  unfold State.ceCancel
  cases hph : c.phase <;> rw [hph] at hx <;> cases hdd : c.direction <;> rw [hdd] at hx <;> simp only [stateOfCtx,
      Option.some.injEq] at hx <;> dsimp only
  case callPending.enter =>
    have st : RiserEdit r s s .entering (s.ctx r) s.sba.queue s.sba.grants s.sba.draining := by have := RiserEdit.start r s; rw [← hx] at this; exact this
    exact coherent_afterDrop g ((st.quiet (quiet_postChangeover ..)).riserTo .individual why true) c.units true
        (fun _ => rfl) nr hx.symm rfl
  case rollReady.enter =>
    refine coherent_scan
        (coherent_leaving g ((((RiserEdit.start r s).setCtx _).riserTo .leaving why true).ungrant.drain) nr
        (.inl hx.symm) ?_)
    intro c' e; cases e; show stateOfCtx c.direction .cancelPending = _; rw [hdd]; rfl
  case commitPending.enter =>
    refine coherent_scan
        (coherent_leaving g ((((RiserEdit.start r s).setCtx _).riserTo .leaving why true).ungrant.drain) nr
        (.inl hx.symm) ?_)
    intro c' e; cases e; show stateOfCtx c.direction .cancelPending = _; rw [hdd]; rfl
  all_goals first | exact g | cases hx

theorem coherent_count {s r} (g : Coherent s [] []) : Coherent (s.count r) [] [] := g.same (RiserEdit.start r s).count

theorem coherent_applyCount {s r} (g : Coherent s [] []) : Coherent (s.applyCount r) [] [] := by
  unfold State.applyCount; dsimp only
  split
  · next h => exact coherent_join r h g
  · split
    · exact coherent_withdraw' g _ _
    · exact g
  · split
    · exact coherent_withdraw' g _ _
    · exact g
  · exact g
  · exact g

theorem coherent_recount {s r} (g : Coherent s [] []) : Coherent (s.recount r) [] [] :=
  coherent_applyCount (coherent_count g)

theorem coherent_settleExpired {s r} (g : Coherent s [] []) : Coherent (s.settleExpired r) [] [] := by
  unfold State.settleExpired
  split
  · next h => exact coherent_join r h g
  · exact coherent_applyCount g
  all_goals exact g

theorem coherent_own {s u cls} (g : Coherent s [] []) : Coherent (s.ownEvent u cls) [] [] :=
  coherent_recount (g.quiet (quiet_evaluate ..))

theorem coherent_enterComplete {s r c res n} (g : Coherent s [] []) (hs : (s.riser r).live.state = .entering) :
    Coherent (s.enterComplete r c res n) [] [] := by
  unfold State.enterComplete
  have st : RiserEdit r s s .entering (s.ctx r) s.sba.queue s.sba.grants s.sba.draining := by have := RiserEdit.start r s; rw [hs] at this; exact this
  refine g.edit
      (((((((st.quiet (quiet_postChangeover ..)).riserTo .free .complete false).startSettle).setCtx none).quiet
      (quiet_evaluateAll ..)).quiet (quiet_evaluateAll ..)).count) (fun _ _ => Iff.rfl) (fun _ _ => Iff.rfl)
      (fun _ _ => Iff.rfl) ?_ (fun _ _ => Iff.rfl) ?_ ?_ g.once ?_ ?_
  · rw [g.queue, hs]; simp
  · rw [g.grants, hs]; simp
  · intro h; cases h
  · rw [hs]; simp
  · intro c' e; cases e

theorem coherent_leaveComplete {s r c res n} (g : Coherent s [] []) (hs : (s.riser r).live.state = .leaving) :
    Coherent (s.leaveComplete r c res n) [] [] := by
  unfold State.leaveComplete
  have st : RiserEdit r s s .leaving (s.ctx r) s.sba.queue s.sba.grants s.sba.draining := by have := RiserEdit.start r s; rw [hs] at this; exact this
  exact coherent_completeLeaving g (st.quiet (quiet_postChangeover ..)) true (fun _ => rfl) (fun _ _ => Iff.rfl) rfl (by rw [hs]; simp) (.inl ⟨rfl, rfl, hs⟩)

theorem coherent_rollEnds {s r c res n} (g : Coherent s [] [])
    (h : stateOfCtx c.direction .rollDone = some (s.riser r).live.state) : Coherent (s.rollEnds r c res n) [] [] := by
  unfold State.rollEnds
  cases hd : c.direction <;> rw [hd] at h <;> simp [stateOfCtx] at h <;> dsimp only
  · exact coherent_enterComplete g h.symm
  · exact coherent_leaveComplete g h.symm

theorem coherent_cancelComplete {s r c} (g : Coherent s [] []) (hs : (s.riser r).live.state = .leaving) :
    Coherent (s.cancelComplete r c) [] [] := by
  unfold State.cancelComplete
  have st : RiserEdit r s s .leaving (s.ctx r) s.sba.queue s.sba.grants s.sba.draining := by have := RiserEdit.start r s; rw [hs] at this; exact this
  refine coherent_scan (coherent_indiv g ((((((st.quiet (quiet_postChangeover ..)).riserTo .individual .complete false).startSettle).setCtx none).quiet (quiet_evaluateAll ..)).count.undrain) (fun _ _ => Iff.rfl) rfl (.inr ⟨rfl, by rw [hs]; simp⟩) (.inr ⟨rfl, by rw [hs]; simp, by rw [hs]; simp⟩) (.inr ⟨rfl, hs⟩))

theorem coherent_setCtx {s r} (g : Coherent s [] []) (c)
    (h : ∀ c', c = some c' → stateOfCtx c'.direction c'.phase = some (s.riser r).live.state) : Coherent (s.setCtx r c)
    [] [] := by
  refine g.edit ((RiserEdit.start r s).setCtx c) (fun _ _ => Iff.rfl) (fun _ _ => Iff.rfl) (fun _ _ => Iff.rfl) ?_
      (fun _ _ => Iff.rfl) ?_ ?_ g.once rfl h
  · exact g.queue r
  · exact g.grants r
  · exact g.adm r

theorem coherent_rollTest {s r c} (c0 : Ctx) (g : Coherent s [] []) (hc : s.ctx r = some c0)
    (hd : c0.direction = c.direction) (hp : c0.phase = c.phase) : Coherent (s.rollTest r c) [] [] := by
  have hx := g.ctxs r c0 hc
  rw [hd, hp] at hx
  unfold State.rollTest
  cases hph : c.phase <;> rw [hph] at hx <;> dsimp only
  · exact g
  · split
    · refine coherent_setCtx g _ ?_
      intro c' e; cases e
      show stateOfCtx c.direction .commitPending = _
      rw [← hx]; cases c.direction <;> rfl
    · exact g
  · exact g
  · split
    · exact coherent_rollEnds g hx
    · exact g
  · exact g
  · exact g

theorem coherent_dropTest {s r c} (c0 : Ctx) (g : Coherent s [] []) (hc : s.ctx r = some c0)
    (hd : c0.direction = c.direction) (hp : c0.phase = c.phase) : Coherent (s.dropTest r c) [] [] := by
  unfold State.dropTest
  split
  · split
    · exact coherent_ceCancel c0 g hc hd hp _
    · exact g
  · split
    · exact coherent_ceCancel c0 g hc hd hp _
    · exact g
  · split
    · exact coherent_ceCancel c0 g hc hd hp _
    · exact coherent_rollTest c0 g hc hd hp
  · split
    · next h1 h2 _ =>
      refine coherent_leaveComplete g ?_
      have := g.ctxs r c0 hc
      rw [hd, hp, h1, h2] at this
      exact (Option.some.inj this).symm
    · exact g
  · exact coherent_rollTest c0 g hc hd hp
  · exact g

theorem coherent_drop {s u} (g : Coherent s [] []) : Coherent (s.drop u) [] [] := by
  unfold State.drop
  split
  · exact g
  · next c hc =>
    split
    · have g2 := coherent_setCtx (r := (s.unit u).cfg.riser) g (some { c.withStatus u .dropped with repairs := c.repairs.filter fun p => p.unit != u }) (by intro c' e; cases e; exact g.ctxs _ c hc)
      refine coherent_dropTest _ g2 ?_ rfl rfl
      rw [setCtx_ctx, if_pos rfl]
    · exact g
/-! ## Revocation -/

theorem coherent_revokeOne {s L r} (g : Coherent s L []) (hr : r ∈ s.sba.grants) : Coherent (s.revokeOne r) (r :: L)
    [] := by
  unfold State.revokeOne
  refine Coherent.quiet ?_ (Quiet.post ..)
  have hx := (g.grants r).1 hr
  simp at hx
  refine g.edit ((RiserEdit.start r s).ungrant) (fun p hp => by simp [hp]) (fun _ _ => Iff.rfl) (fun _ _ => Iff.rfl) (g.queue r) (fun p hp => mem_erase_of_ne _ hp) ?_ ?_ ⟨g.once.1, g.once.2.erase _⟩ rfl (g.ctxs r)
  · simp [not_mem_erase_of_nodup g.once.2]
  · intro h; cases h

theorem mem_chooseRevoked (w rank b) : ∀ n l r, r ∈ chooseRevoked w rank b n l → r ∈ l := by
  have lm : ∀ l r, latestOfLowest rank l = some r → r ∈ l := by
    intro l; induction l with
    | nil => intro r h; cases h
    | cons a l ih =>
      intro r h; unfold latestOfLowest at h
      split at h
      · cases h; simp
      · next q hq =>
        split at h
        · cases h; simp
        · cases h; simp [ih _ hq]
  intro n; induction n with
  | zero => intro l r h; cases h
  | succ n ih =>
    intro l r h; unfold chooseRevoked at h
    split at h
    · split at h
      · cases h
      · next q hq =>
        rcases List.mem_cons.1 h with rfl | h
        · exact lm _ _ hq
        · exact List.mem_of_mem_erase (ih _ _ h)
    · cases h

theorem nodup_chooseRevoked (w rank b) : ∀ n l, l.Nodup → (chooseRevoked w rank b n l).Nodup := by
  intro n; induction n with
  | zero => intro l _; exact List.nodup_nil
  | succ n ih =>
    intro l hl; unfold chooseRevoked
    split
    · split
      · exact List.nodup_nil
      · next q hq =>
          exact List.nodup_cons.2 ⟨fun h => not_mem_erase_of_nodup hl (mem_chooseRevoked _ _ _ _ _ _ h),
              ih _ (hl.erase _)⟩
    · exact List.nodup_nil

theorem coherent_revokes (l : List RiserNo) : ∀ s L, Coherent s L [] → l.Nodup → (∀ r ∈ l, r ∈ s.sba.grants)
    → ∃ L', Coherent (l.foldl State.revokeOne s) L' [] ∧ ∀ p, p ∈ L' ↔ p ∈ l ∨ p ∈ L := by
  induction l with
  | nil => intro s L g _ _; exact ⟨L, g, fun p => by simp⟩
  | cons a l ih =>
    intro s L g hn hm
    obtain ⟨L', g', e⟩ := ih _ _ (coherent_revokeOne g (hm a (by simp))) (List.nodup_cons.1 hn).2 (by
      intro r hr
      show r ∈ s.sba.grants.erase a
      exact (mem_erase_of_ne _ (fun e => (List.nodup_cons.1 hn).1 (by rw [← e]; exact hr))).2 (hm r (by simp [hr])))
    refine ⟨L', g', fun p => ?_⟩
    rw [e]; simp; constructor
    · rintro (h | h | h) <;> simp [h]
    · rintro ((h | h) | h) <;> simp [h]

theorem coherent_withdraws (l : List RiserNo) : ∀ s L, Coherent s L [] → (∀ p, p ∈ L → p ∈ l)
    → Coherent (l.foldl (fun s r => s.withdraw r .revoked false) s) [] [] := by
  induction l with
  | nil =>
    intro s L g h
    have : L = [] := by
      cases L with
      | nil => rfl
      | cons a l => exact absurd (h a (by simp)) (by simp)
    subst this; exact g
  | cons a l ih =>
    intro s L g h
    refine ih _ (L.filter (fun p => p ≠ a)) (coherent_withdraw g .revoked false (fun h => by cases h) (fun p hp => by simp [hp])) ?_
    intro p hp
    simp at hp
    rcases List.mem_cons.1 (h p hp.1) with e | e
    · exact absurd e hp.2
    · exact e

theorem coherent_revoke {s} (g : Coherent s [] []) : Coherent s.revoke [] [] := by
  unfold State.revoke
  dsimp only
  obtain ⟨L', g',
      e⟩ := coherent_revokes (chooseRevoked s.weight s.rank s.sba.bEff s.sba.grants.length s.sba.grants) s [] g
      (nodup_chooseRevoked _ _ _ _ _ g.once.2) (fun r hr => mem_chooseRevoked _ _ _ _ _ _ hr)
  exact coherent_withdraws _ _ L' g' (fun p hp => by have := (e p).1 hp; simpa using this)

theorem coherent_bEff {s} (g : Coherent s [] []) (n) : Coherent (s.modSba fun b => { b with bEff := n }) [] [] :=
  ⟨g.queue, g.grants, g.adm, g.once, g.draining, g.ctxs⟩

theorem coherent_recompute {s} (g : Coherent s [] []) : Coherent s.recompute [] [] := by
  unfold State.recompute; dsimp only
  split
  · exact g
  · have h := (coherent_bEff g s.budgetNow).quiet (Quiet.post 1 .none (.budget s.budgetNow) _)
    split
    · exact coherent_scan (coherent_revoke h)
    · exact coherent_scan h

theorem coherent_fold {α} {f : State → α → State} (hf : ∀ s a, Coherent s [] [] → Coherent (f s a) [] []) (l : List α) :
    ∀ s, Coherent s [] [] → Coherent (l.foldl f s) [] [] := by
  induction l with
  | nil => intro s g; exact g
  | cons a l ih => intro s g; exact ih _ (hf s a g)

theorem coherent_stationEvent {s st} (g : Coherent s [] []) : Coherent (s.stationEvent st) [] [] := by
  unfold State.stationEvent State.recountAll
  refine coherent_fold (fun s r g => coherent_recount g) _ _ (Coherent.quiet ?_ (quiet_evaluateAll ..))
  unfold State.recomputeFor
  split
  · exact coherent_recompute g
  · exact g

theorem coherent_freezeOn {s} (g : Coherent s [] []) : Coherent s.freezeOn [] [] :=
  coherent_fold (fun _ _ g => coherent_withdraw' g _ _) _ _ g

theorem coherent_joinIf {s r} (g : Coherent s [] []) : Coherent (s.joinIfIndividual r) [] [] := by
  unfold State.joinIfIndividual; split
  · next h => exact coherent_join r h g
  · exact g

theorem coherent_freezeOff {s} (g : Coherent s [] []) : Coherent s.freezeOff [] [] :=
  coherent_fold (fun _ _ g => coherent_joinIf g) _ _ g

theorem coherent_emergencyOff {s} (g : Coherent s [] []) : Coherent s.emergencyOff [] [] :=
  coherent_fold (fun _ _ g => coherent_own g) _ _
      (coherent_fold (fun s r g => g.same (RiserEdit.start r s).startSettle) _ _ g)

theorem coherent_emergencyUnit {s u} (g : Coherent s [] []) : Coherent (s.emergencyUnit u) [] [] :=
  coherent_recount ((g.quiet (quiet_evaluate u .emergency s)).quiet (quiet_postWhereHeard ..))

theorem coherent_abandon {s} (g : Coherent s [] []) : Coherent s.abandonContexts [] [] := by
  refine ⟨g.queue, g.grants, g.adm, g.once, g.draining, fun r c h => ?_⟩
  have : s.abandonContexts.ctx r = none := by unfold State.abandonContexts State.ctx; simp
  rw [this] at h; cases h

theorem coherent_emergencyRiser {s r} (h : (∀ r, s.ctx r = none) ∧ Coherent s [] []) :
    (∀ p, (s.emergencyRiser r).ctx p = none) ∧ Coherent (s.emergencyRiser r) [] [] := by
  obtain ⟨hc, g⟩ := h
  have nr : ∀ p : RiserNo, p ≠ r → (p ∈ ([] : List RiserNo) ↔ p ∈ ([] : List RiserNo)) := fun _ _ => Iff.rfl
  unfold State.emergencyRiser
  split
  · exact ⟨hc, g.same (RiserEdit.start r s).clearSettle⟩
  · next hs =>
      exact ⟨hc,
          coherent_indiv g (((RiserEdit.start r s).riserTo .individual .emergency true).clearSettle.dequeue) nr (hc r) (.inl rfl) (.inr ⟨rfl, by rw [hs]; simp, by rw [hs]; simp⟩) (.inl ⟨rfl, by rw [hs]; simp⟩)⟩
  · next hs =>
      exact ⟨hc,
          coherent_indiv g (((RiserEdit.start r s).riserTo .individual .emergency true).clearSettle.ungrant) nr (hc r) (.inr ⟨rfl, by rw [hs]; simp⟩) (.inl rfl) (.inl ⟨rfl, by rw [hs]; simp⟩)⟩
  · next hs =>
      exact ⟨hc,
          coherent_indiv g (((RiserEdit.start r s).riserTo .individual .emergency true).clearSettle.ungrant) nr (hc r) (.inr ⟨rfl, by rw [hs]; simp⟩) (.inl rfl) (.inl ⟨rfl, by rw [hs]; simp⟩)⟩
  · next hs =>
      exact ⟨hc,
          coherent_indiv g (((RiserEdit.start r s).riserTo .individual .emergency true).clearSettle.undrain) nr (hc r) (.inr ⟨rfl, by rw [hs]; simp⟩) (.inr ⟨rfl, by rw [hs]; simp, by rw [hs]; simp⟩) (.inr ⟨rfl, hs⟩)⟩

theorem coherent_emergencyRisers (l : List RiserNo) : ∀ s, ((∀ r, s.ctx r = none) ∧ Coherent s [] [])
    → (∀ p, (l.foldl State.emergencyRiser s).ctx p = none) ∧ Coherent (l.foldl State.emergencyRiser s) [] [] := by
  induction l with
  | nil => intro s h; exact h
  | cons a l ih => intro s h; exact ih _ (coherent_emergencyRiser h)

theorem coherent_emergencyOn {s} (g : Coherent s [] []) : Coherent s.emergencyOn [] [] := by
  refine coherent_fold (fun _ _ g => coherent_emergencyUnit g) _ _ (coherent_emergencyRisers _ _ ⟨fun r => ?_,
      coherent_abandon g⟩).2
  unfold State.abandonContexts State.ctx; simp

end Sys2Proof.Machine
end

