-- ==== Sys2Proof/Laws/Lines.lean ====
section
/-! SUPPORT. Laws/Lines.lean: what a pin shows, and what an edge keeps (R148 to R155). -/

namespace Sys2Proof.Machine

/-- A pin shows active when its level is the polarity's active one. -/
theorem pinShowsActive_eq (s : State) (l : LineNo) :
    s.pinShowsActive l = (s.lu.pins[l] == ((s.line l).cfg.polarity == .activeHigh)) := by
  unfold State.pinShowsActive
  split
  · next h =>
    rw [h]
    cases s.lu.pins[l] <;> rfl
  · next h =>
    rw [h]
    cases s.lu.pins[l] <;> rfl

theorem cascade_edgeEffect (role : Role) (was is : Bool) (s : State) : Cascade s (s.edgeEffect role was is) := by
  unfold State.edgeEffect
  split
  · exact cascade_recompute s
  · exact .ite (.rfl s) (.ite (cascade_freezeOn s) (cascade_freezeOff s))
  · exact .ite (.rfl s) (.ite (cascade_emergencyOn s) (cascade_emergencyOff s))
  all_goals exact .rfl s

theorem keeps_acceptLevel (l : LineNo) (s : State) : Keeps s (s.acceptLevel l) := by
  unfold State.acceptLevel
  refine .modLine l _ s ?_
  exact fun _ => rfl

theorem keeps_edge (l : LineNo) (s : State) : Keeps s (s.edge l) := by
  unfold State.edge
  dsimp only
  have h : Keeps s ((s.acceptLevel l).post (edgeLevel (s.line l).cfg.role) (.line l)
      (.lineEdge (s.line l).cfg.role (s.pinShowsActive l))) :=
    (keeps_acceptLevel l s).trans (.post _ _ _ _ rfl)
  exact .ite (h.trans ((cascade_edgeEffect ..).keeps.trans (ran_grantOnWork _).keeps)) h

end Sys2Proof.Machine
end

