-- ==== Sys2Proof/Laws/Budget.lean ====
section
/-! SUPPORT. Laws/Budget.lean: every operation of the groups keeps the committed weight within the budget (R89, R92,
    R96). -/

namespace Sys2Proof.Machine

/-- The budget and the configurations stand, and nothing is added to the grants. -/
structure NoMoreGranted (s t : State) : Prop where
  b : t.sba.bEff = s.sba.bEff
  cfg : ∀ p, (t.riser p).cfg = (s.riser p).cfg
  g : t.sba.grants.Sublist s.sba.grants

theorem NoMoreGranted.rfl (s) : NoMoreGranted s s := ⟨Eq.refl _, fun _ => Eq.refl _, List.Sublist.refl _⟩

theorem NoMoreGranted.trans {a b c} (h : NoMoreGranted a b) (k : NoMoreGranted b c) : NoMoreGranted a c :=
  ⟨k.b.trans h.b, fun p => (k.cfg p).trans (h.cfg p), k.g.trans h.g⟩

theorem NoMoreGranted.quiet {s t} (k : Quiet s t) : NoMoreGranted s t :=
  ⟨by rw [k.sba], fun p => by unfold State.riser; rw [k.risers], k.sba ▸ List.Sublist.refl _⟩

theorem NoMoreGranted.ed {r s t x c Q G D} (h : RiserEdit r s t x c Q G D) (hg : G.Sublist s.sba.grants) :
    NoMoreGranted s t := ⟨h.bEff, h.cfg, by rw [h.grants]; exact hg⟩

/-- The committed weight is within the budget. -/
def WithinBudget (s : State) : Prop := s.committed ≤ s.sba.bEff

theorem sumWeights_sublist (w : RiserNo → Nat) {l m : List RiserNo} (h : l.Sublist m) :
    sumWeights w l ≤ sumWeights w m := by
  unfold sumWeights
  induction h with
  | slnil => exact Nat.le_refl _
  | cons a _ ih => simp; omega
  | cons_cons a _ ih => simp; omega

theorem NoMoreGranted.com {s t} (h : NoMoreGranted s t) : t.committed ≤ s.committed := by
  unfold State.committed
  have : t.weight = s.weight := by funext p; unfold State.weight; rw [h.cfg]
  rw [this]; exact sumWeights_sublist _ h.g

theorem WithinBudget.dec {s t} (b : WithinBudget s) (h : NoMoreGranted s t) : WithinBudget t :=
  by unfold WithinBudget at *; rw [h.b]; exact Nat.le_trans h.com b

theorem grants_erase_sublist (s : State) (r) : (s.sba.grants.erase r).Sublist s.sba.grants := List.erase_sublist

theorem grants_sublist_self (s : State) : s.sba.grants.Sublist s.sba.grants := List.Sublist.refl _

theorem sumWeights_append (w : RiserNo → Nat) (a b) : sumWeights w (a ++ b) = sumWeights w a + sumWeights w b := by
  unfold sumWeights; rw [List.map_append, List.sum_append_nat]

theorem sumWeights_scanWalk (w) (l : List RiserNo) : ∀ h : Int, (sumWeights w (scanWalk w h l).2 : Int) ≤ max 0 h := by
  induction l with
  | nil => intro h; exact Int.le_max_left 0 h
  | cons a l ih =>
    intro h; unfold scanWalk; split
    · have := ih (h - w a); simp [sumWeights] at *; omega
    · exact ih h

theorem noMoreGranted_admit (s r) : NoMoreGranted s (s.admitRiser r) := by
  unfold State.admitRiser
  split
  · exact .ed
      (((RiserEdit.start r s).riserTo .entering .admitted false).newContext .enter .callPending (s.enterParticipants r))
      (grants_sublist_self s)
  · exact .ed
      (((((RiserEdit.start r s).riserTo .free .admitted false).startSettle).quiet
      (quiet_evaluateAll (s.members r) .riser _)).count) (grants_sublist_self s)

theorem noMoreGranted_fold {α} {f : State → α → State} (h : ∀ s a, NoMoreGranted s (f s a)) (l : List α) :
    ∀ s, NoMoreGranted s (l.foldl f s) := by
  induction l with
  | nil => intro s; exact .rfl s
  | cons a l ih => intro s; exact (h s a).trans (ih _)

theorem budget_scan {s} (h : WithinBudget s) : WithinBudget s.scan := by
  unfold State.scan
  split
  · exact h
  · refine WithinBudget.dec ?_ (noMoreGranted_fold noMoreGranted_admit _ _)
    unfold WithinBudget State.committed at *
    show sumWeights s.weight (s.sba.grants ++ _) ≤ s.sba.bEff
    have := sumWeights_scanWalk s.weight s.sba.queue s.headroom
    unfold State.headroom State.committed at *
    rw [sumWeights_append]
    omega

theorem budget_scanIf {s b} (h : WithinBudget s) : WithinBudget (s.scanIf b) :=
  by unfold State.scanIf; split; exact budget_scan h; exact h

theorem budget_of {s core t b} (h : WithinBudget s) (d : NoMoreGranted s core) (e : t = core.scanIf b) :
    WithinBudget t := by rw [e]; exact budget_scanIf (h.dec d)

theorem noMoreGranted_rf {s core t} (d : NoMoreGranted s core) (e : t = core.scanIf false) : NoMoreGranted s t :=
  by rw [e]; exact d

/-- `t` is a scan, or none, of a state with nothing more granted. -/
abbrev EndsInScanIf (s t : State) (b : Bool) : Prop := ∃ core, NoMoreGranted s core ∧ t = core.scanIf b

theorem EndsInScanIf.after {s m t b} (d : NoMoreGranted s m) (h : EndsInScanIf m t b) : EndsInScanIf s t b :=
  by obtain ⟨x, y, z⟩ := h; exact ⟨x, d.trans y, z⟩

theorem endsInScanIf_complete (s r b) : EndsInScanIf s (s.completeLeaving r b) b :=
  ⟨_, .ed (((((((RiserEdit.start r s).riserTo .individual .complete false).startSettle).setCtx none).quiet (quiet_returnMembers r _)).count).undrain) (grants_sublist_self s), rfl⟩

theorem endsInScanIf_afterDrop (s r us b) : EndsInScanIf s (s.afterContextDrop r us b) b :=
  ⟨_, .ed ((((((RiserEdit.start r s).startSettle).setCtx none).quiet (quiet_evaluateAll us .riser _)).count).ungrant) (grants_erase_sublist s r), rfl⟩

theorem noMoreGranted_riserTo (s r x c b) : NoMoreGranted s (s.riserTo r x c b) :=
  .ed ((RiserEdit.start r s).riserTo x c b) (grants_sublist_self s)

theorem noMoreGranted_post (s k x c) : NoMoreGranted s (s.post k x c) := .quiet (.post ..)

theorem withdraw_ends (s r cause) : (∀ b, EndsInScanIf s (s.withdraw r cause b) b)
    ∨ ∀ b, NoMoreGranted s (s.withdraw r cause b) := by
  unfold State.withdraw
  split
  · exact .inr fun _ => .rfl s
  · exact .inr fun _ => .rfl s
  · exact .inr fun _ => .ed (((RiserEdit.start r s).riserTo .individual cause true).dequeue) (grants_sublist_self s)
  · left; intro b
    unfold State.withdrawFree
    split
    · split
      · exact .after
          (.ed (((RiserEdit.start r s).riserTo .leaving cause true).ungrant.drain) (grants_erase_sublist s r))
          (endsInScanIf_complete ..)
      · exact ⟨_,
          .ed
          ((((RiserEdit.start r s).riserTo .leaving cause true).newContext .leave .returnPending
          (s.leaveParticipants r)).ungrant.drain) (grants_erase_sublist s r), rfl⟩
    · exact ⟨_,
        .ed
        ((((((RiserEdit.start r s).riserTo .individual cause true).startSettle).quiet
        (quiet_returnMembers r _)).count).ungrant) (grants_erase_sublist s r), rfl⟩
  · split
    · next c hc =>
      unfold State.withdrawEntering
      split
      · left; intro b; exact .after ((noMoreGranted_riserTo ..).trans (noMoreGranted_post ..))
          (endsInScanIf_afterDrop ..)
      · left; intro b; exact ⟨_,
          .ed ((((RiserEdit.start r s).riserTo .leaving cause true).setCtx _).ungrant.drain)
          (grants_erase_sublist s r), rfl⟩
      · left; intro b; exact ⟨_,
          .ed ((((RiserEdit.start r s).riserTo .leaving cause true).setCtx _).ungrant.drain)
          (grants_erase_sublist s r), rfl⟩
      · left; intro b
        have k :=
            (((((RiserEdit.start r s).tag (s.ce.tagCounter + 1)).riserTo .leaving cause true).setCtx
            (some (c.converted s.ce.tagCounter))).ungrant).drain
        dsimp only
        split
        · exact .after ((NoMoreGranted.ed k (grants_erase_sublist s r)).trans (noMoreGranted_post ..))
            (endsInScanIf_complete ..)
        · exact ⟨_, .ed k (grants_erase_sublist s r), rfl⟩
      · exact .inr fun _ => .rfl s
      · exact .inr fun _ => .rfl s
    · left; intro b; exact .after (noMoreGranted_riserTo ..) (endsInScanIf_afterDrop ..)

theorem budget_withdraw {s r cause b} (h : WithinBudget s) : WithinBudget (s.withdraw r cause b) := by
  rcases withdraw_ends s r cause with k | k
  · obtain ⟨core, d, e⟩ := k b; exact budget_of h d e
  · exact h.dec (k b)

theorem noMoreGranted_withdraw (s r cause) : NoMoreGranted s (s.withdraw r cause false) := by
  rcases withdraw_ends s r cause with k | k
  · obtain ⟨core, d, e⟩ := k false; exact noMoreGranted_rf d e
  · exact k false

theorem budget_join {s r} (h : WithinBudget s) : WithinBudget (s.joinCheck r) := by
  unfold State.joinCheck; split
  · exact budget_scan ((h.dec (noMoreGranted_riserTo s r .queued .quorum false)).dec ⟨rfl, fun _ => rfl,
      grants_sublist_self _⟩)
  · exact h

theorem budget_ceCancel {s r c why} (h : WithinBudget s) : WithinBudget (s.ceCancel r c why) := by
  unfold State.ceCancel
  split
  · obtain ⟨core, d,
      e⟩ := endsInScanIf_afterDrop
      ((s.postChangeover r c .cancelled (some why) 0).riserTo r .individual why true) r c.units true
    exact budget_of h (((noMoreGranted_post ..).trans (noMoreGranted_riserTo ..)).trans d) e
  · exact budget_scan
      (h.dec
      (.ed (((((RiserEdit.start r s).setCtx _).riserTo .leaving why true).ungrant).drain) (grants_erase_sublist s r)))
  · exact budget_scan
      (h.dec
      (.ed (((((RiserEdit.start r s).setCtx _).riserTo .leaving why true).ungrant).drain) (grants_erase_sublist s r)))
  all_goals exact h

theorem noMoreGranted_count (s r) : NoMoreGranted s (s.count r) :=
  .ed (RiserEdit.start r s).count (grants_sublist_self s)

theorem budget_applyCount {s r} (h : WithinBudget s) : WithinBudget (s.applyCount r) := by
  unfold State.applyCount; dsimp only
  split
  · exact budget_join h
  · split
    · exact budget_withdraw h
    · exact h
  · split
    · exact budget_withdraw h
    · exact h
  · exact h
  · exact h

theorem budget_recount {s r} (h : WithinBudget s) : WithinBudget (s.recount r) :=
  budget_applyCount (h.dec (noMoreGranted_count s r))

theorem budget_settle {s r} (h : WithinBudget s) : WithinBudget (s.settleExpired r) := by
  unfold State.settleExpired; split
  · exact budget_join h
  · exact budget_applyCount h
  all_goals exact h

theorem budget_q {s t} (h : WithinBudget s) (k : Quiet s t) : WithinBudget t := h.dec (.quiet k)

theorem budget_own {s u c} (h : WithinBudget s) : WithinBudget (s.ownEvent u c) :=
  budget_recount (budget_q h (quiet_evaluate ..))

theorem budget_emergencyUnit {s u} (h : WithinBudget s) : WithinBudget (s.emergencyUnit u) :=
  budget_recount (budget_q (budget_q h (quiet_evaluate u .emergency s)) (quiet_postWhereHeard ..))

theorem budget_leaveC {s r c res n} (h : WithinBudget s) : WithinBudget (s.leaveComplete r c res n) := by
  obtain ⟨core, d, e⟩ := endsInScanIf_complete (s.postChangeover r c res none n) r true
  exact budget_of h ((noMoreGranted_post ..).trans d) e

theorem budget_rollEnds {s r c res n} (h : WithinBudget s) : WithinBudget (s.rollEnds r c res n) := by
  unfold State.rollEnds; split
  · exact h.dec
      (.ed
      ((((((((RiserEdit.start r s).quiet (quiet_postChangeover ..)).riserTo .free
      .complete false).startSettle).setCtx none).quiet (quiet_evaluateAll ..)).quiet (quiet_evaluateAll ..)).count)
      (grants_sublist_self s))
  · exact budget_leaveC h

theorem budget_cancelC {s r c} (h : WithinBudget s) : WithinBudget (s.cancelComplete r c) := by
  unfold State.cancelComplete
  exact budget_scan
      (h.dec
      (.ed
      (((((((RiserEdit.start r s).quiet (quiet_postChangeover ..)).riserTo .individual
      .complete false).startSettle).setCtx none).quiet (quiet_evaluateAll ..)).count.undrain) (grants_sublist_self s)))

theorem budget_ctx {s r c} (h : WithinBudget s) : WithinBudget (s.setCtx r c) := h

theorem budget_rollTest {s r c} (h : WithinBudget s) : WithinBudget (s.rollTest r c) := by
  unfold State.rollTest; split
  · split
    · exact h
    · exact h
  · split
    · exact budget_rollEnds h
    · exact h
  all_goals exact h

theorem budget_dropTest {s r c} (h : WithinBudget s) : WithinBudget (s.dropTest r c) := by
  unfold State.dropTest; split
  · split
    · exact budget_ceCancel h
    · exact h
  · split
    · exact budget_ceCancel h
    · exact h
  · split
    · exact budget_ceCancel h
    · exact budget_rollTest h
  · split
    · exact budget_leaveC h
    · exact h
  · exact budget_rollTest h
  · exact h

theorem budget_drop {s u} (h : WithinBudget s) : WithinBudget (s.drop u) := by
  unfold State.drop; split
  · exact h
  · split
    · exact budget_dropTest (budget_ctx h)
    · exact h
/-! ## Recompute and revocation -/

theorem eq_nil_of_latestOfLowest (rank) (l : List RiserNo) : latestOfLowest rank l = none → l = [] := by
  cases l with
  | nil => intro _; rfl
  | cons a l => intro h; unfold latestOfLowest at h; split at h; cases h; split at h <;> cases h

theorem mem_of_latestOfLowest (rank) : ∀ (l : List RiserNo) r, latestOfLowest rank l = some r → r ∈ l := by
    intro l; induction l with
    | nil => intro r h; cases h
    | cons a l ih =>
      intro r h; unfold latestOfLowest at h
      split at h
      · cases h; simp
      · next q hq =>
        split at h
        · cases h; simp
        · cases h; simp [ih _ hq]

theorem chooseRevoked_fits (w rank b) : ∀ n (l : List RiserNo), l.length ≤ n
    → sumWeights w ((chooseRevoked w rank b n l).foldl (fun l r => l.erase r) l) ≤ b := by
  intro n; induction n with
  | zero => intro l h; have : l = [] := List.eq_nil_of_length_eq_zero (by omega); subst this; simp [chooseRevoked,
      sumWeights]
  | succ n ih =>
    intro l h; unfold chooseRevoked; split
    · split
      · next hl => have := eq_nil_of_latestOfLowest _ _ hl; subst this; simp [sumWeights]
      · next r hr =>
        have := List.length_erase_of_mem (mem_of_latestOfLowest _ _ _ hr)
        have e : (l.erase r).length ≤ n := by omega
        exact ih (l.erase r) e
    · simp only [List.foldl_nil]; omega

theorem revokeOne_foldl (l : List RiserNo) : ∀ s :
    State, (l.foldl State.revokeOne s).sba.grants = l.foldl (fun l r => l.erase r) s.sba.grants
    ∧ (l.foldl State.revokeOne s).sba.bEff = s.sba.bEff
    ∧ ∀ p, ((l.foldl State.revokeOne s).riser p).cfg = (s.riser p).cfg := by
  induction l with
  | nil => intro s; exact ⟨rfl, rfl, fun _ => rfl⟩
  | cons a l ih => intro s; obtain ⟨a1, a2, a3⟩ := ih (s.revokeOne a); exact ⟨a1, a2, a3⟩

theorem budget_revoke (s : State) : WithinBudget s.revoke := by
  unfold State.revoke; dsimp only
  refine WithinBudget.dec ?_ (noMoreGranted_fold (fun s r => noMoreGranted_withdraw s r .revoked) _ _)
  obtain ⟨a1, a2, a3⟩ := revokeOne_foldl (chooseRevoked s.weight s.rank s.sba.bEff s.sba.grants.length s.sba.grants) s
  unfold WithinBudget State.committed
  rw [a1, a2]
  have : (List.foldl State.revokeOne s
      (chooseRevoked s.weight s.rank s.sba.bEff s.sba.grants.length s.sba.grants)).weight = s.weight := by
    funext p; exact congrArg RiserCfg.weight (a3 p)
  rw [this]
  exact chooseRevoked_fits _ _ _ _ _ (Nat.le_refl _)

theorem budget_recompute {s} (h : WithinBudget s) : WithinBudget s.recompute := by
  unfold State.recompute; dsimp only; split
  · exact h
  · split
    · exact budget_scan (budget_revoke _)
    · next h1 =>
      refine budget_scan ?_
      unfold WithinBudget at *
      show s.committed ≤ s.budgetNow
      omega

theorem budget_fold {α} {f : State → α → State} (hf : ∀ s a, WithinBudget s → WithinBudget (f s a)) (l : List α) :
    ∀ s, WithinBudget s → WithinBudget (l.foldl f s) := by
  induction l with
  | nil => intro s g; exact g
  | cons a l ih => intro s g; exact ih _ (hf s a g)

theorem budget_stationEvent {s st} (g : WithinBudget s) : WithinBudget (s.stationEvent st) := by
  unfold State.stationEvent State.recountAll
  refine budget_fold (fun s r g => budget_recount g) _ _ (budget_q ?_ (quiet_evaluateAll ..))
  unfold State.recomputeFor
  split
  · exact budget_recompute g
  · exact g

theorem budget_joinIf {s r} (g : WithinBudget s) : WithinBudget (s.joinIfIndividual r) := by
  unfold State.joinIfIndividual; split
  · exact budget_join g
  · exact g

theorem noMoreGranted_emR (s r) : NoMoreGranted s (s.emergencyRiser r) := by
  unfold State.emergencyRiser; split
  · exact .ed (RiserEdit.start r s).clearSettle (grants_sublist_self s)
  · exact .ed (((RiserEdit.start r s).riserTo .individual .emergency true).clearSettle.dequeue) (grants_sublist_self s)
  · exact .ed (((RiserEdit.start r s).riserTo .individual .emergency true).clearSettle.ungrant)
      (grants_erase_sublist s r)
  · exact .ed (((RiserEdit.start r s).riserTo .individual .emergency true).clearSettle.ungrant)
      (grants_erase_sublist s r)
  · exact .ed (((RiserEdit.start r s).riserTo .individual .emergency true).clearSettle.undrain) (grants_sublist_self s)

theorem budget_edge {s role a b} (g : WithinBudget s) : WithinBudget (s.edgeEffect role a b) := by
  unfold State.edgeEffect
  split
  · exact budget_recompute g
  · split
    · exact g
    · split
      · exact budget_fold (fun s r g => budget_withdraw g) _ _ g
      · exact budget_fold (fun s r g => budget_joinIf g) _ _ g
  · split
    · exact g
    · split
      · unfold State.emergencyOn
        exact budget_fold (fun s r g => budget_emergencyUnit g) _ _
            (WithinBudget.dec (s := s.abandonContexts) g (noMoreGranted_fold noMoreGranted_emR _ _))
      · exact budget_fold (fun s r g => budget_own g) _ _
          (g.dec (noMoreGranted_fold (fun s r => .ed (RiserEdit.start r s).startSettle (grants_sublist_self s)) _ _))
  all_goals exact g

end Sys2Proof.Machine
end

