-- ==== Sys2Proof/Laws/Requests.lean ====
section
/-! SUPPORT. Laws/Requests.lean: what taking a request comes to, said once for every kind (R169, R170, R173). -/

namespace Sys2Proof.Machine

/-- With the buffer empty the taking frees no slot. -/
theorem taken_of_empty {s : State} (h : s.slp.requests = []) : s.taken = s := by
  obtain ⟨p, slp, u, st, r, t, sba, ce, flc, lu, nq, n⟩ := s
  obtain ⟨o, held, spd, rx, rq, reply, stx, rs⟩ := slp
  simp only at h
  subst h
  rfl

/-- The frame taken: its slot, if it stood in one, is freed. -/
theorem takeFrame_eq {s : State} {f : SupFrame} (h : s.takes f) : s.takeFrame f = some s.taken := by
  obtain ⟨hc, hr⟩ := h
  unfold State.takeFrame
  rw [if_pos hc]
  rcases hl : s.slp.requests with _ | ⟨g, rest⟩
  · rw [taken_of_empty hl]
  · rw [hl] at hr
    have hg : g = f := by simpa using hr
    simp only [hg, if_true, State.taken, State.modSlp, hl, List.tail_cons]

/-- A frame that is not the one taken now is not taken. -/
theorem takeFrame_none {s : State} {f : SupFrame} (h : ¬ s.takes f) : s.takeFrame f = none := by
  unfold State.takeFrame
  split
  · next hc =>
    split
    · next hl => exact absurd ⟨hc, .inl hl⟩ h
    · next g rest hl =>
      split
      · next e => exact absurd ⟨hc, .inr (by rw [hl, e]; rfl)⟩ h
      · rfl
  · rfl

/-- A request taken with a length and in a state that the catalogue allows is handled by its rule. -/
theorem request_handled {s : State} {k : ReqKind} {tag : Byte} {body : List Byte} (handle : State → State × Reply)
    (ht : s.takes ⟨k.code, tag, body⟩) (hl : k.lengthOk body.length = true) (ho : k.allowed s.slp.opState = true) :
    s.request k tag body handle = (handle s.taken).1.answer k.code tag (handle s.taken).2 := by
  unfold State.request
  rw [takeFrame_eq ht]
  have ho' : k.allowed s.taken.slp.opState = true := ho
  simp only [hl, ho', Bool.not_true, Bool.false_eq_true, if_false]

/-- A request with a length the catalogue does not allow is refused with FRAME_LENGTH. -/
theorem request_length {s : State} {k : ReqKind} {tag : Byte} {body : List Byte} (handle : State → State × Reply)
    (ht : s.takes ⟨k.code, tag, body⟩) (hl : k.lengthOk body.length = false) :
    s.request k tag body handle = s.taken.answer k.code tag (.refuse .frameLength (byteOf body.length)) := by
  unfold State.request
  rw [takeFrame_eq ht]
  simp only [hl, Bool.not_false, if_true]

/-- A request in a state that the catalogue does not allow is refused with WRONG_STATE. -/
theorem request_state {s : State} {k : ReqKind} {tag : Byte} {body : List Byte} (handle : State → State × Reply)
    (ht : s.takes ⟨k.code, tag, body⟩) (hl : k.lengthOk body.length = true) (ho : k.allowed s.slp.opState = false) :
    s.request k tag body handle = s.taken.answer k.code tag (.refuse .wrongState (opStateCode s.slp.opState)) := by
  unfold State.request
  rw [takeFrame_eq ht]
  have ho' : k.allowed s.taken.slp.opState = false := ho
  simp only [hl, ho', Bool.not_true, Bool.not_false, Bool.false_eq_true, if_false, if_true]
  rfl

/-- A request whose frame is not the one taken now changes nothing. -/
theorem request_none {s : State} {k : ReqKind} {tag : Byte} {body : List Byte} (handle : State → State × Reply)
    (ht : ¬ s.takes ⟨k.code, tag, body⟩) : s.request k tag body handle = s := by
  unfold State.request
  rw [takeFrame_none ht]

/-- What the taking of a frame leaves. -/
theorem taken_slp (s : State) : s.taken.slp = { s.slp with requests := s.slp.requests.tail } := rfl

@[simp] theorem taken_running (s : State) : s.taken.running = s.running := rfl
@[simp] theorem taken_unit (s : State) (u : UnitNo) : s.taken.unit u = s.unit u := rfl
@[simp] theorem taken_station (s : State) (st : StationNo) : s.taken.station st = s.station st := rfl
@[simp] theorem taken_riser (s : State) (r : RiserNo) : s.taken.riser r = s.riser r := rfl
@[simp] theorem taken_ctx (s : State) (r : RiserNo) : s.taken.ctx r = s.ctx r := rfl
@[simp] theorem taken_line (s : State) (l : LineNo) : s.taken.line l = s.line l := rfl

/-- What an answer leaves of everything but the port. -/
theorem answer_modSlp (kind tag : Byte) (r : Reply) (s : State) : ∃ f, s.answer kind tag r = s.modSlp f := ⟨_, rfl⟩

@[simp] theorem answer_nq (kind tag : Byte) (r : Reply) (s : State) : (s.answer kind tag r).nq = s.nq := rfl
@[simp] theorem answer_pending (kind tag : Byte) (r : Reply) (s : State) : (s.answer kind tag r).pending = s.pending := rfl
@[simp] theorem answer_flc (kind tag : Byte) (r : Reply) (s : State) : (s.answer kind tag r).flc = s.flc := rfl
@[simp] theorem answer_unit (kind tag : Byte) (r : Reply) (s : State) (u : UnitNo) :
    (s.answer kind tag r).unit u = s.unit u := rfl
@[simp] theorem answer_riser (kind tag : Byte) (r : Reply) (s : State) (q : RiserNo) :
    (s.answer kind tag r).riser q = s.riser q := rfl
@[simp] theorem answer_requests (kind tag : Byte) (r : Reply) (s : State) :
    (s.answer kind tag r).slp.requests = s.slp.requests := rfl
@[simp] theorem answer_receiver (kind tag : Byte) (r : Reply) (s : State) :
    (s.answer kind tag r).slp.receiver = s.slp.receiver := rfl

/-- A number in 0..k-1 sent as a byte names itself. -/
theorem numbered_byteOf {k : Nat} (i : Fin k) (h : k ≤ 256) : numbered k (byteOf i.val).toNat = some i := by
  have e : (byteOf i.val).toNat = i.val := by
    unfold byteOf
    rw [BitVec.toNat_ofNat]
    exact Nat.mod_eq_of_lt (by omega)
  unfold numbered
  rw [e, dif_pos i.isLt]

theorem toNat_byteOf {n : Nat} (h : n < 256) : (byteOf n).toNat = n := by
  unfold byteOf
  rw [BitVec.toNat_ofNat]
  exact Nat.mod_eq_of_lt h

/-- The two bytes of a field give the field back (R183). -/
theorem wordOf_bytes (w : Word) : wordOf (w.extractLsb' 8 8) (w.extractLsb' 0 8) = w := by
  apply BitVec.eq_of_getLsbD_eq
  intro i hi
  unfold wordOf
  rw [BitVec.getLsbD_append, BitVec.getLsbD_extractLsb', BitVec.getLsbD_extractLsb']
  split
  · next h => simp [h]
  · next h =>
    have e : 8 + (i - 8) = i := by omega
    have e' : i - 8 < 8 := by omega
    simp [e, e']

/-- A number of 16 bits sent in two bytes is read back (R183). -/
theorem toInt_num16 {n : Int} (h : -32768 ≤ n ∧ n < 32768) : (BitVec.ofInt 16 n).toInt = n := by
  rw [BitVec.toInt_ofInt]
  exact Int.bmod_eq_of_le (by omega) (by omega)

theorem toNat_num16 {n : Nat} (h : n < 65536) : (BitVec.ofInt 16 (n : Int)).toNat = n := by
  rw [BitVec.toNat_ofInt]
  omega

end Sys2Proof.Machine
end

