-- ==== Sys2Proof/Laws/Handlers.lean ====
section
/-! SUPPORT. Laws/Handlers.lean: what the owning rule of each request kind, and each event of the part's own, keeps. -/

namespace Sys2Proof.Machine

/-- What every request's rule keeps: the commands waiting, the receiver, the request buffer, and the safety of the notice
queue. -/
structure Stays (s t : State) : Prop where
  pending : t.pending = s.pending
  receiver : t.slp.receiver = s.slp.receiver
  requests : t.slp.requests = s.slp.requests
  nqSafe : NqSafe s.nq → NqSafe t.nq

theorem Keeps.stays {s t : State} (h : Keeps s t) : Stays s t :=
  ⟨h.pending, by rw [h.slp], by rw [h.slp], h.nqSafe⟩

theorem Stays.trans {a b c : State} (h : Stays a b) (k : Stays b c) : Stays a c :=
  ⟨k.pending.trans h.pending, k.receiver.trans h.receiver, k.requests.trans h.requests, fun q => k.nqSafe (h.nqSafe q)⟩

/-- What a request leaves: nothing changed, the frame taken and refused, or the rule's outcome answered. -/
theorem request_cases (k : ReqKind) (tag : Byte) (body : List Byte) (handle : State → State × Reply) (s : State) :
    s.request k tag body handle = s ∨ (∃ r, s.request k tag body handle = s.taken.answer k.code tag r) ∨
      s.request k tag body handle = (handle s.taken).1.answer k.code tag (handle s.taken).2 := by
  by_cases ht : s.takes ⟨k.code, tag, body⟩
  · cases hl : k.lengthOk body.length
    · exact .inr (.inl ⟨_, request_length handle ht hl⟩)
    · cases ho : k.allowed s.slp.opState
      · exact .inr (.inl ⟨_, request_state handle ht hl ho⟩)
      · exact .inr (.inr (request_handled handle ht hl ho))
  · exact .inl (request_none handle ht)

/-! ## The rules of the request kinds -/

theorem stays_loadRecord {α : Type} (p : Except Nat α) (store : α → State → State) (s : State)
    (h : ∀ c, Stays s (store c s)) : Stays s (loadRecord p store s).1 := by
  unfold loadRecord
  split
  · exact (Keeps.rfl s).stays
  · exact h _

theorem stays_loadItem {α : Type} (k : Nat) (p : List Byte → Except Nat α) (store : Fin k → α → State → State)
    (body : List Byte) (s : State) (h : ∀ i c, Stays s (store i c s)) : Stays s (loadItem k p store body s).1 := by
  unfold loadItem
  split
  · exact (Keeps.rfl s).stays
  · split
    · exact (Keeps.rfl s).stays
    · exact stays_loadRecord _ _ s (h _)

theorem keeps_takeStation (body : List Byte) (s : State) : Keeps s (State.takeStation body s).1 := by
  unfold State.takeStation
  split
  · split
    · exact .rfl s
    · exact (keeps_commitStation ..).trans (ran_grantOnWork _).keeps
  · exact .rfl s

theorem keeps_applyOverride (u : UnitNo) (m : Option ModeSpeed) (s : State) : Keeps s (s.applyOverride u m) := by
  unfold State.applyOverride
  exact .ite (.rfl s) (((Keeps.modDecision ..).trans (keeps_setControl ..)).trans (cascade_ownEvent ..).keeps)

theorem keeps_takeOverride (body : List Byte) (s : State) : Keeps s (State.takeOverride body s).1 := by
  unfold State.takeOverride
  split
  · split
    · exact .rfl s
    · split
      · exact .rfl s
      · split
        · exact .rfl s
        · exact (keeps_applyOverride ..).trans (ran_grantOnWork _).keeps
  · exact .rfl s

theorem keeps_lockOn (r : RiserNo) (s : State) : Keeps s (s.lockOn r) :=
  .ite (.rfl s) ((Keeps.modLive ..).trans (cascade_withdraw ..).keeps)

theorem keeps_lockOff (r : RiserNo) (s : State) : Keeps s (s.lockOff r) :=
  (Keeps.modLive r (fun l => { l with locked := false }) s).trans (cascade_joinIfIndividual ..).keeps

theorem keeps_takeLock (body : List Byte) (s : State) : Keeps s (State.takeLock body s).1 := by
  unfold State.takeLock
  split
  · split
    · exact .rfl s
    · split
      · exact .rfl s
      · exact (Keeps.ite (keeps_lockOn ..) (keeps_lockOff ..)).trans (ran_grantOnWork _).keeps
  · exact .rfl s

theorem keeps_takePost (body : List Byte) (s : State) : Keeps s (State.takePost body s).1 := by
  unfold State.takePost
  split
  · exact .rfl s
  · split
    · exact .rfl s
    · split
      · exact .rfl s
      · split
        · exact .rfl s
        · exact (Keeps.modFlc ..).trans (ran_grantOnWork _).keeps

theorem keeps_takeMail (s : State) : Keeps s s.takeMail.1 := by
  unfold State.takeMail
  have h : Keeps s s.clearMail := .modFlc ..
  split
  · exact h
  · exact h
  all_goals exact .rfl s

/-- SET_SETPOINT changes no configuration field but T_sp of one unit. -/
theorem stays_takeSetpoint (body : List Byte) (s : State) : Stays s (State.takeSetpoint body s).1 := by
  unfold State.takeSetpoint
  split
  · split
    · exact (Keeps.rfl s).stays
    · unfold State.evaluateSetpoint
      have h (u : UnitNo) (t : Int) : Stays s (s.writeSetpoint u t) := ⟨rfl, rfl, rfl, id⟩
      split
      · exact (h ..).trans ((cascade_ownEvent ..).keeps.trans (ran_grantOnWork _).keeps).stays
      · exact h ..
  · exact (Keeps.rfl s).stays

/-- A raised mask leaves the queue safe (R191). -/
theorem NqSafe.setMask {q : Nq} (h : NqSafe q) {m : Nat} (hm : m ≤ 3) : NqSafe (q.setMask m) := by
  have sub : (keptByMask q.mask m q.queue).Sublist q.queue := by
    unfold keptByMask
    split
    · exact List.filter_sublist
    · exact List.Sublist.refl _
  refine ⟨hm, Nat.le_trans sub.length_le h.short, h.sorted.sublist sub, fun n hn => ?_,
    fun n hn => h.levels n (sub.subset hn)⟩
  by_cases hm : q.mask < m
  · have e : (q.setMask m).queue = q.queue.filter fun n => decide (m ≤ n.level) := if_pos hm
    rw [e] at hn
    exact of_decide_eq_true (List.mem_filter.1 hn).2
  · exact Nat.le_trans (Nat.le_of_not_lt hm) (h.masked n (sub.subset hn))

theorem stays_takeMask (body : List Byte) (s : State) : Stays s (State.takeMask body s).1 := by
  unfold State.takeMask
  split
  · split
    · exact (Keeps.rfl s).stays
    · next hm => exact ⟨rfl, rfl, rfl, fun h => h.setMask (Nat.le_of_not_lt hm)⟩
  · exact (Keeps.rfl s).stays

theorem stays_takeClear (body : List Byte) (s : State) : Stays s (State.takeClear body s).1 := by
  unfold State.takeClear
  split
  · split
    · exact ⟨rfl, rfl, rfl, fun h => ⟨h.range, h.short, h.sorted, h.masked, h.levels⟩⟩
    · exact (Keeps.rfl s).stays
  · exact (Keeps.rfl s).stays

theorem stays_clearLive (s : State) : Stays s s.clearLive := ⟨rfl, rfl, rfl, id⟩

theorem stays_beginRun (o : OpState) (s : State) : Stays s (s.beginRun o) := by
  unfold State.beginRun
  have h : Stays s ((s.modSlp fun p => { p with opState := o }).modFlc fun f => f.runStart s.tower.speed).clearLive :=
    ⟨rfl, rfl, rfl, id⟩
  refine .trans (.trans h ?_) (cascade_recompute _).keeps.stays
  exact (Keeps.foldl (fun s r => Keeps.modLive r _ s) _ _).stays

theorem stays_startRun (body : List Byte) (s : State) : Stays s (State.startRun body s).1 := by
  unfold State.startRun
  split
  · split
    · exact (Keeps.rfl s).stays
    · split
      · exact (Keeps.rfl s).stays
      · exact (stays_beginRun ..).trans (ran_grantOnWork _).keeps.stays
  · exact (Keeps.rfl s).stays

theorem stays_endRun (s : State) : Stays s s.endRun := ⟨rfl, rfl, rfl, id⟩

/-! ## The part's own events -/

theorem keeps_tick (s : State) : Keeps s s.tick :=
  ⟨rfl, rfl,
    ⟨fun u => by simp [State.tick, State.unit, UnitRec.tick], fun st => by simp [State.tick, State.station, StationRec.tick],
      fun r => by simp [State.tick, State.riser, RiserRec.tick], fun _ => rfl, rfl⟩, id, rfl⟩

theorem keeps_doneExpires (r : RiserNo) (c : Ctx) (s : State) : Keeps s (s.doneExpires r c) :=
  ((Keeps.setCtx ..).trans (.foldl (fun _ _ => Keeps.modDecision ..) _ _)).trans (cascade_rollEnds ..).keeps

theorem keeps_requestSent (s : State) : Keeps s s.requestSent := by
  unfold State.requestSent
  split
  · exact .rfl s
  · exact .ite (.modFlc ..) (.rfl s)

theorem keeps_broadcastEnds (s : State) : Keeps s s.broadcastEnds := by
  unfold State.broadcastEnds
  split
  · exact .rfl s
  · exact .ite ((Keeps.modFlc ..).trans (ran_grantNext _).keeps) (.rfl s)

theorem keeps_defer (s : State) : Keeps s s.defer := by
  unfold State.defer
  split
  · exact .rfl s
  · split
    · exact .ite (.modFlc ..) (keeps_finishTxn ..)
    · exact .rfl s

theorem keeps_setPin (l : LineNo) (high : Bool) (s : State) : Keeps s (s.setPin l high) :=
  ⟨rfl, rfl, ⟨fun _ => rfl, fun _ => rfl, fun _ => rfl, fun _ => rfl, rfl⟩, id, rfl⟩

theorem keeps_readPin (l : LineNo) (s : State) : Keeps s (s.readPin l) := by
  unfold State.readPin
  refine .ite (.modLine l _ s ?_) (.rfl s)
  exact fun _ => rfl

end Sys2Proof.Machine
end

