-- ==== Sys2Proof/Laws/CoherentLink.lean ====
section
/-! SUPPORT. Laws/CoherentLink.lean: the Condition Table's hand-offs, the grants and the outcomes of transactions keep the
relation of Laws/Coherent.lean. -/

namespace Sys2Proof.Machine

/-! ## The Condition Table -/

theorem coherent_modUnit {s} (u f) (g : Coherent s [] []) : Coherent (s.modUnit u f) [] [] := g.quiet (.modUnit ..)

theorem coherent_setControl {s u k} (g : Coherent s [] []) : Coherent (s.setControl u k) [] [] := by
  unfold State.setControl; split
  · exact coherent_drop (g.quiet (.modDecision ..))
  · exact g.quiet (.modDecision ..)

theorem coherent_takeHand {s u} (g : Coherent s [] []) : Coherent (s.takeHand u) [] [] := by
  unfold State.takeHand; dsimp only; split
  · exact g
  · exact coherent_setControl (g.quiet (quiet_postHand ..))

theorem coherent_takeReading {s u} (g : Coherent s [] []) : Coherent (s.takeReading u) [] [] :=
  (((coherent_takeHand g).quiet (quiet_clearLate ..)).quiet (quiet_evaluate ..)).quiet (quiet_resync ..)

theorem coherent_commit {s u f} (g : Coherent s [] []) : Coherent (s.commit u f) [] [] := by
  unfold State.commit
  refine coherent_recount
      (coherent_takeReading
      (Coherent.quiet (coherent_modUnit u (fun x => { x with reading := commitReading f x.reading }) g) ?_))
  exact .ite (.post ..) (.rfl _)

theorem coherent_changeCondition {s u c} (g : Coherent s [] []) : Coherent (s.changeCondition u c) [] [] :=
  coherent_own (coherent_modUnit u _ g)

theorem quiet_modStation (st f) (s : State) : Quiet s (s.modStation st f) := ⟨rfl, rfl, rfl, rfl, rfl⟩

theorem coherent_commitStation {s st t w v} (g : Coherent s [] []) : Coherent (s.commitStation st t w v) [] [] := by
  unfold State.commitStation
  refine coherent_stationEvent ?_
  have := g.quiet (quiet_modStation st (fun x => { x with live := Machine.commitStation t w v }) s)
  split
  · exact this
  · exact this.quiet (.post ..)

theorem coherent_stale {s st} (g : Coherent s [] []) : Coherent (s.staleStation st) [] [] := by
  have e : s.staleStation st =
      ((s.modStation st fun x => { x with live := { x.live with status := .stale } }).post 2 (.station st)
      (.stationStatus .stale)).stationEvent st := rfl
  rw [e]
  apply coherent_stationEvent
  apply Coherent.quiet _ (Quiet.post ..)
  exact g.quiet (quiet_modStation ..)
/-! ## Outcomes of transactions -/

theorem ctx_of_keyCtx {s key c} (h : State.keyCtx key s = some c) : s.ctx key.riser = some c := by
  unfold State.keyCtx at h
  cases hc : s.ctx key.riser with
  | none => rw [hc] at h; cases h
  | some d =>
    rw [hc] at h; dsimp only at h
    split at h
    · exact h
    · cases h

theorem coherent_setCtx' {s r c d} (g : Coherent s [] []) (hc : s.ctx r = some c) (hd : d.direction = c.direction)
    (hp : d.phase = c.phase) : Coherent (s.setCtx r (some d)) [] [] :=
  coherent_setCtx g _ (by intro c' e; cases e; rw [hd, hp]; exact g.ctxs r c hc)

theorem coherent_rollTakes {s r c u a} (g : Coherent s [] []) (hc : s.ctx r = some c) : Coherent (s.rollTakes r c u a)
    [] [] := by
  unfold State.rollTakes
  have at_ : ∀ d, (s.setCtx r (some d)).ctx r = some d := fun d => by rw [setCtx_ctx, if_pos rfl]
  split
  · exact g
  · next st =>
      exact coherent_rollTest (c.withStatus u st) (coherent_setCtx' (d := c.withStatus u st) g hc rfl rfl)
          (at_ _) rfl rfl
  · exact coherent_ceCancel (c.withStatus u .refused) (coherent_setCtx' (d := c.withStatus u .refused) g hc rfl rfl)
      (at_ _) rfl rfl .refused
  · refine coherent_setCtx' g hc ?_ ?_ <;> unfold Ctx.queueRepair <;> split <;> rfl

theorem coherent_query {s k u o} (g : Coherent s [] []) : Coherent (s.queryOutcome k u o) [] [] := by
  unfold State.queryOutcome
  split
  · next c tag token h =>
    split
    · exact g
    · split
      · exact coherent_rollTakes g (ctx_of_keyCtx h)
      · exact g
  · exact g

theorem coherent_repair {s k u} (g : Coherent s [] []) : Coherent (s.repairOutcome k u) [] [] := by
  unfold State.repairOutcome
  split
  · exact g
  · next c h => exact coherent_setCtx' g (ctx_of_keyCtx h) rfl rfl

theorem coherent_hand {s q u o} (g : Coherent s [] []) : Coherent (s.handOutcome q u o) [] [] := by
  unfold State.handOutcome
  split
  · split
    · exact coherent_commit g
    all_goals exact g
  · exact g.quiet (quiet_commandOutcome ..)
  · exact g.quiet (quiet_mailOutcome ..)
  · exact coherent_query g
  · exact coherent_repair g
  · exact g
  · exact g

theorem coherent_goOffline {s u} (g : Coherent s [] []) : Coherent (s.goOffline u) [] [] := by
  unfold State.goOffline
  refine coherent_changeCondition (Coherent.quiet (coherent_drop ?_) (quiet_failMail ..))
  exact (Coherent.quiet (Coherent.quiet (coherent_modUnit u (fun x => { x with presence := .offline }) g) (.post ..))
      (.modFlc _ _ rfl))

theorem coherent_takeMiss {s t u} (g : Coherent s [] []) : Coherent (s.takeMiss t u) [] [] := by
  unfold State.takeMiss; dsimp only
  split
  · exact coherent_goOffline (coherent_modUnit u _ g)
  · exact coherent_hand (coherent_modUnit u _ g)

theorem coherent_takeAnswer {s t u o} (g : Coherent s [] []) : Coherent (s.takeAnswer t u o) [] [] := by
  unfold State.takeAnswer; dsimp only
  have g0 := coherent_modUnit u (fun x => { x with misses := 0 }) g
  split
  · exact coherent_hand g0
  · have g1 : Coherent (State.goOnline u (s.modUnit u fun x => { x with misses := 0 })) [] [] := Coherent.quiet
      (coherent_modUnit u (fun x => { x with presence := .online }) g0) (.post ..)
    split
    · exact coherent_hand g1
    · exact coherent_recount (coherent_hand g1)
/-! ## Grants -/

theorem coherent_flc {s} (f) (g : Coherent s [] []) : Coherent (s.modFlc f) [] [] :=
  ⟨g.queue, g.grants, g.adm, g.once, g.draining, g.ctxs⟩

theorem coherent_beginB {s fr r} (g : Coherent s [] []) : Coherent (s.beginBroadcast fr r) [] [] :=
  ⟨g.queue, g.grants, g.adm, g.once, g.draining, g.ctxs⟩

theorem coherent_beginU {s fr q u} (g : Coherent s [] []) : Coherent (s.beginUnicast fr q u) [] [] :=
  ⟨g.queue, g.grants, g.adm, g.once, g.draining, g.ctxs⟩

theorem coherent_grantBroadcast {s r c} (g : Coherent s [] []) (hc : s.ctx r = some c) : Coherent (s.grantBroadcast r c)
    [] [] := by
  have hx := g.ctxs r c hc
  have hb : ∀ fr, Coherent (s.beginBroadcast fr r) [] [] := fun fr => coherent_beginB g
  unfold State.grantBroadcast
  cases hp : c.phase <;> cases hd : c.direction <;> rw [hp, hd] at hx <;> simp only [stateOfCtx,
      Option.some.injEq] at hx <;> dsimp only
  all_goals first
    | exact g
    | cases hx
    | (refine Coherent.quiet (coherent_setCtx (hb _) _ ?_)
        (.foldl (quiet_setGroupMode _) _ _); intro c' e; cases e; show stateOfCtx c.direction
        .rollDone = _; rw [hd]; exact congrArg some hx)
    | (refine coherent_setCtx (hb _) _ ?_; intro c' e; cases e; show stateOfCtx c.direction
        .rollReady = _; rw [hd]; exact congrArg some hx)
    | exact coherent_cancelComplete (hb _) hx.symm

theorem coherent_grant {s k} (g : Coherent s [] []) : Coherent (s.grant k) [] [] := by
  unfold State.grant
  have g := coherent_flc (fun f => { f with guarantee := guaranteeAfter (s.hasWork .poll) k f.guarantee }) g
  generalize s.modFlc _ = s at *
  unfold State.grantClass
  cases k <;> dsimp only
  · unfold State.grantChangeover
    split
    · exact g
    · next r _ =>
      split
      · exact g
      · next c hc =>
        split
        · exact g
        · have g := coherent_flc (fun f => { f with lastServed := r }) g
          unfold State.grantCtx
          split
          · exact coherent_grantBroadcast g hc
          · exact coherent_beginU g
          · exact coherent_setCtx' (c := c) (coherent_beginU g) hc rfl rfl
  · unfold State.grantCommand; split
    · exact g
    · exact coherent_beginU g
  · unfold State.grantMail; split
    · exact coherent_flc _ (coherent_beginU g)
    · exact g
  · unfold State.grantPoll; split
    · exact g
    · exact coherent_flc _ (coherent_beginU g)

theorem coherent_beginT {s fr q u v} (g : Coherent s [] []) : Coherent (s.beginTxn fr q u v) [] [] :=
  ⟨g.queue, g.grants, g.adm, g.once, g.draining, g.ctxs⟩

theorem coherent_grantNext {s} (g : Coherent s [] []) : Coherent s.grantNext [] [] := by
  unfold State.grantNext
  split
  · exact g
  · split
    · exact coherent_beginT (coherent_flc _ g)
    · split
      · split
        · exact g
        · exact coherent_grant g
      · exact g

theorem coherent_gow {s} (g : Coherent s [] []) : Coherent s.grantOnWork [] [] := by
  unfold State.grantOnWork
  split
  · split
    · exact g
    · refine coherent_grant ?_
      exact ⟨g.queue, g.grants, g.adm, g.once, g.draining, g.ctxs⟩
  · exact coherent_grantNext g

theorem coherent_finish {s t u o} (g : Coherent s [] []) : Coherent (s.finishTxn t u o) [] [] := by
  unfold State.finishTxn
  refine coherent_grantNext (coherent_flc _ ?_)
  split
  · split
    · exact coherent_takeMiss g
    · exact coherent_takeAnswer g
  · exact g

theorem coherent_lockOn {s r} (g : Coherent s [] []) : Coherent (s.lockOn r) [] [] := by
  unfold State.lockOn; split
  · exact g
  · exact coherent_withdraw'
      (g.same
      (RiserEdit.modRiser (fun x => { x with live := { x.live with locked := true } }) (fun _ => rfl) _
      (RiserEdit.start r s) rfl)) _ _

theorem coherent_lockOff {s r} (g : Coherent s [] []) : Coherent (s.lockOff r) [] [] := by
  unfold State.lockOff
  exact coherent_joinIf
      (g.same
      (RiserEdit.modRiser (fun x => { x with live := { x.live with locked := false } }) (fun _ => rfl) _
      (RiserEdit.start r s) rfl))

theorem coherent_override {s u m} (g : Coherent s [] []) : Coherent (s.applyOverride u m) [] [] := by
  unfold State.applyOverride; dsimp only; split
  · exact g
  · exact coherent_own (coherent_setControl (g.quiet (.modDecision ..)))

theorem coherent_doneExpires {s r c} (g : Coherent s [] []) (hc : s.ctx r = some c) (hp : c.phase = .rollDone) :
    Coherent (s.doneExpires r c) [] [] := by
  unfold State.doneExpires
  have g1 : Coherent (s.setCtx r (some c.withLate)) [] [] := coherent_setCtx' g hc rfl rfl
  have q : Quiet (s.setCtx r (some c.withLate))
      (c.lateUnits.foldl (State.markLate c.direction) (s.setCtx r (some c.withLate))) := .foldl
      (fun s u => Quiet.modDecision ..) _ _
  have g2 := g1.quiet q
  refine coherent_rollEnds g2 ?_
  have := g2.ctxs r c.withLate (by unfold State.ctx; rw [q.ce]; show (s.setCtx r _).ctx r = _; rw [setCtx_ctx,
      if_pos rfl])
  rw [← this]; show _ = stateOfCtx c.direction c.phase; rw [hp]; rfl

theorem coherent_tick {s} (g : Coherent s [] []) : Coherent s.tick [] [] := by
  have e : ∀ r, (s.tick.riser r).live.state = (s.riser r).live.state ∧ (s.tick.riser r).cfg = (s.riser r).cfg := by
    intro r; show ((mapTable RiserRec.tick s.risers)[r]).live.state = _ ∧ ((mapTable RiserRec.tick s.risers)[r]).cfg = _
    rw [mapTable_get]; exact ⟨rfl, rfl⟩
  refine ⟨fun r => ?_, fun r => ?_, fun r h => (by cases h), g.once, ?_, fun r c h => ?_⟩
  · rw [(e r).1]; exact g.queue r
  · rw [(e r).1]; exact g.grants r
  · show s.sba.draining = _; rw [g.draining, leavingWeight_eq_sum,
      leavingWeight_eq_sum]; unfold State.weight; simp only [e]
  · rw [(e r).1]
    have hx : s.tick.ctx r = (s.ctx r).map Ctx.tick := by show (mapTable (fun c => c.map Ctx.tick) s.ce.ctxs)[r] = _; rw [mapTable_get]; rfl
    rw [hx] at h
    cases hc : s.ctx r with
    | none => rw [hc] at h; cases h
    | some d => rw [hc] at h; cases h; exact g.ctxs r d hc

end Sys2Proof.Machine
end

