-- ==== Sys2Proof/Laws/Records.lean ====
section
/-! SUPPORT. Laws/Records.lean: reading back the parts a configuration record is laid out in. -/

namespace Sys2Proof.Machine

theorem firstBad_cons (i : Nat) (b : Bool) (l) : firstBad i (b :: l) = if b then firstBad (i+1) l else some i :=
  by cases b <;> rfl

theorem firstBad_nil (i : Nat) : firstBad i [] = none := rfl

theorem firstBad_none {l : List Bool} : ∀ {i}, firstBad i l = none ↔ ∀ b ∈ l, b = true := by
  induction l with
  | nil => intro i; simp [firstBad]
  | cons a l ih => intro i; rw [firstBad_cons]; cases a <;> simp [ih]

theorem num16_eq (n : Int) : num16 n = [(BitVec.ofInt 16 n).extractLsb' 8 8, (BitVec.ofInt 16 n).extractLsb' 0 8] := rfl

theorem n8_byteOf {n : Nat} (h : n < 256) : n8 (byteOf n) = n := by simp [n8, toNat_byteOf h]

theorem n16_num {n : Nat} (h : n < 65536) : n16 ((BitVec.ofInt 16 (n:Int)).extractLsb' 8 8)
    ((BitVec.ofInt 16 (n:Int)).extractLsb' 0 8) = n := by
  unfold n16; rw [wordOf_bytes, toNat_num16 h]

theorem w16_num {n : Nat} (h : n < 65536) :
    (wordOf ((BitVec.ofInt 16 (n:Int)).extractLsb' 8 8) ((BitVec.ofInt 16 (n:Int)).extractLsb' 0 8)).toNat = n := by
  rw [wordOf_bytes, toNat_num16 h]

theorem i16_num {n : Int} (h : -32768 ≤ n ∧ n < 32768) : i16 ((BitVec.ofInt 16 n).extractLsb' 8 8)
    ((BitVec.ofInt 16 n).extractLsb' 0 8) = n := by
  unfold i16; rw [wordOf_bytes, toInt_num16 h]

theorem within_iff {a b x : Int} : within a b x = true ↔ a ≤ x ∧ x ≤ b := by simp [within]

theorem n8_flag (b : Bool) : n8 (flagByte b) = if b then 1 else 0 := by cases b <;> decide

theorem flag_eq (b : Bool) : (flagByte b == 1) = b := by cases b <;> decide

theorem place_byteOf {n : Nat} [NeZero n] (i : Fin n) (h : n ≤ 256) : placeOf n (byteOf i.val) = i := by
  unfold placeOf; rw [toNat_byteOf (by omega)]; apply Fin.ext; simp [Fin.ofNat, Nat.mod_eq_of_lt i.isLt]

theorem byte_eq_of_toNat {b : Byte} {n : Nat} (h : b.toNat = n) : byteOf n = b := by
  subst h; unfold byteOf; simp

theorem num16_word (h l : Byte) : num16 ((wordOf h l).toNat : Nat) = [h, l] := by
  have : BitVec.ofInt 16 ((wordOf h l).toNat : Int) = wordOf h l := by simp
  unfold num16; rw [this]; unfold bytesOf wordOf
  congr 1
  · apply BitVec.eq_of_getLsbD_eq; intro i hi; rw [BitVec.getLsbD_extractLsb', BitVec.getLsbD_append]; simp [hi]
  · congr 1
    apply BitVec.eq_of_getLsbD_eq; intro i hi; rw [BitVec.getLsbD_extractLsb', BitVec.getLsbD_append]; simp [hi]

theorem num16_i16 (h l : Byte) : num16 (i16 h l) = [h, l] := by
  have := num16_word h l
  unfold i16
  have e : BitVec.ofInt 16 (wordOf h l).toInt = BitVec.ofInt 16 ((wordOf h l).toNat : Int) := by simp
  unfold num16 at *
  rw [e]; exact this

theorem byteOf_toNat (b : Byte) : byteOf b.toNat = b := byte_eq_of_toNat rfl

theorem flag_back {p : Byte} (h : 0 ≤ n8 p ∧ n8 p ≤ 1) : flagByte (p == 1) = p := by
  unfold n8 at h
  have : p.toNat = 0 ∨ p.toNat = 1 := by omega
  rcases this with h | h
  · have : p = 0#8 := BitVec.eq_of_toNat_eq h
    subst this; rfl
  · have : p = 1#8 := BitVec.eq_of_toNat_eq h
    subst this; rfl

theorem place_back {n : Nat} [NeZero n] {b : Byte} {k : Int} (h : 0 ≤ n8 b ∧ n8 b ≤ k) (hk : k < n) :
    byteOf (placeOf n b).val = b := by
  apply byte_eq_of_toNat
  unfold n8 at h
  simp [placeOf, Fin.ofNat]
  rw [Nat.mod_eq_of_lt (by omega)]

theorem le_of_within {p : Byte} {k : Nat} (h : 0 ≤ n8 p ∧ n8 p ≤ k) : p.toNat ≤ k := by unfold n8 at h; omega

theorem find_fins_eq_none {n} (bad : Fin n → Bool) : (fins n).find? bad = none ↔ ∀ i, bad i = false := by
  rw [List.find?_eq_none]
  exact ⟨fun h i => by simpa using h i (mem_fins i), fun h i _ => by simp [h i]⟩

theorem find_fins_eq_some {n} (bad : Fin n → Bool) (i : Fin n) (h : bad i = true) (hlt : ∀ j, j < i → bad j = false) :
    (fins n).find? bad = some i := by
  induction n with
  | zero => exact i.elim0
  | succ n ih =>
    rw [show fins (n+1) = 0 :: (fins n).map Fin.succ from rfl, List.find?_cons]
    cases i using Fin.cases with
    | zero => rw [h]
    | succ j =>
      rw [hlt 0 (Fin.succ_pos j)]
      dsimp only
      rw [List.find?_map]
      rw [ih (bad ∘ Fin.succ) j h (fun k hk => hlt _ (Fin.succ_lt_succ_iff.2 hk))]
      rfl

end Sys2Proof.Machine
end

