-- ==== Sys2Proof/Laws/FieldFrames.lean ====
section
/-! SUPPORT. Laws/FieldFrames.lean: a received field frame is well formed exactly where its bytes are those of a frame a
UIM may send (R127, R184). -/

namespace Sys2Proof.Machine

theorem replyFits_iff (kind : Byte) (n : Nat) : replyFits kind n = true ↔
    kind = 0x41 ∧ n = 6 ∨ kind = 0x42 ∧ n = 0 ∨ kind = 0x43 ∧ n = 1 ∨ kind = 0x44 ∧ n = 0 ∨ kind = 0x45 ∧ n = 2 ∨
      kind = 0x46 ∧ 1 ≤ n ∧ n ≤ 32 := by
  unfold replyFits
  by_cases a : kind = 0x41
  · subst a; simp
  by_cases b : kind = 0x42
  · subst b; simp
  by_cases c : kind = 0x43
  · subst c; simp
  by_cases d : kind = 0x44
  · subst d; simp
  by_cases e : kind = 0x45
  · subst e; simp
  by_cases f : kind = 0x46
  · subst f; simp
  rw [if_neg a, if_neg b, if_neg c, if_neg d, if_neg e, if_neg f]
  refine ⟨fun h => absurd h Bool.false_ne_true, fun h => ?_⟩
  rcases h with h | h | h | h | h | h
  · exact absurd h.1 a
  · exact absurd h.1 b
  · exact absurd h.1 c
  · exact absurd h.1 d
  · exact absurd h.1 e
  · exact absurd h.1 f

/-- A frame of a UIM fits its kind. -/
theorem FieldFrame.FromUim.fits {f : FieldFrame} (h : f.FromUim) : replyFits f.kind f.body.length = true :=
  (replyFits_iff ..).2 h

theorem FieldFrame.FromUim.short {f : FieldFrame} (h : f.FromUim) : f.body.length ≤ 32 := by
  rcases h with h | h | h | h | h | h
  all_goals have := h.2; omega

/-- The bytes of a UIM's frame are received as that frame. -/
theorem receivedFrame_bytes {f : FieldFrame} (h : f.FromUim) : receivedFrame f.bytes = some f := by
  have hs := h.short
  have hl : (byteOf f.body.length).toNat = f.body.length := toNat_byteOf (by omega)
  have t1 : (f.body ++ bytesOf (crc16 f.covered)).take f.body.length = f.body := List.take_left
  have t2 : (f.body ++ bytesOf (crc16 f.covered)).drop f.body.length = bytesOf (crc16 f.covered) := List.drop_left
  show receivedFrame (f.address :: f.kind :: byteOf f.body.length :: (f.body ++ bytesOf (crc16 f.covered))) = some f
  unfold receivedFrame
  dsimp only
  rw [hl, t1, t2]
  exact if_pos ⟨by omega, by rw [List.length_append]; rfl, h.fits, rfl⟩

/-- A well-formed received frame is a frame a UIM may send, and its bytes are those received. -/
theorem bytes_of_receivedFrame {b : List Byte} {f : FieldFrame} (h : receivedFrame b = some f) :
    f.FromUim ∧ f.bytes = b := by
  unfold receivedFrame at h
  split at h
  · next address kind len rest =>
    split at h
    · next c =>
      cases h
      obtain ⟨c1, c2, c3, c4⟩ := c
      have hl : (rest.take len.toNat).length = len.toNat := by rw [List.length_take]; omega
      have hb : byteOf len.toNat = len := BitVec.eq_of_toNat_eq (toNat_byteOf (by omega))
      refine ⟨(replyFits_iff ..).1 (by rw [hl]; exact c3), ?_⟩
      show address :: kind :: byteOf (rest.take len.toNat).length ::
        (rest.take len.toNat ++ bytesOf (crc16 (address :: kind :: byteOf (rest.take len.toNat).length :: rest.take len.toNat)))
          = address :: kind :: len :: rest
      rw [hl, hb, ← c4, List.take_append_drop]
    · cases h
  · cases h

/-- Bytes that are no UIM's frame are a check failure. -/
theorem receivedFrame_none {b : List Byte} (h : ∀ f : FieldFrame, f.FromUim → f.bytes ≠ b) : receivedFrame b = none := by
  cases hb : receivedFrame b with
  | none => rfl
  | some f => exact absurd (bytes_of_receivedFrame hb).2 (h f (bytes_of_receivedFrame hb).1)

/-- The command of a frame that carries the addressed unit's address. -/
theorem fieldCommand_own {f : FieldFrame} {a : Byte} (h : f.FromUim) (ha : f.address = a) :
    fieldCommand a f.bytes = replyCommand f.kind f.body := by
  unfold fieldCommand
  rw [receivedFrame_bytes h]
  exact if_pos ha

/-- The command of a frame that carries another address. -/
theorem fieldCommand_foreign {f : FieldFrame} {a : Byte} (h : f.FromUim) (ha : f.address ≠ a) :
    fieldCommand a f.bytes = .foreignAddressFrame f.bytes := by
  unfold fieldCommand
  rw [receivedFrame_bytes h]
  exact if_neg ha

end Sys2Proof.Machine
end

