-- ==== Sys2Proof/WellFormed.lean ====
section
/-! DEFINITION. WellFormed.lean: which operands a command can carry on this hardware. `exec` gives every command a
meaning, ill-formed ones included; a claim may ask for well-formedness. -/

namespace Sys2Proof

/-- A body that fits a supervisor frame (R168, R183). -/
def bodyFits (body : List Byte) : Bool := decide (body.length ≤ 120)

/-- Whether the operands are ones the links can carry. -/
def Instr.wf : Instr → Bool
  | .powerOn _ | .resetPinAssert | .resetPinRelease _ | .supplyLowRestart _ | .restartTakesEffect _ => true
  | .supervisorFrameComplete bytes => decide (1 ≤ bytes.length) && decide (bytes.length ≤ 126)
  | .supervisorInterByteGap before _ => decide (before.length ≤ 125)
  | .supervisorLengthDiscard before length => decide (before.length ≤ 125) && decide (120 < length.value.toNat)
  | .supervisorFrameSent | .noticeSend => true
  | .unknownKind kind _ body => !Machine.isRequestCode kind && bodyFits body
  | .loadUnit _ body | .loadRiser _ body | .loadStation _ body | .loadLine _ body | .loadTower _ body
  | .readConfig _ body | .startRun _ body | .stopRun _ body | .restart _ body | .stationReading _ body
  | .setSetpoint _ body | .setOverride _ body | .lockRiser _ body | .readUnit _ body | .readRiser _ body
  | .readStation _ body | .readBudget _ body | .readStatus _ body | .setNoticeMask _ body | .flushNotices _ body
  | .clearFlags _ body | .postMail _ body | .takeMail _ body | .cancelMail _ body => bodyFits body
  | .secondsTimebaseTick | .unitStaleLimit _ | .stationMaxAge _ | .dwellExpiry _ | .settleExpiry _
  | .readyWindowExpiry _ | .doneWindowExpiry _ | .sweepStart | .rollPassDue _ => true
  | .fieldRequestSent | .replyWindowExpiry | .fieldInterByteGap | .broadcastQuietGapEnd | .readingReceived _ _ _ _
  | .ackReceived | .nakReceived _ | .deferReceived | .phaseReceived _ _ | .fieldCheckFailure => true
  | .mailReplyReceived bytes => decide (1 ≤ bytes.length) && decide (bytes.length ≤ 32)
  | .foreignAddressFrame bytes => (Machine.receivedFrame bytes).isSome
  | .linePinChange _ _ | .lineFilterExpiry _ => true

end Sys2Proof
end

