-- ==== Sys2Proof/Tests/Slice0.lean ====
section
/-! SUPPORT. Tests/Slice0.lean: the smoke test of the well-formedness check, figures worked in the spec, and for every
statement with hypotheses a state and operands that meet them. -/

open Sys2Proof Sys2Proof.Machine

namespace Sys2Proof.Tests

set_option Elab.async false

/-! ## Well-formedness: an ill-formed term for each check -/

theorem test_wf_body : (Instr.flushNotices 0 (List.replicate 121 0)).wf = false := by decide +kernel
theorem test_wf_unknownKind_body : (Instr.unknownKind 0x00 0 (List.replicate 121 0)).wf = false := by decide +kernel
theorem test_wf_unknownKind_isRequest : (Instr.unknownKind 0x41 0 []).wf = false := by decide +kernel
theorem test_wf_frameComplete_empty : (Instr.supervisorFrameComplete []).wf = false := by decide +kernel
theorem test_wf_frameComplete_long : (Instr.supervisorFrameComplete (List.replicate 127 ⟨0, true⟩)).wf = false := by
  decide +kernel
theorem test_wf_gap_long : (Instr.supervisorInterByteGap (List.replicate 126 ⟨0, true⟩) ⟨0, true⟩).wf = false := by
  decide +kernel
theorem test_wf_discard_short : (Instr.supervisorLengthDiscard [⟨0xA5, true⟩] ⟨120, true⟩).wf = false := by
  decide +kernel
theorem test_wf_discard_long :
    (Instr.supervisorLengthDiscard (List.replicate 126 ⟨0, true⟩) ⟨121, true⟩).wf = false := by decide +kernel
theorem test_wf_mailReply_empty : (Instr.mailReplyReceived []).wf = false := by decide +kernel
theorem test_wf_mailReply_long : (Instr.mailReplyReceived (List.replicate 33 0)).wf = false := by decide +kernel
theorem test_wf_foreign : (Instr.foreignAddressFrame [2, 0x42, 0, 0, 0]).wf = false := by decide +kernel
theorem test_wf_foreign_good : (Instr.foreignAddressFrame (FieldFrame.bytes ⟨2, 0x42, []⟩)).wf = true := by
  decide +kernel
theorem test_wf_good :
    (Instr.flushNotices 0 (List.replicate 120 0)).wf = true ∧ (Instr.supervisorLengthDiscard [] ⟨121, true⟩).wf = true ∧
    (Instr.mailReplyReceived (List.replicate 32 0)).wf = true ∧ (Instr.unknownKind 0x80 0 []).wf = true := by
  decide +kernel

/-- No row of the table gives bits: no word spells a command. -/
theorem test_no_table_word : decodeTableWord 8 0 = none ∧ State.reset.withFetchWord 8 0 = State.reset := ⟨rfl, rfl⟩

/-! ## Figures worked in the spec -/

/-- R183: the CRC over the nine ASCII digits. -/
theorem test_crc : crc16 [0x31, 0x32, 0x33, 0x34, 0x35, 0x36, 0x37, 0x38, 0x39] = 0x29B1 := by decide +kernel

/-- R127, R129, R184: the command that received bytes are, with unit address 2: a PHASE, the same with a bad CRC, the same
from address 3, a kind that is none of the six, and a body one byte short. -/
theorem test_fieldCommand :
    fieldCommand 2 (FieldFrame.bytes ⟨2, 0x45, [7, 2]⟩) = .phaseReceived 7 2 ∧
    fieldCommand 2 [2, 0x45, 2, 7, 2, 0, 0] = .fieldCheckFailure ∧
    fieldCommand 2 (FieldFrame.bytes ⟨3, 0x45, [7, 2]⟩) =
      .foreignAddressFrame (FieldFrame.bytes ⟨3, 0x45, [7, 2]⟩) ∧
    fieldCommand 2 (FieldFrame.bytes ⟨2, 0x47, []⟩) = .fieldCheckFailure ∧
    fieldCommand 2 (FieldFrame.bytes ⟨2, 0x45, [7]⟩) = .fieldCheckFailure := by decide +kernel

/-- 02, worked enthalpies. -/
theorem test_enthalpy : enthalpy 2450 93 = 4833 ∧ enthalpy (-1250) 12 = -960 ∧ enthalpy 1600 70 = 3381 ∧
    enthalpy (-4000) 0 = -4024 ∧ enthalpy 6000 300 = 13874 ∧ roundDiv (-9605) 10 = -961 := by decide +kernel

/-- The unit of the worked wheel cases. -/
def wheelUnit : UnitCfg := { epsilon := 750 }

/-- 02, worked wheel cases, the first three rows and the two below them. -/
theorem test_wheel :
    rawSpeed wheelUnit 2200 (-800) = 103 ∧ exhaustLeaving 750 (wheelSpeed wheelUnit 2200 (-800)) 2200 (-800) = -50 ∧
    rawSpeed wheelUnit 2200 (-1200) = 106 ∧ exhaustLeaving 750 (wheelSpeed wheelUnit 2200 (-1200)) 2200 (-1200) = -350 ∧
    wheelSpeed wheelUnit 2200 500 = 79 ∧ effEpsilon 750 79 = 593 ∧ exhaustLeaving 750 79 2200 500 = 1192 ∧
    wheelSpeed wheelUnit 2200 1350 = 24 ∧ exhaustLeaving 750 24 2200 1350 = 2047 ∧
    rawSpeed wheelUnit 2200 1450 = 9 ∧ wheelSpeed wheelUnit 2200 1450 = 20 ∧
    exhaustLeaving 750 20 2200 1450 = 2087 := by
  decide +kernel

/-- 03, worked preference. -/
theorem test_preference :
    (preferenceTests wheelUnit {} (some .bypass) ⟨2450, 93⟩ ⟨1600, 70, 0⟩).preference = .freeCool ∧
    (preferenceTests wheelUnit {} (some .bypass) ⟨2450, 93⟩ ⟨1600, 125, 0⟩).preference = .bypass ∧
    (preferenceTests wheelUnit {} (some .freeCool) ⟨2450, 93⟩ ⟨1600, 125, 0⟩).preference = .freeCool ∧
    (preferenceTests wheelUnit {} (some .defrost) ⟨2200, 80⟩ ⟨-800, 0, 0⟩).preference = .defrost ∧
    (preferenceTests wheelUnit {} none ⟨2200, 80⟩ ⟨-800, 0, 0⟩).preference = .recoverHeat := by decide +kernel

/-- A tower and reference station of the worked budget sequence. -/
def workedBudget (status : StationStatus) (t : Int) (wind : Nat) : Nat :=
  effectiveBudget { bBase := 300, k := 40 } { air := some ⟨t, 9, wind⟩, status := status } false

/-- 02, worked budget sequence. -/
theorem test_budget : workedBudget .fresh (-1420) 180 = 80 ∧ workedBudget .fresh (-1390) 120 = 161 ∧
    workedBudget .stale (-1390) 120 = 80 ∧ workedBudget .fresh (-4000) 600 = 28 ∧ workedBudget .none 0 0 = 0 := by
  decide +kernel

/-- 05, first fit: a queue of risers 2, 0 and 4 with 30, 25 and 10 points, and a headroom of 50. -/
theorem test_firstFit :
    scanWalk (fun r => if r = 2 then 30 else if r = 0 then 25 else 10) 50 [2, 0, 4] = ([0], [2, 4]) := by decide +kernel

/-- 05, equal ranks: of risers 2, 0 and 1 the latest of lowest rank goes first. -/
theorem test_revoked :
    let w : RiserNo → Nat := fun r => if r = 2 then 30 else if r = 0 then 25 else 20
    let rank : RiserNo → Nat := fun r => if r = 2 then 2 else 1
    chooseRevoked w rank 55 3 [2, 0, 1] = [1] ∧ chooseRevoked w rank 40 3 [2, 0, 1] = [1, 0] := by decide +kernel

/-! ## Small states -/

/-- CONFIG with a small plant loaded: units 0 and 1 on riser 0, station 0 for both, line 0 the emergency input. -/
def bench : State :=
  { State.reset with
    units := updTable (updTable State.reset.units 0 fun x => { x with cfg := { x.cfg with present := true } }) 1
      fun x => { x with cfg := { x.cfg with present := true, address := 2 } }
    stations := updTable State.reset.stations 0 fun x => { x with cfg := { x.cfg with present := true } }
    risers := updTable State.reset.risers 0 fun x => { x with cfg := { x.cfg with present := true } }
    lu := { State.reset.lu with lines := updTable State.reset.lu.lines 0 fun x => { x with cfg := { x.cfg with role := .inEmergency } } } }

/-- The bench in a run, both units ONLINE and FRESH, the station FRESH, the budget 100, riser 0 FREE, the sweep at its
end. -/
def plant : State :=
  { bench with
    slp := { opState := .coordinate }
    units := mapTable (fun x =>
      if x.cfg.present then
        { x with presence := .online, reading := { x.reading with air := some ⟨2100, 80⟩, condition := .fresh } }
      else x) bench.units
    stations := updTable bench.stations 0 fun x => { x with live := { air := some ⟨1500, 70, 0⟩, status := .fresh } }
    risers := updTable bench.risers 0 fun x => { x with live := { x.live with state := .free, memberCount := 2 } }
    sba := { bEff := 100, grants := [0] }
    flc := { sweep := { running := true, cursor := 24 } } }

/-- A transaction with unit 0, its reply window open. -/
def txn (q : Requester) : Txn :=
  { frame := ⟨1, 0x01, []⟩, requester := q, unit := some 0, stage := .window 40, speed := .baud38400 }

/-- A state with this transaction in progress. -/
def busy (x : Txn) (s : State) : State := s.modFlc fun f => { f with link := some x }

/-- A context of riser 0 with unit 0 in this status. -/
def oneCtx (d : Direction) (ph : Phase) (st : PartStatus) (window : Option Nat) : Ctx :=
  { direction := d, tag := 7, phase := ph, participants := [⟨0, st⟩], window := window }

/-- The plant with riser 0 in a changeover. -/
def changing (c : Ctx) (st : RiserState) : State :=
  { plant with
    ce := { ctxs := updTable plant.ce.ctxs 0 fun _ => some c }
    risers := updTable plant.risers 0 fun x => { x with live := { x.live with state := st } } }

/-- The port takes a frame when the buffer is empty, no reply is pending and the part is alive. -/
theorem takes_of_empty {s : State} {f : SupFrame} (h : s.canTake = true) (k : s.slp.requests = []) : s.takes f :=
  ⟨h, .inl k⟩

/-! ## Each statement's hypotheses are met -/

theorem test_meets_StepTakesTheFront : State.reset.pending = [] := rfl

theorem nqSafe_reset : NqSafe State.reset.nq :=
  ⟨by decide +kernel, by decide +kernel, by decide +kernel, by decide +kernel, by decide +kernel⟩

/-- No context in a state whose table of contexts is that of reset. -/
theorem noCtx_of_reset {s : State} (h : s.ce = State.reset.ce) (r : RiserNo) : s.ctx r = none := by
  unfold State.ctx
  rw [h]
  exact (by decide +kernel : ∀ q, State.reset.ctx q = none) r

theorem test_meets_NoticeQueueKept :
    ∃ s t : State, NqSafe s.nq ∧
    step s = .next t := ⟨{ State.reset with pending := [.noticeSend] }, _, nqSafe_reset, rfl⟩

theorem test_meets_RequestBufferKept : ∃ s t : State, SlpSafe s.slp ∧ step s = .next t := by
  let s : State :=
    { State.reset with
      pending := [.supervisorFrameComplete []]
      slp := { receiver := .inFrame [120, 1] true, requests := [⟨1, 2, List.replicate 120 0⟩, ⟨3, 4, []⟩] } }
  exact ⟨s, _, ⟨(by decide +kernel : (120 : Byte).toNat ≤ 120 ∧
    2 < frameEnd 120), by decide +kernel, by decide +kernel⟩, rfl⟩

/-- The plant is safe, with a riser that holds a grant. -/
theorem groupsSafe_plant : GroupsSafe plant where
  queue := by decide +kernel
  grants := by decide +kernel
  once := by decide +kernel
  draining := by decide +kernel
  ctxs r c h := by rw [noCtx_of_reset (s := plant) rfl] at h; cases h
  config h := absurd h (by decide +kernel)
  link h := absurd h (by decide +kernel)

theorem budgetSafe_plant : BudgetSafe plant where
  fits := by decide +kernel
  config h := absurd h (by decide +kernel)
  link h := absurd h (by decide +kernel)

theorem test_meets_GroupsKept :
    ∃ s t : State, GroupsSafe s ∧ s.sba.grants ≠ [] ∧ step s = .next t :=
  ⟨{ plant with pending := [.settleExpiry 0] }, _,
    ⟨groupsSafe_plant.queue, groupsSafe_plant.grants, groupsSafe_plant.once, groupsSafe_plant.draining,
      groupsSafe_plant.ctxs, groupsSafe_plant.config, groupsSafe_plant.link⟩, by decide +kernel, rfl⟩

theorem test_meets_BudgetKept :
    ∃ s t : State, BudgetSafe s ∧ s.sba.grants ≠ [] ∧ step s = .next t :=
  ⟨{ plant with pending := [.settleExpiry 0] }, _, ⟨budgetSafe_plant.fits, budgetSafe_plant.config,
      budgetSafe_plant.link⟩, by decide +kernel, rfl⟩

theorem test_meets_TablesChangeOnlyByTheirRequests_exec :
    ∃ t : State, exec (.dwellExpiry 0) plant = .next t ∧
    (∀ spd, Instr.dwellExpiry 0 ≠ .powerOn spd) := ⟨_, rfl, by intro _ h; cases h⟩

theorem test_meets_TablesChangeOnlyByTheirRequests_run :
    ∃ s t : State, (s.running = true → s.configProblem = none) ∧ step s = .next t ∧ t.running = true :=
  ⟨{ plant with pending := [.settleExpiry 0] }, _, fun _ => by decide +kernel, rfl, by decide +kernel⟩

theorem test_meets_ResetPinStopsThePart : let s := plant.modSlp fun p => { p with resetHeld := true }
    s.slp.resetHeld = true ∧ Instr.ackReceived ≠ .powerOn true ∧ Instr.ackReceived ≠ .resetPinAssert ∧
    Instr.ackReceived ≠ .linePinChange 0 true ∧
    ((s.modLine 0 fun x => { x with cfg := { x.cfg with role := .outFree } }).line 0).cfg.role = .outFree ∧
    ((s.modLine 0 fun x => { x with cfg := { x.cfg with role := .outFault } }).line 0).cfg.role = .outFault := by
  decide +kernel

theorem test_meets_RestartKeepsTheTables :
    plant.takes ⟨0x12, 9, []⟩ ∧
    (let s := { plant with slp := { opState := .coordinate, restart := .due } }; s.slp.resetHeld = false ∧
    s.slp.restart = .due) := ⟨takes_of_empty rfl rfl, rfl, rfl⟩

theorem test_meets_FrameOnTheLineIsReceived : let f : SupFrame := ⟨0x34, 1, []⟩
    let g : SupFrame := ⟨0x50, 1, List.replicate 120 0⟩
    plant.slp.resetHeld = false ∧ plant.slp.receiver = .hunting ∧ f.body.length ≤ 120 ∧ g.body.length ≤ 120 ∧
    exec (.supervisorFrameComplete (f.bytes.map fun b => ⟨b, true⟩)) plant =
      .next { plant with slp := { plant.slp with requests := [f] } } := by
  exact ⟨rfl, rfl, by decide +kernel, by decide +kernel, congrArg Host.Outcome.next (by decide +kernel)⟩

theorem test_meets_BadFramesAreDiscarded : let f : SupFrame := ⟨0x34, 1, []⟩
    let g : SupFrame := ⟨0x50, 1, List.replicate 120 0⟩
    plant.slp.receiver = .hunting ∧ f.body.length ≤ 120 ∧ g.body.length ≤ 120 ∧
    (List.replicate 6 true).length = f.body.length + 6 ∧
    (0 : Word) ≠ crc16 f.covered ∧ false ∈ List.replicate 5 true ++ [false] ∧ 1 < f.bytes.length ∧
    f.bytes.length - 1 < f.bytes.length ∧ 120 < (121 : Byte).toNat := by decide +kernel

theorem test_meets_FrameSentFreesTheLine :
    (plant.modSlp fun p => { p with stx := .reply, reply := some ⟨0x80, 1, []⟩, restart := .accepted }).slp.stx =
      .reply ∧
    (plant.modSlp fun p => { p with stx := .notice ⟨3, .none, .start .powerOn⟩ }).slp.stx =
      .notice ⟨3, .none, .start .powerOn⟩ ∧ plant.slp.stx = .idle ∧ plant.slp.resetHeld = false := by decide +kernel

theorem test_meets_HeadNoticeIsSent :
    State.reset.slp.resetHeld = false ∧ State.reset.slp.restart ≠ .due ∧
    State.reset.nq.queue = ⟨3, .none, .start .powerOn⟩ :: [] ∧ State.reset.slp.stx = .idle ∧
    State.reset.slp.reply = none ∧
    ({ State.reset with nq := {} } : State).nq.queue = [] := by decide +kernel

theorem test_meets_CatalogueRefusals :
    (∀ k ∈ ReqKind.all, k.code ≠ 0x80) ∧ plant.takes ⟨0x80, 1, []⟩ ∧
    requestOf (.loadUnit 1 []) = some (.loadUnit, 1, []) ∧ plant.takes ⟨0x01, 1, []⟩ ∧
    ReqKind.lengthOk .loadUnit 0 = false ∧
    ReqKind.lengthOk .loadUnit 24 = true ∧ ReqKind.allowed .loadUnit .coordinate = false ∧
    ¬ ({ State.reset with slp := { reply := some ⟨0x80, 1, []⟩ } } : State).takes ⟨0x01, 1, []⟩ :=
  ⟨by decide +kernel, takes_of_empty rfl rfl, rfl, takes_of_empty rfl rfl, rfl, rfl, rfl, fun h => by cases h.1⟩

theorem inRange_unit : ({} : UnitCfg).InRange := by constructor <;> decide +kernel
theorem inRange_riser : ({} : RiserCfg).InRange := by constructor <;> decide +kernel
theorem inRange_tower : ({} : TowerCfg).InRange := by constructor <;> decide +kernel
theorem inRange_station : ({} : StationCfg).InRange := (by decide +kernel : 10 ≤ 600 ∧ 600 ≤ 3600)
theorem inRange_line : ({} : LineCfg).InRange := (by decide +kernel : 10 ≤ 100 ∧ 100 ≤ 2000)

theorem test_meets_RecordsRoundTrip :
    ({} : UnitCfg).InRange ∧ ({} : RiserCfg).InRange ∧ ({} : StationCfg).InRange ∧ ({} : LineCfg).InRange ∧
    ({} : TowerCfg).InRange ∧ parseUnit (unitBytes {}) = .ok {} ∧ parseRiser (riserBytes {}) = .ok {} ∧
    parseStation (stationBytes {}) = .ok {} ∧ parseLine (lineBytes {}) = .ok {} ∧
    parseTower (towerBytes {}) = .ok {} :=
  ⟨inRange_unit, inRange_riser, inRange_station, inRange_line, inRange_tower, rfl, rfl, rfl, rfl, rfl⟩

theorem test_meets_LoadStoresTheRecord :
    bench.slp.opState = .config ∧ bench.takes ⟨0x01, 1, byteOf (0 : UnitNo).val :: unitBytes {}⟩ ∧
    bench.takes ⟨0x02, 1, byteOf (5 : RiserNo).val :: riserBytes {}⟩ ∧
    bench.takes ⟨0x03, 1, byteOf (7 : StationNo).val :: stationBytes {}⟩ ∧
    bench.takes ⟨0x04, 1, byteOf (5 : LineNo).val :: lineBytes {}⟩ ∧ bench.takes ⟨0x05, 1, towerBytes {}⟩ ∧
    ({} : UnitCfg).InRange ∧ ({} : RiserCfg).InRange ∧ ({} : StationCfg).InRange ∧ ({} : LineCfg).InRange ∧
    ({} : TowerCfg).InRange :=
  ⟨rfl, takes_of_empty rfl rfl, takes_of_empty rfl rfl, takes_of_empty rfl rfl, takes_of_empty rfl rfl,
    takes_of_empty rfl rfl, inRange_unit, inRange_riser, inRange_station, inRange_line, inRange_tower⟩

/-- Bytes that spell no record: the presence byte is above 1. -/
theorem test_meets_LoadRefusals :
    bench.slp.opState = .config ∧ bench.takes ⟨0x01, 1, 24 :: List.replicate 23 2⟩ ∧
    (List.replicate 23 (2 : Byte)).length = 23 ∧ 24 ≤ (24 : Byte).toNat ∧ (23 : Byte).toNat < 24 ∧
    (∀ c : UnitCfg, unitBytes c ≠ List.replicate 23 2) ∧ (∀ c : RiserCfg, riserBytes c ≠ List.replicate 10 2) ∧
    (∀ c : StationCfg, stationBytes c ≠ List.replicate 3 2) ∧ (∀ c : LineCfg, lineBytes c ≠ List.replicate 4 255) ∧
    ∀ c : TowerCfg, c.InRange → towerBytes c ≠ List.replicate 14 255 := by
  have flag : ∀ b, flagByte b ≠ 2 := by decide +kernel
  have role : ∀ r, roleCode r ≠ 255 := fun r => by cases r <;> decide +kernel
  refine ⟨rfl, takes_of_empty rfl rfl, rfl, by decide +kernel, by decide +kernel, fun c h => ?_, fun c h => ?_,
      fun c h => ?_,
    fun c h => ?_, fun c k h => ?_⟩
  · exact flag _ (List.head_eq_of_cons_eq h)
  · exact flag _ (List.head_eq_of_cons_eq h)
  · exact flag _ (List.head_eq_of_cons_eq h)
  · exact role _ (List.head_eq_of_cons_eq h)
  · have e := List.head_eq_of_cons_eq h
    have := c.reference.isLt
    have e' := congrArg BitVec.toNat e
    rw [toNat_byteOf (by omega)] at e'
    have : (255 : Byte).toNat = 255 := rfl
    omega

/-- In each table a record whose field `i` is the first out of its range. -/
theorem test_meets_LoadRefusals_firstField :
    (bench.takes ⟨0x01, 1, 23 :: ([1, 62, 5, 7] ++ bytesOf 950 ++ [50, 5] ++ bytesOf (-2000) ++ bytesOf 3000 ++
      bytesOf 500 ++ bytesOf 1000 ++ bytesOf 300 ++ bytesOf 30 ++ [250, 7, 16])⟩ ∧
      let good := [decide ((1 : Byte).toNat ≤ 1), decide (1 ≤ (62 : Byte).toNat ∧ (62 : Byte).toNat ≤ 62),
        decide ((5 : Byte).toNat ≤ 5), decide ((7 : Byte).toNat ≤ 7), decide ((950 : Word).toNat ≤ 950),
        decide (10 ≤ (50 : Byte).toNat ∧ (50 : Byte).toNat ≤ 50), decide (5 ≤ (5 : Byte).toNat ∧ (5 : Byte).toNat ≤ 50),
        decide (-2000 ≤ (-2000 : Word).toInt ∧ (-2000 : Word).toInt ≤ 500),
        decide (1000 ≤ (3000 : Word).toInt ∧ (3000 : Word).toInt ≤ 3000),
        decide (50 ≤ (500 : Word).toNat ∧ (500 : Word).toNat ≤ 500), decide ((1000 : Word).toNat ≤ 1000),
        decide ((300 : Word).toNat ≤ 300), decide (30 ≤ (30 : Word).toNat ∧ (30 : Word).toNat ≤ 3600),
        decide (5 ≤ (250 : Byte).toNat ∧ (250 : Byte).toNat ≤ 250), decide ((7 : Byte).toNat ≤ 7),
        decide (1 ≤ (16 : Byte).toNat ∧ (16 : Byte).toNat ≤ 15)]
      (∀ j, j < 15 → good[j]? = some true) ∧ good[15]? = some false) ∧
    (bench.takes ⟨0x02, 1, 5 :: ([1, 100, 3, 8, 9] ++ bytesOf 600 ++ [30] ++ bytesOf 300)⟩ ∧
      let good := [decide ((1 : Byte).toNat ≤ 1), decide (1 ≤ (100 : Byte).toNat ∧ (100 : Byte).toNat ≤ 100),
        decide ((3 : Byte).toNat ≤ 3), decide (1 ≤ (8 : Byte).toNat ∧ (8 : Byte).toNat ≤ 8),
        decide (1 ≤ (9 : Byte).toNat ∧ (9 : Byte).toNat ≤ (8 : Byte).toNat)]
      (∀ j, j < 4 → good[j]? = some true) ∧ good[4]? = some false) ∧
    (bench.takes ⟨0x03, 1, 7 :: 1 :: bytesOf 9⟩ ∧
      let good := [decide ((1 : Byte).toNat ≤ 1), decide (10 ≤ (9 : Word).toNat ∧ (9 : Word).toNat ≤ 3600)]
      (∀ j, j < 1 → good[j]? = some true) ∧ good[1]? = some false) ∧
    (bench.takes ⟨0x04, 1, 5 :: ([5, 1] ++ bytesOf 2001)⟩ ∧
      let good := [decide ((5 : Byte).toNat ≤ 5), decide ((1 : Byte).toNat ≤ 1),
        decide (10 ≤ (2001 : Word).toNat ∧ (2001 : Word).toNat ≤ 2000)]
      (∀ j, j < 2 → good[j]? = some true) ∧ good[2]? = some false) ∧
    bench.takes ⟨0x05, 1, 8 :: (bytesOf 1500 ++ bytesOf 400 ++ bytesOf 1000 ++ bytesOf 600 ++ bytesOf 600 ++
      [1, 2, 60])⟩ ∧ (∀ j, j < 0 → False) ∧ [decide ((8 : Byte).toNat ≤ 7)][0]? = some false :=
  ⟨⟨takes_of_empty rfl rfl, by decide +kernel⟩, ⟨takes_of_empty rfl rfl, by decide +kernel⟩,
    ⟨takes_of_empty rfl rfl, by decide +kernel⟩, ⟨takes_of_empty rfl rfl, by decide +kernel⟩,
    takes_of_empty rfl rfl, by decide +kernel⟩

theorem test_meets_ReadConfigReturnsTheRecord :
    plant.takes ⟨0x06, 1, [1, byteOf (23 : UnitNo).val]⟩ ∧ plant.takes ⟨0x06, 1, [5, 0]⟩ ∧
    plant.takes ⟨0x06, 1, [0, 0]⟩ ∧ ((0 : Byte).toNat < 1 ∨ 5 < (0 : Byte).toNat) ∧
    ((6 : Byte).toNat < 1 ∨ 5 < (6 : Byte).toNat) ∧
    24 ≤ (24 : Byte).toNat ∧ 6 ≤ (6 : Byte).toNat ∧ 8 ≤ (8 : Byte).toNat ∧ 1 ≤ (1 : Byte).toNat :=
  ⟨takes_of_empty rfl rfl, takes_of_empty rfl rfl, takes_of_empty rfl rfl, by decide +kernel⟩

theorem test_meets_StartRunRefusals : (∀ u, (State.reset.unit u).cfg.present = false) ∧
    (let s := bench.modRiser 0 fun x => { x with cfg := { x.cfg with present := false } }
     (s.unit 0).cfg.present = true ∧ (s.riser (s.unit 0).cfg.riser).cfg.present = false ∧ (∀ v, ¬ v < (0 : UnitNo)) ∧
     s.configProblem = some 0x40) ∧
    (let s := bench.modStation 0 fun x => { x with cfg := { x.cfg with present := false } }
     (∀ v, (s.unit v).cfg.present = true → (s.riser (s.unit v).cfg.riser).cfg.present = true) ∧
     (s.unit 0).cfg.present = true ∧ (s.station (s.unit 0).cfg.station).cfg.present = false ∧
     s.configProblem = some 0x60) ∧
    bench.configProblem = none ∧ bench.slp.opState = .config ∧ State.reset.configProblem = some 0 ∧
    bench.takes ⟨0x10, 1, [0]⟩ ∧ (0 : Byte) ≠ 1 ∧ (0 : Byte) ≠ 2 :=
  ⟨by decide +kernel, by decide +kernel, by decide +kernel, by decide +kernel, rfl, by decide +kernel,
      takes_of_empty rfl rfl, by decide +kernel⟩

/-- Checks 4 to 7, each the first to fail: two units at one address, a riser of no members, a quorum above the members, and
an absent reference station. -/
theorem test_meets_StartRunRefusals_later :
    let two := bench.modUnit 1 fun x => { x with cfg := { x.cfg with address := 1 } }
    let empty := bench.modRiser 5 fun x => { x with cfg := { x.cfg with present := true } }
    let high := bench.modRiser 0 fun x => { x with cfg := { x.cfg with quorum := 3 } }
    let lost : State := { bench with tower := { reference := 7 } }
    let named := fun s : State => decide (∀ u, (s.unit u).cfg.present = true →
      (s.riser (s.unit u).cfg.riser).cfg.present = true ∧ (s.station (s.unit u).cfg.station).cfg.present = true)
    let apart := fun s : State => decide (∀ u v, v < u → (s.unit v).cfg.present = true →
      (s.unit u).cfg.present = true → (s.unit v).cfg.address ≠ (s.unit u).cfg.address)
    let sized := fun (s : State) (r : RiserNo) => decide (1 ≤ (s.members r).length ∧ (s.members r).length ≤ 8)
    let quorate := fun (s : State) (r : RiserNo) => decide ((s.riser r).cfg.quorum ≤ (s.members r).length)
    let each := fun (s : State) (p : State → RiserNo → Bool) =>
      decide (∀ r, (s.riser r).cfg.present = true → p s r = true)
    (named two ∧ (two.unit 1).cfg.present = true ∧ (two.unit 0).cfg.present = true ∧
      (two.unit 0).cfg.address = (two.unit 1).cfg.address ∧ two.configProblem = some 0x81) ∧
    (named empty ∧ apart empty ∧ (empty.riser 5).cfg.present = true ∧ ¬ sized empty 5 ∧ sized empty 0 ∧
      empty.configProblem = some 0xA5) ∧
    (named high ∧ apart high ∧ each high sized ∧ (high.riser 0).cfg.present = true ∧ ¬ quorate high 0 ∧
      high.configProblem = some 0xB0) ∧
    named lost ∧ apart lost ∧ each lost sized ∧ each lost quorate ∧
    (lost.station lost.tower.reference).cfg.present = false ∧ lost.configProblem = some 0xC0 := by decide +kernel

theorem test_meets_StartRunBeginsARun :
    bench.slp.opState = .config ∧ bench.takes ⟨0x10, 1, [opStateCode .advise]⟩ ∧ bench.configProblem = none ∧
    (bench.unit 0).cfg.present = true ∧ (∀ v, ¬ v < (0 : UnitNo)) ∧ bench.flc.link = none ∧
    bench.flc.releaseOwed = none ∧
    (busy { txn .sweep with heeded := false } bench).flc.link ≠ none :=
  ⟨rfl, takes_of_empty rfl rfl, by decide +kernel, by decide +kernel, by decide +kernel, rfl, rfl, by decide +kernel⟩

theorem test_meets_StopRunEndsTheRun :
    plant.slp.opState ≠ .config ∧ plant.takes ⟨0x11, 1, []⟩ ∧ (busy (txn .sweep) plant).flc.link = some (txn .sweep) ∧
    plant.flc.link = none ∧ plant.flc.releaseOwed = none ∧ plant.slp.opState = .coordinate ∧
    ({ plant with slp := { opState := .advise } } : State).slp.opState = .advise :=
  ⟨by decide +kernel, takes_of_empty rfl rfl, rfl, rfl, rfl, rfl, rfl⟩

theorem test_meets_StationReadingCommits :
    plant.takes ⟨0x20, 1,
      byteOf (0 : StationNo).val :: (bytesOf (BitVec.ofInt 16 (-4510)) ++ bytesOf 4 ++ bytesOf 650)⟩ ∧
    plant.running = true ∧ (plant.station 0).cfg.present = true := ⟨takes_of_empty rfl rfl, rfl, by decide +kernel⟩

/-- The budget below, at and above B_eff; a revocation of the latest of lowest rank; a scan held and one not; a weight that
just fits and one that just does not; an admission in COORDINATE and one in ADVISE. -/
theorem test_meets_StationEventOrder :
    let b := effectiveBudget plant.tower (plant.station plant.tower.reference).live (plant.roleActive .inWind)
    let frozen := plant.modLine 0 fun x => { x with cfg := { x.cfg with role := .inFreeze }, level := true }
    b = 64 ∧ b < plant.sba.bEff ∧ b = (plant.modSba fun y => { y with bEff := 64 }).sba.bEff ∧
    (plant.modSba fun y => { y with bEff := 63 }).sba.bEff < b ∧
    (([2, 0, 1] : List RiserNo).map fun _ => 30).sum > 60 ∧ ([2, 0, 1] : List RiserNo) = [2, 0] ++ 1 :: [] ∧
    (1 : RiserNo) ∉ ([2, 0] : List RiserNo) ∧ (([2, 0] : List RiserNo).map fun _ => 30).sum ≤ 60 ∧
    frozen.running = true ∧ frozen.roleActive .inFreeze = true ∧ plant.roleActive .inFreeze = false ∧
    plant.roleActive .inEmergency = false ∧ ((30 : Nat) : Int) ≤ 30 ∧ (29 : Int) < (30 : Nat) ∧
    plant.coordinate = true ∧ (plant.modSlp fun p => { p with opState := .advise }).coordinate = false := by decide +kernel

theorem test_meets_SetSetpointWrites :
    plant.takes ⟨0x21, 1, byteOf (0 : UnitNo).val :: bytesOf 999⟩ ∧
    bench.takes ⟨0x21, 1, byteOf (0 : UnitNo).val :: bytesOf 3001⟩ ∧
    (plant.unit 0).cfg.present = true ∧ (bench.unit 0).cfg.present = true ∧ plant.running = true ∧
    bench.running = false :=
  ⟨takes_of_empty rfl rfl, takes_of_empty rfl rfl, by decide +kernel⟩

theorem test_meets_SetOverrideRecords :
    plant.running = true ∧ plant.takes ⟨0x22, 1, [byteOf (0 : UnitNo).val, 7, 0]⟩ ∧
    plant.takes ⟨0x22, 1, [byteOf (0 : UnitNo).val, 6, 0]⟩ ∧
    plant.takes ⟨0x22, 1, [byteOf (0 : UnitNo).val, 4, 0]⟩ ∧ (plant.unit 0).cfg.present = true ∧ 6 < (7 : Byte).toNat ∧
    (6 : Byte).toNat ≤ 6 ∧ (6 : Byte) ≠ 4 ∧ (plant.unit 0).decision.forced = none ∧
    (plant.unit 0).decision.control = .auto :=
  ⟨rfl, takes_of_empty rfl rfl, takes_of_empty rfl rfl, takes_of_empty rfl rfl, by decide +kernel⟩

theorem test_meets_LockRiserLocks :
    plant.running = true ∧ (plant.riser 0).cfg.present = true ∧ plant.takes ⟨0x23, 1, [byteOf (0 : RiserNo).val, 1]⟩ ∧
    plant.takes ⟨0x23, 1, [byteOf (0 : RiserNo).val, 0]⟩ ∧ plant.takes ⟨0x23, 1, [byteOf (0 : RiserNo).val, 2]⟩ ∧
    1 < (2 : Byte).toNat :=
  ⟨rfl, by decide +kernel, takes_of_empty rfl rfl, takes_of_empty rfl rfl, takes_of_empty rfl rfl, by decide +kernel⟩

/-- The states of a riser that a withdrawal meets, and in ENTERING the phases of its context. -/
theorem test_meets_LockRiserLocks_withdrawal :
    let at_ := fun st : RiserState => plant.modLive 0 fun l => { l with state := st }
    let entering := fun (ph : Phase) (st : PartStatus) => changing (oneCtx .enter ph st none) .entering
    let joined := fun s : State => (s.members 0).filter fun u =>
      (s.unit u).presence == .online && (s.unit u).decision.control == .auto
    let hand := (plant.modDecision 0 fun d => { d with control := .hand }).modDecision 1
      fun d => { d with control := .hand }
    ((at_ .individual).riser 0).live.state = .individual ∧ ((at_ .leaving).riser 0).live.state = .leaving ∧
    ((at_ .queued).riser 0).live.state = .queued ∧ (plant.riser 0).live.state = .free ∧ plant.coordinate = true ∧
    (plant.modSlp fun p => { p with opState := .advise }).coordinate = false ∧
    ((plant.modSlp fun p => { p with opState := .advise }).riser 0).live.state = .free ∧ joined plant ≠ [] ∧
    joined hand = [] ∧ (hand.riser 0).live.state = .free ∧ hand.coordinate = true ∧
    ((entering .callPending .pending).riser 0).live.state = .entering ∧
    (entering .callPending .pending).ctx 0 = some (oneCtx .enter .callPending .pending none) ∧
    (entering .rollReady .pending).ctx 0 = some (oneCtx .enter .rollReady .pending none) ∧
    (entering .commitPending .ready).ctx 0 = some (oneCtx .enter .commitPending .ready none) ∧
    (entering .rollDone .ready).ctx 0 = some (oneCtx .enter .rollDone .ready none) ∧
    (entering .rollDone .dropped).ctx 0 = some (oneCtx .enter .rollDone .dropped none) ∧
    (entering .cancelPending .ready).ctx 0 = some (oneCtx .enter .cancelPending .ready none) := by decide +kernel

theorem test_meets_AbsentItemsAreRefused_setpoint :
    bench.running = false ∧ requestOf (.setSetpoint 1 [2, 0, 0]) = some (.setSetpoint, 1, [2, 0, 0]) ∧
    bench.takes ⟨0x21, 1, [2, 0, 0]⟩ ∧ ReqKind.lengthOk .setSetpoint 3 = true ∧
    ∀ u : UnitNo, u.val = (2 : Byte).toNat → (bench.unit u).cfg.present = false :=
  ⟨rfl, rfl, takes_of_empty rfl rfl, by decide +kernel⟩

theorem test_meets_AbsentItemsAreRefused :
    plant.running = true ∧ requestOf (.readUnit 1 [24]) = some (.readUnit, 1, [24]) ∧
    requestOf (.readRiser 1 [5]) = some (.readRiser, 1, [5]) ∧
    requestOf (.readStation 1 [7]) = some (.readStation, 1, [7]) ∧
    plant.takes ⟨0x30, 1, [24]⟩ ∧ plant.takes ⟨0x31, 1, [5]⟩ ∧ plant.takes ⟨0x32, 1, [7]⟩ ∧
    ReqKind.lengthOk .readUnit 1 = true ∧
    (∀ u : UnitNo, u.val = (24 : Byte).toNat → (plant.unit u).cfg.present = false) ∧
    (∀ r : RiserNo, r.val = (5 : Byte).toNat → (plant.riser r).cfg.present = false) ∧
    ∀ st : StationNo, st.val = (7 : Byte).toNat → (plant.station st).cfg.present = false :=
  ⟨rfl, rfl, rfl, rfl, takes_of_empty rfl rfl, takes_of_empty rfl rfl, takes_of_empty rfl rfl, by decide +kernel⟩

theorem test_meets_ReadsAnswerTheRecords :
    plant.running = true ∧ (plant.unit 1).cfg.present = true ∧ (plant.riser 0).cfg.present = true ∧
    (plant.station 0).cfg.present = true ∧ plant.takes ⟨0x30, 1, [byteOf (1 : UnitNo).val]⟩ ∧
    plant.takes ⟨0x31, 1, [byteOf (0 : RiserNo).val]⟩ ∧ plant.takes ⟨0x32, 1, [byteOf (0 : StationNo).val]⟩ ∧
    plant.takes ⟨0x33, 1, []⟩ ∧ plant.takes ⟨0x34, 1, []⟩ :=
  ⟨rfl, by decide +kernel, by decide +kernel, by decide +kernel, takes_of_empty rfl rfl, takes_of_empty rfl rfl,
    takes_of_empty rfl rfl, takes_of_empty rfl rfl, takes_of_empty rfl rfl⟩

/-- The plant with line 1 in this role and unit 0 OFFLINE. -/
def output (role : Role) : State :=
  (plant.modLine 1 fun x => { x with cfg := { x.cfg with role := role } }).modUnit 0 fun x => { x with presence := .offline }

theorem test_meets_ReadsAnswerTheRecords_lines :
    ((output .none).line 1).cfg.role = .none ∧ ((output .inWind).line 1).cfg.role = .inWind ∧
    ((output .outFault).line 1).cfg.role = .outFault ∧ (output .outFault).lineLevel 1 = true ∧
    (output .outFault).pinDriven 1 = some true ∧ ((output .outFree).line 1).cfg.role = .outFree ∧
    (output .outFree).lineLevel 1 = true ∧
    ((output .outFree).modSlp fun p => { p with opState := .config }).lineLevel 1 = false := by decide +kernel

/-- 10, requests sent ahead: a reply to READ_STATUS is 23 bytes long, six of them around the body. -/
theorem test_readStatus_length : (exec (.readStatus 1 []) plant) =
    .next (plant.answer 0x34 1 (.accept [2, 0, 0, 1, 0, 0, 0, 0, 0, 0, 0, 0, 100, 2, 0, 0])) :=
  congrArg Host.Outcome.next (by decide +kernel)

/-- A full queue of level-1 notices. -/
def fullQueue : Nq := { queue := List.replicate 32 ⟨1, .none, .budget 0⟩ }

theorem test_meets_PostedNoticeIsPlaced :
    (⟨0, .none, .unitMode ⟨.safe, 0⟩⟩ : Notice).level < ({ mask := 1 } : Nq).mask ∧
    State.reset.nq.queue.length < 32 ∧ (State.reset.nq.queue.Pairwise fun a b => b.level ≤ a.level) ∧
    fullQueue.queue.length = 32 ∧ (fullQueue.queue.Pairwise fun a b => b.level ≤ a.level) ∧
    fullQueue.queue = [] ++ ⟨1, .none, .budget 0⟩ :: List.replicate 31 ⟨1, .none, .budget 0⟩ ∧
    (∀ m ∈ List.replicate 31 (⟨1, .none, .budget 0⟩ : Notice), m.level = 1) ∧ 1 < 3 ∧ 1 ≤ 1 := by decide +kernel

theorem test_meets_FlushNoticesEmptiesTheQueue :
    let s := { State.reset with slp := { stx := .notice ⟨3, .none, .start .powerOn⟩ } }
    s.takes ⟨0x41, 1, []⟩ ∧ s.slp.stx = .notice ⟨3, .none, .start .powerOn⟩ ∧
    NqSafe s.nq := ⟨takes_of_empty rfl rfl, rfl, nqSafe_reset⟩

theorem test_meets_MaskAndFlagsAreSet :
    plant.takes ⟨0x40, 1, [3]⟩ ∧ plant.takes ⟨0x40, 1, [4]⟩ ∧ (3 : Byte).toNat ≤ 3 ∧ 3 < (4 : Byte).toNat ∧
    plant.takes ⟨0x42, 1, [7]⟩ ∧ plant.takes ⟨0x42, 1, [8]⟩ ∧ (7 : Byte).toNat < 8 ∧ 8 ≤ (8 : Byte).toNat :=
  ⟨takes_of_empty rfl rfl, takes_of_empty rfl rfl, by decide +kernel, by decide +kernel, takes_of_empty rfl rfl,
    takes_of_empty rfl rfl, by decide +kernel, by decide +kernel⟩

/-- The plant with a mail in the slot. -/
def mailing (m : MailSlot) : State := plant.modFlc fun f => { f with mail := m }

theorem test_meets_PostMailPosts :
    plant.running = true ∧ plant.takes ⟨0x50, 1, byteOf (0 : UnitNo).val :: [0]⟩ ∧
    plant.takes ⟨0x50, 1, byteOf (0 : UnitNo).val :: List.replicate 32 0⟩ ∧ (plant.unit 0).cfg.present = true ∧
    (mailing { state := .sent, unit := some 1 }).flc.mail.state ≠ .idle ∧
    (mailing { state := .sent, unit := some 1 }).flc.mail.unit = some 1 ∧
    plant.flc.mail.state = .idle ∧ (plant.unit 0).presence = .online ∧
    (plant.modUnit 0 fun x => { x with presence := .offline }).flc.mail.state = .idle ∧
    ((plant.modUnit 0 fun x => { x with presence := .offline }).unit 0).presence ≠ .online :=
  ⟨rfl, takes_of_empty rfl rfl, takes_of_empty rfl rfl, by decide +kernel⟩

theorem test_meets_MailIsTakenOrCancelled :
    let answered : MailSlot := { state := .answered, unit := some 0, reply := some [1] }
    let failed : MailSlot := { state := .failed, unit := some 0, reason := some .offline }
    (mailing answered).takes ⟨0x51, 1, []⟩ ∧ (mailing failed).takes ⟨0x51, 1, []⟩ ∧ plant.takes ⟨0x52, 1, []⟩ ∧
    (mailing answered).flc.mail.reply = some [1] ∧ (mailing failed).flc.mail.reason = some .offline ∧
    (mailing { state := .posted, unit := some 0 }).flc.mail.state = .posted ∧ plant.flc.mail.state = .idle :=
  ⟨takes_of_empty rfl rfl, takes_of_empty rfl rfl, takes_of_empty rfl rfl, rfl, rfl, rfl, rfl⟩

theorem test_meets_SecondBoundary :
    plant.slp.resetHeld = false ∧ plant.running = true ∧ bench.running = false := by decide +kernel

theorem test_meets_AgesReachTheirLimits :
    let s := plant.modUnit 0 fun x => { x with reading := { x.reading with age := 60 } }
    let z := plant.modStation 0 fun x => { x with live := { x.live with age := 600 } }
    s.slp.resetHeld = false ∧ s.running = true ∧ (s.unit 0).reading.condition = .fresh ∧
    s.tower.staleLimit ≤ (s.unit 0).reading.age ∧
    ¬ plant.tower.staleLimit ≤ (plant.unit 0).reading.age ∧ (z.station 0).live.status = .fresh ∧
    (z.station 0).cfg.maxAge ≤ (z.station 0).live.age ∧
    ¬ (plant.station 0).cfg.maxAge ≤ (plant.station 0).live.age := by decide +kernel

theorem test_meets_DwellAndSettleExpire :
    let s := plant.modDecision 0 fun d => { d with dwellExpired := true }
    let z := plant.modLive 0 fun l => { l with settleExpired := true }
    (s.unit 0).decision.dwellExpired = true ∧ (plant.unit 0).decision.dwellExpired = false ∧
    (z.riser 0).live.settleExpired = true ∧
    (z.riser 0).live.state = .free ∧ (plant.riser 0).live.settleExpired = false ∧
    plant.running = true := by decide +kernel

/-- The states of a riser that a recount meets, with a quorum of 1 just met and just missed; and the joining check passed,
with a queue that the riser joins behind an equal rank and ahead of a lower one. -/
theorem test_meets_DwellAndSettleExpire_join :
    let r := fun (st : RiserState) (v : List UnitNo) => plant.modLive 0 fun l => { l with state := st, voters := v }
    let s := (r .individual [0]).modRiser 0 fun x => { x with cfg := { x.cfg with rank := 1 } }
    let q := (s.modSba fun b => { b with queue := [1, 2], grants := [] }).modRiser 1
      fun x => { x with cfg := { x.cfg with rank := 1 } }
    ((r .individual []).riser 0).live.state = .individual ∧ ((r .queued []).riser 0).live.state = .queued ∧
    ((r .entering []).riser 0).live.state = .entering ∧ ((r .leaving []).riser 0).live.state = .leaving ∧
    ¬ ((r .individual []).riser 0).cfg.quorum ≤ ((r .individual []).riser 0).live.voters.length ∧
    (q.riser 0).cfg.quorum ≤ (q.riser 0).live.voters.length ∧ (q.riser 0).live.settle = 0 ∧
    (q.riser 0).live.locked = false ∧ q.roleActive .inFreeze = false ∧ q.roleActive .inEmergency = false ∧
    q.sba.queue = [1] ++ [2] ∧ q.tower.policy = .arrival ∧ (q.riser 1).cfg.rank = (q.riser 0).cfg.rank ∧
    (q.riser 2).cfg.rank < (q.riser 0).cfg.rank := by decide +kernel

theorem test_meets_ReadyWindowExpires : let c := oneCtx .enter .rollReady .pending (some 0)
    let s := busy (txn .sweep) (changing c .entering)
    s.slp.resetHeld = false ∧ s.running = true ∧ s.ctx 0 = some c ∧ c.phase = .rollReady ∧ c.window = some 0 ∧
    s.flc.link = some (txn .sweep) ∧ (0 : RiserNo) ∉ s.sba.queue ∧ plant.ctx 0 = none := by decide +kernel

theorem test_meets_DoneWindowExpires : let c := oneCtx .enter .rollDone .ready (some 0)
    let s := busy (txn .sweep) (changing c .entering)
    s.slp.resetHeld = false ∧ s.running = true ∧ s.ctx 0 = some c ∧ c.phase = .rollDone ∧ c.window = some 0 ∧
    c.direction = .enter ∧
    s.flc.link = some (txn .sweep) ∧ plant.ctx 0 = none := by decide +kernel

theorem test_meets_DoneWindowExpires_leave : let c := oneCtx .leave .rollDone .pending (some 0)
    let s := busy (txn .sweep) (changing c .leaving)
    s.slp.resetHeld = false ∧ s.running = true ∧ s.ctx 0 = some c ∧ c.phase = .rollDone ∧ c.window = some 0 ∧
    c.direction = .leave ∧ s.flc.link = some (txn .sweep) ∧ (0 : RiserNo) ∉ s.sba.queue := by decide +kernel

theorem test_meets_SweepsAndPassesStart :
    let s := plant.modFlc fun f => { f with sweep := { f.sweep with elapsed := 4 } }
    let c := { oneCtx .enter .rollReady .pending (some 3) with passStart := some .recent }
    s.slp.resetHeld = false ∧ s.running = true ∧ s.flc.sweep.running = true ∧ s.nextPoll = none ∧ s.flc.link = none ∧
    s.tower.sweepPeriod ≤ s.flc.sweep.elapsed + 1 ∧ ¬ plant.tower.sweepPeriod ≤ plant.flc.sweep.elapsed + 1 ∧
    (changing c .entering).ctx 0 = some c ∧ c.passStart = some .recent ∧ plant.ctx 0 = none := by decide +kernel

theorem test_meets_FieldFramesPass : let x := { txn .sweep with stage := .sending }
    let b := { txn (.broadcast 0) with stage := .sending, unit := none }
    let g := { txn (.broadcast 0) with stage := .quietGap, unit := none }
    (busy x plant).flc.link = some x ∧ x.stage = .sending ∧ x.unit = some 0 ∧ (busy b plant).flc.link = some b ∧
    b.stage = .sending ∧ b.unit = none ∧ (busy g plant).flc.link = some g ∧ g.unit = none ∧ g.stage = .quietGap ∧
    b.stage ≠ .quietGap ∧ x.unit ≠ none ∧ plant.slp.resetHeld = false := by decide +kernel

theorem test_meets_FieldFramesPass_fde : let x := { txn .sweep with stage := .sending }
    (busy x plant).fde = true ∧ (busy (txn .sweep) plant).fde = false ∧ plant.fde = false := by decide +kernel

theorem test_meets_FieldFramesPass_foreign : let x := txn .sweep
    let f : FieldFrame := ⟨2, 0x42, []⟩
    (busy x plant).flc.link = some x ∧ x.unit = some 0 ∧ x.stage = .window 40 ∧ f.FromUim ∧
    f.address ≠ byteOf ((busy x plant).unit 0).cfg.address ∧
    (∀ h : FieldFrame, h.FromUim → h.bytes ≠ []) ∧ 1 ≤ [(0 : Byte)].length ∧ (List.replicate 32 (0 : Byte)).length ≤ 32 :=
  ⟨by decide +kernel, rfl, rfl, .inr (.inl ⟨rfl, rfl⟩), by decide +kernel, fun _ _ => List.cons_ne_nil _ _,
    by decide +kernel, by decide +kernel⟩

theorem test_meets_MissedOutcome : let x := txn .sweep
    let s := (busy x plant).modUnit 0 fun y => { y with misses := 2 }
    s.slp.resetHeld = false ∧ s.flc.link = some x ∧ x.unit = some 0 ∧ x.stage = .window 40 ∧ x.heeded = true ∧
    (s.unit 0).presence ≠ .offline ∧ min (s.unit 0).cfg.missLimit ((s.unit 0).misses + 1) = (s.unit 0).cfg.missLimit ∧
    min (plant.unit 0).cfg.missLimit ((plant.unit 0).misses + 1) ≠ (plant.unit 0).cfg.missLimit := by decide +kernel

/-- The requesters of a miss, and the contexts that a drop meets: with the quorum just met by the participant left, and
just missed. -/
theorem test_meets_MissedOutcome_drop :
    let two := fun (d : Direction) (ph : Phase) (a b : PartStatus) =>
      { oneCtx d ph a none with participants := [⟨0, a⟩, ⟨1, b⟩] }
    let s := fun (c : Ctx) => changing c .entering
    let left := fun (c : Ctx) => c.participants.filter fun p => p.unit != 0 && p.status != .dropped
    (txn .sweep).requester = .sweep ∧ (txn (.query ⟨0, .enter, 7, .rollReady⟩)).requester = .query ⟨0, .enter, 7, .rollReady⟩ ∧
    (s (oneCtx .enter .rollReady .pending none)).ctx 0 = some (oneCtx .enter .rollReady .pending none) ∧
    (left (oneCtx .enter .rollReady .pending none)).length < (plant.riser 0).cfg.quorum ∧
    (plant.riser 0).cfg.quorum ≤ (left (two .enter .rollReady .pending .ready)).length ∧
    (∀ p ∈ left (two .enter .rollReady .pending .ready), p.status = .ready) ∧
    (∃ p ∈ left (two .enter .rollReady .pending .pending), p.status ≠ .ready) ∧
    left (oneCtx .leave .returnPending .pending none) = [] ∧ left (two .leave .returnPending .pending .pending) ≠ [] ∧
    (∀ p ∈ left (two .leave .rollDone .pending .done), p.status = .done) ∧
    (∃ p ∈ left (two .leave .rollDone .pending .pending), p.status ≠ .done) ∧
    (∀ p ∈ (oneCtx .enter .rollReady .dropped none).participants, p.unit = 0 → p.status = .dropped) := by decide +kernel

theorem test_meets_UnheededOutcome : let x := { txn .sweep with heeded := false }
    (busy x plant).slp.resetHeld = false ∧ (busy x plant).flc.link = some x ∧ x.unit = some 0 ∧
    x.stage = .window 40 ∧ x.heeded = false := by decide +kernel

theorem test_meets_ReadingIsCommitted : let x := txn .sweep
    (busy x plant).slp.resetHeld = false ∧ (busy x plant).flc.link = some x ∧ x.unit = some 0 ∧
    x.stage = .window 40 ∧ x.heeded = true ∧
    x.requester = .sweep ∧ (0x18 : Byte).getLsbD 3 = true ∧ (0x18 : Byte).getLsbD 4 = true ∧
    (0x07 : Byte).getLsbD 3 = false ∧
    (0x07 : Byte).getLsbD 4 = false := by decide +kernel

/-- A unit that is not ONLINE, a fault flag that changes, an entry into HAND and an exit from it, each LATE mark with the
mode it waits for, and a resync that is called for. -/
theorem test_meets_ReadingIsCommitted_effects : let x := txn .sweep
    let lost := busy x (plant.modUnit 0 fun y => { y with presence := .unseen })
    (lost.unit 0).presence ≠ .online ∧ (plant.unit 0).reading.flags.wheelFault ≠ (0x02 : Byte).getLsbD 1 ∧
    (0x10 : Byte).getLsbD 4 = true ∧ (plant.unit 0).decision.control = .auto ∧
    ((plant.modDecision 0 fun d => { d with control := .hand }).unit 0).decision.control = .hand ∧
    ((plant.modDecision 0 fun d => { d with late := some .enter }).unit 0).decision.late = some .enter ∧
    ((plant.modDecision 0 fun d => { d with late := some .leave }).unit 0).decision.late = some .leave ∧
    plant.coordinate = true ∧ plant.flc.commands = [] ∧ plant.isParticipant 0 = false ∧
    (plant.unit 0).reading.reported ≠ some .safe ∧ 1 ≤ [(0 : Byte)].length ∧
    (List.replicate 32 (0 : Byte)).length ≤ 32 := by decide +kernel

theorem test_meets_CommandOutcomes : let x := txn (.command ⟨.bypass, 0⟩)
    (busy x plant).slp.resetHeld = false ∧ (busy x plant).flc.link = some x ∧ x.unit = some 0 ∧
    x.stage = .window 40 ∧ x.heeded = true ∧
    x.requester = .command ⟨.bypass, 0⟩ ∧ ((busy x plant).unit 0).presence = .online ∧
    ∀ r, (busy x plant).ctx r = none := by decide +kernel

theorem test_meets_CommandOutcomes_placing : let x := txn (.command ⟨.bypass, 0⟩)
    let q := plant.modFlc fun f => { f with commands := [⟨1, ⟨.safe, 0⟩⟩, ⟨0, ⟨.bypass, 0⟩⟩] }
    ((busy x plant).unit 0).misses + 1 < ((busy x plant).unit 0).cfg.missLimit ∧
    (∀ e ∈ plant.flc.commands, e.unit ≠ 0) ∧ q.flc.commands = [⟨1, ⟨.safe, 0⟩⟩] ++ ⟨0, ⟨.bypass, 0⟩⟩ :: [] ∧
    (∀ e ∈ [(⟨1, ⟨.safe, 0⟩⟩ : CmdEntry)], e.unit ≠ 0) := by decide +kernel

/-- A unit that becomes ONLINE by its answer, and one that stays OFFLINE at a miss, with a changeover in progress. -/
theorem test_meets_CommandOutcomes_any : let x := txn (.command ⟨.bypass, 0⟩)
    let s := fun p => (busy x (changing (oneCtx .enter .rollReady .pending (some 3)) .entering)).modUnit 0
      fun y => { y with presence := p, misses := 3 }
    (s .unseen).slp.resetHeld = false ∧ (s .unseen).flc.link = some x ∧ ((s .unseen).unit 0).presence ≠ .online ∧
    ((s .offline).unit 0).presence = .offline ∧ 1 ≤ [(0 : Byte)].length ∧
    min (plant.unit 0).cfg.missLimit ((plant.unit 0).misses + 1) ≠ (plant.unit 0).cfg.missLimit := by decide +kernel

/-- A slot that takes its outcome, one in another state, and one with a later post number. -/
theorem test_meets_MailOutcomes_any :
    let s := mailing { state := .sent, unit := some 0, mail := some [1], attempts := 1 }
    let z := mailing { state := .failed, unit := some 0, mail := some [1], attempts := 1 }
    (busy (txn (.mail 0)) s).flc.link = some (txn (.mail 0)) ∧ s.flc.mail.state = .sent ∧ s.flc.postNumber = 0 ∧
    z.flc.mail.state ≠ .sent ∧ (s.modFlc fun f => { f with postNumber := 1 }).flc.postNumber ≠ 0 := by decide +kernel

theorem test_meets_MailOutcomes_miss :
    let s := mailing { state := .sent, unit := some 0, mail := some [1], attempts := 3 }
    let z := s.modUnit 0 fun y => { y with misses := 2 }
    (s.unit 0).misses + 1 < (s.unit 0).cfg.missLimit ∧ (z.unit 0).cfg.missLimit ≤ (z.unit 0).misses + 1 ∧
    z.flc.mail.unit = some 0 ∧ z.flc.mail.state = .sent ∧ (z.unit 0).presence = .online := by decide +kernel

theorem test_meets_MailOutcomes :
    let s := mailing { state := .sent, unit := some 0, mail := some [1], attempts := 3 }
    let x := txn (.mail s.flc.postNumber)
    (busy x s).flc.link = some x ∧ x.requester = .mail (busy x s).flc.postNumber ∧ (busy x s).flc.mail.state = .sent ∧
    ((busy x s).unit 0).presence = .online ∧ (∀ r, (busy x s).ctx r = none) ∧ 3 ≤ (busy x s).flc.mail.attempts ∧
    (mailing { state := .sent, attempts := 2 }).flc.mail.attempts < 3 := by decide +kernel

theorem test_meets_PhaseIsTaken : let c := oneCtx .enter .rollReady .pending (some 3)
    let key := c.key 0
    let x := txn (.query key)
    let s := busy x (changing c .entering)
    s.slp.resetHeld = false ∧ s.flc.link = some x ∧ x.unit = some 0 ∧ x.stage = .window 40 ∧ x.heeded = true ∧
    x.requester = .query key ∧
    (s.unit 0).presence = .online ∧ s.ctx key.riser = some c ∧ c.key key.riser = key ∧
    (⟨0, .pending⟩ : Participant) ∈ c.participants ∧
    c.calls ⟨0, .pending⟩ = true ∧ tokenOfCode 5 = some .done ∧ 5 < (6 : Byte).toNat := by decide +kernel

/-- A roll that the status completes and one that it leaves going on, in each roll; a repair queued and none queued; the
actions; and the transaction of a repair. -/
theorem test_meets_PhaseIsTaken_effects :
    let c := oneCtx .enter .rollReady .pending (some 3)
    let e := oneCtx .enter .rollDone .ready (some 3)
    let two := { c with participants := [⟨0, .pending⟩, ⟨1, .pending⟩] }
    let more := { e with participants := [⟨0, .ready⟩, ⟨1, .ready⟩] }
    let fixed := { c with repairs := [⟨0, .call⟩] }
    let after := fun (d : Ctx) (st : PartStatus) => (d.withStatus 0 st).remaining
    let x := txn (.repair (fixed.key 0))
    c.action 7 .ready = .becomes .ready ∧ (∀ q ∈ after c .ready, q.status = .ready) ∧
    (∃ q ∈ after two .ready, q.status ≠ .ready) ∧ e.action 7 .done = .becomes .done ∧
    (∀ q ∈ after e .done, q.status = .done) ∧ (∃ q ∈ after more .done, q.status ≠ .done) ∧
    c.action 7 .refuse = .refused ∧ c.action 7 .preparing = .nothing ∧ c.action 7 .idle = .repair .call ∧
    (∃ q ∈ fixed.repairs, q.unit = 0) ∧ (∀ q ∈ c.repairs, q.unit ≠ 0) ∧
    ((changing c .entering).unit 0).misses + 1 < ((changing c .entering).unit 0).cfg.missLimit ∧
    (busy x (changing fixed .entering)).flc.link = some x ∧ x.requester = .repair (fixed.key 0) ∧
    (busy x (changing fixed .entering)).ctx 0 = some fixed := by decide +kernel

/-- A participant the roll no longer queries, a context that has ended, and one in another phase than that of the key. -/
theorem test_meets_PhaseIsTaken_discarded :
    let c := oneCtx .enter .rollReady .ready (some 3)
    let key := c.key 0
    let d := oneCtx .enter .commitPending .ready none
    let s := changing d .entering
    (changing c .entering).ctx key.riser = some c ∧ c.key key.riser = key ∧
    (∀ p ∈ c.participants, p.unit = 0 → c.calls p = false) ∧ plant.ctx key.riser = none ∧ s.ctx key.riser = some d ∧
    ¬ (d.direction = key.direction ∧ d.tag = key.tag ∧ d.phase = key.phase) ∧
    (busy (txn (.query key)) s).flc.link = some (txn (.query key)) ∧
    (busy (txn (.repair key)) s).flc.link = some (txn (.repair key)) := by decide +kernel

theorem test_meets_RollTables :
    (oneCtx .enter .rollReady .pending none).phase = .rollReady ∧
    (oneCtx .enter .rollDone .ready none).phase = .rollDone ∧
    (oneCtx .enter .rollDone .ready none).direction = .enter ∧
    (oneCtx .leave .rollDone .pending none).direction = .leave ∧
    (7 : Byte) = (oneCtx .enter .rollReady .pending none).tag ∧
    (8 : Byte) ≠ (oneCtx .enter .rollReady .pending none).tag := by decide +kernel

theorem test_meets_DeferStretchesTheWindow : let x := { txn .sweep with deferCount := 1 }
    let y := { txn .sweep with deferCount := 2 }
    let z := plant.modUnit 0 fun u => { u with cfg := { u.cfg with deferLimit := 0 } }
    (busy x plant).flc.link = some x ∧ x.unit = some 0 ∧ x.stage = .window 40 ∧
    x.deferCount + 1 ≤ ((busy x plant).unit 0).cfg.deferLimit ∧
    (busy y plant).flc.link = some y ∧ ((busy y plant).unit 0).cfg.deferLimit < y.deferCount + 1 ∧
    ((busy y plant).unit 0).cfg.deferLimit = 2 ∧ y.deferCount = 2 ∧ ((busy x z).unit 0).cfg.deferLimit = 0 ∧
    (plant.beginTxn ⟨1, 1, []⟩ .sweep (some 0) .baud38400).flc.link =
      some { frame := ⟨1, 1, []⟩, requester := .sweep, unit := some 0, speed := .baud38400 } := by decide +kernel

theorem test_meets_GrantsByPrecedence :
    let p := plant.modFlc fun f => { f with sweep := { f.sweep with cursor := 0 }, guarantee := 8 }
    let q := p.modFlc fun f => { f with guarantee := 7, commands := [⟨0, ⟨.bypass, 0⟩⟩] }
    let c := changing (oneCtx .enter .callPending .pending none) .entering
    let m := mailing { state := .posted, unit := some 0, mail := some [1] }
    p.flc.link = none ∧ p.flc.releaseOwed = none ∧ p.running = true ∧ p.hasWork .poll = true ∧ p.flc.guarantee = 8 ∧
    p.nextClass = some .poll ∧ q.flc.guarantee ≠ 8 ∧ q.hasWork .command = true ∧ q.hasWork .changeover = false ∧
    c.hasWork .changeover = true ∧ m.hasWork .mail = true ∧ m.hasWork .command = false ∧ m.hasWork .poll = false ∧
    plant.hasWork .changeover = false ∧ plant.hasWork .command = false ∧ plant.hasWork .mail = false ∧
    plant.hasWork .poll = false ∧
    (7 : Nat) < 8 := by decide +kernel

/-- Work of two classes, of one and of none; an owed RELEASE; a BUSY link; and CONFIG. -/
theorem test_meets_GrantsByPrecedence_work :
    let idle := fun s : State => s.flc.link = none ∧ s.flc.releaseOwed = none ∧ s.running = true
    let m := mailing { state := .posted, unit := some 0, mail := some [1] }
    let b := m.modFlc fun f => { f with commands := [⟨0, ⟨.bypass, 0⟩⟩] }
    idle b ∧ LinkClass.command ≠ .mail ∧ b.hasWork .command = true ∧ b.hasWork .mail = true ∧
    idle m ∧ m.hasWork .mail = true ∧ m.hasWork .changeover = false ∧ m.hasWork .command = false ∧
    m.hasWork .poll = false ∧ idle plant ∧ (busy (txn .sweep) plant).flc.link ≠ none ∧
    (plant.modFlc fun f => { f with releaseOwed := some .baud19200 }).flc.releaseOwed = some .baud19200 ∧
    bench.running = false ∧ bench.flc.releaseOwed = none := by decide +kernel

/-- The riser searched first and the one searched last; the work of a context; the units that qualify, an OFFLINE one in a
sweep whose number is a multiple of 8 and in one whose number is not; and what each class sends. -/
theorem test_meets_GrantsByPrecedence_choice :
    let c := oneCtx .enter .rollReady .pending (some 3)
    let s := changing c .entering
    let two := { c with participants := [⟨0, .ready⟩, ⟨1, .pending⟩] }
    let fix := fun k => { c with repairs := [⟨0, k⟩] }
    let going := { two with passStart := some .recent }
    let due := { two with cursor := 3, passStart := some .due }
    let p := plant.modFlc fun f => { f with sweep := { f.sweep with cursor := 0 } }
    let off := p.modUnit 0 fun x => { x with presence := .offline }
    let odd := off.modFlc fun f => { f with sweep := { f.sweep with counter := 7 } }
    let q := plant.modFlc fun f => { f with commands := [⟨0, ⟨.bypass, 0⟩⟩] }
    let m := mailing { state := .posted, unit := some 0, mail := some [1] }
    s.flc.lastServed + 1 + (0 : RiserNo) = 0 ∧ s.ctxHasWork 0 = true ∧ s.nextRiser = some 0 ∧ s.ctx 0 = some c ∧
    (s.modFlc fun f => { f with lastServed := 0 }).flc.lastServed + 1 + (5 : RiserNo) = 0 ∧
    (∀ j : RiserNo, j < 5 → s.ctxHasWork (0 + 1 + j) = false) ∧
    (∀ q ∈ [(⟨0, .ready⟩ : Participant)], two.calls q = false) ∧ two.calls ⟨1, .pending⟩ = true ∧
    two.participants = [⟨0, .ready⟩] ++ ⟨1, .pending⟩ :: [] ∧ two.passStart = none ∧ two.repairs = [] ∧
    going.passStart ≠ none ∧ going.participants.drop (going.cursor - 1) = [⟨0, .ready⟩] ++ ⟨1, .pending⟩ :: [] ∧
    due.passStart = some .due ∧ (∀ q ∈ due.participants.drop (due.cursor - 1), due.calls q = false) ∧
    (fix .call).repairs = ⟨0, .call⟩ :: [] ∧ (fix .commit).repairs = ⟨0, .commit⟩ :: [] ∧
    (fix .giveBack).repairs = ⟨0, .giveBack⟩ :: [] ∧
    p.nextPoll = some 0 ∧ off.nextPoll = some 0 ∧ odd.nextPoll = some 1 ∧
    q.flc.commands = ⟨0, ⟨.bypass, 0⟩⟩ :: [] ∧ m.flc.mail.unit = some 0 ∧ m.flc.mail.mail = some [1] := by decide +kernel

theorem test_meets_BroadcastsAreSent :
    (oneCtx .enter .callPending .pending none).phase = .callPending ∧
    (oneCtx .enter .commitPending .ready none).phase = .commitPending ∧
    (oneCtx .leave .returnPending .pending none).phase = .returnPending ∧
    (oneCtx .enter .cancelPending .ready none).phase = .cancelPending ∧ (0 : RiserNo) ∉ plant.sba.queue ∧
    (⟨0, .ready⟩ : Participant) ∈ (oneCtx .enter .commitPending .ready none).participants ∧
    (⟨0, .pending⟩ : Participant) ∈ (oneCtx .leave .returnPending .pending none).participants ∧
    PartStatus.pending ≠ .dropped ∧ (plant.unit 0).decision.control = .auto := by decide +kernel

theorem test_meets_PinChangeFilters :
    plant.slp.resetHeld = false ∧ (plant.line 1).cfg.role.isInput = false ∧ (plant.line 0).cfg.role.isInput = true ∧
    (plant.line 0).cfg.polarity = .activeHigh ∧ (plant.line 0).level = false ∧ (plant.line 0).filterRemaining = none ∧
    ((plant.modLine 0 fun x => { x with filterRemaining := some 10 }).line 0).filterRemaining ≠ none := by decide +kernel

/-- The plant, the emergency pin held at its active level until the filter runs out. -/
def alarm (s : State) : State :=
  { s with lu := { lines := updTable s.lu.lines 0 fun x => { x with filterRemaining := some 0 }
                   pins := updTable s.lu.pins 0 fun _ => true } }

theorem test_meets_FilterExpiryIsAnEdge : let s := alarm plant
    s.slp.resetHeld = false ∧ (s.line 0).cfg.role.isInput = true ∧ (s.line 0).filterRemaining ≠ none ∧
    s.pinShowsActive 0 ≠ (s.line 0).level ∧ s.running = true ∧ (alarm bench).running = false ∧
    (plant.line 0).filterRemaining = none := by decide +kernel

theorem test_meets_EmergencyMakesSafe : let s := alarm plant
    s.slp.resetHeld = false ∧ s.running = true ∧ s.configProblem = none ∧ (s.line 0).cfg.role = .inEmergency ∧
    (s.line 0).filterRemaining ≠ none ∧ s.pinShowsActive 0 = true ∧ (s.line 0).level = false ∧
    s.roleActive .inEmergency = false ∧
    (s.riser 0).cfg.present = true ∧ (s.unit 0).cfg.present = true ∧ s.slp.opState = .coordinate ∧
    (s.unit 0).presence = .online ∧ (s.unit 0).decision.control ≠ .hand ∧
    (s.modSlp fun p => { p with opState := .advise }).slp.opState = .advise := by decide +kernel

/-- R144: at the activation a unit already commanded SAFE is posted SAFE too. -/
theorem test_emergency_posts_again :
    let s := plant.modDecision 0 fun d =>
      { d with control := .forced, forced := some ⟨.safe, 0⟩, commanded := some ⟨.safe, 0⟩ }
    (s.emergencyUnit 0).flc.commands = [⟨0, ⟨.safe, 0⟩⟩] := by decide +kernel

theorem test_meets_EmergencyMakesSafe_groups : GroupsSafe (alarm plant) :=
  ⟨groupsSafe_plant.queue, groupsSafe_plant.grants, groupsSafe_plant.once, groupsSafe_plant.draining,
    groupsSafe_plant.ctxs, groupsSafe_plant.config, groupsSafe_plant.link⟩

theorem test_meets_EnthalpyBoundsAndGrowth :
    (-4000 : Int) ≤ -4000 ∧ (-4000 : Int) ≤ 6000 ∧ (300 : Nat) ≤ 300 ∧ (-4000 : Int) < 6000 ∧
    (0 : Nat) < 300 := by decide +kernel

theorem test_meets_DeratingAndRawBudget :
    ({} : TowerCfg).InRange ∧ (2100 : Int) ≤ 2100 ∧ ({ k := 0 } : TowerCfg).InRange ∧
    ({ k := 1000, tInRef := 3000 } : TowerCfg).InRange ∧
    derating { k := 1000, tInRef := 3000 } (-4000) = 7000 ∧ ({ bBase := 0 } : TowerCfg).InRange :=
  ⟨inRange_tower, by decide +kernel, by constructor <;> decide +kernel, by constructor <;> decide +kernel,
      by decide +kernel,
    by constructor <;> decide +kernel⟩

theorem test_meets_PreferenceTests : let oa : OutdoorAir := ⟨-800, 0, 0⟩
    (preferenceTests wheelUnit { wheelFault := true } none ⟨2200, 80⟩ oa).preference = .bypass ∧
    (preferenceTests wheelUnit {} (some .defrost) ⟨2200, 80⟩ oa).preference = .defrost ∧
    (preferenceTests wheelUnit {} none ⟨2200, 80⟩ oa).preference = .recoverHeat ∧
    (preferenceTests wheelUnit {} none ⟨2200, 80⟩ ⟨3000, 150, 0⟩).preference = .recoverCool ∧
    (preferenceTests wheelUnit {} none ⟨2200, 80⟩ ⟨1600, 70, 0⟩).preference = .freeCool ∧
    (preferenceTests wheelUnit {} none ⟨2200, 80⟩ ⟨2200, 80, 0⟩).preference = .bypass := by decide +kernel

/-- The wheel where recovery is possible, a station without status, one that reports, and a unit whose fan is off. -/
theorem test_meets_PreferenceTests_step :
    let lost := plant.modStation 0 fun x => { x with live := {} }
    let off := plant.modUnit 0 fun x => { x with reading := { x.reading with flags := { fanOff := true } } }
    let icy := plant.modDecision 0 fun d => { d with preference := some .defrost }
    0 < wheelUnit.epsilon ∧ (-800 : Int) < 2200 ∧ (lost.station 0).live.status = .none ∧
    (plant.station 0).live.status ≠ .none ∧ (plant.unit 0).presence = .online ∧
    (plant.unit 0).reading.condition = .fresh ∧ (plant.unit 0).reading.flags.fanOff = false ∧
    (plant.unit 0).reading.air = some ⟨2100, 80⟩ ∧ (plant.station 0).live.air = some ⟨1500, 70, 0⟩ ∧
    (off.unit 0).reading.flags.fanOff = true ∧ (icy.unit 0).decision.preference = some .defrost := by decide +kernel

/-- One unit's decision part in the plant. -/
def deciding (d : Decision) : State := plant.modDecision 0 fun _ => d

theorem test_meets_MappingStep :
    (deciding { control := .hand }).target 0 = .held ∧
    (deciding { control := .forced, forced := some ⟨.recoverHeat, 20⟩ }).target 0 = .give ⟨.recoverHeat, 20⟩ false ∧
    plant.target 0 = .give ⟨.freeCool, 0⟩ false ∧ (plant.unit 0).decision.commanded.map (·.mode) ≠ some .freeCool ∧
    (deciding { commanded := some ⟨.bypass, 0⟩, dwell := 1 }).target 0 = .give ⟨.freeCool, 0⟩ false ∧
    (deciding { control := .forced, forced := some ⟨.recoverHeat, 20⟩, commanded := some ⟨.recoverHeat,
      24⟩ }).target 0 =
      .give ⟨.recoverHeat, 20⟩ false ∧ speedDue {} true 24 28 = false ∧ speedDue {} true 20 24 = true ∧
      speedDue {} false 20 24 = true := by decide +kernel

end Sys2Proof.Tests
end

