-- ==== Sys2Proof/Proofs/Enthalpy.lean ====
section
/-! PROOFS. Proofs/Enthalpy.lean: rounding to nearest (00, arithmetic and rounding), and the enthalpy formed with it
(R21, R22). -/

namespace Sys2Proof.Machine

/-! ## Rounding -/

/-- The rounding is to nearest: twice the error is at most the divisor, and at a tie the rounding goes up only for a
positive and down only for a negative dividend, that is away from zero. -/
theorem roundDiv_nearest (n : Int) {d : Nat} (hd : 0 < d) :
    2 * (d * roundDiv n d - n) ≤ d ∧ -d ≤ 2 * (d * roundDiv n d - n) ∧
    (2 * (d * roundDiv n d - n) = d → 0 < n) ∧ (2 * (d * roundDiv n d - n) = -d → n < 0) := by
  unfold roundDiv
  have hdiv := Nat.div_add_mod (2 * n.natAbs + d) (2 * d)
  have hmod := Nat.mod_lt (2 * n.natAbs + d) (Nat.mul_pos Nat.two_pos hd)
  generalize (2 * n.natAbs + d) / (2 * d) = q at *
  rw [Nat.mul_assoc] at hdiv
  have hq : d * q = 0 ∨ d ≤ d * q := q.eq_zero_or_pos.imp (by rintro rfl; rfl) (Nat.le_mul_of_pos_right d)
  have hcast : (d : Int) * (q : Int) = (d * q : Nat) := (Int.natCast_mul d q).symm
  split
  · rw [hcast]
    omega
  · rw [Int.mul_neg, hcast]
    omega

/-- Dividends that are at least one divisor apart never round to the same integer. -/
theorem roundDiv_lt_roundDiv {n n' : Int} {d : Nat} (hd : 0 < d) (h : n + d ≤ n') :
    roundDiv n d < roundDiv n' d := by
  obtain ⟨above, -, tieUp, -⟩ := roundDiv_nearest n hd
  obtain ⟨-, below, -, tieDown⟩ := roundDiv_nearest n' hd
  refine Int.not_le.mp fun hle => ?_
  have hmul : (d : Int) * roundDiv n' d ≤ d * roundDiv n d :=
    Int.mul_le_mul_of_nonneg_left hle (Int.natCast_nonneg d)
  omega

/-! ## The growth of N and of the enthalpy (R22) -/

/-- N by its growth per unit of temperature, 1006000 + 186·w. -/
theorem enthalpyN_eq_temperature (t : Int) (w : Nat) :
    enthalpyN t w = (1006000 + 186 * (w : Int)) * t + 25010000 * (w : Int) := by
  rw [enthalpyN, Int.add_mul, Int.add_right_comm]

/-- N by its growth per unit of humidity ratio, 25010000 + 186·t. -/
theorem enthalpyN_eq_humidity (t : Int) (w : Nat) :
    enthalpyN t w = (25010000 + 186 * t) * (w : Int) + 1006000 * t := by
  rw [enthalpyN, Int.add_mul, Int.mul_right_comm 186 (w : Int) t, Int.add_assoc, Int.add_comm]

theorem enthalpyN_add_le_of_temperature_lt {t t' : Int} (w : Nat) (h : t < t') :
    enthalpyN t w + 1000000 ≤ enthalpyN t' w := by
  have hgrowth : (1006000 + 186 * (w : Int)) * (t + 1) ≤ (1006000 + 186 * (w : Int)) * t' :=
    Int.mul_le_mul_of_nonneg_left h (by omega)
  rw [Int.mul_add, Int.mul_one] at hgrowth
  rw [enthalpyN_eq_temperature, enthalpyN_eq_temperature]
  omega

theorem enthalpyN_add_le_of_humidity_lt {t : Int} {w w' : Nat} (ht : -4000 ≤ t) (h : w < w') :
    enthalpyN t w + 1000000 ≤ enthalpyN t w' := by
  have hgrowth : (25010000 + 186 * t) * ((w : Int) + 1) ≤ (25010000 + 186 * t) * (w' : Int) :=
    Int.mul_le_mul_of_nonneg_left (by omega) (by omega)
  rw [Int.mul_add, Int.mul_one] at hgrowth
  rw [enthalpyN_eq_humidity, enthalpyN_eq_humidity]
  omega

/-- One unit of temperature adds more than the divisor of R21 to N, so no two temperatures round together. -/
theorem enthalpy_lt_of_temperature_lt {t t' : Int} (w : Nat) (h : t < t') : enthalpy t w < enthalpy t' w :=
  roundDiv_lt_roundDiv (by decide) (enthalpyN_add_le_of_temperature_lt w h)

/-- At a temperature in range one unit of humidity ratio adds more than the divisor of R21 to N. -/
theorem enthalpy_lt_of_humidity_lt {t : Int} {w w' : Nat} (ht : -4000 ≤ t) (h : w < w') :
    enthalpy t w < enthalpy t w' :=
  roundDiv_lt_roundDiv (by decide) (enthalpyN_add_le_of_humidity_lt ht h)

theorem enthalpy_le_of_temperature_le {t t' : Int} (w : Nat) (h : t ≤ t') : enthalpy t w ≤ enthalpy t' w := by
  obtain hlt | rfl := Int.lt_or_eq_of_le h
  · exact Int.le_of_lt (enthalpy_lt_of_temperature_lt w hlt)
  · exact Int.le_refl _

theorem enthalpy_le_of_humidity_le {t : Int} {w w' : Nat} (ht : -4000 ≤ t) (h : w ≤ w') :
    enthalpy t w ≤ enthalpy t w' := by
  obtain hlt | rfl := Nat.lt_or_eq_of_le h
  · exact Int.le_of_lt (enthalpy_lt_of_humidity_lt ht hlt)
  · exact Int.le_refl _

/-! ## The bounds of the enthalpy (R22) -/

theorem enthalpy_least : enthalpy (-4000) 0 = -4024 := by decide

theorem enthalpy_greatest : enthalpy 6000 300 = 13874 := by decide

theorem enthalpy_ge_least {t : Int} (w : Nat) (ht : -4000 ≤ t) : -4024 ≤ enthalpy t w :=
  calc
    -4024 = enthalpy (-4000) 0 := enthalpy_least.symm
    _ ≤ enthalpy t 0 := enthalpy_le_of_temperature_le 0 ht
    _ ≤ enthalpy t w := enthalpy_le_of_humidity_le ht w.zero_le

theorem enthalpy_le_greatest {t : Int} {w : Nat} (ht : -4000 ≤ t) (ht' : t ≤ 6000) (hw : w ≤ 300) :
    enthalpy t w ≤ 13874 :=
  calc
    enthalpy t w ≤ enthalpy t 300 := enthalpy_le_of_humidity_le ht hw
    _ ≤ enthalpy 6000 300 := enthalpy_le_of_temperature_le 300 ht'
    _ = 13874 := enthalpy_greatest

/-- Settles O57: the rounding is `roundDiv_nearest` at the divisor of R21, the growth of N in each operand exceeds that
divisor and so survives the rounding, and the bounds follow from the growth and the two corners. -/
theorem enthalpyBoundsAndGrowth : Obligations.EnthalpyBoundsAndGrowth := by
  refine ⟨fun t w => roundDiv_nearest (enthalpyN t w) (d := 1000000) (by decide), ?bounds, by decide,
    enthalpy_least, by decide, enthalpy_greatest, ?temperature, ?humidity⟩
  case bounds => exact fun t w ht ht' hw => ⟨enthalpy_ge_least w ht, enthalpy_le_greatest ht ht' hw⟩
  case temperature =>
    intro t t' w h
    have hN := enthalpyN_add_le_of_temperature_lt w h
    exact ⟨show enthalpyN t w < enthalpyN t' w by omega, enthalpy_lt_of_temperature_lt w h⟩
  case humidity =>
    intro t w w' ht _ h
    have hN := enthalpyN_add_le_of_humidity_lt ht h
    exact ⟨show enthalpyN t w < enthalpyN t w' by omega, enthalpy_lt_of_humidity_lt ht h⟩

end Sys2Proof.Machine
end

