-- ==== Sys2Proof/Proofs/RawBudget.lean ====
section
/-! PROOFS. Proofs/RawBudget.lean: the cold derating and B_raw (R31), and the effective budget in terms of B_raw
(R32 to R34). -/

namespace Sys2Proof.Machine

/-! ## The cold derating and B_raw (R31) -/

theorem derating_eq_floor (t : TowerCfg) (tOa : Int) :
    (derating t tOa : Int) = (t.k : Int) * max 0 (t.tInRef - tOa) / 1000 := by
  rw [derating, Int.natCast_ediv, Int.natCast_mul, Int.ofNat_toNat, Int.max_comm]
  rfl

theorem rawBudget_eq_max (t : TowerCfg) (tOa : Int) :
    (rawBudget t tOa : Int) = max 0 ((t.bBase : Int) - derating t tOa) := by
  unfold rawBudget
  omega

theorem rawBudget_le_base (t : TowerCfg) (tOa : Int) : rawBudget t tOa ≤ t.bBase := Nat.sub_le ..

theorem rawBudget_eq_zero {t : TowerCfg} {tOa : Int} (h : t.bBase ≤ derating t tOa) : rawBudget t tOa = 0 :=
  Nat.sub_eq_zero_of_le h

theorem rawBudget_eq_base {t : TowerCfg} {tOa : Int} (h : derating t tOa = 0) : rawBudget t tOa = t.bBase := by
  rw [rawBudget, h, Nat.sub_zero]

/-- Outdoor air at or above T_in_ref gives no derating. -/
theorem derating_eq_zero_of_warm {t : TowerCfg} {tOa : Int} (h : t.tInRef ≤ tOa) : derating t tOa = 0 := by
  have hdiff : (t.tInRef - tOa).toNat = 0 := by omega
  rw [derating, hdiff, Nat.mul_zero, Nat.zero_div]

theorem derating_eq_zero_of_k {t : TowerCfg} (tOa : Int) (h : t.k = 0) : derating t tOa = 0 := by
  rw [derating, h, Nat.zero_mul, Nat.zero_div]

/-- The difference is at most 3000 − (−4000) and K at most 1000. -/
theorem derating_le {t : TowerCfg} {tOa : Int} (ht : t.InRange) (h : -4000 ≤ tOa) : derating t tOa ≤ 7000 := by
  have hdiff : (t.tInRef - tOa).toNat ≤ 7000 := by
    have := ht.tInRef
    omega
  exact Nat.div_le_of_le_mul (Nat.mul_le_mul ht.k hdiff)

theorem derating_greatest {t : TowerCfg} (hk : t.k = 1000) (href : t.tInRef = 3000) : derating t (-4000) = 7000 := by
  rw [derating, hk, href]
  decide

/-! ## The halvings (R32 to R34) -/

@[simp] theorem halveIf_true (n : Nat) : halveIf true n = n / 2 := rfl

@[simp] theorem halveIf_false (n : Nat) : halveIf false n = n := rfl

/-- A reference station that is NONE gives no budget. -/
theorem effectiveBudget_none {ref : StationLive} (t : TowerCfg) (wind : Bool) (h : ref.status = .none) :
    effectiveBudget t ref wind = 0 := by
  simp only [effectiveBudget, h]

section Reporting

variable {ref : StationLive} {a : OutdoorAir} (t : TowerCfg) (wind : Bool) (hair : ref.air = some a)
include hair

/-- FRESH: only the wind halving can apply. -/
theorem effectiveBudget_fresh (h : ref.status = .fresh) :
    effectiveBudget t ref wind = halveIf (wind || decide (t.windLimit ≤ a.wind)) (rawBudget t a.tOa) := by
  simp only [effectiveBudget, h, hair]
  rfl

/-- STALE: one halving for the status, and the wind halving where it applies. -/
theorem effectiveBudget_stale (h : ref.status = .stale) :
    effectiveBudget t ref wind = halveIf (wind || decide (t.windLimit ≤ a.wind)) (rawBudget t a.tOa / 2) := by
  simp only [effectiveBudget, h, hair]
  rfl

end Reporting

/-- There is wind when an IN_WIND line or the station's held wind says so (R33). -/
theorem windCondition_eq_true_iff {wind : Bool} {limit held : Nat} :
    (wind || decide (limit ≤ held)) = true ↔ wind = true ∨ limit ≤ held := by
  rw [Bool.or_eq_true, decide_eq_true_iff]

/-- Settles O58: the derating and B_raw by their bounds and ends, and the effective budget by the status of the
reference station; two halvings make a quarter. -/
theorem deratingAndRawBudget : Obligations.DeratingAndRawBudget := by
  intro t tOa ht hlow _
  have noDerating (h : derating t tOa = 0) : derating t tOa = 0 ∧ rawBudget t tOa = t.bBase :=
    ⟨h, rawBudget_eq_base h⟩
  refine ⟨derating_eq_floor t tOa, rawBudget_eq_max t tOa, derating_le ht hlow, rawBudget_le_base t tOa, ht.bBase,
    ?warm, ?noK, rawBudget_eq_zero, ?greatest, ?halvings⟩
  case warm => exact fun h => noDerating (derating_eq_zero_of_warm h)
  case noK => exact fun h => noDerating (derating_eq_zero_of_k tOa h)
  case greatest =>
    rintro hk href rfl
    exact derating_greatest hk href
  case halvings =>
    rintro ref wind a hair rfl windy
    have calm (h : ¬ windy) : (wind || decide (t.windLimit ≤ a.wind)) = false :=
      Bool.eq_false_iff.mpr (mt windCondition_eq_true_iff.mp h)
    have windHalves (h : windy) : (wind || decide (t.windLimit ≤ a.wind)) = true := windCondition_eq_true_iff.mpr h
    refine ⟨effectiveBudget_none t wind, ?_, ?_, ?_, ?_⟩
    · intro hs hw
      rw [effectiveBudget_fresh t wind hair hs, calm hw, halveIf_false]
    · intro hs hw
      rw [effectiveBudget_fresh t wind hair hs, windHalves hw, halveIf_true]
    · intro hs hw
      rw [effectiveBudget_stale t wind hair hs, calm hw, halveIf_false]
    · intro hs hw
      rw [effectiveBudget_stale t wind hair hs, windHalves hw, halveIf_true, Nat.div_div_eq_div_mul]

end Sys2Proof.Machine
end

