-- ==== Sys2Proof/Proofs/Defer.lean ====
section
/-! PROOFS. Proofs/Defer.lean: a DEFER and the expiry of the reply window, met by a transaction whose window is open
(R130, R131), and the DEFER count at the start of a transaction. -/

namespace Sys2Proof.Machine

theorem exec_deferReceived {s : State} (h : s.slp.resetHeld = false) : exec .deferReceived s = .next s.defer :=
  congrArg Host.Outcome.next (if_neg (Bool.eq_false_iff.mp h))

theorem exec_replyWindowExpiry {s : State} (h : s.slp.resetHeld = false) :
    exec .replyWindowExpiry s = .next (s.fieldOutcome .missed) :=
  congrArg Host.Outcome.next (if_neg (Bool.eq_false_iff.mp h))

/-- The end of a transaction does not read its DEFER count. -/
theorem finishTxn_deferCount (t : Txn) (n : Nat) (u : UnitNo) (o : FieldOutcome) (s : State) :
    s.finishTxn { t with deferCount := n } u o = s.finishTxn t u o := rfl

theorem beginTxn_link (frame : FieldFrame) (req : Requester) (u : Option UnitNo) (v : LinkSpeed) (s : State) :
    (s.beginTxn frame req u v).flc.link =
      some { frame := frame, requester := req, unit := u, deferCount := 0, speed := v } := rfl

section OpenWindow

variable {s : State} {x : Txn} {u : UnitNo} {ms : Nat} (hlink : s.flc.link = some x) (hunit : x.unit = some u)
  (hstage : x.stage = .window ms)
include hlink hunit hstage

theorem fieldOutcome_of_window (o : FieldOutcome) : s.fieldOutcome o = s.finishTxn x u o := by
  simp only [State.fieldOutcome, hlink, hunit, hstage]

theorem defer_of_window :
    s.defer =
      if x.deferCount + 1 ≤ (s.unit u).cfg.deferLimit then
        s.setTxn { x with deferCount := x.deferCount + 1, stage := .window (s.unit u).cfg.replyWindow }
      else s.finishTxn { x with deferCount := x.deferCount + 1 } u .missed := by
  simp only [State.defer, hlink, hunit, hstage]

/-- Within the limit only the transaction record changes. -/
theorem defer_within_limit (hle : x.deferCount + 1 ≤ (s.unit u).cfg.deferLimit) :
    s.defer = s.setTxn { x with
      deferCount := x.deferCount + 1, stage := .window (s.unit u).cfg.replyWindow } := by
  rw [defer_of_window hlink hunit hstage, if_pos hle]

/-- Above the limit a DEFER does what the expiry of the window does. -/
theorem defer_above_limit (hlt : (s.unit u).cfg.deferLimit < x.deferCount + 1) :
    s.defer = s.fieldOutcome .missed := by
  rw [defer_of_window hlink hunit hstage, if_neg (Nat.not_le.mpr hlt), finishTxn_deferCount,
    fieldOutcome_of_window hlink hunit hstage]

end OpenWindow

/-- Settles O51: a DEFER within the limit by `defer_within_limit`; above it by `defer_above_limit`, of which limit 0 and
a third DEFER at limit 2 are cases; and the count 0 of a new transaction by `beginTxn_link`. -/
theorem deferStretchesTheWindow : Obligations.DeferStretchesTheWindow := by
  refine ⟨fun s x u ms hreset hlink hunit hstage => ?window, fun frame req u v s x hx => ?begins⟩
  case window =>
    have above (hlt : (s.unit u).cfg.deferLimit < x.deferCount + 1) :
        exec .deferReceived s = exec .replyWindowExpiry s := by
      rw [exec_deferReceived hreset, exec_replyWindowExpiry hreset, defer_above_limit hlink hunit hstage hlt]
    refine ⟨fun hle => ?within, above, fun hzero => above ?zero, fun htwo hcount => above ?third⟩
    case within =>
      rw [exec_deferReceived hreset, defer_within_limit hlink hunit hstage hle]
      rfl
    case zero => omega
    case third => omega
  case begins =>
    obtain rfl := Option.some.inj ((beginTxn_link frame req u v s).symm.trans hx)
    rfl

end Sys2Proof.Machine
end

