-- ==== Sys2Proof/Proofs/FlushNotices.lean ====
section
/-! PROOFS. Proofs/FlushNotices.lean: FLUSH_NOTICES (R192), and the pending reply that goes out before any notice
(R171, R190). -/

namespace Sys2Proof.Machine

/-! ## The pending reply -/

/-- An answer makes its frame the pending reply (R170). -/
theorem answer_reply (kind tag : Byte) (r : Reply) (s : State) :
    (s.answer kind tag r).slp.reply = some (r.frame kind tag) := rfl

/-- An answer leaves the frame that is being sent (R171). -/
theorem answer_stx_of_ne_idle (kind tag : Byte) (r : Reply) {s : State} (h : s.slp.stx ≠ .idle) :
    (s.answer kind tag r).slp.stx = s.slp.stx := if_neg h

/-- No notice may begin while a reply is pending (R171). -/
theorem mayNotify_of_reply {s : State} {f : SupFrame} (h : s.slp.reply = some f) : s.mayNotify = false := by
  simp [State.mayNotify, h]

/-- An event that would leave the state as it is leaves it so under RESETn too. -/
theorem whileAlive_eq_self {f : State → State} {s : State} (h : f s = s) : s.whileAlive f = s := by
  rw [State.whileAlive, h, ite_self]

/-- NOTICE_SEND does nothing where no notice may begin. -/
theorem exec_noticeSend_of_not_mayNotify {s : State} (h : s.mayNotify = false) : exec .noticeSend s = .next s := by
  refine congrArg Host.Outcome.next (whileAlive_eq_self ?_)
  split
  · rfl
  · exact if_neg (Bool.eq_false_iff.mp h)

/-! ## FLUSH_NOTICES (R192) -/

/-- The catalogue allows FLUSH_NOTICES with an empty body in every operating state, so the flush is done and accepted. -/
theorem exec_flushNotices {s : State} {tag : Byte} (h : s.takes ⟨0x41, tag, []⟩) :
    exec (.flushNotices tag []) s = .next ((s.taken.modNq fun q => { q with queue := [] }).answer 0x41 tag
      (.accept [byteOf s.nq.queue.length])) :=
  congrArg Host.Outcome.next (request_handled (k := .flushNotices) _ h rfl rfl)

/-- Settles O33: the state after by `exec_flushNotices`; the reply then pending holds back every notice posted later. -/
theorem flushNoticesEmptiesTheQueue : Obligations.FlushNoticesEmptiesTheQueue := by
  intro s tag h
  refine ⟨_, exec_flushNotices h, rfl, rfl, ?sending, answer_reply .., ?count, ?later⟩
  case sending =>
    intro n hn
    have busy : (s.taken.modNq fun q => { q with queue := [] }).slp.stx ≠ .idle := by simp [taken_slp, hn]
    exact (answer_stx_of_ne_idle _ _ _ busy).trans hn
  case count => exact fun safe => ⟨toNat_byteOf (Nat.lt_of_le_of_lt safe.short (by decide)), safe.short⟩
  case later =>
    intro level subject content
    apply exec_noticeSend_of_not_mayNotify
    apply mayNotify_of_reply
    rw [post_slp, answer_reply]

end Sys2Proof.Machine
end

