-- ==== Sys2Proof/Proofs/Commands.lean ====
section
/-! PROOFS. Proofs/Commands.lean: the commands by their groups: the rule that owns each request, the starts, and the
events of the part's own. -/

namespace Sys2Proof.Machine

/-! ## Requests -/

/-- The rule that owns a request kind (R170). -/
def ReqKind.rule (k : ReqKind) (body : List Byte) : State → State × Reply :=
  match k with
  | .loadUnit => loadItem 24 parseUnit State.storeUnit body
  | .loadRiser => loadItem 6 parseRiser State.storeRiser body
  | .loadStation => loadItem 8 parseStation State.storeStation body
  | .loadLine => loadItem 6 parseLine State.storeLine body
  | .loadTower => loadRecord (parseTower body) State.storeTower
  | .readConfig => fun s => (s, s.configReply body)
  | .startRun => State.startRun body
  | .stopRun => fun s => (s.endRun.grantOnWork, .accept [opStateCode s.slp.opState])
  | .restart => fun s => (s.modSlp fun p => { p with restart := .accepted }, .accept [opStateCode s.slp.opState])
  | .stationReading => State.takeStation body
  | .setSetpoint => State.takeSetpoint body
  | .setOverride => State.takeOverride body
  | .lockRiser => State.takeLock body
  | .readUnit => fun s => (s, s.unitReply body)
  | .readRiser => fun s => (s, s.riserReply body)
  | .readStation => fun s => (s, s.stationReply body)
  | .readBudget => fun s => (s, .accept s.budgetItems)
  | .readStatus => fun s => (s, .accept s.statusItems)
  | .setNoticeMask => State.takeMask body
  | .flushNotices => fun s => (s.modNq fun q => { q with queue := [] }, .accept [byteOf s.nq.queue.length])
  | .clearFlags => State.takeClear body
  | .postMail => State.takePost body
  | .takeMail => State.takeMail
  | .cancelMail => fun s => (s.clearMail, .accept [mailStateCode s.flc.mail.state])

/-- A request command is the taking of its frame, and then its rule. -/
theorem exec_request {i : Instr} {k : ReqKind} {tag : Byte} {body : List Byte}
    (h : requestOf i = some (k, tag, body)) (s : State) :
    exec i s = .next (s.request k tag body (k.rule body)) := by
  cases i <;> cases h <;> rfl

/-- A request taken with a length and in a state that the catalogue allows: its rule's state, with its rule's answer. -/
theorem exec_handled {i : Instr} {k : ReqKind} {tag : Byte} {body : List Byte} {s : State}
    (h : requestOf i = some (k, tag, body)) (ht : s.takes ⟨k.code, tag, body⟩)
    (hl : k.lengthOk body.length = true) (ho : k.allowed s.slp.opState = true) :
    exec i s = .next ((k.rule body s.taken).1.answer k.code tag (k.rule body s.taken).2) := by
  rw [exec_request h, request_handled _ ht hl ho]

/-- What every request's rule keeps. -/
theorem stays_rule (k : ReqKind) (body : List Byte) (s : State) : Stays s (k.rule body s).1 := by
  cases k with
  | loadUnit => exact stays_loadItem _ _ _ body s fun _ _ => ⟨rfl, rfl, rfl, id⟩
  | loadRiser => exact stays_loadItem _ _ _ body s fun _ _ => ⟨rfl, rfl, rfl, id⟩
  | loadStation => exact stays_loadItem _ _ _ body s fun _ _ => ⟨rfl, rfl, rfl, id⟩
  | loadLine => exact stays_loadItem _ _ _ body s fun _ _ => ⟨rfl, rfl, rfl, id⟩
  | loadTower => exact stays_loadRecord _ _ s fun _ => ⟨rfl, rfl, rfl, id⟩
  | startRun => exact stays_startRun body s
  | stopRun => exact (stays_endRun s).trans (ran_grantOnWork _).keeps.stays
  | restart => exact ⟨rfl, rfl, rfl, id⟩
  | stationReading => exact (keeps_takeStation body s).stays
  | setSetpoint => exact stays_takeSetpoint body s
  | setOverride => exact (keeps_takeOverride body s).stays
  | lockRiser => exact (keeps_takeLock body s).stays
  | setNoticeMask => exact stays_takeMask body s
  | flushNotices =>
    exact ⟨rfl, rfl, rfl, fun h =>
      ⟨h.range, Nat.zero_le _, .nil, fun _ hn => absurd hn List.not_mem_nil, fun _ hn => absurd hn List.not_mem_nil⟩⟩
  | clearFlags => exact stays_takeClear body s
  | postMail => exact (keeps_takePost body s).stays
  | takeMail => exact (keeps_takeMail s).stays
  | cancelMail => exact ⟨rfl, rfl, rfl, id⟩
  | readConfig | readUnit | readRiser | readStation | readBudget | readStatus => exact (Keeps.rfl s).stays

/-! ## Events of the part's own -/

/-- The commands that are events of a timebase, of the field link or of a line: all but the requests, the starts, RESTART
taking effect, RESETn going low and the work of the supervisor link. -/
def isEvent : Instr → Bool
  | .secondsTimebaseTick | .unitStaleLimit _ | .stationMaxAge _ | .dwellExpiry _ | .settleExpiry _
  | .readyWindowExpiry _ | .doneWindowExpiry _ | .sweepStart | .rollPassDue _ | .fieldRequestSent | .replyWindowExpiry
  | .fieldInterByteGap | .broadcastQuietGapEnd | .readingReceived _ _ _ _ | .ackReceived | .nakReceived _
  | .deferReceived | .phaseReceived _ _ | .mailReplyReceived _ | .fieldCheckFailure | .foreignAddressFrame _
  | .linePinChange _ _ | .lineFilterExpiry _ => true
  | _ => false

/-- Every command by its group. -/
inductive CommandGroup : Instr → Prop where
  | powerOn (spd : Bool) : CommandGroup (.powerOn spd)
  | supplyLowRestart (spd : Bool) : CommandGroup (.supplyLowRestart spd)
  | resetPinRelease (spd : Bool) : CommandGroup (.resetPinRelease spd)
  | resetPinAssert : CommandGroup .resetPinAssert
  | restartTakesEffect (spd : Bool) : CommandGroup (.restartTakesEffect spd)
  | frameComplete (bytes : List RxByte) : CommandGroup (.supervisorFrameComplete bytes)
  | interByteGap (before : List RxByte) (next : RxByte) : CommandGroup (.supervisorInterByteGap before next)
  | lengthDiscard (before : List RxByte) (length : RxByte) : CommandGroup (.supervisorLengthDiscard before length)
  | frameSent : CommandGroup .supervisorFrameSent
  | noticeSend : CommandGroup .noticeSend
  | unknownKind (kind tag : Byte) (body : List Byte) : CommandGroup (.unknownKind kind tag body)
  | request {i : Instr} {k : ReqKind} {tag : Byte} {body : List Byte} (h : requestOf i = some (k, tag, body)) :
    CommandGroup i
  | event {i : Instr} (h : isEvent i = true) : CommandGroup i

theorem commandGroup (i : Instr) : CommandGroup i := by
  cases i with
  | powerOn spd => exact .powerOn spd
  | supplyLowRestart spd => exact .supplyLowRestart spd
  | resetPinRelease spd => exact .resetPinRelease spd
  | resetPinAssert => exact .resetPinAssert
  | restartTakesEffect spd => exact .restartTakesEffect spd
  | supervisorFrameComplete bytes => exact .frameComplete bytes
  | supervisorInterByteGap before next => exact .interByteGap before next
  | supervisorLengthDiscard before length => exact .lengthDiscard before length
  | supervisorFrameSent => exact .frameSent
  | noticeSend => exact .noticeSend
  | unknownKind kind tag body => exact .unknownKind kind tag body
  | loadUnit | loadRiser | loadStation | loadLine | loadTower | readConfig | startRun | stopRun | restart
  | stationReading | setSetpoint | setOverride | lockRiser | readUnit | readRiser | readStation | readBudget | readStatus
  | setNoticeMask | flushNotices | clearFlags | postMail | takeMail | cancelMail => exact .request rfl
  | secondsTimebaseTick | unitStaleLimit | stationMaxAge | dwellExpiry | settleExpiry | readyWindowExpiry
  | doneWindowExpiry | sweepStart | rollPassDue | fieldRequestSent | replyWindowExpiry | fieldInterByteGap
  | broadcastQuietGapEnd | readingReceived | ackReceived | nakReceived | deferReceived | phaseReceived
  | mailReplyReceived | fieldCheckFailure | foreignAddressFrame | linePinChange | lineFilterExpiry => exact .event rfl

/-! ## Conditions -/

/-- Under equivalent conditions the same. -/
theorem ite_of_iff {α : Type} {p q : Prop} {_ : Decidable p} {_ : Decidable q} (h : p ↔ q) {a b : α} :
    (if p then a else b) = if q then a else b :=
  ite_congr (propext h) (fun _ => rfl) fun _ => rfl

/-! ## What holds an event back -/

theorem whileAlive_of_alive {s : State} (h : s.slp.resetHeld = false) (f : State → State) : s.whileAlive f = f s :=
  if_neg (Bool.eq_false_iff.mp h)

theorem whileAlive_of_held {s : State} (h : s.slp.resetHeld = true) (f : State → State) : s.whileAlive f = s :=
  if_pos h

/-- An event of a run reaches it while RESETn is high. -/
theorem whileRunning_of_running {s : State} (h : s.slp.resetHeld = false) (hr : s.running = true)
    (f : State → State) : s.whileRunning f = f s := by
  rw [State.whileRunning, whileAlive_of_alive h, if_pos hr]

/-- An event of a run that leaves the state as it is, whatever holds it back. -/
theorem whileRunning_eq_self {f : State → State} {s : State} (h : s.running = true → f s = s) :
    s.whileRunning f = s := by
  refine whileAlive_eq_self ?_
  split
  · next hr => exact h hr
  · rfl

end Sys2Proof.Machine
end

