-- ==== Sys2Proof/Proofs/BudgetLink.lean ====
section
/-! PROOFS. Proofs/BudgetLink.lean: the Condition Table's hand-offs, the grants and the outcomes of transactions keep the
committed weight within the budget (R89, R92, R96). -/

namespace Sys2Proof.Machine

/-! ## The Condition Table -/

theorem budget_setControl {s u k} (h : WithinBudget s) : WithinBudget (s.setControl u k) := by
  unfold State.setControl
  split
  · exact budget_drop (budget_q h (.modDecision ..))
  · exact budget_q h (.modDecision ..)

theorem budget_takeHand {s u} (h : WithinBudget s) : WithinBudget (s.takeHand u) := by
  unfold State.takeHand
  dsimp only
  split
  · exact h
  · exact budget_setControl (budget_q h (quiet_postHand ..))

theorem quiet_postFault (u : UnitNo) (old new : UnitFlags) (s : State) : Quiet s (s.postFault u old new) :=
  .ite (.post ..) (.rfl s)

theorem budget_takeReading {s u} (h : WithinBudget s) : WithinBudget (s.takeReading u) := by
  unfold State.takeReading
  exact budget_q (budget_takeHand h) (((quiet_clearLate ..).trans (quiet_evaluate ..)).trans (quiet_resync ..))

theorem budget_commit {s u f} (h : WithinBudget s) : WithinBudget (s.commit u f) := by
  unfold State.commit
  refine budget_recount (budget_takeReading (budget_q ?_ (quiet_postFault ..)))
  exact budget_q h (.modUnit u _ s)

theorem budget_changeCondition {s u c} (h : WithinBudget s) : WithinBudget (s.changeCondition u c) :=
  budget_own (budget_q h (.modUnit ..))

theorem budget_commitStation {s st t w v} (h : WithinBudget s) : WithinBudget (s.commitStation st t w v) := by
  have stored := quiet_modStation st (fun x => { x with live := Machine.commitStation t w v }) s
  exact budget_stationEvent (budget_q h (.ite stored (stored.trans (.post ..))))

theorem budget_staleStation {s st} (h : WithinBudget s) : WithinBudget (s.staleStation st) :=
  budget_stationEvent (budget_q h ((quiet_modStation st _ s).trans (.post ..)))

/-! ## Outcomes of transactions -/

theorem budget_rollTakes {s r c u a} (h : WithinBudget s) : WithinBudget (s.rollTakes r c u a) := by
  unfold State.rollTakes
  split
  · exact h
  · exact budget_rollTest (budget_ctx h)
  · exact budget_ceCancel (budget_ctx h)
  · exact budget_ctx h

theorem budget_queryOutcome {s k u o} (h : WithinBudget s) : WithinBudget (s.queryOutcome k u o) := by
  unfold State.queryOutcome
  split
  · split
    · exact h
    · split
      · exact budget_rollTakes h
      · exact h
  · exact h

theorem budget_repairOutcome {s k u} (h : WithinBudget s) : WithinBudget (s.repairOutcome k u) := by
  unfold State.repairOutcome
  split
  · exact h
  · exact budget_ctx h

theorem budget_handOutcome {s q u o} (h : WithinBudget s) : WithinBudget (s.handOutcome q u o) := by
  unfold State.handOutcome
  split
  · split
    · exact budget_commit h
    all_goals exact h
  · exact budget_q h (quiet_commandOutcome ..)
  · exact budget_q h (quiet_mailOutcome ..)
  · exact budget_queryOutcome h
  · exact budget_repairOutcome h
  · exact h
  · exact h

theorem budget_goOffline {s u} (h : WithinBudget s) : WithinBudget (s.goOffline u) := by
  have left : Quiet s (((s.modUnit u fun x => { x with presence := .offline }).post 2 (.unit u)
      (.unitPresence .offline)).modFlc fun f => { f with commands := f.commands.filter fun e => e.unit != u }) :=
    ((Quiet.modUnit u _ s).trans (.post ..)).trans (.modFlc _ _ rfl)
  exact budget_changeCondition (budget_q (budget_drop (budget_q h left)) (quiet_failMail ..))

theorem budget_takeMiss {s t u} (h : WithinBudget s) : WithinBudget (s.takeMiss t u) := by
  unfold State.takeMiss
  dsimp only
  split
  · exact budget_goOffline (budget_q h (.modUnit ..))
  · exact budget_handOutcome (budget_q h (.modUnit ..))

theorem budget_takeAnswer {s t u o} (h : WithinBudget s) : WithinBudget (s.takeAnswer t u o) := by
  have heard := budget_q h (.modUnit u (fun x => { x with misses := 0 }) s)
  have online : Quiet (s.modUnit u fun x => { x with misses := 0 })
      ((s.modUnit u fun x => { x with misses := 0 }).goOnline u) := (Quiet.modUnit u _ _).trans (.post ..)
  unfold State.takeAnswer
  dsimp only
  split
  · exact budget_handOutcome heard
  · split
    · exact budget_handOutcome (budget_q heard online)
    · exact budget_recount (budget_handOutcome (budget_q heard online))

/-! ## Grants -/

theorem budget_modFlc {s} (f) (h : WithinBudget s) : WithinBudget (s.modFlc f) := h

theorem budget_grantBroadcast {s r c} (h : WithinBudget s) : WithinBudget (s.grantBroadcast r c) := by
  have begun (frame : FieldFrame) (d : Option Ctx) : WithinBudget ((s.beginBroadcast frame r).setCtx r d) := h
  unfold State.grantBroadcast
  split
  · exact begun _ _
  · exact budget_q (begun _ _) (.foldl (quiet_setGroupMode _) _ _)
  · exact budget_cancelC (budget_modFlc _ h)
  · exact budget_q (begun _ _) (.foldl (quiet_setGroupMode _) _ _)
  · exact h
  · exact h

theorem budget_grantChangeover {s} (h : WithinBudget s) : WithinBudget s.grantChangeover := by
  unfold State.grantChangeover
  split
  · exact h
  · split
    · exact h
    · split
      · exact h
      · unfold State.grantCtx
        split
        · exact budget_grantBroadcast (budget_modFlc _ h)
        · exact h
        · exact h

theorem budget_grantClass {s k} (h : WithinBudget s) : WithinBudget (s.grantClass k) := by
  cases k with
  | changeover => exact budget_grantChangeover h
  | command =>
    unfold State.grantClass State.grantCommand
    dsimp only
    split <;> exact h
  | mail =>
    unfold State.grantClass State.grantMail
    dsimp only
    split <;> exact h
  | poll =>
    unfold State.grantClass State.grantPoll
    dsimp only
    split <;> exact h

theorem budget_grant {s k} (h : WithinBudget s) : WithinBudget (s.grant k) := budget_grantClass (budget_modFlc _ h)

theorem budget_grantNext {s} (h : WithinBudget s) : WithinBudget s.grantNext := by
  unfold State.grantNext
  split
  · exact h
  · split
    · exact h
    · split
      · split
        · exact h
        · exact budget_grant h
      · exact h

theorem budget_grantOnWork {s} (h : WithinBudget s) : WithinBudget s.grantOnWork := by
  unfold State.grantOnWork
  split
  · split
    · exact h
    · exact budget_grant (s := { s with choices := s.choices + 1 }) h
  · exact budget_grantNext h

theorem budget_finishTxn {s t u o} (h : WithinBudget s) : WithinBudget (s.finishTxn t u o) := by
  unfold State.finishTxn
  refine budget_grantNext (budget_modFlc _ ?_)
  split
  · split
    · exact budget_takeMiss h
    · exact budget_takeAnswer h
  · exact h

/-! ## Requests and expiries -/

/-- A change of a riser's live part that keeps the grants. -/
theorem budget_modLive {s r f} (h : WithinBudget s) : WithinBudget (s.modLive r f) :=
  h.dec ⟨rfl, fun _ => (Keeps.modLive r f s).tables.risers _, List.Sublist.refl _⟩

theorem budget_lockOn {s r} (h : WithinBudget s) : WithinBudget (s.lockOn r) := by
  unfold State.lockOn
  split
  · exact h
  · exact budget_withdraw (budget_modLive h)

theorem budget_lockOff {s r} (h : WithinBudget s) : WithinBudget (s.lockOff r) := budget_joinIf (budget_modLive h)

theorem budget_applyOverride {s u m} (h : WithinBudget s) : WithinBudget (s.applyOverride u m) := by
  unfold State.applyOverride
  dsimp only
  split
  · exact h
  · exact budget_own (budget_setControl (budget_q h (.modDecision ..)))

theorem budget_doneExpires {s r c} (h : WithinBudget s) : WithinBudget (s.doneExpires r c) :=
  budget_rollEnds (budget_q (budget_ctx h) (.foldl (fun _ _ => Quiet.modDecision ..) _ _))

theorem budget_tick {s} (h : WithinBudget s) : WithinBudget s.tick :=
  h.dec ⟨rfl, fun r => by simp [State.tick, State.riser, RiserRec.tick], List.Sublist.refl _⟩

end Sys2Proof.Machine
end

