-- ==== Sys2Proof/Proofs/Events.lean ====
section
/-! PROOFS. Proofs/Events.lean: what every event of the part's own keeps: the supervisor link port, the tables, the safety
of the notice queue, the relations of the groups and the budget, and outside a run the groups themselves. -/

namespace Sys2Proof.Machine

theorem Keeps.running {s t : State} (h : Keeps s t) : t.running = s.running := by
  unfold State.running
  rw [h.slp]

/-- What an event that finds the part outside a run, its transaction unheeded, leaves of the groups: all of it (R174,
R145). -/
structure OutsideRun (s t : State) : Prop where
  risers : t.risers = s.risers
  sba : t.sba = s.sba
  link : t.linkUnheeded

/-- What every event of the part's own keeps. -/
structure EventKeeps (s t : State) : Prop where
  keeps : Keeps s t
  coherent : Coherent s [] [] → Coherent t [] []
  budget : WithinBudget s → WithinBudget t
  outside : s.running = false → s.linkUnheeded → OutsideRun s t

namespace EventKeeps

theorem trans {a b c : State} (h : EventKeeps a b) (k : EventKeeps b c) : EventKeeps a c where
  keeps := h.keeps.trans k.keeps
  coherent g := k.coherent (h.coherent g)
  budget g := k.budget (h.budget g)
  outside hr hl := by
    have ⟨risers, sba, link⟩ := h.outside hr hl
    have ⟨risers', sba', link'⟩ := k.outside (h.keeps.running.trans hr) link
    exact ⟨risers'.trans risers, sba'.trans sba, link'⟩

/-- What leaves the groups and the link alone. -/
theorem quiet {s t : State} (k : Keeps s t) (q : Quiet s t) : EventKeeps s t where
  keeps := k
  coherent g := g.quiet q
  budget g := budget_q g q
  outside hr hl := ⟨q.risers, q.sba, fun _ x hx => hl hr x (q.link ▸ hx)⟩

theorem rfl (s : State) : EventKeeps s s := quiet (.rfl s) (.rfl s)

theorem ite {s a b : State} {p : Prop} [Decidable p] (h : EventKeeps s a) (k : EventKeeps s b) :
    EventKeeps s (if p then a else b) := by
  split
  · exact h
  · exact k

theorem whileAlive {f : State → State} (h : ∀ s, EventKeeps s (f s)) (s : State) : EventKeeps s (s.whileAlive f) :=
  .ite (.rfl s) (h s)

/-- An event of a run, which outside a run changes nothing. -/
theorem whileRunning {f : State → State} (hk : ∀ s, Keeps s (f s))
    (hc : ∀ s, Coherent s [] [] → Coherent (f s) [] []) (hb : ∀ s, WithinBudget s → WithinBudget (f s)) (s : State) :
    EventKeeps s (s.whileRunning f) := by
  unfold State.whileRunning State.whileAlive
  split
  · exact .rfl s
  · dsimp only
    split
    · next hr => exact ⟨hk s, hc s, hb s, fun h => absurd hr (by simp [h])⟩
    · exact .rfl s

/-- A change of the transaction in progress that leaves its unit and whether it is heeded. -/
theorem setTxn {s : State} {x y : Txn} (hx : s.flc.link = some x) (hu : y.unit = x.unit) (hh : y.heeded = x.heeded) :
    EventKeeps s (s.setTxn y) where
  keeps := .modFlc ..
  coherent g := coherent_flc _ g
  budget g := g
  outside hr hl := ⟨Eq.refl _, Eq.refl _, fun _ z hz => by
    obtain rfl : y = z := Option.some.inj hz
    rw [hu, hh]
    exact hl hr x hx⟩

end EventKeeps

/-! ## Grants and the ends of transactions -/

/-- Outside a run nothing but an owed RELEASE is granted (R137, R145). -/
theorem event_grantNext (s : State) : EventKeeps s s.grantNext where
  keeps := (ran_grantNext s).keeps
  coherent := coherent_grantNext
  budget := budget_grantNext
  outside hr hl := by
    have same : OutsideRun s s := ⟨rfl, rfl, hl⟩
    unfold State.grantNext
    split
    · exact same
    · split
      · exact ⟨rfl, rfl, fun _ x hx => .inl (by cases hx; rfl)⟩
      · rw [if_neg (by simp [hr])]
        exact same

theorem grantOnWork_of_not_running {s : State} (h : s.running = false) : s.grantOnWork = s.grantNext :=
  if_neg fun hw => absurd hw.2.2.1 (by simp [h])

theorem event_grantOnWork (s : State) : EventKeeps s s.grantOnWork where
  keeps := (ran_grantOnWork s).keeps
  coherent := coherent_gow
  budget := budget_grantOnWork
  outside hr hl := grantOnWork_of_not_running hr ▸ (event_grantNext s).outside hr hl

theorem event_endTxn (s : State) : EventKeeps s s.endTxn where
  keeps := .modFlc ..
  coherent g := coherent_flc _ g
  budget g := g
  outside _ _ := ⟨rfl, rfl, fun _ _ hx => nomatch hx⟩

/-- An outcome that STOP_RUN has left acts on nothing (R145). -/
theorem finishTxn_unheeded {t : Txn} (h : t.heeded = false) (u : UnitNo) (o : FieldOutcome) (s : State) :
    s.finishTxn t u o = s.endTxn.grantNext := by
  unfold State.finishTxn
  rw [if_neg (by simp [h])]

theorem event_finishTxn {s : State} {x : Txn} {u : UnitNo} (hx : s.flc.link = some x) (hu : x.unit = some u)
    (o : FieldOutcome) : EventKeeps s (s.finishTxn x u o) where
  keeps := keeps_finishTxn ..
  coherent := coherent_finish
  budget := budget_finishTxn
  outside hr hl := by
    have unheeded : x.heeded = false := (hl hr x hx).resolve_left (by simp [hu])
    rw [finishTxn_unheeded unheeded]
    exact ((event_endTxn s).trans (event_grantNext _)).outside hr hl

theorem event_fieldOutcome (o : FieldOutcome) (s : State) : EventKeeps s (s.fieldOutcome o) := by
  unfold State.fieldOutcome
  split
  · exact .rfl s
  · next x hx =>
    split
    · next hu _ => exact event_finishTxn hx hu o
    · exact .rfl s

theorem event_checkFailure (s : State) : EventKeeps s s.checkFailure := by
  unfold State.checkFailure
  split
  · exact .rfl s
  · next x hx =>
    split
    · next hu _ =>
      have flag : EventKeeps s (s.modNq fun q => { q with fieldCheck := true }) :=
        .quiet (keeps_fieldCheck s) ⟨rfl, rfl, rfl, rfl, rfl⟩
      exact flag.trans (event_finishTxn (s := s.modNq _) hx hu .missed)
    · exact .rfl s

theorem event_defer (s : State) : EventKeeps s s.defer := by
  unfold State.defer
  split
  · exact .rfl s
  · next x hx =>
    split
    · next hu _ => exact .ite (.setTxn hx rfl rfl) (event_finishTxn hx hu .missed)
    · exact .rfl s

theorem event_requestSent (s : State) : EventKeeps s s.requestSent := by
  unfold State.requestSent
  split
  · exact .rfl s
  · next x hx => exact .ite (.setTxn hx rfl rfl) (.rfl s)

theorem event_broadcastEnds (s : State) : EventKeeps s s.broadcastEnds := by
  unfold State.broadcastEnds
  split
  · exact .rfl s
  · exact .ite ((event_endTxn s).trans (event_grantNext _)) (.rfl s)

theorem event_foreignFrame (bytes : List Byte) (s : State) : EventKeeps s (s.foreignFrame bytes) := by
  unfold State.foreignFrame
  split
  · exact event_checkFailure s
  · exact .rfl s

/-! ## Lines -/

theorem coherent_edgeEffect {s : State} {role : Role} {was is : Bool} (g : Coherent s [] []) :
    Coherent (s.edgeEffect role was is) [] [] := by
  unfold State.edgeEffect
  cases role with
  | inWind => exact coherent_recompute g
  | inFreeze =>
    dsimp only
    split
    · exact g
    · split
      · exact coherent_freezeOn g
      · exact coherent_freezeOff g
  | inEmergency =>
    dsimp only
    split
    · exact g
    · split
      · exact coherent_emergencyOn g
      · exact coherent_emergencyOff g
  | none | outFault | outFree => exact g

theorem event_edge (l : LineNo) (s : State) : EventKeeps s (s.edge l) := by
  unfold State.edge
  dsimp only
  have accepted : EventKeeps s ((s.acceptLevel l).post (edgeLevel (s.line l).cfg.role) (.line l)
      (.lineEdge (s.line l).cfg.role (s.pinShowsActive l))) :=
    .quiet ((keeps_acceptLevel l s).trans (.post _ _ _ _ rfl)) ⟨rfl, rfl, rfl, rfl, rfl⟩
  split
  · next hr =>
    refine accepted.trans (.trans ⟨(cascade_edgeEffect ..).keeps, coherent_edgeEffect, budget_edge, fun h => ?_⟩
      (event_grantOnWork _))
    exact absurd hr (by simp [h])
  · exact accepted

theorem event_readPin (l : LineNo) (s : State) : EventKeeps s (s.readPin l) :=
  .quiet (keeps_readPin l s) (.ite ⟨rfl, rfl, rfl, rfl, rfl⟩ (.rfl s))

theorem event_setPin (l : LineNo) (high : Bool) (s : State) : EventKeeps s (s.setPin l high) :=
  .quiet (keeps_setPin l high s) ⟨rfl, rfl, rfl, rfl, rfl⟩

/-! ## Every event -/

/-- An event that does its work where its timer has run out, and grants the work it makes (R137). -/
theorem event_due {f : State → State} (p : State → Bool) (hk : ∀ s, Keeps s (f s))
    (hc : ∀ s, Coherent s [] [] → Coherent (f s) [] []) (hb : ∀ s, WithinBudget s → WithinBudget (f s)) (s : State) :
    EventKeeps s (s.whileRunning fun s => if p s then (f s).grantOnWork else s) := by
  refine .whileRunning (fun s => .ite ((hk s).trans (ran_grantOnWork _).keeps) (.rfl s)) (fun s g => ?_)
    (fun s g => ?_) s
  · split
    · exact coherent_gow (hc s g)
    · exact g
  · split
    · exact budget_grantOnWork (hb s g)
    · exact g

/-- The same for an event that works on the context of a riser. -/
theorem event_ctxDue {f : Ctx → State → State} (r : RiserNo) (p : Ctx → Prop) [DecidablePred p]
    (hk : ∀ c s, Keeps s (f c s)) (hc : ∀ c s, s.ctx r = some c → p c → Coherent s [] [] → Coherent (f c s) [] [])
    (hb : ∀ c s, WithinBudget s → WithinBudget (f c s)) (s : State) :
    EventKeeps s (s.whileRunning fun s =>
      match s.ctx r with
      | none => s
      | some c => if p c then (f c s).grantOnWork else s) := by
  refine .whileRunning (fun s => ?_) (fun s g => ?_) (fun s g => ?_) s
  all_goals split
  · exact .rfl s
  · exact .ite ((hk _ s).trans (ran_grantOnWork _).keeps) (.rfl s)
  · exact g
  · next c hx =>
    split
    · next hp => exact coherent_gow (hc c s hx hp g)
    · exact g
  · exact g
  · split
    · exact budget_grantOnWork (hb _ s g)
    · exact g

/-- The contexts keep the states they go with where a window expires. -/
theorem coherent_settleTaken {s : State} {r : RiserNo} (g : Coherent s [] []) :
    Coherent ((s.modLive r fun l => { l with settleExpired := false }).settleExpired r) [] [] := by
  refine coherent_settleExpired (g.same (r := r) ?_)
  exact (RiserEdit.start r s).modRiser (fun x => { x with live := { x.live with settleExpired := false } })
    (fun _ => rfl) _ rfl

/-- Every event of the part's own completes, and keeps all that EventKeeps names. -/
theorem exec_event {i : Instr} (h : isEvent i = true) (s : State) : ∃ t, exec i s = .next t ∧ EventKeeps s t := by
  cases i with
  | secondsTimebaseTick =>
    exact ⟨_, rfl, .whileRunning keeps_tick (fun _ => coherent_tick) (fun _ => budget_tick) s⟩
  | unitStaleLimit u =>
    exact ⟨_, rfl, event_due _ (fun _ => keeps_changeCondition ..) (fun _ => coherent_changeCondition)
      (fun _ => budget_changeCondition) s⟩
  | stationMaxAge st =>
    exact ⟨_, rfl, event_due _ (fun _ => keeps_staleStation ..) (fun _ => coherent_stale)
      (fun _ => budget_staleStation) s⟩
  | dwellExpiry u =>
    exact ⟨_, rfl, event_due _ (fun _ => (Keeps.modDecision ..).trans (cascade_ownEvent ..).keeps)
      (fun _ g => coherent_own (g.quiet (.modDecision ..))) (fun _ g => budget_own (budget_q g (.modDecision ..))) s⟩
  | settleExpiry r =>
    exact ⟨_, rfl, event_due _ (fun _ => (Keeps.modLive ..).trans (cascade_settleExpired ..).keeps)
      (fun _ => coherent_settleTaken) (fun _ g => budget_settle (budget_modLive g)) s⟩
  | readyWindowExpiry r =>
    refine ⟨_, rfl, event_ctxDue r _ (fun _ _ => (cascade_ceCancel ..).keeps)
      (fun c s hc _ g => coherent_ceCancel c g hc rfl rfl _) (fun _ _ => budget_ceCancel) s⟩
  | doneWindowExpiry r =>
    exact ⟨_, rfl, event_ctxDue r _ (fun _ _ => keeps_doneExpires ..)
      (fun _ _ hc hp g => coherent_doneExpires g hc hp.1) (fun _ _ => budget_doneExpires) s⟩
  | sweepStart =>
    exact ⟨_, rfl, event_due _ (fun _ => .modFlc ..) (fun _ => coherent_flc _) (fun _ g => g) s⟩
  | rollPassDue r =>
    exact ⟨_, rfl, event_ctxDue (f := fun c s => s.setCtx r (some { c with passStart := some .due })) r _
      (fun _ _ => .setCtx ..) (fun _ _ hc _ g => coherent_setCtx' g hc rfl rfl) (fun _ _ => budget_ctx) s⟩
  | fieldRequestSent => exact ⟨_, rfl, .whileAlive event_requestSent s⟩
  | replyWindowExpiry => exact ⟨_, rfl, .whileAlive (event_fieldOutcome _) s⟩
  | fieldInterByteGap => exact ⟨_, rfl, .whileAlive event_checkFailure s⟩
  | broadcastQuietGapEnd => exact ⟨_, rfl, .whileAlive event_broadcastEnds s⟩
  | readingReceived t w m f => exact ⟨_, rfl, .whileAlive (event_fieldOutcome _) s⟩
  | ackReceived => exact ⟨_, rfl, .whileAlive (event_fieldOutcome _) s⟩
  | nakReceived reason => exact ⟨_, rfl, .whileAlive (event_fieldOutcome _) s⟩
  | deferReceived => exact ⟨_, rfl, .whileAlive event_defer s⟩
  | phaseReceived tag token => exact ⟨_, rfl, .whileAlive (event_fieldOutcome _) s⟩
  | mailReplyReceived bytes =>
    refine ⟨_, rfl, .whileAlive (fun s => ?_) s⟩
    split
    · exact event_fieldOutcome _ s
    · exact event_checkFailure s
  | fieldCheckFailure => exact ⟨_, rfl, .whileAlive event_checkFailure s⟩
  | foreignAddressFrame bytes => exact ⟨_, rfl, .whileAlive (event_foreignFrame bytes) s⟩
  | linePinChange l high =>
    exact ⟨_, rfl, (event_setPin l high s).trans (.whileAlive (event_readPin l) _)⟩
  | lineFilterExpiry l => exact ⟨_, rfl, .whileAlive (fun s => .ite (event_edge l s) (.rfl s)) s⟩
  | _ => cases h

end Sys2Proof.Machine
end

