-- ==== Sys2Proof/Proofs/Kept.lean ====
section
/-! PROOFS. Proofs/Kept.lean: the four invariants, at reset and over every command (R88, R89, R92, R96, R102, R168, R169,
R188, R189, R191), and that every command completes. -/

namespace Sys2Proof.Machine

/-! ## The notice queue and the commands waiting -/

theorem nqSafe_started (cause : StartCause) {mask : Nat} (h : mask ≤ 3) : NqSafe (Nq.started cause mask) where
  range := h
  short := (by decide : 1 ≤ 32)
  sorted := List.pairwise_singleton ..
  masked := by simpa [Nq.started] using h
  levels := by simp [Nq.started, Content.fixedLevel]

/-- What leaves the commands waiting and keeps the notice queue safe. -/
structure QueueKept (s t : State) : Prop where
  pending : t.pending = s.pending
  nqSafe : NqSafe s.nq → NqSafe t.nq

theorem Keeps.queueKept {s t : State} (h : Keeps s t) : QueueKept s t := ⟨h.pending, h.nqSafe⟩

theorem Stays.queueKept {s t : State} (h : Stays s t) : QueueKept s t := ⟨h.pending, h.nqSafe⟩

theorem QueueKept.trans {a b c : State} (h : QueueKept a b) (k : QueueKept b c) : QueueKept a c :=
  ⟨k.pending.trans h.pending, fun q => k.nqSafe (h.nqSafe q)⟩

theorem QueueKept.ite {s a b : State} {p : Prop} [Decidable p] (h : QueueKept s a) (k : QueueKept s b) :
    QueueKept s (if p then a else b) := by
  split
  · exact h
  · exact k

theorem queueKept_rfl (s : State) : QueueKept s s := ⟨rfl, id⟩

theorem queueKept_receive (s : State) (b : RxByte) : QueueKept s (s.receive b) := by
  unfold State.receive
  dsimp only
  split
  · exact ⟨rfl, id⟩
  · refine .trans ⟨rfl, id⟩ (.ite ⟨rfl, id⟩ ⟨rfl, fun h => ⟨h.range, h.short, h.sorted, h.masked, h.levels⟩⟩)

theorem queueKept_receiveAll (bs : List RxByte) (s : State) : QueueKept s (s.receiveAll bs) := by
  unfold State.receiveAll
  induction bs generalizing s with
  | nil => exact queueKept_rfl s
  | cons b bs ih => exact (queueKept_receive s b).trans (ih _)

theorem queueKept_request (k : ReqKind) (tag : Byte) (body : List Byte) (s : State) :
    QueueKept s (s.request k tag body (k.rule body)) := by
  obtain h | ⟨r, h⟩ | h := request_cases k tag body (k.rule body) s <;> rw [h]
  · exact queueKept_rfl s
  · exact ⟨rfl, id⟩
  · have stays := stays_rule k body s.taken
    exact ⟨stays.pending, stays.nqSafe⟩

/-- A start of the part, RESTART among them, takes over the commands waiting. -/
theorem exec_queueKept (i : Instr) (s : State) : ∃ t, exec i s = .next t ∧ QueueKept s t := by
  have alive {f : State → State} (h : QueueKept s (f s)) : QueueKept s (s.whileAlive f) := .ite (queueKept_rfl s) h
  cases commandGroup i with
  | event h =>
    obtain ⟨t, ht, keeps⟩ := exec_event h s
    exact ⟨t, ht, keeps.keeps.queueKept⟩
  | request h => exact ⟨_, exec_request h s, queueKept_request ..⟩
  | powerOn | resetPinRelease | supplyLowRestart => exact ⟨_, rfl, rfl, fun _ => nqSafe_started _ (Nat.zero_le _)⟩
  | resetPinAssert => exact ⟨_, rfl, rfl, id⟩
  | frameComplete bytes => exact ⟨_, rfl, alive (queueKept_receiveAll bytes s)⟩
  | interByteGap before next =>
    have hunting : QueueKept s (s.receiveAll before).hunt := (queueKept_receiveAll before s).trans ⟨rfl, id⟩
    exact ⟨_, rfl, alive (hunting.trans (queueKept_receive _ next))⟩
  | lengthDiscard before length => exact ⟨_, rfl, alive (queueKept_receiveAll _ s)⟩
  | frameSent =>
    refine ⟨_, rfl, alive ?_⟩
    split <;> exact ⟨rfl, id⟩
  | noticeSend =>
    refine ⟨_, rfl, alive ?_⟩
    split
    · exact queueKept_rfl s
    · next n rest hn =>
      refine .ite ⟨rfl, fun h => ?_⟩ (queueKept_rfl s)
      have sub : rest.Sublist s.nq.queue := hn ▸ List.sublist_cons_self n rest
      exact ⟨h.range, Nat.le_trans sub.length_le h.short, h.sorted.sublist sub,
        fun m hm => h.masked m (sub.subset hm), fun m hm => h.levels m (sub.subset hm)⟩
  | unknownKind kind tag body =>
    refine ⟨_, rfl, .ite (queueKept_rfl s) ?_⟩
    by_cases ht : s.takes ⟨kind, tag, body⟩
    · rw [takeFrame_eq ht]
      exact ⟨rfl, id⟩
    · rw [takeFrame_none ht]
      exact queueKept_rfl s
  | restartTakesEffect spd =>
    exact ⟨_, rfl, alive (.ite ⟨rfl, fun h => nqSafe_started _ h.range⟩ (queueKept_rfl s))⟩

theorem exec_next_unique {i : Instr} {s t t' : State} (h : exec i s = .next t) (h' : exec i s = .next t') : t = t' :=
  Host.Outcome.next.inj (h.symm.trans h')

/-- A step is idle, or it is the command at the front on the state with the rest of the queue. -/
theorem step_cases {s t : State} (h : step s = .next t) :
    t = s ∨ ∃ c rest, s.pending = c :: rest ∧ exec c { s with pending := rest } = .next t := by
  unfold step at h
  split at h
  · exact .inl (Host.Outcome.next.inj h).symm
  · next c rest hp => exact .inr ⟨c, rest, hp, h⟩

/-- An invariant that reads no command waiting, and that every command keeps, is kept by every step. -/
theorem step_keeps {P : State → Prop} (hp : ∀ s rest, P s → P { s with pending := rest })
    (he : ∀ i s t, exec i s = .next t → P s → P t) {s t : State} (hs : P s) (h : step s = .next t) : P t := by
  obtain rfl | ⟨c, rest, -, hc⟩ := step_cases h
  · exact hs
  · exact he c _ t hc (hp s rest hs)

/-- Settles O5: every command keeps the queue safe, by `exec_queueKept`. -/
theorem noticeQueueKept : Obligations.NoticeQueueKept := by
  intro s t hs h
  refine step_keeps (P := fun s => NqSafe s.nq) (fun _ _ => id) (fun i s t hi safe => ?_) hs h
  obtain ⟨t', ht, kept⟩ := exec_queueKept i s
  exact exec_next_unique ht hi ▸ kept.nqSafe safe

/-- Settles O2. -/
theorem everyCommandCompletes : Obligations.EveryCommandCompletes := by
  intro i s
  obtain ⟨t, ht, kept⟩ := exec_queueKept i s
  exact ⟨t, ht, kept.pending⟩

/-- Settles O1. -/
theorem stepTakesTheFront : Obligations.StepTakesTheFront := by
  refine ⟨fun c rest s => rfl, fun s h => ?_⟩
  unfold step
  rw [h]

/-! ## The receiver and the request buffer (R168, R169) -/

theorem length_body_of_frameOf {got : List Byte} {f : SupFrame} (h : frameOf got = some f) :
    ∃ len rest, got = len :: rest ∧ f.body.length ≤ len.toNat := by
  unfold frameOf at h
  split at h
  · next len kind tag rest =>
    split at h
    · split at h
      · cases h
        exact ⟨len, _, rfl, List.length_take_le ..⟩
      · cases h
    · cases h
  · cases h

/-- A byte keeps the receiver within a frame, and a frame it completes is at most 120 bytes long. -/
theorem inFrameByte_safe (got : List Byte) (ok : Bool) :
    (inFrameByte got ok).receiver.safe ∧ ∀ f, (inFrameByte got ok).frame = some f → f.body.length ≤ 120 := by
  unfold inFrameByte
  cases got with
  | nil => exact ⟨trivial, fun f h => nomatch h⟩
  | cons len rest =>
    dsimp only
    split
    · exact ⟨trivial, fun f h => nomatch h⟩
    · next hlen =>
      split
      · refine ⟨trivial, fun f hf => ?_⟩
        cases ok with
        | false => cases hf
        | true =>
          obtain ⟨len', rest', e, hle⟩ := length_body_of_frameOf hf
          obtain ⟨rfl, -⟩ := List.cons.inj e
          omega
      · next hend => exact ⟨⟨by omega, Nat.lt_of_not_le hend⟩, fun f h => nomatch h⟩

theorem receiverByte_safe (r : Receiver) (b : RxByte) :
    (r.byte b).receiver.safe ∧ ∀ f, (r.byte b).frame = some f → f.body.length ≤ 120 := by
  cases r with
  | hunting =>
    unfold Receiver.byte
    dsimp only
    split <;> exact ⟨trivial, fun f h => nomatch h⟩
  | inFrame got ok => exact inFrameByte_safe ..

theorem slpSafe_placeFrame {s : State} {f : SupFrame} (h : SlpSafe s.slp) (hf : f.body.length ≤ 120) :
    SlpSafe (s.placeFrame f).slp := by
  unfold State.placeFrame
  split
  · next hl =>
    refine ⟨h.receiver, ?_, fun g hg => ?_⟩
    · simpa using Nat.le_of_lt_succ (Nat.succ_lt_succ hl)
    · rcases List.mem_append.1 hg with hg | hg
      · exact h.bodies g hg
      · exact List.mem_singleton.1 hg ▸ hf
  · exact h

theorem slpSafe_receive {s : State} (h : SlpSafe s.slp) (b : RxByte) : SlpSafe (s.receive b).slp := by
  have hb := receiverByte_safe s.slp.receiver b
  have moved : SlpSafe (s.modSlp fun p => { p with receiver := (s.slp.receiver.byte b).receiver }).slp :=
    ⟨hb.1, h.two, h.bodies⟩
  unfold State.receive
  dsimp only
  split
  · exact moved
  · next f hf => exact slpSafe_placeFrame moved (hb.2 f hf)

theorem slpSafe_receiveAll (bs : List RxByte) {s : State} (h : SlpSafe s.slp) : SlpSafe (s.receiveAll bs).slp := by
  unfold State.receiveAll
  induction bs generalizing s with
  | nil => exact h
  | cons b bs ih => exact ih (slpSafe_receive h b)

/-- What keeps the receiver and the requests, or frees the oldest slot, keeps the port safe. -/
theorem SlpSafe.of_requests {p q : Slp} (h : SlpSafe p) (hr : q.receiver = p.receiver)
    (hq : q.requests.Sublist p.requests) : SlpSafe q :=
  ⟨hr ▸ h.receiver, Nat.le_trans hq.length_le h.two, fun f hf => h.bodies f (hq.subset hf)⟩

theorem slpSafe_taken {s : State} (h : SlpSafe s.slp) : SlpSafe s.taken.slp :=
  h.of_requests rfl (List.tail_sublist _)

theorem slpSafe_request {s : State} (h : SlpSafe s.slp) (k : ReqKind) (tag : Byte) (body : List Byte) :
    SlpSafe (s.request k tag body (k.rule body)).slp := by
  have answered {t : State} (ht : SlpSafe t.slp) (r : Reply) : SlpSafe (t.answer k.code tag r).slp :=
    ht.of_requests rfl (List.Sublist.refl _)
  obtain e | ⟨r, e⟩ | e := request_cases k tag body (k.rule body) s <;> rw [e]
  · exact h
  · exact answered (slpSafe_taken h) r
  · have stays := stays_rule k body s.taken
    have kept : (k.rule body s.taken).1.slp.requests.Sublist s.taken.slp.requests :=
      stays.requests ▸ List.Sublist.refl _
    exact answered ((slpSafe_taken h).of_requests stays.receiver kept) _

theorem slpSafe_whileAlive {s : State} {f : State → State} (h : SlpSafe s.slp) (hf : SlpSafe (f s).slp) :
    SlpSafe (s.whileAlive f).slp := by
  unfold State.whileAlive
  split
  · exact h
  · exact hf

theorem slpSafe_fresh (spd held : Bool) : SlpSafe { spd := spd, resetHeld := held } :=
  ⟨trivial, Nat.zero_le _, fun _ h => absurd h List.not_mem_nil⟩

theorem exec_slpSafe (i : Instr) {s : State} (h : SlpSafe s.slp) : ∃ t, exec i s = .next t ∧ SlpSafe t.slp := by
  cases commandGroup i with
  | event he =>
    obtain ⟨t, ht, keeps⟩ := exec_event he s
    exact ⟨t, ht, keeps.keeps.slp ▸ h⟩
  | request hq => exact ⟨_, exec_request hq s, slpSafe_request h ..⟩
  | powerOn | resetPinRelease | supplyLowRestart => exact ⟨_, rfl, slpSafe_fresh ..⟩
  | resetPinAssert => exact ⟨_, rfl, trivial, h.two, h.bodies⟩
  | frameComplete bytes => exact ⟨_, rfl, slpSafe_whileAlive h (slpSafe_receiveAll bytes h)⟩
  | interByteGap before next =>
    have received := slpSafe_receiveAll before h
    have hunting : SlpSafe (s.receiveAll before).hunt.slp := ⟨trivial, received.two, received.bodies⟩
    exact ⟨_, rfl, slpSafe_whileAlive h (slpSafe_receive hunting next)⟩
  | lengthDiscard before length => exact ⟨_, rfl, slpSafe_whileAlive h (slpSafe_receiveAll _ h)⟩
  | frameSent =>
    refine ⟨_, rfl, slpSafe_whileAlive h ?_⟩
    split <;> exact h.of_requests rfl (List.Sublist.refl _)
  | noticeSend =>
    refine ⟨_, rfl, slpSafe_whileAlive h ?_⟩
    split
    · exact h
    · split
      · exact h.of_requests rfl (List.Sublist.refl _)
      · exact h
  | unknownKind kind tag body =>
    refine ⟨_, rfl, ?_⟩
    split
    · exact h
    · by_cases takes : s.takes ⟨kind, tag, body⟩
      · rw [takeFrame_eq takes]
        exact (slpSafe_taken h).of_requests rfl (List.Sublist.refl _)
      · rw [takeFrame_none takes]
        exact h
  | restartTakesEffect spd =>
    refine ⟨_, rfl, slpSafe_whileAlive h ?_⟩
    split
    · exact slpSafe_fresh ..
    · exact h

/-- Settles O6, by `exec_slpSafe`. -/
theorem requestBufferKept : Obligations.RequestBufferKept := by
  intro s t hs h
  refine step_keeps (P := fun s => SlpSafe s.slp) (fun _ _ => id) (fun i s t hi safe => ?_) hs h
  obtain ⟨t', ht, kept⟩ := exec_slpSafe i safe
  exact exec_next_unique ht hi ▸ kept

/-! ## The groups and the budget (R88, R89, R92, R96, R102) -/

theorem groupsSafe_iff {s : State} : GroupsSafe s ↔
    Coherent s [] [] ∧ (s.running = false → ∀ r, (s.riser r).live.state = .individual) ∧ s.linkUnheeded := by
  constructor
  · intro g
    exact ⟨⟨by simpa using g.queue, by simpa using g.grants, by simp, g.once, g.draining, g.ctxs⟩, g.config, g.link⟩
  · rintro ⟨g, config, link⟩
    exact ⟨by simpa using g.queue, by simpa using g.grants, g.once, g.draining, g.ctxs, config, link⟩

/-- What keeps both invariants. -/
structure SafetyKept (s t : State) : Prop where
  groups : GroupsSafe s → GroupsSafe t
  budget : BudgetSafe s → BudgetSafe t

namespace SafetyKept

theorem trans {a b c : State} (h : SafetyKept a b) (k : SafetyKept b c) : SafetyKept a c :=
  ⟨fun g => k.groups (h.groups g), fun g => k.budget (h.budget g)⟩

theorem rfl (s : State) : SafetyKept s s := ⟨id, id⟩

theorem ite {s a b : State} {p : Prop} [Decidable p] (h : SafetyKept s a) (k : SafetyKept s b) :
    SafetyKept s (if p then a else b) := by
  split
  · exact h
  · exact k

/-- What leaves the groups, the operating state and the transaction in progress alone. -/
theorem same {s t : State} (hr : t.risers = s.risers) (hs : t.sba = s.sba) (hc : t.ce = s.ce)
    (ho : t.slp.opState = s.slp.opState) (hl : t.flc.link = s.flc.link) : SafetyKept s t := by
  obtain ⟨_, slp, _, _, _, _, _, _, flc, _, _, _⟩ := s
  obtain ⟨_, slp', _, _, _, _, _, _, flc', _, _, _⟩ := t
  obtain ⟨⟩ := slp
  obtain ⟨⟩ := slp'
  obtain ⟨⟩ := flc
  obtain ⟨⟩ := flc'
  cases hr
  cases hs
  cases hc
  cases ho
  cases hl
  exact ⟨fun g => ⟨g.queue, g.grants, g.once, g.draining, g.ctxs, g.config, g.link⟩,
    fun g => ⟨g.fits, g.config, g.link⟩⟩

theorem event {s t : State} (h : EventKeeps s t) : SafetyKept s t where
  groups g := by
    obtain ⟨coherent, config, link⟩ := groupsSafe_iff.1 g
    refine groupsSafe_iff.2 ⟨h.coherent coherent, fun hr r => ?_, fun hr => ?_⟩
    · have hs := h.keeps.running ▸ hr
      unfold State.riser
      rw [(h.outside hs link).risers]
      exact config hs r
    · exact (h.outside (h.keeps.running ▸ hr) link).link hr
  budget g := by
    refine ⟨h.budget g.fits, fun hr => ?_, fun hr => ?_⟩
    · have hs := h.keeps.running ▸ hr
      rw [(h.outside hs g.link).sba]
      exact g.config hs
    · exact (h.outside (h.keeps.running ▸ hr) g.link).link hr

end SafetyKept

/-- An event that finds a run going on. -/
theorem EventKeeps.of_running {s t : State} (hr : s.running = true) (hk : Keeps s t)
    (hc : Coherent s [] [] → Coherent t [] []) (hb : WithinBudget s → WithinBudget t) : EventKeeps s t :=
  ⟨hk, hc, hb, fun h => absurd hr (by simp [h])⟩

/-- No riser in a group, nothing queued or granted, and no context. -/
structure GroupsIdle (s : State) : Prop where
  individual : ∀ r, (s.riser r).live.state = .individual
  queue : s.sba.queue = []
  grants : s.sba.grants = []
  draining : s.sba.draining = 0
  ctxs : ∀ r, s.ctx r = none

theorem leavingWeight_of_individual {s : State} (h : ∀ r, (s.riser r).live.state = .individual) :
    s.leavingWeight = 0 := by
  have none : ((fins 6).filter fun r => (s.riser r).live.state == .leaving) = [] :=
    List.filter_eq_nil_iff.2 fun r _ hr => by rw [h r] at hr; cases hr
  rw [State.leavingWeight, none]
  rfl

theorem GroupsIdle.coherent {s : State} (h : GroupsIdle s) : Coherent s [] [] where
  queue r := by simp [h.queue, h.individual]
  grants r := by simp [h.grants, h.individual]
  adm r hr := absurd hr List.not_mem_nil
  once := by simp [h.queue, h.grants]
  draining := h.draining.trans (leavingWeight_of_individual h.individual).symm
  ctxs r c hc := by simp [h.ctxs r] at hc

theorem GroupsIdle.groupsSafe {s : State} (h : GroupsIdle s) (hl : s.linkUnheeded) : GroupsSafe s :=
  groupsSafe_iff.2 ⟨h.coherent, fun _ => h.individual, hl⟩

theorem withinBudget_of_no_grants {s : State} (h : s.sba.grants = []) : WithinBudget s := by
  simp [WithinBudget, State.committed, h, sumWeights]

theorem budgetSafe_of_no_grants {s : State} (h : s.sba.grants = []) (hl : s.linkUnheeded) : BudgetSafe s :=
  ⟨withinBudget_of_no_grants h, fun _ => h, hl⟩

/-- Outside a run the invariant leaves nothing in the groups. -/
theorem GroupsSafe.idle {s : State} (g : GroupsSafe s) (hr : s.running = false) : GroupsIdle s where
  individual := g.config hr
  queue := List.eq_nil_iff_forall_not_mem.2 fun r h => by simpa [g.config hr r] using (g.queue r).1 h
  grants := List.eq_nil_iff_forall_not_mem.2 fun r h => by simpa [g.config hr r] using (g.grants r).1 h
  draining := g.draining.trans (leavingWeight_of_individual (g.config hr))
  ctxs r := by
    cases hc : s.ctx r with
    | none => rfl
    | some c =>
      have hstate := g.ctxs r c hc
      rw [g.config hr r] at hstate
      cases hd : c.direction <;> cases hp : c.phase <;> simp [hd, hp, stateOfCtx] at hstate

/-- The state cleared of its live records has nothing in its groups. -/
theorem idle_of_cleared {s : State} (hr : ∀ r, (s.riser r).live = {}) (hs : s.sba = {}) (hc : ∀ r, s.ctx r = none) :
    GroupsIdle s :=
  ⟨fun r => by rw [hr], by rw [hs], by rw [hs], by rw [hs], hc⟩

theorem ctx_empty (n : Byte) (s : State) (r : RiserNo) : ({ s with ce := { tagCounter := n } } : State).ctx r = none := by
  simp [State.ctx]

theorem idle_clearLive (s : State) : GroupsIdle s.clearLive :=
  idle_of_cleared (fun r => by simp [State.clearLive, State.riser, RiserRec.cleared]) rfl (fun r => ctx_empty _ s r)

/-! ### The starts -/

theorem idle_started (cause : StartCause) (spd held : Bool) (s : State) : GroupsIdle (s.started cause spd held) :=
  idle_of_cleared (fun r => by simp [State.started, State.riser]) rfl (fun r => by simp [State.started, State.ctx])

theorem idle_restarted (spd : Bool) (s : State) : GroupsIdle (s.restarted spd) :=
  idle_of_cleared (fun r => by simp [State.restarted, State.riser, RiserRec.cleared]) rfl
    (fun r => by simp [State.restarted, State.ctx])

theorem safety_of_idle {s t : State} (h : GroupsIdle t) (hl : t.linkUnheeded) : SafetyKept s t :=
  ⟨fun _ => h.groupsSafe hl, fun _ => budgetSafe_of_no_grants h.grants hl⟩

/-! ### The requests -/

/-- A record loaded outside a run: the groups stay idle, whatever the weights become (R174, R175). -/
theorem safety_storeRiser {s : State} (hr : s.running = false) (r : RiserNo) (c : RiserCfg) :
    SafetyKept s (s.storeRiser r c) where
  groups g := by
    have idle := g.idle hr
    refine GroupsIdle.groupsSafe ⟨fun q => ?_, idle.queue, idle.grants, idle.draining, idle.ctxs⟩ g.link
    rw [State.storeRiser, modRiser_riser]
    split
    · exact idle.individual r
    · exact idle.individual q
  budget g := budgetSafe_of_no_grants (s := s.storeRiser r c) (g.config hr) g.link

theorem safety_loadRecord {α : Type} {p : Except Nat α} {store : α → State → State} {s : State}
    (h : ∀ c, SafetyKept s (store c s)) : SafetyKept s (loadRecord p store s).1 := by
  unfold loadRecord
  split
  · exact .rfl s
  · exact h _

theorem safety_loadItem {α : Type} {k : Nat} {p : List Byte → Except Nat α} {store : Fin k → α → State → State}
    {body : List Byte} {s : State} (h : ∀ i c, SafetyKept s (store i c s)) :
    SafetyKept s (loadItem k p store body s).1 := by
  unfold loadItem
  split
  · exact .rfl s
  · split
    · exact .rfl s
    · exact safety_loadRecord (h _)

theorem keeps_formMembers (l : List RiserNo) (s : State) : Keeps s (l.foldl State.formMembers s) :=
  .foldl (fun _ _ => .modLive ..) l s

theorem coherent_formMembers {s : State} (g : Coherent s [] []) (l : List RiserNo) :
    Coherent (l.foldl State.formMembers s) [] [] :=
  coherent_fold (fun s r g => g.same ((RiserEdit.start r s).modRiser
    (fun x => { x with live := { x.live with memberCount := (s.members r).length } }) (fun _ => rfl) _ rfl)) l s g

/-- The run begins with the groups idle, and the first recompute grants nothing beyond its budget. -/
theorem safety_startRun (body : List Byte) (s : State) : SafetyKept s (State.startRun body s).1 := by
  unfold State.startRun
  split
  · next m =>
    split
    · exact .rfl s
    · next o ho =>
      split
      · exact .rfl s
      · have running : (s.beginRun o).running = true := by
          have hk : Keeps _ (s.beginRun o) := (keeps_formMembers _ _).trans (cascade_recompute _).keeps
          rw [hk.running]
          unfold runMode at ho
          split at ho
          · cases ho
            rfl
          · split at ho
            · cases ho
              rfl
            · cases ho
        have idle := idle_clearLive ((s.modSlp fun p => { p with opState := o }).modFlc fun f => f.runStart s.tower.speed)
        have coherent : Coherent (s.beginRun o) [] [] := coherent_recompute (coherent_formMembers idle.coherent _)
        have budget : WithinBudget (s.beginRun o) :=
          budget_recompute (budget_fold (fun _ _ => budget_modLive) _ _ (withinBudget_of_no_grants idle.grants))
        have notConfig {p : Prop} (h : (s.beginRun o).running = false) : p := absurd running (by simp [h])
        refine .trans ⟨fun _ => ?_, fun _ => ?_⟩ (.event (event_grantOnWork _))
        · exact groupsSafe_iff.2 ⟨coherent, fun h => notConfig h, fun h => notConfig h⟩
        · exact ⟨budget, fun h => notConfig h, fun h => notConfig h⟩
  · exact .rfl s

theorem linkUnheeded_endRun (s : State) : s.endRun.linkUnheeded := by
  intro _ x hx
  obtain ⟨y, -, rfl⟩ := Option.map_eq_some_iff.1 (show s.flc.link.map _ = some x from hx)
  exact .inr rfl

theorem event_takeStation {s : State} (hr : s.running = true) (body : List Byte) :
    EventKeeps s (State.takeStation body s).1 := by
  unfold State.takeStation
  split
  · split
    · exact .rfl s
    · exact .trans (.of_running hr (keeps_commitStation ..) coherent_commitStation budget_commitStation)
        (event_grantOnWork _)
  · exact .rfl s

theorem event_takeOverride {s : State} (hr : s.running = true) (body : List Byte) :
    EventKeeps s (State.takeOverride body s).1 := by
  unfold State.takeOverride
  split
  · split
    · exact .rfl s
    · split
      · exact .rfl s
      · split
        · exact .rfl s
        · exact .trans (.of_running hr (keeps_applyOverride ..) coherent_override budget_applyOverride)
            (event_grantOnWork _)
  · exact .rfl s

theorem event_takeLock {s : State} (hr : s.running = true) (body : List Byte) :
    EventKeeps s (State.takeLock body s).1 := by
  unfold State.takeLock
  split
  · split
    · exact .rfl s
    · split
      · exact .rfl s
      · exact .trans (.ite (.of_running hr (keeps_lockOn ..) coherent_lockOn budget_lockOn)
          (.of_running hr (keeps_lockOff ..) coherent_lockOff budget_lockOff)) (event_grantOnWork _)
  · exact .rfl s

theorem event_takePost (body : List Byte) (s : State) : EventKeeps s (State.takePost body s).1 := by
  unfold State.takePost
  split
  · exact .rfl s
  · split
    · exact .rfl s
    · split
      · exact .rfl s
      · split
        · exact .rfl s
        · exact .trans (.quiet (.modFlc ..) (.modFlc _ s rfl)) (event_grantOnWork _)

theorem event_takeMail (s : State) : EventKeeps s s.takeMail.1 := by
  have cleared : EventKeeps s s.clearMail := .quiet (.modFlc ..) (.modFlc _ s rfl)
  unfold State.takeMail
  split
  · exact cleared
  · exact cleared
  all_goals exact .rfl s

theorem safety_writeSetpoint (u : UnitNo) (t : Int) (s : State) : SafetyKept s (s.writeSetpoint u t) :=
  .same rfl rfl rfl rfl rfl

/-- The setpoint is written in every state; the evaluation is made in a run alone (R45). -/
theorem safety_evaluateSetpoint (u : UnitNo) (s : State) : SafetyKept s (s.evaluateSetpoint u) := by
  unfold State.evaluateSetpoint
  split
  · next hr =>
    exact .event (.trans (.of_running hr (cascade_ownEvent ..).keeps coherent_own budget_own) (event_grantOnWork _))
  · exact .rfl s

theorem safety_takeSetpoint (body : List Byte) (s : State) : SafetyKept s (State.takeSetpoint body s).1 := by
  unfold State.takeSetpoint
  split
  · split
    · exact .rfl s
    · exact .trans (safety_writeSetpoint ..) (safety_evaluateSetpoint ..)
  · exact .rfl s

theorem safety_takeMask (body : List Byte) (s : State) : SafetyKept s (State.takeMask body s).1 := by
  unfold State.takeMask
  split
  · split <;> exact .same rfl rfl rfl rfl rfl
  · exact .rfl s

theorem safety_takeClear (body : List Byte) (s : State) : SafetyKept s (State.takeClear body s).1 := by
  unfold State.takeClear
  split
  · split <;> exact .same rfl rfl rfl rfl rfl
  · exact .rfl s

/-- Every request's rule, in an operating state that the catalogue allows (R173), keeps both invariants. -/
theorem safety_rule {k : ReqKind} {s : State} (ho : k.allowed s.slp.opState = true) (body : List Byte) :
    SafetyKept s (k.rule body s).1 := by
  cases k with
  | loadUnit | loadStation | loadLine => exact safety_loadItem fun _ _ => .same rfl rfl rfl rfl rfl
  | loadTower => exact safety_loadRecord fun _ => .same rfl rfl rfl rfl rfl
  | loadRiser =>
    have config : s.slp.opState = .config := by simpa [ReqKind.allowed] using ho
    have stopped : s.running = false := by simp [State.running, config]
    exact safety_loadItem fun r c => safety_storeRiser stopped r c
  | startRun => exact safety_startRun body s
  | stopRun =>
    have idle : GroupsIdle s.endRun := idle_clearLive _
    exact (safety_of_idle idle (linkUnheeded_endRun s)).trans (.event (event_grantOnWork _))
  | stationReading => exact .event (event_takeStation ho body)
  | setOverride => exact .event (event_takeOverride ho body)
  | lockRiser => exact .event (event_takeLock ho body)
  | setSetpoint => exact safety_takeSetpoint body s
  | setNoticeMask => exact safety_takeMask body s
  | clearFlags => exact safety_takeClear body s
  | postMail => exact .event (event_takePost body s)
  | takeMail => exact .event (event_takeMail s)
  | restart | flushNotices | cancelMail => exact .same rfl rfl rfl rfl rfl
  | readConfig | readUnit | readRiser | readStation | readBudget | readStatus => exact .rfl s

theorem safety_request (k : ReqKind) (tag : Byte) (body : List Byte) (s : State) :
    SafetyKept s (s.request k tag body (k.rule body)) := by
  have taken : SafetyKept s s.taken := .same rfl rfl rfl rfl rfl
  have answered (t : State) (r : Reply) : SafetyKept t (t.answer k.code tag r) := .same rfl rfl rfl rfl rfl
  by_cases ht : s.takes ⟨k.code, tag, body⟩
  · cases hl : k.lengthOk body.length
    · rw [request_length _ ht hl]
      exact taken.trans (answered ..)
    · cases ho : k.allowed s.slp.opState
      · rw [request_state _ ht hl ho]
        exact taken.trans (answered ..)
      · rw [request_handled _ ht hl ho]
        exact (taken.trans (safety_rule (s := s.taken) ho body)).trans (answered ..)
  · rw [request_none _ ht]
    exact .rfl s

/-! ### Every command -/

theorem safety_receive (s : State) (b : RxByte) : SafetyKept s (s.receive b) := by
  unfold State.receive
  dsimp only
  split
  · exact .same rfl rfl rfl rfl rfl
  · exact .trans (.same rfl rfl rfl rfl rfl) (.ite (.same rfl rfl rfl rfl rfl) (.same rfl rfl rfl rfl rfl))

theorem safety_receiveAll (bs : List RxByte) (s : State) : SafetyKept s (s.receiveAll bs) := by
  unfold State.receiveAll
  induction bs generalizing s with
  | nil => exact .rfl s
  | cons b bs ih => exact (safety_receive s b).trans (ih _)

theorem exec_safety (i : Instr) (s : State) : ∃ t, exec i s = .next t ∧ SafetyKept s t := by
  have alive {f : State → State} (h : SafetyKept s (f s)) : SafetyKept s (s.whileAlive f) := .ite (.rfl s) h
  have noLink {t : State} (h : t.flc.link = none) : t.linkUnheeded := fun _ x hx => by simp [h] at hx
  cases commandGroup i with
  | event h =>
    obtain ⟨t, ht, keeps⟩ := exec_event h s
    exact ⟨t, ht, .event keeps⟩
  | request h => exact ⟨_, exec_request h s, safety_request ..⟩
  | powerOn | resetPinRelease | supplyLowRestart => exact ⟨_, rfl, safety_of_idle (idle_started ..) (noLink rfl)⟩
  | resetPinAssert =>
    refine ⟨_, rfl, fun g => ?_, fun g => ⟨g.fits, g.config, noLink rfl⟩⟩
    exact ⟨g.queue, g.grants, g.once, g.draining, g.ctxs, g.config, noLink rfl⟩
  | frameComplete bytes => exact ⟨_, rfl, alive (safety_receiveAll bytes s)⟩
  | interByteGap before next =>
    have hunting : SafetyKept s (s.receiveAll before).hunt :=
      (safety_receiveAll before s).trans (.same rfl rfl rfl rfl rfl)
    exact ⟨_, rfl, alive (hunting.trans (safety_receive _ next))⟩
  | lengthDiscard before length => exact ⟨_, rfl, alive (safety_receiveAll _ s)⟩
  | frameSent =>
    refine ⟨_, rfl, alive ?_⟩
    split <;> exact .same rfl rfl rfl rfl rfl
  | noticeSend =>
    refine ⟨_, rfl, alive ?_⟩
    split
    · exact .rfl s
    · exact .ite (.same rfl rfl rfl rfl rfl) (.rfl s)
  | unknownKind kind tag body =>
    refine ⟨_, rfl, .ite (.rfl s) ?_⟩
    by_cases ht : s.takes ⟨kind, tag, body⟩
    · rw [takeFrame_eq ht]
      exact .same rfl rfl rfl rfl rfl
    · rw [takeFrame_none ht]
      exact .rfl s
  | restartTakesEffect spd =>
    exact ⟨_, rfl, alive (.ite (safety_of_idle (idle_restarted ..) (noLink rfl)) (.rfl s))⟩

theorem safety_of_exec {i : Instr} {s t : State} (h : exec i s = .next t) : SafetyKept s t := by
  obtain ⟨t', ht, kept⟩ := exec_safety i s
  exact exec_next_unique ht h ▸ kept

/-- Settles O7: every command keeps the relation, by `exec_safety`. -/
theorem groupsKept : Obligations.GroupsKept := by
  intro s t hs h
  exact step_keeps (P := GroupsSafe) (fun s rest => SafetyKept.groups (.same rfl rfl rfl rfl rfl))
    (fun i s t hi => (safety_of_exec hi).groups) hs h

/-- Settles O8: every command keeps the committed weight within the budget, by `exec_safety`. -/
theorem budgetKept : Obligations.BudgetKept := by
  intro s t hs h
  exact step_keeps (P := BudgetSafe) (fun s rest => SafetyKept.budget (.same rfl rfl rfl rfl rfl))
    (fun i s t hi => (safety_of_exec hi).budget) hs h

theorem idle_reset : GroupsIdle State.reset :=
  idle_of_cleared (fun r => by simp [State.reset, State.riser]) rfl (fun r => by simp [State.reset, State.ctx])

/-- Settles O4: after power-on the queue holds one START notice, the receiver hunts, and the groups are idle. -/
theorem invariantsAtReset : Obligations.InvariantsAtReset := by
  have link : State.reset.linkUnheeded := fun _ x hx => nomatch hx
  exact ⟨nqSafe_started .powerOn (Nat.zero_le _), slpSafe_fresh .., idle_reset.groupsSafe link,
    budgetSafe_of_no_grants idle_reset.grants link⟩

end Sys2Proof.Machine
end

