-- ==== Sys2Proof/Proofs/Tables.lean ====
section
/-! PROOFS. Proofs/Tables.lean: what changes a configuration table, and that the tables of a run keep passing the checks of
START_RUN (R174, R176, R178). -/

namespace Sys2Proof.Machine

/-! ## What a request's rule leaves of the tables -/

/-- The five LOAD kinds (R175). -/
def ReqKind.isLoad : ReqKind → Bool
  | .loadUnit | .loadRiser | .loadStation | .loadLine | .loadTower => true
  | _ => false

theorem sameTables_of_eq {s t : State} (hu : t.units = s.units) (hst : t.stations = s.stations)
    (hr : t.risers = s.risers) (hl : t.lu.lines = s.lu.lines) (ht : t.tower = s.tower) : SameTables s t :=
  ⟨fun u => by rw [State.unit, hu, State.unit], fun st => by rw [State.station, hst, State.station],
    fun r => by rw [State.riser, hr, State.riser], fun l => by rw [State.line, hl, State.line], ht⟩

theorem sameTables_clearLive (s : State) : SameTables s s.clearLive :=
  ⟨fun u => by simp [State.clearLive, State.unit, UnitRec.cleared],
    fun st => by simp [State.clearLive, State.station, StationRec.cleared],
    fun r => by simp [State.clearLive, State.riser, RiserRec.cleared], fun _ => rfl, rfl⟩

theorem sameTables_beginRun (o : OpState) (s : State) : SameTables s (s.beginRun o) := by
  have cleared : SameTables s ((s.modSlp fun p => { p with opState := o }).modFlc fun f =>
      f.runStart s.tower.speed).clearLive := by
    refine .trans ?_ (sameTables_clearLive _)
    exact sameTables_of_eq rfl rfl rfl rfl rfl
  exact (cleared.trans (keeps_formMembers _ _).tables).trans (cascade_recompute _).keeps.tables

theorem mask_beginRun (o : OpState) (s : State) : (s.beginRun o).nq.mask = s.nq.mask :=
  (cascade_recompute _).keeps.mask.trans (keeps_formMembers _ _).mask

theorem sameTables_endRun (s : State) : SameTables s s.endRun := by
  refine .trans ?_ (sameTables_clearLive _)
  exact sameTables_of_eq rfl rfl rfl rfl rfl

theorem tables_startRun (body : List Byte) (s : State) :
    SameTables s (State.startRun body s).1 ∧ (State.startRun body s).1.nq.mask = s.nq.mask := by
  have granted (o : OpState) := (ran_grantOnWork (s.beginRun o)).keeps
  unfold State.startRun
  split
  · split
    · exact ⟨.rfl s, rfl⟩
    · split
      · exact ⟨.rfl s, rfl⟩
      · exact ⟨(sameTables_beginRun ..).trans (granted _).tables, (granted _).mask.trans (mask_beginRun ..)⟩
  · exact ⟨.rfl s, rfl⟩

theorem sameTables_takeMask (body : List Byte) (s : State) : SameTables s (State.takeMask body s).1 := by
  unfold State.takeMask
  split
  · split
    · exact .rfl s
    · exact sameTables_of_eq rfl rfl rfl rfl rfl
  · exact .rfl s

theorem tables_takeClear (body : List Byte) (s : State) :
    SameTables s (State.takeClear body s).1 ∧ (State.takeClear body s).1.nq.mask = s.nq.mask := by
  unfold State.takeClear
  split
  · split
    · exact ⟨sameTables_of_eq rfl rfl rfl rfl rfl, rfl⟩
    · exact ⟨.rfl s, rfl⟩
  · exact ⟨.rfl s, rfl⟩

/-- Every rule but those of the LOADs and of SET_SETPOINT keeps the tables (R176). -/
theorem sameTables_rule {k : ReqKind} (hl : k.isLoad = false) (hs : k ≠ .setSetpoint) (body : List Byte) (s : State) :
    SameTables s (k.rule body s).1 := by
  cases k with
  | loadUnit | loadRiser | loadStation | loadLine | loadTower => cases hl
  | setSetpoint => exact absurd rfl hs
  | startRun => exact (tables_startRun body s).1
  | stopRun => exact (sameTables_endRun s).trans (ran_grantOnWork _).keeps.tables
  | restart => exact sameTables_of_eq rfl rfl rfl rfl rfl
  | stationReading => exact (keeps_takeStation body s).tables
  | setOverride => exact (keeps_takeOverride body s).tables
  | lockRiser => exact (keeps_takeLock body s).tables
  | setNoticeMask => exact sameTables_takeMask body s
  | flushNotices => exact sameTables_of_eq rfl rfl rfl rfl rfl
  | clearFlags => exact (tables_takeClear body s).1
  | postMail => exact (keeps_takePost body s).tables
  | takeMail => exact (keeps_takeMail s).tables
  | cancelMail => exact sameTables_of_eq rfl rfl rfl rfl rfl
  | readConfig | readUnit | readRiser | readStation | readBudget | readStatus => exact .rfl s

theorem loadRecord_proj {α β : Type} (g : State → β) {p : Except Nat α} {store : α → State → State} {s : State}
    (h : ∀ c, g (store c s) = g s) : g (loadRecord p store s).1 = g s := by
  unfold loadRecord
  split
  · rfl
  · exact h _

theorem loadItem_proj {α β : Type} (g : State → β) {k : Nat} {p : List Byte → Except Nat α}
    {store : Fin k → α → State → State} {body : List Byte} {s : State} (h : ∀ i c, g (store i c s) = g s) :
    g (loadItem k p store body s).1 = g s := by
  unfold loadItem
  split
  · rfl
  · split
    · rfl
    · exact loadRecord_proj g (h _)

theorem keeps_evaluateSetpoint (u : UnitNo) (s : State) : Keeps s (s.evaluateSetpoint u) :=
  .ite ((cascade_ownEvent ..).keeps.trans (ran_grantOnWork _).keeps) (.rfl s)

/-- SET_SETPOINT writes one T_sp, and what follows keeps the tables (R45). -/
theorem takeSetpoint_cases (body : List Byte) (s : State) :
    (State.takeSetpoint body s).1 = s ∨ ∃ u t, Keeps (s.writeSetpoint u t) (State.takeSetpoint body s).1 := by
  unfold State.takeSetpoint
  split
  · split
    · exact .inl rfl
    · exact .inr ⟨_, _, keeps_evaluateSetpoint ..⟩
  · exact .inl rfl

/-- Every rule but that of SET_NOTICE_MASK keeps the mask (R191). -/
theorem mask_rule {k : ReqKind} (hk : k ≠ .setNoticeMask) (body : List Byte) (s : State) :
    (k.rule body s).1.nq.mask = s.nq.mask := by
  cases k with
  | loadUnit | loadRiser | loadStation | loadLine => exact loadItem_proj (·.nq.mask) fun _ _ => rfl
  | loadTower => exact loadRecord_proj (·.nq.mask) fun _ => rfl
  | setSetpoint =>
    obtain h | ⟨u, t, h⟩ := takeSetpoint_cases body s
    · exact congrArg (·.nq.mask) h
    · exact h.mask
  | startRun => exact (tables_startRun body s).2
  | stopRun => exact (ran_grantOnWork s.endRun).keeps.mask
  | setNoticeMask => exact absurd rfl hk
  | clearFlags => exact (tables_takeClear body s).2
  | stationReading => exact (keeps_takeStation body s).mask
  | setOverride => exact (keeps_takeOverride body s).mask
  | lockRiser => exact (keeps_takeLock body s).mask
  | postMail => exact (keeps_takePost body s).mask
  | takeMail => exact (keeps_takeMail s).mask
  | restart | flushNotices | cancelMail | readConfig | readUnit | readRiser | readStation | readBudget | readStatus => rfl

/-- SET_SETPOINT changes no unit field but T_sp (R45, R176). -/
theorem cfg_takeSetpoint (body : List Byte) (s : State) (u : UnitNo) :
    { ((State.takeSetpoint body s).1.unit u).cfg with tSp := (s.unit u).cfg.tSp } = (s.unit u).cfg := by
  obtain h | ⟨v, t, h⟩ := takeSetpoint_cases body s
  · rw [h]
  · rw [h.tables.units, State.writeSetpoint, modUnit_unit]
    split
    · next e => rw [e]
    · rfl

/-! ## The receiver's bytes -/

/-- What leaves every table, the mask and the operating state. -/
structure TablesKept (s t : State) : Prop where
  tables : SameTables s t
  mask : t.nq.mask = s.nq.mask
  opState : t.slp.opState = s.slp.opState

theorem Keeps.tablesKept {s t : State} (h : Keeps s t) : TablesKept s t := ⟨h.tables, h.mask, by rw [h.slp]⟩

theorem TablesKept.trans {a b c : State} (h : TablesKept a b) (k : TablesKept b c) : TablesKept a c :=
  ⟨h.tables.trans k.tables, k.mask.trans h.mask, k.opState.trans h.opState⟩

theorem TablesKept.rfl (s : State) : TablesKept s s := (Keeps.rfl s).tablesKept

theorem TablesKept.running {s t : State} (h : TablesKept s t) : t.running = s.running := by
  rw [State.running, h.opState, State.running]

theorem tablesKept_modSlp {f : Slp → Slp} {s : State} (h : (f s.slp).opState = s.slp.opState) :
    TablesKept s (s.modSlp f) := ⟨sameTables_of_eq rfl rfl rfl rfl rfl, Eq.refl _, h⟩

theorem tablesKept_receive (s : State) (b : RxByte) : TablesKept s (s.receive b) := by
  have moved : TablesKept s (s.modSlp fun p => { p with receiver := (s.slp.receiver.byte b).receiver }) :=
    tablesKept_modSlp rfl
  unfold State.receive
  dsimp only
  split
  · exact moved
  · refine moved.trans ?_
    unfold State.placeFrame
    split
    · exact tablesKept_modSlp rfl
    · exact ⟨sameTables_of_eq rfl rfl rfl rfl rfl, rfl, rfl⟩

theorem tablesKept_receiveAll (bs : List RxByte) (s : State) : TablesKept s (s.receiveAll bs) := by
  unfold State.receiveAll
  induction bs generalizing s with
  | nil => exact .rfl s
  | cons b bs ih => exact (tablesKept_receive s b).trans (ih _)

theorem tablesKept_taken (s : State) : TablesKept s s.taken := tablesKept_modSlp rfl

theorem tablesKept_answer (kind tag : Byte) (r : Reply) (s : State) : TablesKept s (s.answer kind tag r) :=
  tablesKept_modSlp rfl

theorem tables_restarted (spd : Bool) (s : State) :
    SameTables s (s.restarted spd) ∧ (s.restarted spd).nq.mask = s.nq.mask :=
  ⟨⟨fun u => by simp [State.restarted, State.unit, UnitRec.cleared],
    fun st => by simp [State.restarted, State.station, StationRec.cleared],
    fun r => by simp [State.restarted, State.riser, RiserRec.cleared],
    fun l => by simp [State.restarted, State.restartLines, State.line, freshLine], rfl⟩, rfl⟩

/-! ## Every command -/

/-- What a request comes to: nothing but its refusal, or its rule in a state that the catalogue allows. -/
theorem request_outcome (k : ReqKind) (tag : Byte) (body : List Byte) (s : State) :
    TablesKept s (s.request k tag body (k.rule body)) ∨
      k.allowed s.slp.opState = true ∧
        TablesKept (k.rule body s.taken).1 (s.request k tag body (k.rule body)) := by
  by_cases ht : s.takes ⟨k.code, tag, body⟩
  · cases hl : k.lengthOk body.length
    · rw [request_length _ ht hl]
      exact .inl ((tablesKept_taken s).trans (tablesKept_answer ..))
    · cases ho : k.allowed s.slp.opState
      · rw [request_state _ ht hl ho]
        exact .inl ((tablesKept_taken s).trans (tablesKept_answer ..))
      · rw [request_handled _ ht hl ho]
        exact .inr ⟨rfl, tablesKept_answer ..⟩
  · rw [request_none _ ht]
    exact .inl (.rfl s)

/-- A command is a request, a start, RESTART taking effect, or keeps the tables. -/
theorem exec_tables (i : Instr) {s t : State} (h : exec i s = .next t) :
    (∃ k tag body, requestOf i = some (k, tag, body) ∧ t = s.request k tag body (k.rule body)) ∨
      (∃ spd, i = .powerOn spd ∨ i = .supplyLowRestart spd ∨ i = .resetPinRelease spd) ∧ t.running = false ∨
      (∃ spd, t = s.restarted spd) ∨ TablesKept s t := by
  have kept {t' : State} (ht : exec i s = .next t') (k : TablesKept s t') : TablesKept s t :=
    exec_next_unique ht h ▸ k
  have alive {f : State → State} (k : TablesKept s (f s)) : TablesKept s (s.whileAlive f) := by
    unfold State.whileAlive
    split
    · exact .rfl s
    · exact k
  cases commandGroup i with
  | event he =>
    obtain ⟨t', ht, keeps⟩ := exec_event he s
    exact .inr (.inr (.inr (kept ht keeps.keeps.tablesKept)))
  | request hq => exact .inl ⟨_, _, _, hq, exec_next_unique h (exec_request hq s)⟩
  | powerOn spd =>
    cases h
    exact .inr (.inl ⟨⟨spd, .inl rfl⟩, rfl⟩)
  | supplyLowRestart spd =>
    cases h
    exact .inr (.inl ⟨⟨spd, .inr (.inl rfl)⟩, rfl⟩)
  | resetPinRelease spd =>
    cases h
    exact .inr (.inl ⟨⟨spd, .inr (.inr rfl)⟩, rfl⟩)
  | restartTakesEffect spd =>
    by_cases due : s.slp.resetHeld = false ∧ s.slp.restart = .due
    · refine .inr (.inr (.inl ⟨spd, exec_next_unique h ?_⟩))
      refine congrArg Host.Outcome.next ?_
      rw [whileAlive_of_alive due.1, if_pos due.2]
    · refine .inr (.inr (.inr (kept (t' := s) ?_ (.rfl s))))
      refine congrArg Host.Outcome.next ?_
      unfold State.whileAlive
      split
      · rfl
      · next alive => exact if_neg fun hd => due ⟨by simpa using alive, hd⟩
  | resetPinAssert => exact .inr (.inr (.inr (kept rfl ((tablesKept_modSlp rfl).trans (Keeps.modFlc ..).tablesKept))))
  | frameComplete bytes => exact .inr (.inr (.inr (kept rfl (alive (tablesKept_receiveAll ..)))))
  | interByteGap before next =>
    have hunting : TablesKept s (s.receiveAll before).hunt :=
      (tablesKept_receiveAll before s).trans (tablesKept_modSlp rfl)
    exact .inr (.inr (.inr (kept rfl (alive (hunting.trans (tablesKept_receive _ next))))))
  | lengthDiscard before length => exact .inr (.inr (.inr (kept rfl (alive (tablesKept_receiveAll ..)))))
  | frameSent =>
    refine .inr (.inr (.inr (kept rfl (alive ?_))))
    split
    · exact .rfl s
    all_goals exact tablesKept_modSlp rfl
  | noticeSend =>
    refine .inr (.inr (.inr (kept rfl (alive ?_))))
    split
    · exact .rfl s
    · split
      · exact ⟨(sameTables_of_eq rfl rfl rfl rfl rfl).trans (sameTables_of_eq rfl rfl rfl rfl rfl), rfl, rfl⟩
      · exact .rfl s
  | unknownKind kind tag body =>
    refine .inr (.inr (.inr (kept rfl ?_)))
    split
    · exact .rfl s
    · by_cases takes : s.takes ⟨kind, tag, body⟩
      · rw [takeFrame_eq takes]
        exact (tablesKept_taken s).trans (tablesKept_answer ..)
      · rw [takeFrame_none takes]
        exact .rfl s

/-! ## The checks of START_RUN -/

/-- The items of the tables that START_RUN checks (R178). -/
structure SameChecks (s t : State) : Prop where
  present : ∀ u, (t.unit u).cfg.present = (s.unit u).cfg.present
  riser : ∀ u, (t.unit u).cfg.riser = (s.unit u).cfg.riser
  station : ∀ u, (t.unit u).cfg.station = (s.unit u).cfg.station
  address : ∀ u, (t.unit u).cfg.address = (s.unit u).cfg.address
  risers : ∀ r, (t.riser r).cfg = (s.riser r).cfg
  stations : ∀ st, (t.station st).cfg = (s.station st).cfg
  tower : t.tower = s.tower

theorem SameTables.checks {s t : State} (h : SameTables s t) : SameChecks s t :=
  ⟨fun u => by rw [h.units], fun u => by rw [h.units], fun u => by rw [h.units], fun u => by rw [h.units], h.risers,
    h.stations, h.tower⟩

theorem SameChecks.trans {a b c : State} (h : SameChecks a b) (k : SameChecks b c) : SameChecks a c :=
  ⟨fun u => (k.present u).trans (h.present u), fun u => (k.riser u).trans (h.riser u),
    fun u => (k.station u).trans (h.station u), fun u => (k.address u).trans (h.address u),
    fun r => (k.risers r).trans (h.risers r), fun st => (k.stations st).trans (h.stations st), k.tower.trans h.tower⟩

theorem SameChecks.configProblem {s t : State} (h : SameChecks s t) : t.configProblem = s.configProblem := by
  simp only [State.configProblem, State.presentUnits, State.members, State.addressTaken, h.present, h.riser, h.station,
    h.address, h.risers, h.stations, h.tower]
  rfl

theorem checks_writeSetpoint (u : UnitNo) (t : Int) (s : State) : SameChecks s (s.writeSetpoint u t) := by
  refine ⟨fun v => ?_, fun v => ?_, fun v => ?_, fun v => ?_, fun _ => rfl, fun _ => rfl, rfl⟩
  all_goals
    rw [State.writeSetpoint, modUnit_unit]
    split
    · next e => rw [e]
    · rfl

theorem checks_takeSetpoint (body : List Byte) (s : State) : SameChecks s (State.takeSetpoint body s).1 := by
  obtain h | ⟨u, t, h⟩ := takeSetpoint_cases body s
  · rw [h]
    exact (SameTables.rfl s).checks
  · exact (checks_writeSetpoint u t s).trans h.tables.checks

/-- Every rule but those of START_RUN and STOP_RUN keeps the operating state (R174). -/
theorem opState_rule {k : ReqKind} (hs : k ≠ .startRun) (hp : k ≠ .stopRun) (body : List Byte) (s : State) :
    (k.rule body s).1.slp.opState = s.slp.opState := by
  have keeps {t : State} (h : Keeps s t) : t.slp.opState = s.slp.opState := by rw [h.slp]
  cases k with
  | startRun => exact absurd rfl hs
  | stopRun => exact absurd rfl hp
  | loadUnit | loadRiser | loadStation | loadLine => exact loadItem_proj (·.slp.opState) fun _ _ => rfl
  | loadTower => exact loadRecord_proj (·.slp.opState) fun _ => rfl
  | setSetpoint =>
    obtain h | ⟨u, t, h⟩ := takeSetpoint_cases body s
    · exact congrArg (·.slp.opState) h
    · exact congrArg (·.opState) h.slp
  | stationReading => exact keeps (keeps_takeStation body s)
  | setOverride => exact keeps (keeps_takeOverride body s)
  | lockRiser => exact keeps (keeps_takeLock body s)
  | postMail => exact keeps (keeps_takePost body s)
  | takeMail => exact keeps (keeps_takeMail s)
  | setNoticeMask =>
    unfold ReqKind.rule State.takeMask
    dsimp only
    split
    · split <;> rfl
    · rfl
  | clearFlags =>
    unfold ReqKind.rule State.takeClear
    dsimp only
    split
    · split <;> rfl
    · rfl
  | restart | flushNotices | cancelMail | readConfig | readUnit | readRiser | readStation | readBudget | readStatus => rfl

/-- START_RUN leaves a run only where its checks passed (R178). -/
theorem configProblem_startRun {s : State} (hc : s.running = false) {body : List Byte}
    (h : (State.startRun body s).1.running = true) : (State.startRun body s).1.configProblem = none := by
  have stopped {p : Prop} (h : s.running = true) : p := absurd h (by simp [hc])
  rw [(tables_startRun body s).1.checks.configProblem]
  unfold State.startRun at h
  split at h
  · split at h
    · exact stopped h
    · split at h
      · exact stopped h
      · assumption
  · exact stopped h

/-- A rule that leaves a run leaves its tables passing the checks. -/
theorem configProblem_rule {k : ReqKind} {s : State} (ho : k.allowed s.slp.opState = true) (body : List Byte)
    (hs : s.running = true → s.configProblem = none) (ht : (k.rule body s).1.running = true) :
    (k.rule body s).1.configProblem = none := by
  by_cases start : k = .startRun
  · subst start
    have stopped : s.running = false := by simpa [State.running, ReqKind.allowed] using ho
    exact configProblem_startRun stopped ht
  by_cases stop : k = .stopRun
  · subst stop
    have stopped : (s.endRun.grantOnWork).running = false := (ran_grantOnWork s.endRun).keeps.running
    exact absurd (stopped.symm.trans ht) Bool.false_ne_true
  have running : s.running = true := by
    rw [← ht, State.running, State.running, opState_rule start stop]
  have notLoad : k.isLoad = false := by
    cases k with
    | loadUnit | loadRiser | loadStation | loadLine | loadTower =>
      exact absurd running (by simpa [State.running, ReqKind.allowed] using ho)
    | _ => rfl
  rw [← hs running]
  by_cases setpoint : k = .setSetpoint
  · subst setpoint
    exact (checks_takeSetpoint body s).configProblem
  · exact (sameTables_rule notLoad setpoint body s).checks.configProblem

/-- A command that leaves a run leaves its tables passing the checks of START_RUN. -/
theorem exec_configProblem (i : Instr) {s t : State} (h : exec i s = .next t)
    (hs : s.running = true → s.configProblem = none) (ht : t.running = true) : t.configProblem = none := by
  have kept {a b : State} (k : TablesKept a b) (ha : a.running = true → a.configProblem = none)
      (hb : b.running = true) : b.configProblem = none :=
    k.tables.checks.configProblem.trans (ha (k.running.symm.trans hb))
  obtain ⟨k, tag, body, -, rfl⟩ | ⟨-, stopped⟩ | ⟨spd, rfl⟩ | k := exec_tables i h
  · obtain k | ⟨ho, k⟩ := request_outcome k tag body s
    · exact kept k hs ht
    · exact kept k (configProblem_rule (s := s.taken) ho body (kept (tablesKept_taken s) hs)) ht
  · exact absurd (stopped.symm.trans ht) Bool.false_ne_true
  · cases ht
  · exact kept k hs ht

/-- Settles O9: by `exec_tables` the requests alone remain, and of these `sameTables_rule`, `mask_rule` and
`cfg_takeSetpoint` say what their rules leave. -/
theorem tablesChangeOnlyByTheirRequests : Obligations.TablesChangeOnlyByTheirRequests := by
  refine ⟨fun i s t h hstart => ?_, fun s t hs h => ?_⟩
  · have same (k : TablesKept s t) :
        ((∀ tag body, i ≠ .setNoticeMask tag body) → t.nq.mask = s.nq.mask) ∧
        ((s.slp.opState = .config → ∀ tag body, i ≠ .loadUnit tag body ∧ i ≠ .loadRiser tag body ∧
            i ≠ .loadStation tag body ∧ i ≠ .loadLine tag body ∧ i ≠ .loadTower tag body) →
          (∀ u, { (t.unit u).cfg with tSp := (s.unit u).cfg.tSp } = (s.unit u).cfg) ∧
          ((∀ tag body, i ≠ .setSetpoint tag body) → SameTables s t)) :=
      ⟨fun _ => k.mask, fun _ => ⟨fun u => by rw [k.tables.units u], fun _ => k.tables⟩⟩
    obtain ⟨k, tag, body, hq, rfl⟩ | ⟨⟨spd, e⟩, -⟩ | ⟨spd, rfl⟩ | k := exec_tables i h
    · obtain k' | ⟨ho, k'⟩ := request_outcome k tag body s
      · exact same k'
      · refine ⟨fun hm => ?_, fun hl => ?_⟩
        · have notMask : k ≠ .setNoticeMask := by
            rintro rfl
            cases i <;> cases hq
            exact hm _ _ rfl
          exact k'.mask.trans (mask_rule notMask body s.taken)
        · have notLoad : k.isLoad = false := by
            cases k with
            | loadUnit | loadRiser | loadStation | loadLine | loadTower =>
              have config : s.slp.opState = .config := by simpa [ReqKind.allowed] using ho
              cases i <;> cases hq
              exact absurd (hl config tag body) (by simp)
            | _ => rfl
          by_cases setpoint : k = .setSetpoint
          · subst setpoint
            refine ⟨fun u => ?_, fun hp => ?_⟩
            · rw [k'.tables.units]
              exact cfg_takeSetpoint body s.taken u
            · cases i <;> cases hq
              exact absurd rfl (hp _ _)
          · have tables := ((tablesKept_taken s).tables.trans
              (sameTables_rule notLoad setpoint body s.taken)).trans k'.tables
            exact ⟨fun u => by rw [tables.units u], fun _ => tables⟩
    · obtain ⟨power, supply, release⟩ := hstart spd
      exact absurd e (by simp [power, supply, release])
    · have ⟨tables, mask⟩ := tables_restarted spd s
      exact ⟨fun _ => mask, fun _ => ⟨fun u => by rw [tables.units u], fun _ => tables⟩⟩
    · exact same k
  · exact step_keeps (P := fun s => s.running = true → s.configProblem = none) (fun _ _ => id)
      (fun i s t hi => exec_configProblem i hi) hs h

end Sys2Proof.Machine
end

