-- ==== Sys2Proof/Proofs/Starts.lean ====
section
/-! PROOFS. Proofs/Starts.lean: the state after power-on, the starts, RESTART, and a part held in reset (R146, R159, R181,
R182, R194). -/

namespace Sys2Proof.Machine

/-! ## The state after power-on -/

theorem getElem_replicate_fin {α : Type} (n : Nat) (a : α) (i : Fin n) : (Vector.replicate n a)[i] = a := by
  simp

theorem unit_reset (u : UnitNo) : State.reset.unit u = {} := getElem_replicate_fin ..

theorem station_reset (st : StationNo) : State.reset.station st = {} := getElem_replicate_fin ..

theorem riser_reset (r : RiserNo) : State.reset.riser r = {} := getElem_replicate_fin ..

theorem ctx_reset (r : RiserNo) : State.reset.ctx r = none := getElem_replicate_fin ..

theorem line_reset (l : LineNo) : State.reset.line l = {} := getElem_replicate_fin ..

/-- Settles O3: every record is its structure's default. -/
theorem resetState : Obligations.ResetState :=
  ⟨rfl, unit_reset, station_reset, riser_reset, rfl, rfl, ctx_reset, rfl, rfl, line_reset, rfl, rfl⟩

/-- Settles O10. -/
theorem startsLeaveThePowerOnState : Obligations.StartsLeaveThePowerOnState :=
  fun _ _ => ⟨rfl, rfl, rfl⟩

/-! ## A part held in reset (R182) -/

theorem not_takes_of_held {s : State} (h : s.slp.resetHeld = true) (f : SupFrame) : ¬ s.takes f := by
  rintro ⟨hc, -⟩
  simp [State.canTake, h] at hc

/-- Of the events only a pin change acts while RESETn is low. -/
theorem exec_event_of_held {i : Instr} {s : State} (he : isEvent i = true) (h : s.slp.resetHeld = true)
    (hp : ∀ l high, i ≠ .linePinChange l high) : exec i s = .next s := by
  have stopped (f : State → State) : Host.Outcome.next (s.whileAlive f) = (.next s : Host.Outcome State Fault Refusal) :=
    congrArg _ (whileAlive_of_held h f)
  cases i with
  | linePinChange l high => exact absurd rfl (hp l high)
  | secondsTimebaseTick | unitStaleLimit | stationMaxAge | dwellExpiry | settleExpiry | readyWindowExpiry
  | doneWindowExpiry | sweepStart | rollPassDue | fieldRequestSent | replyWindowExpiry | fieldInterByteGap
  | broadcastQuietGapEnd | readingReceived | ackReceived | nakReceived | deferReceived | phaseReceived
  | mailReplyReceived | fieldCheckFailure | foreignAddressFrame | lineFilterExpiry => exact stopped _
  | _ => cases he

/-- While RESETn is low a command changes nothing, the starts, RESETn itself and the pins apart. -/
theorem exec_of_held {i : Instr} {s : State} (h : s.slp.resetHeld = true)
    (hs : ∀ spd, i ≠ .powerOn spd ∧ i ≠ .supplyLowRestart spd ∧ i ≠ .resetPinRelease spd) (ha : i ≠ .resetPinAssert)
    (hp : ∀ l high, i ≠ .linePinChange l high) : exec i s = .next s := by
  have stopped (f : State → State) : Host.Outcome.next (s.whileAlive f) = (.next s : Host.Outcome State Fault Refusal) :=
    congrArg _ (whileAlive_of_held h f)
  cases commandGroup i with
  | powerOn spd => exact absurd rfl (hs spd).1
  | supplyLowRestart spd => exact absurd rfl (hs spd).2.1
  | resetPinRelease spd => exact absurd rfl (hs spd).2.2
  | resetPinAssert => exact absurd rfl ha
  | event he => exact exec_event_of_held he h hp
  | request hq => rw [exec_request hq, request_none _ (not_takes_of_held h _)]
  | unknownKind kind tag body =>
    refine congrArg Host.Outcome.next ?_
    rw [takeFrame_none (not_takes_of_held h _)]
    exact ite_self s
  | restartTakesEffect | frameComplete | interByteGap | lengthDiscard | frameSent | noticeSend => exact stopped _

/-- FDE and the driven levels are inactive while RESETn is low. -/
theorem fde_of_held {s : State} (h : s.slp.resetHeld = true) : s.fde = false := by
  unfold State.fde
  split
  · rfl
  · simp [h]

theorem lineLevel_of_held {s : State} (h : s.slp.resetHeld = true) {l : LineNo}
    (hl : (s.line l).cfg.role = .outFault ∨ (s.line l).cfg.role = .outFree) : s.lineLevel l = false := by
  unfold State.lineLevel
  obtain e | e := hl <;> simp [e, h]

/-- Settles O11: by `exec_of_held` the commands named are the only ones that act while RESETn is low. -/
theorem resetPinStopsThePart : Obligations.ResetPinStopsThePart := by
  refine ⟨fun s => ⟨_, rfl, rfl, rfl, rfl, rfl, rfl, rfl, rfl, rfl, rfl, rfl, rfl⟩,
    fun s h => ⟨fde_of_held h, fun l => lineLevel_of_held h⟩, fun i s h => exec_of_held h, fun s h => ?_⟩
  refine ⟨fun l high => ?_, fun spd => ⟨_, _, rfl, h, rfl, h⟩⟩
  exact congrArg Host.Outcome.next (whileAlive_of_held (s := s.setPin l high) h _)

/-! ## RESTART (R181) -/

theorem exec_restartTakesEffect {s : State} (h : s.slp.resetHeld = false) (hd : s.slp.restart = .due) (spd : Bool) :
    exec (.restartTakesEffect spd) s = .next (s.restarted spd) := by
  refine congrArg Host.Outcome.next ?_
  rw [whileAlive_of_alive h, if_pos hd]

/-- An input line starts its filter afresh where its pin shows active (R149, R159). -/
theorem startFilter_eq (c : LineCfg) (high : Bool) :
    startFilter c high =
      if c.role.isInput = true ∧ (high = true ↔ c.polarity = .activeHigh) then some c.filter else none := by
  unfold startFilter
  refine ite_of_iff ?_
  rw [Bool.and_eq_true]
  cases high <;> cases c.polarity <;> simp

theorem pinShowsActive_iff (s : State) (l : LineNo) :
    s.pinShowsActive l = true ↔ (s.lu.pins[l] = true ↔ (s.line l).cfg.polarity = .activeHigh) := by
  rw [pinShowsActive_eq]
  cases s.lu.pins[l] <;> cases (s.line l).cfg.polarity <;> simp

theorem line_restarted (spd : Bool) (s : State) (l : LineNo) :
    (s.restarted spd).line l = freshLine (s.line l).cfg s.lu.pins[l] := by
  simp [State.restarted, State.restartLines, State.line]

/-- Settles O12: the acceptance is the request's rule; the state after is `restarted` field by field. -/
theorem restartKeepsTheTables : Obligations.RestartKeepsTheTables := by
  refine ⟨fun s tag h => exec_handled (i := .restart tag []) rfl h rfl rfl, fun s spd h hd => ?_⟩
  refine ⟨_, exec_restartTakesEffect h hd spd, ?slp, fun u => ?unit, fun st => ?station, fun r => ?riser, rfl, rfl, rfl,
    rfl, rfl, rfl, fun l => ?line⟩
  case slp => rw [State.restarted, h]; rfl
  case unit =>
    rw [unit_reset]
    exact mapTable_get ..
  case station =>
    rw [station_reset]
    exact mapTable_get ..
  case riser =>
    rw [riser_reset]
    exact mapTable_get ..
  case line =>
    rw [line_restarted, freshLine, startFilter_eq]
    simp only [pinShowsActive_iff]

end Sys2Proof.Machine
end

