-- ==== Sys2Proof/Proofs/Receiver.lean ====
section
/-! PROOFS. Proofs/Receiver.lean: frames and parts of frames on the supervisor line, taken byte by byte (R168, R169,
R183). -/

namespace Sys2Proof.Machine

/-! ## One frame on the line -/

/-- The bytes of a frame that follow its start byte, with these two bytes in the place of its CRC. -/
def SupFrame.tailWith (f : SupFrame) (crc : Word) : List Byte := f.covered ++ bytesOf crc

theorem SupFrame.bytes_eq (f : SupFrame) : f.bytes = 0xA5 :: f.tailWith (crc16 f.covered) := rfl

theorem length_tailWith (f : SupFrame) (crc : Word) : (f.tailWith crc).length = f.body.length + 5 := by
  simp [SupFrame.tailWith, SupFrame.covered, bytesOf]

theorem frameEnd_byteOf {n : Nat} (h : n ≤ 120) : frameEnd (byteOf n) = n + 5 := by
  rw [frameEnd, toNat_byteOf (by omega)]

theorem bytesOf_injective {a b : Word} (h : bytesOf a = bytesOf b) : a = b := by
  injection h with hi lo
  injection lo with lo
  rw [← wordOf_bytes a, ← wordOf_bytes b, hi, lo]

/-- The whole of a frame after its start byte is that frame where the CRC is its own, and none otherwise (R168, R183). -/
theorem frameOf_tailWith {f : SupFrame} (h : f.body.length ≤ 120) (crc : Word) :
    frameOf (f.tailWith crc) = if crc = crc16 f.covered then some f else none := by
  have hlen : (byteOf f.body.length).toNat = f.body.length := toNat_byteOf (by omega)
  have take : (f.body ++ bytesOf crc).take f.body.length = f.body := List.take_left
  have drop : (f.body ++ bytesOf crc).drop f.body.length = bytesOf crc := List.drop_left
  show frameOf (byteOf f.body.length :: f.kind :: f.tag :: (f.body ++ bytesOf crc)) = _
  unfold frameOf
  dsimp only
  rw [hlen, take, drop, if_pos (by rw [List.length_append]; rfl)]
  exact ite_of_iff ⟨bytesOf_injective, congrArg bytesOf⟩

/-! ## The receiver inside a frame -/

/-- The state with this receiver. -/
theorem receive_of_no_frame {s : State} {b : RxByte} (h : (s.slp.receiver.byte b).frame = none) :
    s.receive b = s.modSlp fun p => { p with receiver := (s.slp.receiver.byte b).receiver } := by
  simp only [State.receive, h]

theorem receive_of_frame {s : State} {b : RxByte} {f : SupFrame} (h : (s.slp.receiver.byte b).frame = some f) :
    s.receive b = (s.modSlp fun p => { p with receiver := (s.slp.receiver.byte b).receiver }).placeFrame f := by
  simp only [State.receive, h]

/-- A byte short of the frame's end is taken into the frame. -/
theorem inFrameByte_within {got : List Byte} {ok : Bool} {len : Byte} {rest : List Byte} (hg : got = len :: rest)
    (hl : len.toNat ≤ 120) (hn : got.length < frameEnd len) : inFrameByte got ok = ⟨.inFrame got ok, none⟩ := by
  subst hg
  simp only [inFrameByte]
  rw [if_neg (by omega), if_neg (by omega)]

/-- The last byte of a frame ends it (R168). -/
theorem inFrameByte_end {got : List Byte} {ok : Bool} {len : Byte} {rest : List Byte} (hg : got = len :: rest)
    (hl : len.toNat ≤ 120) (hn : got.length = frameEnd len) :
    inFrameByte got ok = ⟨.hunting, if ok then frameOf got else none⟩ := by
  subst hg
  simp only [inFrameByte]
  rw [if_neg (by omega), if_pos (by omega)]

/-- The values of received bytes. -/
def values (l : List RxByte) : List Byte := l.map (·.value)

/-- Whether every stop bit of received bytes was there. -/
def stopBits (l : List RxByte) : Bool := l.all (·.stopBit)

/-- Bytes that stop short of the end of a frame of this length. -/
def ShortOf (len : Byte) (got : List Byte) : Prop := got.length < frameEnd len ∧ (got = [] ∨ got.head? = some len)

/-- Bytes inside a frame are collected, and change nothing else (R168). -/
theorem receiveAll_within (len : Byte) (hl : len.toNat ≤ 120) (l : List RxByte) :
    ∀ (s : State) (got : List Byte) (ok : Bool), s.slp.receiver = .inFrame got ok → ShortOf len (got ++ values l) →
      s.receiveAll l = s.modSlp fun p => { p with receiver := .inFrame (got ++ values l) (ok && stopBits l) } := by
  induction l with
  | nil =>
    intro s got ok hr _
    simp [State.receiveAll, values, stopBits, State.modSlp, ← hr]
  | cons b l ih =>
    intro s got ok hr hs
    have split : got ++ values (b :: l) = (got ++ [b.value]) ++ values l := by simp [values]
    rw [split] at hs
    obtain ⟨rest, hgot⟩ : ∃ rest, got ++ [b.value] = len :: rest := by
      cases got with
      | nil => exact ⟨[], by simpa using hs.2⟩
      | cons a got => exact ⟨got ++ [b.value], by simpa using hs.2⟩
    have short : (got ++ [b.value]).length < frameEnd len := by
      have := hs.1
      rw [List.length_append] at this
      omega
    have taken : s.slp.receiver.byte b = ⟨.inFrame (got ++ [b.value]) (ok && b.stopBit), none⟩ := by
      rw [hr]
      exact inFrameByte_within hgot hl short
    have moved := receive_of_no_frame (s := s) (b := b) (by rw [taken])
    rw [taken] at moved
    show (s.receive b).receiveAll l = _
    rw [moved, ih _ (got ++ [b.value]) (ok && b.stopBit) rfl hs, split]
    simp only [State.modSlp, stopBits, List.all_cons, Bool.and_assoc]

/-- The start byte opens a frame (R168). -/
theorem receive_start {s : State} (h : s.slp.receiver = .hunting) (stop : Bool) :
    s.receive ⟨0xA5, stop⟩ = s.modSlp fun p => { p with receiver := .inFrame [] stop } := by
  have taken : s.slp.receiver.byte ⟨0xA5, stop⟩ = ⟨.inFrame [] stop, none⟩ := by
    rw [h]
    rfl
  rw [receive_of_no_frame (by rw [taken]), taken]

theorem modSlp_modSlp (f g : Slp → Slp) (s : State) : (s.modSlp f).modSlp g = s.modSlp fun p => g (f p) := rfl

theorem receiveAll_append (l m : List RxByte) (s : State) : s.receiveAll (l ++ m) = (s.receiveAll l).receiveAll m :=
  List.foldl_append ..

theorem receiveAll_cons (b : RxByte) (l : List RxByte) (s : State) :
    s.receiveAll (b :: l) = (s.receive b).receiveAll l := rfl

/-- A frame's part on the line: the bytes are collected. -/
theorem receiveAll_partial {s : State} (h : s.slp.receiver = .hunting) {len : Byte} (hl : len.toNat ≤ 120)
    (stop : Bool) {l : List RxByte} (hs : ShortOf len (values l)) :
    s.receiveAll (⟨0xA5, stop⟩ :: l) =
      s.modSlp fun p => { p with receiver := .inFrame (values l) (stop && stopBits l) } := by
  rw [receiveAll_cons, receive_start h, receiveAll_within len hl l _ [] stop rfl hs, modSlp_modSlp]
  rfl

/-- The receiver hunts again where it hunted before. -/
theorem modSlp_hunting {s : State} (h : s.slp.receiver = .hunting) :
    (s.modSlp fun p => { p with receiver := .hunting }) = s := by
  simp only [State.modSlp, ← h]

/-- A whole frame on the line: with every stop bit there and the CRC good it goes to the buffer, and otherwise nothing
changes (R168, R169). -/
theorem receiveAll_whole {s : State} (h : s.slp.receiver = .hunting) {f : SupFrame} (hf : f.body.length ≤ 120)
    (crc : Word) (stop : Bool) {l : List RxByte} (hv : values l = f.tailWith crc) :
    s.receiveAll (⟨0xA5, stop⟩ :: l) =
      if (stop && stopBits l) = true ∧ crc = crc16 f.covered then s.placeFrame f else s := by
  have hlen : (byteOf f.body.length).toNat ≤ 120 := by rw [toNat_byteOf (by omega)]; exact hf
  have hend : (values l).length = frameEnd (byteOf f.body.length) := by
    rw [hv, length_tailWith, frameEnd_byteOf hf]
  have hhead : ∃ rest, values l = byteOf f.body.length :: rest := ⟨_, hv⟩
  obtain ⟨m, last, rfl⟩ : ∃ m last, l = m ++ [last] := by
    refine ⟨l.dropLast, l.getLast ?_, (List.dropLast_concat_getLast _).symm⟩
    rintro rfl
    simp [values, frameEnd] at hend
  have hm : values (m ++ [last]) = values m ++ [last.value] := by simp [values]
  have short : ShortOf (byteOf f.body.length) (values m) := by
    rw [hm, List.length_append] at hend
    obtain ⟨rest, hrest⟩ := hhead
    refine ⟨by simp at hend; omega, ?_⟩
    cases hvm : values m with
    | nil => exact .inl rfl
    | cons a t =>
      rw [hm, hvm] at hrest
      exact .inr (congrArg some (List.cons.inj hrest).1)
  obtain ⟨rest, hrest⟩ := hhead
  have collected := receiveAll_partial h hlen stop short
  have taken : (Receiver.inFrame (values m) (stop && stopBits m)).byte last =
      ⟨.hunting, if stop && stopBits (m ++ [last]) then frameOf (values (m ++ [last])) else none⟩ := by
    have bits : (stop && stopBits m && last.stopBit) = (stop && stopBits (m ++ [last])) := by
      simp [stopBits, Bool.and_assoc]
    show inFrameByte (values m ++ [last.value]) (stop && stopBits m && last.stopBit) = _
    rw [← hm, bits]
    exact inFrameByte_end hrest hlen hend
  rw [← List.cons_append, receiveAll_append, collected, receiveAll_cons]
  show State.receive _ last = _
  by_cases good : (stop && stopBits (m ++ [last])) = true ∧ crc = crc16 f.covered
  · rw [hv, frameOf_tailWith hf, if_pos good.1, if_pos good.2] at taken
    rw [if_pos good, receive_of_frame (f := f) (congrArg Received.frame taken)]
    show State.placeFrame f (State.modSlp (fun p => { p with receiver :=
      ((Receiver.inFrame (values m) (stop && stopBits m)).byte last).receiver }) (s.modSlp _)) = _
    rw [taken, modSlp_modSlp]
    exact congrArg _ (modSlp_hunting h)
  · have noFrame : (if (stop && stopBits (m ++ [last])) = true then frameOf (values (m ++ [last])) else none) = none := by
      rw [hv, frameOf_tailWith hf]
      split
      · next hb => exact if_neg fun hc => good ⟨hb, hc⟩
      · rfl
    rw [noFrame] at taken
    rw [if_neg good, receive_of_no_frame (congrArg Received.frame taken)]
    show State.modSlp (fun p => { p with receiver :=
      ((Receiver.inFrame (values m) (stop && stopBits m)).byte last).receiver }) (s.modSlp _) = _
    rw [taken, modSlp_modSlp]
    exact modSlp_hunting h

/-! ## The obligations -/

/-- Settles O13: the frame's own bytes, every stop bit there, by `receiveAll_whole`. -/
theorem frameOnTheLineIsReceived : Obligations.FrameOnTheLineIsReceived := by
  intro s f hr hh hf
  have hv : values ((f.tailWith (crc16 f.covered)).map fun b => ⟨b, true⟩) = f.tailWith (crc16 f.covered) := by
    simp [values, Function.comp_def]
  have hb : stopBits ((f.tailWith (crc16 f.covered)).map fun b => ⟨b, true⟩) = true := by
    simp [stopBits, Function.comp_def]
  refine congrArg Host.Outcome.next ?_
  rw [whileAlive_of_alive hr, f.bytes_eq, List.map_cons, receiveAll_whole hh hf _ _ hv, if_pos ⟨by rw [hb]; rfl, rfl⟩]
  rfl

theorem values_zipWith {l : List Byte} {stop : List Bool} (h : stop.length = l.length) :
    values (List.zipWith RxByte.mk l stop) = l := by
  induction l generalizing stop with
  | nil => rfl
  | cons a l ih =>
    cases stop with
    | nil => cases h
    | cons b stop => exact congrArg (a :: ·) (ih (Nat.succ.inj h))

theorem stopBits_zipWith {l : List Byte} {stop : List Bool} (h : stop.length = l.length) :
    stopBits (List.zipWith RxByte.mk l stop) = stop.all id := by
  induction l generalizing stop with
  | nil => simp_all [stopBits]
  | cons a l ih =>
    cases stop with
    | nil => cases h
    | cons b stop => exact congrArg (b && ·) (ih (Nat.succ.inj h))

/-- A frame with another CRC, or with a stop bit missing, changes nothing (R168). -/
theorem exec_badFrame {s : State} (hr : s.slp.resetHeld = false) (hh : s.slp.receiver = .hunting) {f : SupFrame}
    {crc : Word} {stop : List Bool} (hf : f.body.length ≤ 120) (hs : stop.length = f.body.length + 6)
    (bad : crc ≠ crc16 f.covered ∨ false ∈ stop) :
    exec (.supervisorFrameComplete (List.zipWith RxByte.mk (0xA5 :: f.covered ++ bytesOf crc) stop)) s = .next s := by
  obtain ⟨b, stop, rfl⟩ : ∃ b rest, stop = b :: rest := by
    cases stop with
    | nil => simp at hs
    | cons b rest => exact ⟨b, rest, rfl⟩
  have hlen : stop.length = (f.tailWith crc).length := by
    rw [length_tailWith]
    simpa using hs
  refine congrArg Host.Outcome.next ?_
  rw [whileAlive_of_alive hr]
  show s.receiveAll (⟨0xA5, b⟩ :: List.zipWith RxByte.mk (f.tailWith crc) stop) = s
  rw [receiveAll_whole hh hf crc b (values_zipWith hlen), if_neg]
  rintro ⟨bits, good⟩
  rw [stopBits_zipWith hlen, Bool.and_eq_true] at bits
  obtain h | h := bad
  · exact h good
  · rcases List.mem_cons.1 h with h | h
    · simp [← h] at bits
    · exact absurd (List.all_eq_true.1 bits.2 _ h) Bool.false_ne_true

/-- The byte that ends a gap is taken by the hunting receiver (R168). -/
theorem receive_hunt (s : State) (b : RxByte) : s.hunt.receive b =
    s.modSlp fun p => { p with receiver := if b.value = 0xA5 then .inFrame [] b.stopBit else .hunting } := by
  have taken : s.hunt.slp.receiver.byte b =
      ⟨if b.value = 0xA5 then .inFrame [] b.stopBit else .hunting, none⟩ := by
    show (if b.value = 0xA5 then _ else _ : Received) = _
    split <;> rfl
  rw [receive_of_no_frame (congrArg Received.frame taken), taken]
  rfl

/-- A gap inside a frame discards the part received (R168). -/
theorem exec_gap {s : State} (hr : s.slp.resetHeld = false) (hh : s.slp.receiver = .hunting) {f : SupFrame} {n : Nat}
    (b : RxByte) (hf : f.body.length ≤ 120) (h1 : 1 ≤ n) (hn : n < f.bytes.length) :
    exec (.supervisorInterByteGap ((f.bytes.take n).map fun x => ⟨x, true⟩) b) s = .next
      { s with slp := { s.slp with receiver := if b.value = 0xA5 then .inFrame [] b.stopBit else .hunting } } := by
  obtain ⟨n, rfl⟩ : ∃ m, n = m + 1 := ⟨n - 1, by omega⟩
  have hlen : (byteOf f.body.length).toNat ≤ 120 := by rw [toNat_byteOf (by omega)]; exact hf
  have hv : values (((f.tailWith (crc16 f.covered)).take n).map fun x => ⟨x, true⟩) =
      (f.tailWith (crc16 f.covered)).take n := by
    simp [values, Function.comp_def]
  have short : ShortOf (byteOf f.body.length) ((f.tailWith (crc16 f.covered)).take n) := by
    rw [f.bytes_eq, List.length_cons, length_tailWith] at hn
    refine ⟨?_, ?_⟩
    · rw [frameEnd_byteOf hf, List.length_take]
      omega
    · cases n with
      | zero => exact .inl rfl
      | succ n => exact .inr rfl
  refine congrArg Host.Outcome.next ?_
  rw [whileAlive_of_alive hr, f.bytes_eq, List.take_succ_cons, List.map_cons,
    receiveAll_partial hh hlen true (hv.symm ▸ short), receive_hunt, modSlp_modSlp]
  rfl

/-- A length byte above 120 sends the receiver hunting (R168). -/
theorem exec_lengthDiscard {s : State} (hr : s.slp.resetHeld = false) (hh : s.slp.receiver = .hunting) (stop : Bool)
    {length : RxByte} (hl : 120 < length.value.toNat) :
    exec (.supervisorLengthDiscard [⟨0xA5, stop⟩] length) s = .next s := by
  have taken : (Receiver.inFrame [] stop).byte length = ⟨.hunting, none⟩ := if_pos hl
  refine congrArg Host.Outcome.next ?_
  rw [whileAlive_of_alive hr]
  show (s.receive ⟨0xA5, stop⟩).receive length = s
  rw [receive_start hh, receive_of_no_frame (congrArg Received.frame taken)]
  show State.modSlp (fun p => { p with receiver := ((Receiver.inFrame [] stop).byte length).receiver })
    (s.modSlp _) = s
  rw [taken, modSlp_modSlp]
  exact modSlp_hunting hh

/-- Settles O14. -/
theorem badFramesAreDiscarded : Obligations.BadFramesAreDiscarded :=
  fun _ hr hh => ⟨fun _ _ _ hf hs => exec_badFrame hr hh hf hs, fun _ _ b hf => exec_gap hr hh b hf,
    fun stop _ => exec_lengthDiscard hr hh stop⟩

end Sys2Proof.Machine
end

