-- ==== Sys2Proof/Proofs/Transmit.lean ====
section
/-! PROOFS. Proofs/Transmit.lean: the transmit side of the supervisor link, the frames of the notices, and the refusals of
the catalogue (R170 to R173, R183, R187, R190). -/

namespace Sys2Proof.Machine

/-! ## The end of a frame (R170, R171, R181) -/

/-- Settles O15: by what was being sent. -/
theorem frameSentFreesTheLine : Obligations.FrameSentFreesTheLine := by
  intro s hr
  have alive (f : State → State) : Host.Outcome.next (s.whileAlive f) =
      (.next (f s) : Host.Outcome State Fault Refusal) := congrArg _ (whileAlive_of_alive hr f)
  refine ⟨fun h => ?_, fun n h => ?_, fun h => ?_⟩
  all_goals
    refine (alive _).trans (congrArg Host.Outcome.next ?_)
    simp only [h]
  · rfl
  · have next : (if s.slp.reply = none then Stx.idle else .reply) =
        if s.slp.reply.isSome = true then Stx.reply else .idle := by cases s.slp.reply <;> rfl
    rw [next]
    rfl

/-! ## The head notice (R171, R187, R190) -/

theorem mayNotify_iff {s : State} (hd : s.slp.restart ≠ .due) :
    s.mayNotify = true ↔ s.slp.stx = .idle ∧ s.slp.reply = none := by
  simp [State.mayNotify, hd]

/-- The head notice leaves the queue as its sending begins. -/
theorem exec_noticeSend_of_mayNotify {s : State} (hr : s.slp.resetHeld = false) (h : s.mayNotify = true) {n : Notice}
    {rest : List Notice} (hq : s.nq.queue = n :: rest) :
    exec .noticeSend s = .next { s with nq := { s.nq with queue := rest }, slp := { s.slp with stx := .notice n } } := by
  refine congrArg Host.Outcome.next ?_
  rw [whileAlive_of_alive hr]
  simp only [hq, h, if_true]
  rfl

theorem exec_noticeSend_of_empty {s : State} (hq : s.nq.queue = []) : exec .noticeSend s = .next s := by
  refine congrArg Host.Outcome.next (whileAlive_eq_self ?_)
  simp only [hq]

/-- The flags of a UNIT_FAULT notice, one bit each (R185, R187). -/
theorem unitFlags_byte (f : UnitFlags) : f.byte =
    byteOf ((if f.fanOff then 1 else 0) + (if f.wheelFault then 2 else 0) + (if f.damperFault then 4 else 0) +
      (if f.sensorFault then 8 else 0) + (if f.localHand then 16 else 0)) := rfl

/-- The entered flag is sent inverted: 0 on entering, 1 on leaving (R187). -/
theorem flagByte_not (b : Bool) : flagByte (!b) = if b then 0 else 1 := by cases b <;> rfl

/-- The low byte of a number is the number modulo 256 (R183). -/
theorem extractLsb'_ofInt_low (n : Int) : (BitVec.ofInt 16 n).extractLsb' 0 8 = BitVec.ofInt 8 n := by
  apply BitVec.eq_of_toNat_eq
  rw [BitVec.extractLsb'_toNat, BitVec.toNat_ofInt, BitVec.toNat_ofInt, Nat.shiftRight_zero]
  omega

/-- The high byte of a number of two bytes is its floor division by 256 (R183, R187). -/
theorem extractLsb'_ofInt_high (n : Int) : (BitVec.ofInt 16 n).extractLsb' 8 8 = BitVec.ofInt 8 (n / 256) := by
  apply BitVec.eq_of_toNat_eq
  rw [BitVec.extractLsb'_toNat, BitVec.toNat_ofInt, BitVec.toNat_ofInt, Nat.shiftRight_eq_div_pow]
  omega

theorem num16_bytes (n : Int) : num16 n = [BitVec.ofInt 8 (n / 256), BitVec.ofInt 8 n] := by
  rw [num16_eq, extractLsb'_ofInt_high, extractLsb'_ofInt_low]

/-- The CRC goes on from the CRC of the bytes before (R183). -/
theorem crc16_concat (l : List Byte) (b : Byte) : crc16 (l ++ [b]) = crcByte (crc16 l) b := by
  rw [crc16, List.foldl_append]
  rfl

/-- Settles O16: when the head notice goes out, and the bytes of its frame by the kind of notice. -/
theorem headNoticeIsSent : Obligations.HeadNoticeIsSent := by
  refine ⟨fun s hr hd => ⟨fun n rest hq hx hy => ?sent, fun held => ?held⟩, fun level subject content => ?frame, ?codes,
    fun f => rfl, rfl, fun l b => crc16_concat l b⟩
  case sent => exact exec_noticeSend_of_mayNotify hr ((mayNotify_iff hd).2 ⟨hx, hy⟩) hq
  case held =>
    obtain hq | hb := held
    · exact exec_noticeSend_of_empty hq
    · refine exec_noticeSend_of_not_mayNotify (Bool.eq_false_iff.2 fun h => ?_)
      obtain ⟨idle, noReply⟩ := (mayNotify_iff hd).1 h
      exact hb.elim (absurd idle) (absurd noReply)
  case frame =>
    have named : Notice.frame ⟨level, subject, content⟩ =
        ⟨0x82, 0, [byteOf level, content.code] ++ subject.bytes ++ content.bytes⟩ := rfl
    refine named.trans (congrArg (SupFrame.mk 0x82 0) ?_)
    refine congr (congrArg HAppend.hAppend (congr (congrArg HAppend.hAppend ?_) ?_)) ?_
    · cases content <;> rfl
    · cases subject <;> rfl
    · cases content with
      | frost entered t => cases t <;> simp only [Content.bytes, flagByte_not] <;> rfl
      | changeover d tag res why late => cases why <;> rfl
      | unitHand entered => simp only [Content.bytes, flagByte_not]
      | mailDone failure attempts => cases failure <;> rfl
      | _ => rfl
  case codes =>
    exact ⟨rfl, rfl, rfl, rfl, rfl, rfl, rfl, rfl, rfl, rfl, rfl, rfl, rfl, rfl, rfl, rfl, rfl, num16_bytes⟩

/-! ## Refusals of the catalogue (R170, R172, R173) -/

theorem isRequestCode_eq_false {kind : Byte} (h : ∀ k ∈ ReqKind.all, k.code ≠ kind) : isRequestCode kind = false := by
  refine Bool.eq_false_iff.2 fun hk => ?_
  obtain ⟨k, hm, e⟩ := List.any_eq_true.1 hk
  exact h k hm (beq_iff_eq.1 e)

theorem exec_unknownKind {s : State} {kind tag : Byte} {body : List Byte} (h : ∀ k ∈ ReqKind.all, k.code ≠ kind)
    (ht : s.takes ⟨kind, tag, body⟩) :
    exec (.unknownKind kind tag body) s = .next (s.taken.answer kind tag (.refuse .unknownKind kind)) := by
  refine congrArg Host.Outcome.next ?_
  rw [isRequestCode_eq_false h, takeFrame_eq ht]
  rfl

/-- Settles O17: the refusals by the lemmas on taking a request, the codes by the catalogue, the answers by
`State.answer`. -/
theorem catalogueRefusals : Obligations.CatalogueRefusals := by
  refine ⟨fun s kind tag body h ht => exec_unknownKind h ht, by decide, fun i k tag body s hq => ⟨fun ht => ?_,
    fun ht => ⟨fun hl => ?_, fun hl ho => ?_⟩⟩, ⟨rfl, rfl, rfl, rfl, rfl⟩, fun s kind tag => ⟨fun items => rfl,
    fun reason detail => ?_⟩⟩
  · rw [exec_request hq, request_none _ ht]
  · rw [exec_request hq, request_length _ ht hl]
  · rw [exec_request hq, request_state _ ht hl ho]
  · cases reason <;> rfl

end Sys2Proof.Machine
end

