-- ==== Sys2Proof/Proofs/Records.lean ====
section
/-! PROOFS. Proofs/Records.lean: the byte layouts of the five configuration records (R175, R177, R186), the LOAD requests
and READ_CONFIG. -/

namespace Sys2Proof.Machine

/-! ## The first failing field (R175) -/

theorem firstBad_bounds {l : List Bool} : ∀ {i j : Nat}, firstBad i l = some j → i ≤ j ∧ j < i + l.length := by
  induction l with
  | nil => intro i j h; cases h
  | cons b l ih =>
    intro i j h
    rw [firstBad_cons] at h
    split at h
    · have := ih h
      rw [List.length_cons]
      omega
    · cases h
      rw [List.length_cons]
      omega

/-- The first failing field is the one whose check fails and before which every check passes. -/
theorem firstBad_eq_some {l : List Bool} : ∀ {i j : Nat}, (∀ k, k < j → l[k]? = some true) → l[j]? = some false →
    firstBad i l = some (i + j) := by
  induction l with
  | nil => intro i j _ h; simp at h
  | cons b l ih =>
    intro i j hlt h
    cases j with
    | zero =>
      obtain rfl : b = false := by simpa using h
      rfl
    | succ j =>
      obtain rfl : b = true := by simpa using hlt 0 (Nat.succ_pos j)
      have rest := ih (i := i + 1) (fun k hk => by simpa using hlt (k + 1) (Nat.succ_lt_succ hk)) (by simpa using h)
      rw [firstBad_cons, if_pos rfl, rest, Nat.add_assoc, Nat.add_comm 1 j]

theorem within_eq_decide {lo hi x : Int} {p : Prop} [Decidable p] (h : p ↔ lo ≤ x ∧ x ≤ hi) :
    within lo hi x = decide p := by
  rw [within, ← Bool.decide_and, decide_eq_decide]
  exact h.symm

/-- A list by its items. -/
theorem eq_ofFn_of_length {b : List Byte} {n : Nat} (h : b.length = n) :
    b = List.ofFn fun i : Fin n => b[i.val]'(by omega) := by
  subst h
  exact List.ofFn_getElem.symm

/-! ## Parsing what was written -/

theorem parseUnit_unitBytes {c : UnitCfg} (h : c.InRange) : parseUnit (unitBytes c) = .ok c := by
  obtain ⟨address, epsilon, sMin, defrost, frost, tSp, db, hm, wMax, dwell, window, deferLimit, missLimit⟩ := h
  have hr := c.riser.isLt
  have hst := c.station.isLt
  simp (disch := omega) only [unitBytes, num16_eq, List.cons_append, List.nil_append, parseUnit, n8_flag, n8_byteOf,
    n16_num, i16_num, flag_eq, toNat_byteOf, place_byteOf, w16_num]
  split
  · next i hi =>
    rw [firstBad_none.2] at hi
    · cases hi
    · simp only [List.forall_mem_cons, within_iff, List.not_mem_nil, false_imp_iff, implies_true, and_true]
      split <;> omega
  · rfl

theorem parseRiser_riserBytes {c : RiserCfg} (h : c.InRange) : parseRiser (riserBytes c) = .ok c := by
  obtain ⟨weight, rank, quorum, hold, settle, ready, done⟩ := h
  simp (disch := omega) only [riserBytes, num16_eq, List.cons_append, List.nil_append, parseRiser, n8_flag, n8_byteOf,
    n16_num, flag_eq, toNat_byteOf, w16_num]
  split
  · next i hi =>
    rw [firstBad_none.2] at hi
    · cases hi
    · simp only [List.forall_mem_cons, within_iff, List.not_mem_nil, false_imp_iff, implies_true, and_true]
      split <;> omega
  · rfl

theorem parseStation_stationBytes {c : StationCfg} (h : c.InRange) : parseStation (stationBytes c) = .ok c := by
  obtain ⟨low, high⟩ := h
  simp (disch := omega) only [stationBytes, num16_eq, parseStation, n8_flag, n16_num, flag_eq, w16_num]
  split
  · next i hi =>
    rw [firstBad_none.2] at hi
    · cases hi
    · simp only [List.forall_mem_cons, within_iff, List.not_mem_nil, false_imp_iff, implies_true, and_true]
      split <;> omega
  · rfl

theorem n8_roleCode (r : Role) : 0 ≤ n8 (roleCode r) ∧ n8 (roleCode r) ≤ 5 := by cases r <;> decide

theorem n8_polarityCode (p : Polarity) : 0 ≤ n8 (polarityCode p) ∧ n8 (polarityCode p) ≤ 1 := by cases p <;> decide

theorem roleOfCode_roleCode (r : Role) : roleOfCode (roleCode r) = r := by cases r <;> rfl

theorem polarity_of_code (p : Polarity) : (if polarityCode p = 1 then Polarity.activeLow else .activeHigh) = p := by
  cases p <;> rfl

theorem parseLine_lineBytes {c : LineCfg} (h : c.InRange) : parseLine (lineBytes c) = .ok c := by
  obtain ⟨low, high⟩ := h
  have role := n8_roleCode c.role
  have polarity := n8_polarityCode c.polarity
  simp (disch := omega) only [lineBytes, num16_eq, List.cons_append, List.nil_append, parseLine, n16_num, w16_num,
    roleOfCode_roleCode, polarity_of_code]
  split
  · next i hi =>
    rw [firstBad_none.2] at hi
    · cases hi
    · simp only [List.forall_mem_cons, within_iff, List.not_mem_nil, false_imp_iff, implies_true, and_true]
      omega
  · rfl

theorem n8_policyCode (p : GrantPolicy) : 0 ≤ n8 (policyCode p) ∧ n8 (policyCode p) ≤ 1 := by cases p <;> decide

theorem n8_speedCode (v : LinkSpeed) : 0 ≤ n8 (speedCode v) ∧ n8 (speedCode v) ≤ 2 := by cases v <;> decide

theorem policy_of_code (p : GrantPolicy) : (if policyCode p = 1 then GrantPolicy.arrival else .fixed) = p := by
  cases p <;> rfl

theorem speed_of_code (v : LinkSpeed) : (if speedCode v = 0 then LinkSpeed.baud19200
    else if speedCode v = 1 then .baud38400 else .baud76800) = v := by cases v <;> rfl

theorem parseTower_towerBytes {c : TowerCfg} (h : c.InRange) : parseTower (towerBytes c) = .ok c := by
  obtain ⟨tIn, base, k, wind, stale, sweep⟩ := h
  have reference := c.reference.isLt
  have policy := n8_policyCode c.policy
  have speed := n8_speedCode c.speed
  simp (disch := omega) only [towerBytes, num16_eq, List.cons_append, List.nil_append, parseTower, n8_byteOf, n16_num,
    i16_num, toNat_byteOf, place_byteOf, w16_num, policy_of_code, speed_of_code]
  split
  · next i hi =>
    rw [firstBad_none.2] at hi
    · cases hi
    · simp only [List.forall_mem_cons, within_iff, List.not_mem_nil, false_imp_iff, implies_true, and_true]
      omega
  · rfl

/-! ## Writing what was parsed -/

theorem unitBytes_of_parseUnit {b : List Byte} {c : UnitCfg} (h : parseUnit b = .ok c) : c.InRange ∧ unitBytes c = b := by
  unfold parseUnit at h
  split at h
  · split at h
    · cases h
    · next hi =>
      cases h
      rw [firstBad_none] at hi
      simp only [List.forall_mem_cons, within_iff, List.not_mem_nil, false_imp_iff, implies_true, and_true] at hi
      obtain ⟨present, address, riser, station, epsilon, sMin, defrost, frost, tSp, db, hm, wMax, dwell, window,
        deferLimit, missLimit⟩ := hi
      refine ⟨?_, ?_⟩
      · simp only [n8, n16] at *
        constructor <;> simp only <;> omega
      · simp only [unitBytes, num16_word, num16_i16, byteOf_toNat, List.cons_append, List.nil_append, flag_back present,
          place_back (n := 6) riser (by decide), place_back (n := 8) station (by decide)]
  · cases h

theorem riserBytes_of_parseRiser {b : List Byte} {c : RiserCfg} (h : parseRiser b = .ok c) :
    c.InRange ∧ riserBytes c = b := by
  unfold parseRiser at h
  split at h
  · split at h
    · cases h
    · next hi =>
      cases h
      rw [firstBad_none] at hi
      simp only [List.forall_mem_cons, within_iff, List.not_mem_nil, false_imp_iff, implies_true, and_true] at hi
      obtain ⟨present, weight, rank, quorum, hold, settle, ready, done⟩ := hi
      refine ⟨?_, ?_⟩
      · simp only [n8, n16] at *
        constructor <;> simp only <;> omega
      · simp only [riserBytes, num16_word, byteOf_toNat, List.cons_append, List.nil_append, flag_back present]
  · cases h

theorem stationBytes_of_parseStation {b : List Byte} {c : StationCfg} (h : parseStation b = .ok c) :
    c.InRange ∧ stationBytes c = b := by
  unfold parseStation at h
  split at h
  · split at h
    · cases h
    · next hi =>
      cases h
      rw [firstBad_none] at hi
      simp only [List.forall_mem_cons, within_iff, List.not_mem_nil, false_imp_iff, implies_true, and_true] at hi
      obtain ⟨present, maxAge⟩ := hi
      refine ⟨?_, ?_⟩
      · unfold n16 at maxAge
        unfold StationCfg.InRange
        dsimp only
        omega
      · simp only [stationBytes, num16_word, flag_back present]
  · cases h

/-- A byte in a small range is one of its values. -/
theorem byte_cases {p : Byte} {k : Nat} (h : 0 ≤ n8 p ∧ n8 p ≤ k) : ∃ i, i ≤ k ∧ p = byteOf i :=
  ⟨p.toNat, le_of_within h, (byteOf_toNat p).symm⟩

theorem roleCode_roleOfCode {p : Byte} (h : 0 ≤ n8 p ∧ n8 p ≤ 5) : roleCode (roleOfCode p) = p := by
  obtain ⟨i, hi, rfl⟩ := byte_cases (k := 5) h
  have cases : i = 0 ∨ i = 1 ∨ i = 2 ∨ i = 3 ∨ i = 4 ∨ i = 5 := by omega
  rcases cases with rfl | rfl | rfl | rfl | rfl | rfl <;> rfl

theorem polarityCode_of_byte {p : Byte} (h : 0 ≤ n8 p ∧ n8 p ≤ 1) :
    polarityCode (if p = 1 then .activeLow else .activeHigh) = p := by
  obtain ⟨i, hi, rfl⟩ := byte_cases (k := 1) h
  have cases : i = 0 ∨ i = 1 := by omega
  rcases cases with rfl | rfl <;> rfl

theorem policyCode_of_byte {p : Byte} (h : 0 ≤ n8 p ∧ n8 p ≤ 1) :
    policyCode (if p = 1 then .arrival else .fixed) = p := by
  obtain ⟨i, hi, rfl⟩ := byte_cases (k := 1) h
  have cases : i = 0 ∨ i = 1 := by omega
  rcases cases with rfl | rfl <;> rfl

theorem speedCode_of_byte {p : Byte} (h : 0 ≤ n8 p ∧ n8 p ≤ 2) :
    speedCode (if p = 0 then .baud19200 else if p = 1 then .baud38400 else .baud76800) = p := by
  obtain ⟨i, hi, rfl⟩ := byte_cases (k := 2) h
  have cases : i = 0 ∨ i = 1 ∨ i = 2 := by omega
  rcases cases with rfl | rfl | rfl <;> rfl

theorem lineBytes_of_parseLine {b : List Byte} {c : LineCfg} (h : parseLine b = .ok c) :
    c.InRange ∧ lineBytes c = b := by
  unfold parseLine at h
  split at h
  · split at h
    · cases h
    · next hi =>
      cases h
      rw [firstBad_none] at hi
      simp only [List.forall_mem_cons, within_iff, List.not_mem_nil, false_imp_iff, implies_true, and_true] at hi
      obtain ⟨role, polarity, filter⟩ := hi
      refine ⟨?_, ?_⟩
      · unfold n16 at filter
        unfold LineCfg.InRange
        dsimp only
        omega
      · simp only [lineBytes, num16_word, List.cons_append, List.nil_append, roleCode_roleOfCode role,
          polarityCode_of_byte polarity]
  · cases h

theorem towerBytes_of_parseTower {b : List Byte} {c : TowerCfg} (h : parseTower b = .ok c) :
    c.InRange ∧ towerBytes c = b := by
  unfold parseTower at h
  split at h
  · split at h
    · cases h
    · next hi =>
      cases h
      rw [firstBad_none] at hi
      simp only [List.forall_mem_cons, within_iff, List.not_mem_nil, false_imp_iff, implies_true, and_true] at hi
      obtain ⟨reference, tIn, base, k, wind, stale, policy, speed, period⟩ := hi
      refine ⟨?_, ?_⟩
      · simp only [n8, n16] at *
        constructor <;> simp only <;> omega
      · simp only [towerBytes, num16_word, num16_i16, byteOf_toNat, List.cons_append, List.nil_append,
          place_back (n := 8) reference (by decide), policyCode_of_byte policy, speedCode_of_byte speed]
  · cases h

/-- Settles O18. -/
theorem recordsRoundTrip : Obligations.RecordsRoundTrip :=
  ⟨fun _ => parseUnit_unitBytes, fun _ => parseRiser_riserBytes, fun _ => parseStation_stationBytes,
    fun _ => parseLine_lineBytes, fun _ => parseTower_towerBytes, fun _ _ => unitBytes_of_parseUnit,
    fun _ _ => riserBytes_of_parseRiser, fun _ _ => stationBytes_of_parseStation, fun _ _ => lineBytes_of_parseLine,
    fun _ _ => towerBytes_of_parseTower⟩

end Sys2Proof.Machine
end

