-- ==== Sys2Proof/Proofs/Loads.lean ====
section
/-! PROOFS. Proofs/Loads.lean: the LOAD requests and READ_CONFIG (R172, R175, R177, R186). -/

namespace Sys2Proof.Machine

/-! ## The rule of a LOAD request -/

theorem numbered_of_lt {k n : Nat} (h : n < k) : numbered k n = some ⟨n, h⟩ := dif_pos h

theorem numbered_of_le {k n : Nat} (h : k ≤ n) : numbered k n = none := dif_neg (Nat.not_lt.2 h)

theorem loadRecord_error {α : Type} {p : Except Nat α} {i : Nat} (h : p = .error i) (store : α → State → State)
    (s : State) :
    loadRecord p store s = (s, .refuse .outOfRange (byteOf i)) := by
  rw [h]
  rfl

theorem loadRecord_ok {α : Type} {p : Except Nat α} {c : α} (h : p = .ok c) (store : α → State → State) (s : State) :
    loadRecord p store s = (store c s, .accept []) := by
  rw [h]
  rfl

section Item
variable {α : Type} {k : Nat} {parse : List Byte → Except Nat α} {store : Fin k → α → State → State} {b : List Byte}

theorem loadItem_noSuch {n : Byte} (h : k ≤ n.toNat) (s : State) :
    loadItem k parse store (n :: b) s = (s, .refuse .noSuchItem n) := by
  unfold loadItem
  dsimp only
  rw [numbered_of_le h]

theorem loadItem_bad {n : Byte} (h : n.toNat < k) {i : Nat} (hb : parse b = .error i) (s : State) :
    loadItem k parse store (n :: b) s = (s, .refuse .outOfRange (byteOf i)) := by
  unfold loadItem
  dsimp only
  rw [numbered_of_lt h]
  exact loadRecord_error hb _ s

theorem loadItem_ok (hk : k ≤ 256) (i : Fin k) {c : α} (hb : parse b = .ok c) (s : State) :
    loadItem k parse store (byteOf i.val :: b) s = (store i c s, .accept []) := by
  unfold loadItem
  dsimp only
  rw [numbered_byteOf i hk]
  exact loadRecord_ok hb _ s

end Item

/-- A LOAD taken in CONFIG with the length of its record. -/
theorem exec_load {i : Instr}
    {k : ReqKind} {tag : Byte} {body : List Byte} {s t : State} {r : Reply} (h : requestOf i = some (k, tag, body))
    (hk : k.isLoad = true) (hs : s.slp.opState = .config) (ht : s.takes ⟨k.code, tag, body⟩)
    (hl : k.lengthOk body.length = true) (hr : k.rule body s.taken = (t, r)) :
    exec i s = .next (t.answer k.code tag r) := by
  have ho : k.allowed s.slp.opState = true := by
    rw [hs]
    cases k <;> cases hk <;> rfl
  rw [exec_handled h ht hl ho, hr]

/-! ## Records that are loaded (O19) -/

/-- Settles O19: a record within its ranges parses to itself, and the rule stores it. -/
theorem loadStoresTheRecord : Obligations.LoadStoresTheRecord := by
  refine fun s tag hs => ⟨fun u c hc ht => ?unit, fun r c hc ht => ?riser, fun st c hc ht => ?station,
    fun l c hc ht => ?line, fun c hc ht => ?tower⟩
  case unit =>
    exact exec_load (i := .loadUnit _ _) rfl rfl hs ht rfl (loadItem_ok (by decide) u (parseUnit_unitBytes hc) _)
  case riser =>
    exact exec_load (i := .loadRiser _ _) rfl rfl hs ht rfl (loadItem_ok (by decide) r (parseRiser_riserBytes hc) _)
  case station =>
    exact exec_load (i := .loadStation _ _) rfl rfl hs ht rfl
      (loadItem_ok (by decide) st (parseStation_stationBytes hc) _)
  case line =>
    rw [exec_load (i := .loadLine _ _) rfl rfl hs ht rfl (loadItem_ok (by decide) l (parseLine_lineBytes hc) _),
      ← startFilter_eq]
    rfl
  case tower =>
    exact exec_load (i := .loadTower _ _) rfl rfl hs ht rfl (loadRecord_ok (parseTower_towerBytes hc) _ _)

/-! ## Records that are refused (O20) -/

theorem lengthOk_cons {k : ReqKind} {n : Byte} {b : List Byte} {m : Nat} (hb : b.length = m)
    (h : k.lengthOk (m + 1) = true) : k.lengthOk (n :: b).length = true := by
  rw [List.length_cons, hb, h]

theorem firstBad_one_bounds {l : List Bool} {i n : Nat} (hn : l.length = n) (h : firstBad 1 l = some i) :
    1 ≤ i ∧ i ≤ n := by
  have := firstBad_bounds h
  omega

theorem error_of_parseUnit {b : List Byte} {i : Nat} (hb : b.length = 23) (h : parseUnit b = .error i) :
    1 ≤ i ∧ i ≤ 16 := by
  unfold parseUnit at h
  split at h
  · split at h
    · next hi =>
      cases h
      exact firstBad_one_bounds rfl hi
    · cases h
  · next hno => exact (hno _ _ _ _ _ _ _ _ _ _ _ _ _ _ _ _ _ _ _ _ _ _ _ (eq_ofFn_of_length hb)).elim

theorem error_of_parseRiser {b : List Byte} {i : Nat} (hb : b.length = 10) (h : parseRiser b = .error i) :
    1 ≤ i ∧ i ≤ 8 := by
  unfold parseRiser at h
  split at h
  · split at h
    · next hi =>
      cases h
      exact firstBad_one_bounds rfl hi
    · cases h
  · next hno => exact (hno _ _ _ _ _ _ _ _ _ _ (eq_ofFn_of_length hb)).elim

theorem error_of_parseStation {b : List Byte} {i : Nat} (hb : b.length = 3) (h : parseStation b = .error i) :
    1 ≤ i ∧ i ≤ 2 := by
  unfold parseStation at h
  split at h
  · split at h
    · next hi =>
      cases h
      exact firstBad_one_bounds rfl hi
    · cases h
  · next hno => exact (hno _ _ _ (eq_ofFn_of_length hb)).elim

theorem error_of_parseLine {b : List Byte} {i : Nat} (hb : b.length = 4) (h : parseLine b = .error i) :
    1 ≤ i ∧ i ≤ 3 := by
  unfold parseLine at h
  split at h
  · split at h
    · next hi =>
      cases h
      exact firstBad_one_bounds rfl hi
    · cases h
  · next hno => exact (hno _ _ _ _ (eq_ofFn_of_length hb)).elim

theorem error_of_parseTower {b : List Byte} {i : Nat} (hb : b.length = 14) (h : parseTower b = .error i) :
    1 ≤ i ∧ i ≤ 9 := by
  unfold parseTower at h
  split at h
  · split at h
    · next hi =>
      cases h
      exact firstBad_one_bounds rfl hi
    · cases h
  · next hno => exact (hno _ _ _ _ _ _ _ _ _ _ _ _ _ _ (eq_ofFn_of_length hb)).elim

/-- Bytes of no record within its ranges are refused, at one of the record's fields. -/
theorem exists_parse_error {α : Type} {InRange : α → Prop} {bytes : α → List Byte} {parse : List Byte → Except Nat α}
    {b : List Byte} {n : Nat} (hback : ∀ c, parse b = .ok c → InRange c ∧ bytes c = b)
    (hbounds : ∀ i, parse b = .error i → 1 ≤ i ∧ i ≤ n) (hno : ∀ c, InRange c → bytes c ≠ b) :
    ∃ i, 1 ≤ i ∧ i ≤ n ∧ parse b = .error i := by
  cases hp : parse b with
  | error i =>
    obtain ⟨lo, hi⟩ := hbounds i hp
    exact ⟨i, lo, hi, rfl⟩
  | ok c =>
    obtain ⟨hr, hb⟩ := hback c hp
    exact absurd hb (hno c hr)

/-- The checks of a record, where the first that fails is `i` places after the first of the record. -/
theorem firstBad_of_eq {good : List Bool} {i : Nat} (hlt : ∀ j, j < i → good[j]? = some true)
    (hi : good[i]? = some false) {checks : List Bool} (h : checks = good) : firstBad 1 checks = some (i + 1) := by
  rw [h, firstBad_eq_some hlt hi, Nat.add_comm]

/-- Settles O20: the existence of a failing field from the round trip, its index field by field. -/
theorem loadRefusals : Obligations.LoadRefusals := by
  intro s tag n hs
  refine ⟨fun b hb ht => ⟨fun hn => ?unitNo, fun hn hno => ?unit⟩, ?unitIndex,
    fun b hb ht => ⟨fun hn => ?riserNo, fun hn hno => ?riser⟩, ?riserIndex,
    fun b hb ht => ⟨fun hn => ?stationNo, fun hn hno => ?station⟩, ?stationIndex,
    fun b hb ht => ⟨fun hn => ?lineNo, fun hn hno => ?line⟩, ?lineIndex, fun b hb ht hno => ?tower, ?towerIndex⟩
  case unitNo => exact exec_load (i := .loadUnit _ _) rfl rfl hs ht (lengthOk_cons hb rfl) (loadItem_noSuch hn _)
  case unit =>
    obtain ⟨i, lo, hi, hp⟩ := exists_parse_error (fun _ => unitBytes_of_parseUnit) (fun _ => error_of_parseUnit hb) hno
    exact ⟨i, lo, hi,
      exec_load (i := .loadUnit _ _) rfl rfl hs ht (lengthOk_cons hb rfl) (loadItem_bad hn hp _)⟩
  case riserNo => exact exec_load (i := .loadRiser _ _) rfl rfl hs ht (lengthOk_cons hb rfl) (loadItem_noSuch hn _)
  case riser =>
    obtain ⟨i, lo, hi, hp⟩ := exists_parse_error (fun _ => riserBytes_of_parseRiser) (fun _ => error_of_parseRiser hb) hno
    exact ⟨i, lo, hi,
      exec_load (i := .loadRiser _ _) rfl rfl hs ht (lengthOk_cons hb rfl) (loadItem_bad hn hp _)⟩
  case stationNo => exact exec_load (i := .loadStation _ _) rfl rfl hs ht (lengthOk_cons hb rfl) (loadItem_noSuch hn _)
  case station =>
    obtain ⟨i, lo, hi, hp⟩ := exists_parse_error (fun _ => stationBytes_of_parseStation) (fun _ => error_of_parseStation hb) hno
    exact ⟨i, lo, hi,
      exec_load (i := .loadStation _ _) rfl rfl hs ht (lengthOk_cons hb rfl) (loadItem_bad hn hp _)⟩
  case lineNo => exact exec_load (i := .loadLine _ _) rfl rfl hs ht (lengthOk_cons hb rfl) (loadItem_noSuch hn _)
  case line =>
    obtain ⟨i, lo, hi, hp⟩ := exists_parse_error (fun _ => lineBytes_of_parseLine) (fun _ => error_of_parseLine hb) hno
    exact ⟨i, lo, hi,
      exec_load (i := .loadLine _ _) rfl rfl hs ht (lengthOk_cons hb rfl) (loadItem_bad hn hp _)⟩
  case tower =>
    obtain ⟨i, lo, hi, hp⟩ := exists_parse_error (fun _ => towerBytes_of_parseTower) (fun _ => error_of_parseTower hb) hno
    exact ⟨i, lo, hi, exec_load (i := .loadTower _ _) rfl rfl hs ht (by rw [hb]; rfl) (loadRecord_error hp _ _)⟩
  case unitIndex =>
    intro present address riser station sMin defrost window deferLimit missLimit epsilon frost tSp db hm wMax dwell i
      record good hn ht hlt hi
    refine exec_load (i := .loadUnit _ _) rfl rfl hs ht rfl (loadItem_bad hn ?_ _)
    unfold parseUnit
    dsimp only [record, bytesOf, List.cons_append, List.nil_append]
    rw [firstBad_of_eq hlt hi ?_]
    simp only [good, n8, n16, i16, wordOf_bytes, List.cons.injEq, and_true]
    refine ⟨?_, ?_, ?_, ?_, ?_, ?_, ?_, ?_, ?_, ?_, ?_, ?_, ?_, ?_, ?_, ?_⟩
    all_goals exact within_eq_decide (by omega)
  case riserIndex =>
    intro present weight rank quorum hold window settle done i record good hn ht hlt hi
    refine exec_load (i := .loadRiser _ _) rfl rfl hs ht rfl (loadItem_bad hn ?_ _)
    unfold parseRiser
    dsimp only [record, bytesOf, List.cons_append, List.nil_append]
    rw [firstBad_of_eq hlt hi ?_]
    simp only [good, n8, n16, wordOf_bytes, List.cons.injEq, and_true]
    refine ⟨?_, ?_, ?_, ?_, ?_, ?_, ?_, ?_⟩
    all_goals exact within_eq_decide (by omega)
  case stationIndex =>
    intro present maxAge i record good hn ht hlt hi
    refine exec_load (i := .loadStation _ _) rfl rfl hs ht rfl (loadItem_bad hn ?_ _)
    unfold parseStation
    dsimp only [record, bytesOf, List.cons_append, List.nil_append]
    rw [firstBad_of_eq hlt hi ?_]
    simp only [good, n8, n16, wordOf_bytes, List.cons.injEq, and_true]
    refine ⟨?_, ?_⟩
    all_goals exact within_eq_decide (by omega)
  case lineIndex =>
    intro role polarity filter i record good hn ht hlt hi
    refine exec_load (i := .loadLine _ _) rfl rfl hs ht rfl (loadItem_bad hn ?_ _)
    unfold parseLine
    dsimp only [record, bytesOf, List.cons_append, List.nil_append]
    rw [firstBad_of_eq hlt hi ?_]
    simp only [good, n8, n16, wordOf_bytes, List.cons.injEq, and_true]
    refine ⟨?_, ?_, ?_⟩
    all_goals exact within_eq_decide (by omega)
  case towerIndex =>
    intro reference policy speed period tIn bBase k wind stale i record good ht hlt hi
    refine exec_load (i := .loadTower _ _) rfl rfl hs ht rfl (loadRecord_error ?_ _ _)
    unfold parseTower
    dsimp only [record, bytesOf, List.cons_append, List.nil_append]
    rw [firstBad_of_eq hlt hi ?_]
    simp only [good, n8, n16, i16, wordOf_bytes, List.cons.injEq, and_true]
    refine ⟨?_, ?_, ?_, ?_, ?_, ?_, ?_, ?_, ?_⟩
    all_goals exact within_eq_decide (by omega)

/-! ## READ_CONFIG (O21) -/

theorem readRecord_item {k : Nat} (hk : k ≤ 256) (bytes : Fin k → List Byte) (table : Byte) (i : Fin k) :
    readRecord k bytes table (byteOf i.val) = .accept (table :: byteOf i.val :: bytes i) := by
  rw [readRecord, numbered_byteOf i hk]

theorem readRecord_noSuch {k : Nat} (bytes : Fin k → List Byte) (table : Byte) {index : Byte} (h : k ≤ index.toNat) :
    readRecord k bytes table index = .refuse .noSuchItem index := by
  rw [readRecord, numbered_of_le h]

theorem configReply_one (s : State) (i : Byte) :
    s.configReply [1, i] = readRecord 24 (fun u => unitBytes (s.unit u).cfg) 1 i := rfl

theorem configReply_two (s : State) (i : Byte) :
    s.configReply [2, i] = readRecord 6 (fun r => riserBytes (s.riser r).cfg) 2 i := rfl

theorem configReply_three (s : State) (i : Byte) :
    s.configReply [3, i] = readRecord 8 (fun st => stationBytes (s.station st).cfg) 3 i := rfl

theorem configReply_four (s : State) (i : Byte) :
    s.configReply [4, i] = readRecord 6 (fun l => lineBytes (s.line l).cfg) 4 i := rfl

theorem configReply_five (s : State) (i : Byte) :
    s.configReply [5, i] = readRecord 1 (fun _ => towerBytes s.tower) 5 i := rfl

/-- READ_CONFIG is answered in every operating state. -/
theorem exec_readConfig {s : State} {tag table index : Byte} (ht : s.takes ⟨0x06, tag, [table, index]⟩) {r : Reply}
    (hr : s.taken.configReply [table, index] = r) :
    exec (.readConfig tag [table, index]) s = .next (s.taken.answer 0x06 tag r) := by
  rw [exec_handled (i := .readConfig tag [table, index]) rfl ht rfl rfl, ← hr]
  rfl

/-- Settles O21: one table a case. -/
theorem readConfigReturnsTheRecord : Obligations.ReadConfigReturnsTheRecord := by
  refine fun s tag => ⟨fun u ht => exec_readConfig ht ?_, fun r ht => exec_readConfig ht ?_,
    fun st ht => exec_readConfig ht ?_, fun l ht => exec_readConfig ht ?_, fun ht => exec_readConfig ht rfl,
    fun table index ht h => exec_readConfig ht ?code, fun table index ht h => exec_readConfig ht ?index⟩
  · exact (configReply_one ..).trans (readRecord_item (by decide) _ _ u)
  · exact (configReply_two ..).trans (readRecord_item (by decide) _ _ r)
  · exact (configReply_three ..).trans (readRecord_item (by decide) _ _ st)
  · exact (configReply_four ..).trans (readRecord_item (by decide) _ _ l)
  case code =>
    have ne : ∀ c : Byte, 1 ≤ c.toNat ∧ c.toNat ≤ 5 → table ≠ c := by
      rintro _ hc rfl
      omega
    unfold State.configReply
    dsimp only
    rw [if_neg (ne 1 (by decide)), if_neg (ne 2 (by decide)), if_neg (ne 3 (by decide)), if_neg (ne 4 (by decide)),
      if_neg (ne 5 (by decide))]
  case index =>
    rcases h with ⟨rfl, h⟩ | ⟨rfl, h⟩ | ⟨rfl, h⟩ | ⟨rfl, h⟩ | ⟨rfl, h⟩
    · exact (configReply_one ..).trans (readRecord_noSuch _ _ h)
    · exact (configReply_two ..).trans (readRecord_noSuch _ _ h)
    · exact (configReply_three ..).trans (readRecord_noSuch _ _ h)
    · exact (configReply_four ..).trans (readRecord_noSuch _ _ h)
    · exact (configReply_five ..).trans (readRecord_noSuch _ _ h)

end Sys2Proof.Machine
end

