-- ==== Sys2Proof/Proofs/RunStart.lean ====
section
/-! PROOFS. Proofs/RunStart.lean: the checks of START_RUN, and what a run begins and ends with (R174, R178 to R180). -/

namespace Sys2Proof.Machine

/-! ## The checks of START_RUN (R178) -/

section Checks
variable {n : Nat} {base : Nat} {bad : Fin n → Bool}

theorem firstFailing_eq_none : firstFailing base bad = none ↔ ∀ i, bad i = false := by
  rw [firstFailing, Option.map_eq_none_iff, find_fins_eq_none]

theorem firstFailing_eq_some {i : Fin n} (h : bad i = true) (hlt : ∀ j, j < i → bad j = false) :
    firstFailing base bad = some (base + i.val) := by
  rw [firstFailing, find_fins_eq_some bad i h hlt]
  rfl

end Checks

/-- Check 2: the unit's riser is absent. -/
def State.riserAbsent (s : State) (u : UnitNo) : Bool :=
  (s.unit u).cfg.present && !(s.riser (s.unit u).cfg.riser).cfg.present

/-- Check 3: the unit's station is absent. -/
def State.stationAbsent (s : State) (u : UnitNo) : Bool :=
  (s.unit u).cfg.present && !(s.station (s.unit u).cfg.station).cfg.present

/-- Check 4: the unit's field address is that of a lower one. -/
def State.addressShared (s : State) (u : UnitNo) : Bool := (s.unit u).cfg.present && s.addressTaken u

/-- Check 5: the riser has no member or more than eight. -/
def State.wrongSize (s : State) (r : RiserNo) : Bool :=
  (s.riser r).cfg.present && !(decide (1 ≤ (s.members r).length) && decide ((s.members r).length ≤ 8))

/-- Check 6: the riser's quorum exceeds its members. -/
def State.quorumHigh (s : State) (r : RiserNo) : Bool :=
  (s.riser r).cfg.present && decide ((s.members r).length < (s.riser r).cfg.quorum)

section
variable {s : State}

theorem riserAbsent_eq_false {u : UnitNo} : s.riserAbsent u = false ↔
    ((s.unit u).cfg.present = true → (s.riser (s.unit u).cfg.riser).cfg.present = true) := by
  simp [State.riserAbsent]

theorem stationAbsent_eq_false {u : UnitNo} : s.stationAbsent u = false ↔
    ((s.unit u).cfg.present = true → (s.station (s.unit u).cfg.station).cfg.present = true) := by
  simp [State.stationAbsent]

theorem addressTaken_iff {u : UnitNo} : s.addressTaken u = true ↔
    ∃ v, v < u ∧ (s.unit v).cfg.present = true ∧ (s.unit v).cfg.address = (s.unit u).cfg.address := by
  simp [State.addressTaken, mem_fins, and_assoc]

theorem addressShared_eq_false {u : UnitNo} : s.addressShared u = false ↔ ((s.unit u).cfg.present = true →
    ¬ ∃ v, v < u ∧ (s.unit v).cfg.present = true ∧ (s.unit v).cfg.address = (s.unit u).cfg.address) := by
  rw [← addressTaken_iff, State.addressShared]
  simp

theorem wrongSize_eq_false {r : RiserNo} : s.wrongSize r = false ↔
    ((s.riser r).cfg.present = true → 1 ≤ (s.members r).length ∧ (s.members r).length ≤ 8) := by
  simp [State.wrongSize]

theorem quorumHigh_eq_false {r : RiserNo} : s.quorumHigh r = false ↔
    ((s.riser r).cfg.present = true → (s.riser r).cfg.quorum ≤ (s.members r).length) := by
  simp [State.quorumHigh]

theorem presentUnits_isEmpty : s.presentUnits.isEmpty = true ↔ ∀ u, (s.unit u).cfg.present = false := by
  simp [State.presentUnits, List.filter_eq_nil_iff, mem_fins]

theorem configProblem_of_no_unit (h : ∀ u, (s.unit u).cfg.present = false) : s.configProblem = some 0x00 :=
  if_pos (presentUnits_isEmpty.2 h)

/-- The checks after the first, in their order. -/
theorem configProblem_of_unit {u : UnitNo} (h : (s.unit u).cfg.present = true) : s.configProblem =
    (firstFailing 0x40 s.riserAbsent).or ((firstFailing 0x60 s.stationAbsent).or ((firstFailing 0x80 s.addressShared).or
      ((firstFailing 0xA0 s.wrongSize).or ((firstFailing 0xB0 s.quorumHigh).or
        (if (s.station s.tower.reference).cfg.present then none else some 0xC0))))) := by
  refine if_neg fun e => ?_
  rw [presentUnits_isEmpty.1 e u] at h
  cases h

theorem configProblem_riserAbsent {u : UnitNo} (h : s.riserAbsent u = true) (hlt : ∀ v, v < u → s.riserAbsent v = false) :
    s.configProblem = some (0x40 + u.val) := by
  have present : (s.unit u).cfg.present = true := (Bool.and_eq_true_iff.1 h).1
  rw [configProblem_of_unit present, firstFailing_eq_some h hlt, Option.some_or]

theorem configProblem_stationAbsent {u : UnitNo} (risers : ∀ v, s.riserAbsent v = false) (h : s.stationAbsent u = true)
    (hlt : ∀ v, v < u → s.stationAbsent v = false) : s.configProblem = some (0x60 + u.val) := by
  have present : (s.unit u).cfg.present = true := (Bool.and_eq_true_iff.1 h).1
  rw [configProblem_of_unit present, firstFailing_eq_none.2 risers, Option.none_or, firstFailing_eq_some h hlt,
    Option.some_or]

theorem configProblem_addressShared {u : UnitNo} (risers : ∀ v, s.riserAbsent v = false)
    (stations : ∀ v, s.stationAbsent v = false) (h : s.addressShared u = true)
    (hlt : ∀ v, v < u → s.addressShared v = false) : s.configProblem = some (0x80 + u.val) := by
  have present : (s.unit u).cfg.present = true := (Bool.and_eq_true_iff.1 h).1
  rw [configProblem_of_unit present, firstFailing_eq_none.2 risers, Option.none_or, firstFailing_eq_none.2 stations,
    Option.none_or, firstFailing_eq_some h hlt, Option.some_or]

/-- Where the checks on the units pass, the risers and the reference station decide. -/
theorem configProblem_of_units {u : UnitNo} (h : (s.unit u).cfg.present = true) (risers : ∀ v, s.riserAbsent v = false)
    (stations : ∀ v, s.stationAbsent v = false) (addresses : ∀ v, s.addressShared v = false) : s.configProblem =
    (firstFailing 0xA0 s.wrongSize).or ((firstFailing 0xB0 s.quorumHigh).or
      (if (s.station s.tower.reference).cfg.present then none else some 0xC0)) := by
  rw [configProblem_of_unit h, firstFailing_eq_none.2 risers, Option.none_or, firstFailing_eq_none.2 stations,
    Option.none_or, firstFailing_eq_none.2 addresses, Option.none_or]

theorem configProblem_eq_none : s.configProblem = none ↔ (∃ u, (s.unit u).cfg.present = true) ∧
    (∀ u, s.riserAbsent u = false) ∧ (∀ u, s.stationAbsent u = false) ∧ (∀ u, s.addressShared u = false) ∧
    (∀ r, s.wrongSize r = false) ∧ (∀ r, s.quorumHigh r = false) ∧
    (s.station s.tower.reference).cfg.present = true := by
  by_cases unit : ∃ u, (s.unit u).cfg.present = true
  · obtain ⟨u, hu⟩ := unit
    simp only [configProblem_of_unit hu, Option.or_eq_none_iff, firstFailing_eq_none, ite_eq_left_iff, reduceCtorEq,
      imp_false, Decidable.not_not]
    exact ⟨fun h => ⟨⟨u, hu⟩, h⟩, fun h => h.2⟩
  · have no (u) : (s.unit u).cfg.present = false := Bool.eq_false_iff.2 fun h => unit ⟨u, h⟩
    rw [configProblem_of_no_unit no]
    exact ⟨fun h => (by cases h), fun h => absurd h.1 unit⟩

end

theorem runMode_eq_none {m : Byte} (h1 : m ≠ 1) (h2 : m ≠ 2) : runMode m = none := by
  rw [runMode, if_neg h1, if_neg h2]

theorem startRun_wrongMode {m : Byte} (h : runMode m = none) (s : State) :
    State.startRun [m] s = (s, .refuse .outOfRange 1) := by
  unfold State.startRun
  dsimp only
  rw [h]

theorem startRun_refused {m : Byte} {o : OpState} {s : State} {code : Nat} (h : runMode m = some o)
    (hc : s.configProblem = some code) : State.startRun [m] s = (s, .refuse .configInvalid (byteOf code)) := by
  unfold State.startRun
  dsimp only
  rw [h]
  dsimp only
  rw [hc]

theorem startRun_accepted {m : Byte} {o : OpState} {s : State} (h : runMode m = some o) (hc : s.configProblem = none) :
    State.startRun [m] s = ((s.beginRun o).grantOnWork, .accept [opStateCode o]) := by
  unfold State.startRun
  dsimp only
  rw [h]
  dsimp only
  rw [hc]

theorem exec_startRun {s t : State} {tag m : Byte} {r : Reply} (hs : s.slp.opState = .config)
    (ht : s.takes ⟨0x10, tag, [m]⟩) (h : State.startRun [m] s.taken = (t, r)) :
    exec (.startRun tag [m]) s = .next (t.answer 0x10 tag r) := by
  have allowed : ReqKind.startRun.allowed s.slp.opState = true := by rw [hs]; rfl
  rw [exec_handled (i := .startRun tag [m]) rfl ht rfl allowed, ReqKind.rule, h]
  rfl

/-- Settles O22: each check by what it lets pass, in the order of the checks. -/
theorem startRunRefusals : Obligations.StartRunRefusals := by
  refine ⟨fun s => ⟨?passes, configProblem_of_no_unit, fun u hu hr hlt => ?riser, fun u risers hu hst hlt => ?station⟩,
    ?later, fun s tag m hs ht => ⟨fun h1 h2 => ?mode, fun code hm hc => ?invalid⟩⟩
  case passes =>
    simp only [configProblem_eq_none, riserAbsent_eq_false, stationAbsent_eq_false, addressShared_eq_false,
      wrongSize_eq_false, quorumHigh_eq_false]
    constructor
    · rintro ⟨unit, risers, stations, addresses, sizes, quorums, reference⟩
      exact ⟨unit, fun u hu => ⟨risers u hu, stations u hu, fun v hv pv e => addresses u hu ⟨v, hv, pv, e⟩⟩,
        fun r hr => ⟨(sizes r hr).1, (sizes r hr).2, quorums r hr⟩, reference⟩
    · rintro ⟨unit, units, risers, reference⟩
      refine ⟨unit, fun u hu => (units u hu).1, fun u hu => (units u hu).2.1, fun u hu ⟨v, hv, pv, e⟩ => ?_,
        fun r hr => ⟨(risers r hr).1, (risers r hr).2.1⟩, fun r hr => (risers r hr).2.2, reference⟩
      exact (units u hu).2.2 v hv pv e
  case riser =>
    refine configProblem_riserAbsent ?_ fun v hv => riserAbsent_eq_false.2 (hlt v hv)
    rw [State.riserAbsent, hu, hr]
    rfl
  case station =>
    refine configProblem_stationAbsent (fun v => riserAbsent_eq_false.2 (risers v)) ?_ fun v hv =>
      stationAbsent_eq_false.2 (hlt v hv)
    rw [State.stationAbsent, hu, hst]
    rfl
  case later =>
    intro s named taken apart sized
    refine ⟨fun u hn hu ht hlt => ?address, fun ⟨u, hu⟩ hn ha => ?risers⟩
    case address =>
      refine configProblem_addressShared (fun v => riserAbsent_eq_false.2 fun h => (hn v h).1)
        (fun v => stationAbsent_eq_false.2 fun h => (hn v h).2) ?_ fun v hv => addressShared_eq_false.2 (hlt v hv)
      rw [State.addressShared, hu, addressTaken_iff.2 ht]
      rfl
    case risers =>
      rw [configProblem_of_units hu (fun v => riserAbsent_eq_false.2 fun h => (hn v h).1)
        (fun v => stationAbsent_eq_false.2 fun h => (hn v h).2) fun v => addressShared_eq_false.2 (ha v)]
      refine ⟨fun r hr hsz hlt => ?_, fun sizes => ?_⟩
      · have wrong : s.wrongSize r = true := by
          rw [← Bool.not_eq_false, wrongSize_eq_false]
          exact fun h => hsz (h hr)
        rw [firstFailing_eq_some wrong fun q hq => wrongSize_eq_false.2 (hlt q hq), Option.some_or]
      · rw [firstFailing_eq_none.2 fun r => wrongSize_eq_false.2 (sizes r), Option.none_or]
        refine ⟨fun r hr hq hlt => ?_, fun quorums reference => ?_⟩
        · have high : s.quorumHigh r = true := by
            rw [State.quorumHigh, hr, decide_eq_true hq]
            rfl
          rw [firstFailing_eq_some high fun q hq => quorumHigh_eq_false.2 (hlt q hq), Option.some_or]
        · rw [firstFailing_eq_none.2 fun r => quorumHigh_eq_false.2 (quorums r), Option.none_or, reference]
          rfl
  case mode => exact exec_startRun hs ht (startRun_wrongMode (runMode_eq_none h1 h2) _)
  case invalid =>
    rcases hm with rfl | rfl
    · exact exec_startRun hs ht (startRun_refused (o := .advise) rfl hc)
    · exact exec_startRun hs ht (startRun_refused (o := .coordinate) rfl hc)

/-! ## The beginning of a run (R179) -/

theorem foldl_formMembers (l : List RiserNo) : ∀ s : State, l.foldl State.formMembers s =
    { s with risers := (l.foldl State.formMembers s).risers } := by
  induction l with
  | nil => exact fun _ => rfl
  | cons r l ih => exact fun s => ih (s.formMembers r)

/-- The member counts after they are formed for the risers of a list. -/
theorem riser_foldl_formMembers (l : List RiserNo) (r : RiserNo) : ∀ s : State, (l.foldl State.formMembers s).riser r =
    if r ∈ l then
      { s.riser r with live := { (s.riser r).live with memberCount := (s.members r).length } }
    else s.riser r := by
  induction l with
  | nil => exact fun _ => rfl
  | cons q l ih =>
    intro s
    have one : (s.formMembers q).riser r = if q = r then
        { s.riser r with live := { (s.riser r).live with memberCount := (s.members r).length } } else s.riser r := by
      rw [State.formMembers, State.modLive, modRiser_riser]
      split
      · next e => rw [e]
      · rfl
    have members : (s.formMembers q).members r = s.members r := rfl
    rw [List.foldl_cons, ih, one, members]
    by_cases hq : q = r
    · subst hq
      simp
    · simp [hq, Ne.symm hq]

theorem recompute_eq_self {s : State} (h : s.budgetNow = s.sba.bEff) : s.recompute = s := if_pos h

/-- The state from which a run forms its member counts: the live records cleared, the FLC at its run start (R179). -/
def State.atRunStart (o : OpState) (s : State) : State :=
  ((s.modSlp fun p => { p with opState := o }).modFlc fun f => f.runStart s.tower.speed).clearLive

section
variable (o : OpState) (s : State)

theorem unit_clearLive (u : UnitNo) : s.clearLive.unit u = { cfg := (s.unit u).cfg } := mapTable_get ..

theorem station_clearLive (st : StationNo) : s.clearLive.station st = { cfg := (s.station st).cfg } := mapTable_get ..

theorem riser_clearLive (r : RiserNo) : s.clearLive.riser r = { cfg := (s.riser r).cfg } := mapTable_get ..

theorem members_clearLive (r : RiserNo) : s.clearLive.members r = s.members r := by
  simp only [State.members, unit_clearLive]

/-- The budget 0 of a reference station without a reading is the cleared one: the recompute at run start changes
nothing. -/
theorem beginRun_eq :
    s.beginRun o = (s.atRunStart o).presentRisers.foldl State.formMembers (s.atRunStart o) := by
  refine recompute_eq_self ?_
  rw [foldl_formMembers]
  refine effectiveBudget_none _ _ ?_
  exact congrArg (·.live.status) (station_clearLive (s.modFlc fun f => f.runStart s.tower.speed) s.tower.reference)

theorem beginRun_frame : s.beginRun o = { s.atRunStart o with risers := (s.beginRun o).risers } := by
  rw [beginRun_eq]
  exact foldl_formMembers ..

theorem unit_beginRun (u : UnitNo) : (s.beginRun o).unit u = { cfg := (s.unit u).cfg } := by
  rw [beginRun_frame]
  exact unit_clearLive s u

theorem station_beginRun (st : StationNo) : (s.beginRun o).station st = { cfg := (s.station st).cfg } := by
  rw [beginRun_frame]
  exact station_clearLive s st

theorem riser_beginRun (r : RiserNo) : (s.beginRun o).riser r =
    { cfg := (s.riser r).cfg
      live := { memberCount := if (s.riser r).cfg.present = true then (s.members r).length else 0 } } := by
  have riser (q : RiserNo) : (s.atRunStart o).riser q = { cfg := (s.riser q).cfg } := riser_clearLive s q
  have members : (s.atRunStart o).members r = s.members r := members_clearLive s r
  rw [beginRun_eq, riser_foldl_formMembers, State.presentRisers, members]
  simp only [List.mem_filter, mem_fins, true_and, riser]
  split <;> rfl

theorem ctx_beginRun (r : RiserNo) : (s.beginRun o).ctx r = none := by
  rw [beginRun_frame]
  exact ctx_empty s.ce.tagCounter s r

theorem flc_beginRun : (s.beginRun o).flc = s.flc.runStart s.tower.speed := by
  rw [beginRun_frame]
  rfl

end

/-! ## The first grant of a run -/

theorem nextRiser_eq_none {s : State} (h : ∀ r, s.ctx r = none) : s.nextRiser = none := by
  refine List.find?_eq_none.2 fun r _ => ?_
  rw [State.ctxHasWork, h r]
  exact Bool.false_ne_true

/-- Only the poll has work where no context, command or mail waits. -/
theorem workingClasses_poll {s : State} (hr : ∀ r, s.ctx r = none) (hc : s.flc.commands = []) (hm : s.flc.mail = {}) :
    s.workingClasses = if s.hasWork .poll then [.poll] else [] := by
  have changeover : s.hasWork .changeover = false := by rw [State.hasWork, nextRiser_eq_none hr]; rfl
  have command : s.hasWork .command = false := by rw [State.hasWork, hc]; exact Bool.and_false _
  have mail : s.hasWork .mail = false := by rw [State.hasWork, hm]; rfl
  rw [State.workingClasses]
  simp only [List.filter_cons, changeover, command, mail, List.filter_nil, Bool.false_eq_true, if_false]

/-- No free choice is made where at most one class has work. -/
theorem grantOnWork_of_one {s : State} (h : s.workingClasses.length < 2) : s.grantOnWork = s.grantNext :=
  if_neg fun e => absurd e.2.2.2 (Nat.not_le.2 h)

section
variable {s : State} (hr : ∀ r, s.ctx r = none) (hc : s.flc.commands = []) (hm : s.flc.mail = {})
include hr hc hm

theorem grantOnWork_poll : s.grantOnWork = s.grantNext := by
  refine grantOnWork_of_one ?_
  rw [workingClasses_poll hr hc hm]
  split <;> decide

theorem nextClass_poll : s.nextClass = if s.hasWork .poll then some .poll else none := by
  rw [State.nextClass, workingClasses_poll hr hc hm]
  by_cases h : s.hasWork .poll = true
  · simp [h]
  · simp [h]

/-- The grant then changes the FLC only. -/
theorem grantNext_poll_frame : ∃ f, s.grantNext = { s with flc := f } := by
  unfold State.grantNext
  rw [nextClass_poll hr hc hm]
  split
  · exact ⟨_, rfl⟩
  · split
    · exact ⟨_, rfl⟩
    · split
      · by_cases h : s.hasWork .poll = true
        · rw [if_pos h]
          dsimp only [State.grant, State.grantClass]
          unfold State.grantPoll
          split
          · exact ⟨_, rfl⟩
          · exact ⟨_, rfl⟩
        · rw [if_neg h]
          exact ⟨_, rfl⟩
      · exact ⟨_, rfl⟩

theorem grantNext_poll {u : UnitNo} (hl : s.flc.link = none) (ho : s.flc.releaseOwed = none) (hs : s.running = true)
    (hp : s.nextPoll = some u) : s.grantNext = s.grant .poll := by
  have work : s.hasWork .poll = true := by rw [State.hasWork, hp]; rfl
  unfold State.grantNext
  rw [hl, ho, if_neg (by decide)]
  dsimp only
  rw [if_pos hs, nextClass_poll hr hc hm, if_pos work]

end

/-- The first unit that qualifies at or after the cursor is polled next. -/
theorem nextPoll_eq_some {s : State} {u : UnitNo} (hs : s.flc.sweep.running = true) (hc : s.flc.sweep.cursor ≤ u.val)
    (hq : s.qualifies u = true) (hlt : ∀ v, v < u → s.flc.sweep.cursor ≤ v.val → s.qualifies v = false) :
    s.nextPoll = some u := by
  rw [State.nextPoll, if_pos hs]
  refine find_fins_eq_some _ _ ?_ fun v hv => ?_
  · rw [decide_eq_true hc, hq]
    rfl
  · by_cases hcv : s.flc.sweep.cursor ≤ v.val
    · rw [hlt v hv hcv, Bool.and_false]
    · rw [decide_eq_false hcv, Bool.false_and]

theorem guaranteeAfter_poll (b : Bool) (n : Nat) : guaranteeAfter b .poll n = 0 := by
  cases b <;> rfl

theorem grantPoll_of_next {s : State} {u : UnitNo} (h : s.nextPoll = some u) : s.grantPoll =
    (s.beginUnicast (pollFrame (s.unit u).cfg.address) .sweep u).modFlc fun f =>
      { f with sweep := { f.sweep with cursor := u.val + 1 } } := by
  rw [State.grantPoll, h]

/-- The grant of a poll: the unit is polled and the cursor moves past it (R139, R140). -/
theorem grant_poll {s : State} {u : UnitNo} (h : s.nextPoll = some u) : s.grant .poll =
    s.modFlc fun f =>
      { f with
        link := some
          { frame := pollFrame (s.unit u).cfg.address, requester := .sweep, unit := some u, speed := f.latchedSpeed }
        guarantee := 0
        sweep := { f.sweep with cursor := u.val + 1 } } := by
  refine (grantPoll_of_next (s := s.modFlc _) (u := u) ?_).trans ?_
  · exact h
  · simp only [guaranteeAfter_poll]
    rfl

/-- Settles O23: the state after `beginRun` field by field, then the first poll. -/
theorem startRunBeginsARun : Obligations.StartRunBeginsARun := by
  intro s tag o ho hs ht hc
  have mode : runMode (opStateCode o) = some o := by
    cases o with
    | config => exact absurd rfl ho
    | advise | coordinate => rfl
  have started := exec_startRun hs ht (startRun_accepted mode hc)
  have commands : (s.taken.beginRun o).flc.commands = [] := by rw [flc_beginRun]; rfl
  have mail : (s.taken.beginRun o).flc.mail = {} := by rw [flc_beginRun]; rfl
  have ctx := ctx_beginRun o s.taken
  rw [grantOnWork_poll ctx commands mail] at started
  obtain ⟨f, hf⟩ := grantNext_poll_frame ctx commands mail
  have frame := beginRun_frame o s.taken
  refine ⟨_, started, ?_, ?_, ?_, ?_, ?_, fun u => ?_, fun st => ?_, fun r => ?_, ?_, fun r => ?_, ?_, fun hl => ?busy,
    fun u hu hlt hl hw => ?poll⟩
  case busy =>
    have busy : (s.taken.beginRun o).flc.link.isSome = true := by
      rw [flc_beginRun]
      exact Option.isSome_iff_ne_none.2 hl
    rw [grantNext_of_busy busy, flc_beginRun]
    rfl
  case poll =>
    have qualifies (v : UnitNo) : (s.taken.beginRun o).qualifies v = (s.unit v).cfg.present := by
      rw [State.qualifies, unit_beginRun]
      exact Bool.and_true _
    have next : (s.taken.beginRun o).nextPoll = some u := by
      refine nextPoll_eq_some ?_ ?_ ?_ fun v hv _ => ?_
      · rw [flc_beginRun]; rfl
      · rw [flc_beginRun]; exact Nat.zero_le _
      · rw [qualifies, hu]
      · rw [qualifies, hlt v hv]
    have link : (s.taken.beginRun o).flc.link = none := by rw [flc_beginRun]; exact hl
    have owed : (s.taken.beginRun o).flc.releaseOwed = none := by rw [flc_beginRun]; exact hw
    have running : (s.taken.beginRun o).running = true := by
      rw [frame]
      exact bne_iff_ne.2 ho
    rw [grantNext_poll ctx commands mail link owed running next, grant_poll next, unit_beginRun, State.modFlc,
      flc_beginRun]
    dsimp only [Flc.runStart]
    rw [show s.taken.flc.releaseOwed = none from hw]
    rfl
  all_goals rw [hf]
  · rw [frame]
    rfl
  · rw [frame]
    rfl
  · rw [frame]
    rfl
  · rw [frame]
    rfl
  · rw [frame]
    rfl
  · exact unit_beginRun o s.taken u
  · exact station_beginRun o s.taken st
  · exact riser_beginRun o s.taken r
  · rw [frame]
    rfl
  · exact ctx r
  · rw [frame]
    rfl

/-! ## The end of a run (R145, R180) -/

theorem exec_stopRun {s : State} {tag : Byte} (hs : s.slp.opState ≠ .config) (ht : s.takes ⟨0x11, tag, []⟩) :
    exec (.stopRun tag []) s =
      .next (s.taken.endRun.grantNext.answer 0x11 tag (.accept [opStateCode s.slp.opState])) := by
  have allowed : ReqKind.stopRun.allowed s.slp.opState = true := bne_iff_ne.2 hs
  rw [exec_handled (i := .stopRun tag []) rfl ht rfl allowed, ← grantOnWork_of_not_running (s := s.taken.endRun) rfl]
  rfl

theorem grantNext_stopped_of_release {s : State} {v : LinkSpeed} (hl : s.flc.link = none) (ho : s.flc.releaseOwed = some v) :
    s.grantNext = s.sendRelease v := by
  unfold State.grantNext
  rw [hl, ho]
  rfl

theorem grantNext_stopped {s : State} (hr : s.running = false) (hl : s.flc.link = none) (ho : s.flc.releaseOwed = none) :
    s.grantNext = s := by
  unfold State.grantNext
  rw [hl, ho, hr]
  rfl

/-- What the grant after a run changes: the link and the RELEASE owed. -/
theorem grantNext_stopped_frame {s : State} (hr : s.running = false) :
    ∃ l o, s.grantNext = s.modFlc fun f => { f with link := l, releaseOwed := o } := by
  by_cases hl : s.flc.link = none
  · cases ho : s.flc.releaseOwed with
    | none => exact ⟨_, _, grantNext_stopped hr hl ho⟩
    | some v => exact ⟨_, _, grantNext_stopped_of_release hl ho⟩
  · exact ⟨_, _, grantNext_of_busy (Option.isSome_iff_ne_none.2 hl)⟩

theorem releaseAfterStop_of_owed {o : OpState} {f : Flc} {v : LinkSpeed} (h : f.releaseOwed = some v) :
    releaseAfterStop o f = some v := by rw [releaseAfterStop, h]

theorem releaseAfterStop_of_none {o : OpState} {f : Flc} (h : f.releaseOwed = none) :
    releaseAfterStop o f = if o = .coordinate then some f.latchedSpeed else none := by rw [releaseAfterStop, h]

/-- Settles O24: the state after `endRun` field by field, then the RELEASE. -/
theorem stopRunEndsTheRun : Obligations.StopRunEndsTheRun := by
  intro s tag hs ht
  obtain ⟨l, o, hf⟩ := grantNext_stopped_frame (s := s.taken.endRun) rfl
  have link : s.taken.endRun.flc.link = s.flc.link.map fun t => { t with heeded := false } := rfl
  have owed : s.taken.endRun.flc.releaseOwed = releaseAfterStop s.slp.opState s.flc := rfl
  refine ⟨_, exec_stopRun hs ht, ?_, ?_, ?_, ?_, ?_, fun u => ?_, fun st => ?_, fun r => ?_, ?_, fun r => ?_, ?_, ?_, ?_, ?_,
    ?_, ?_, ?_, ?_, fun x hx => ?busy, fun hl ho hc => ?release, fun hl ho hc => ?idle⟩
  case busy =>
    have linked : s.taken.endRun.flc.link = some { x with heeded := false } := by rw [link, hx]; rfl
    rw [grantNext_of_busy (by rw [linked]; rfl), linked, owed]
    exact ⟨rfl, releaseAfterStop_of_none, fun v => releaseAfterStop_of_owed⟩
  case release =>
    have free : s.taken.endRun.flc.link = none := by rw [link, hl]; rfl
    have due : s.taken.endRun.flc.releaseOwed = some s.flc.latchedSpeed := by
      rw [owed, releaseAfterStop_of_none ho, if_pos hc]
    rw [grantNext_stopped_of_release free due]
    exact ⟨rfl, rfl⟩
  case idle =>
    have free : s.taken.endRun.flc.link = none := by rw [link, hl]; rfl
    have notDue : s.taken.endRun.flc.releaseOwed = none := by
      rw [owed, releaseAfterStop_of_none ho, hc]
      rfl
    rw [grantNext_stopped rfl free notDue]
    exact ⟨notDue, free⟩
  all_goals rw [hf]
  · rfl
  · rfl
  · rfl
  · rfl
  · rfl
  · exact unit_clearLive s u
  · exact station_clearLive s st
  · exact riser_clearLive s r
  · rfl
  · exact ctx_empty s.ce.tagCounter s r
  all_goals rfl

end Sys2Proof.Machine
end

