-- ==== Sys2Proof/Proofs/RunRequests.lean ====
section
/-! PROOFS. Proofs/RunRequests.lean: the requests that act on a run: STATION_READING, SET_SETPOINT, SET_OVERRIDE and the
items they name (R3, R12, R13, R43 to R45). -/

namespace Sys2Proof.Machine

/-- A request taken with a length and in a state that the catalogue allows, by what its rule gives. -/
theorem exec_of_rule {i : Instr} {k : ReqKind} {tag : Byte} {body : List Byte} {s t : State} {r : Reply}
    (h : requestOf i = some (k, tag, body)) (ht : s.takes ⟨k.code, tag, body⟩) (hl : k.lengthOk body.length = true)
    (ho : k.allowed s.slp.opState = true) (hr : k.rule body s.taken = (t, r)) :
    exec i s = .next (t.answer k.code tag r) := by
  rw [exec_handled h ht hl ho, hr]

/-! ## The items a request names -/

section Named
variable {s : State}

theorem namedUnit_byteOf {u : UnitNo} (h : (s.unit u).cfg.present = true) : s.namedUnit (byteOf u.val) = some u := by
  rw [State.namedUnit, numbered_byteOf u (by decide), Option.filter_some, if_pos h]

theorem namedRiser_byteOf {r : RiserNo} (h : (s.riser r).cfg.present = true) : s.namedRiser (byteOf r.val) = some r := by
  rw [State.namedRiser, numbered_byteOf r (by decide), Option.filter_some, if_pos h]

theorem namedStation_byteOf {st : StationNo} (h : (s.station st).cfg.present = true) :
    s.namedStation (byteOf st.val) = some st := by
  rw [State.namedStation, numbered_byteOf st (by decide), Option.filter_some, if_pos h]

/-- A number that names no present item. -/
theorem numbered_filter_eq_none {k n : Nat} {p : Fin k → Bool} (h : ∀ i : Fin k, i.val = n → p i = false) :
    (numbered k n).filter p = none := by
  unfold numbered
  split
  · next hn => rw [Option.filter_some, h ⟨n, hn⟩ rfl, if_neg Bool.false_ne_true]
  · rfl

theorem namedUnit_eq_none {n : Byte} (h : ∀ u : UnitNo, u.val = n.toNat → (s.unit u).cfg.present = false) :
    s.namedUnit n = none := numbered_filter_eq_none h

theorem namedRiser_eq_none {n : Byte} (h : ∀ r : RiserNo, r.val = n.toNat → (s.riser r).cfg.present = false) :
    s.namedRiser n = none := numbered_filter_eq_none h

theorem namedStation_eq_none {n : Byte} (h : ∀ st : StationNo, st.val = n.toNat → (s.station st).cfg.present = false) :
    s.namedStation n = none := numbered_filter_eq_none h

end Named

/-! ## Clamping (R3) -/

theorem clamp_eq {lo hi : Int} (h : lo ≤ hi) (x : Int) : clamp lo hi x = max lo (min hi x) := by
  unfold clamp
  split
  · omega
  · split <;> omega

theorem clampTemp_eq (x : Int) : clampTemp x = max (-4000) (min 6000 x) := clamp_eq (by decide) x

theorem clampRatio_eq (x : Nat) : clampRatio x = min 300 x := Nat.min_comm ..

theorem clampWind_eq (x : Nat) : clampWind x = min 600 x := Nat.min_comm ..

theorem clampSetpoint_eq (x : Int) : clampSetpoint x = max 1000 (min 3000 x) := clamp_eq (by decide) x

theorem bne_eq_decide {α : Type} [DecidableEq α] (a b : α) : (a != b) = decide (a ≠ b) := by
  by_cases h : a = b
  · subst h
    simp
  · simp [h]

/-! ## STATION_READING (O25) -/

/-- The station's live part after a commit, its clamped values written as the nearest ends (R3, R13). -/
theorem commitStation_eq (t : Int) (w v : Nat) : commitStation t w v =
    { air := some ⟨max (-4000) (min 6000 t), min 300 w, min 600 v⟩, age := 0, status := .fresh
      clamped := decide (max (-4000) (min 6000 t) ≠ t ∨ min 300 w ≠ w ∨ min 600 v ≠ v) } := by
  simp only [commitStation, clampTemp_eq, clampRatio_eq, clampWind_eq, bne_eq_decide, Bool.decide_or, Bool.or_assoc]

theorem takeStation_named {s : State} {n t1 t2 w1 w2 v1 v2 : Byte} {st : StationNo} (h : s.namedStation n = some st) :
    State.takeStation [n, t1, t2, w1, w2, v1, v2] s =
      let s1 := (s.commitStation st (wordOf t1 t2).toInt (wordOf w1 w2).toNat (wordOf v1 v2).toNat).grantOnWork
      (s1, s1.stationAccept st (wordOf t1 t2).toInt (wordOf w1 w2).toNat (wordOf v1 v2).toNat) := by
  unfold State.takeStation
  dsimp only
  rw [h]

/-- Settles O25: the commit with its clamps, then the frame of the event and of the grant. -/
theorem stationReadingCommits : Obligations.StationReadingCommits := by
  intro s tag st t w v ht hr present tOa wOa wind m n z
  have posted : Cascade m n := .ite (.rfl m) (cascade_post 2 _ _ m rfl)
  have frame : Ran m z := .cascade_trans (posted.trans (cascade_stationEvent st n)) (ran_grantOnWork _)
  have committed : s.taken.commitStation st t.toInt w.toNat v.toNat = n.stationEvent st := by
    unfold State.commitStation
    simp only [commitStation_eq]
    rfl
  have status : (z.station st).live.status = .fresh := by
    have station : z.station st = m.station st := by
      unfold State.station
      rw [frame.stations]
    rw [station, modStation_station, if_pos rfl]
  refine ⟨frame.toRunFrame, ?_⟩
  refine exec_of_rule (i := .stationReading _ _) rfl ht rfl hr ?_
  refine (takeStation_named (namedStation_byteOf (s := s.taken) present)).trans ?_
  simp only [wordOf_bytes, committed, State.stationAccept, clampTemp_eq, clampRatio_eq, clampWind_eq, bne_eq_decide]
  rw [show ((n.stationEvent st).grantOnWork.station st).live.status = .fresh from status]
  rfl

/-! ## SET_SETPOINT (O27) -/

theorem takeSetpoint_named {s : State} {n t1 t2 : Byte} {u : UnitNo} (h : s.namedUnit n = some u) :
    State.takeSetpoint [n, t1, t2] s = ((s.writeSetpoint u (wordOf t1 t2).toInt).evaluateSetpoint u,
      .accept (num16 (clampSetpoint (wordOf t1 t2).toInt)
        ++ [flagByte (clampSetpoint (wordOf t1 t2).toInt != (wordOf t1 t2).toInt)])) := by
  unfold State.takeSetpoint
  dsimp only
  rw [h]

/-- Settles O27: the setpoint is written, and evaluated while running. -/
theorem setSetpointWrites : Obligations.SetSetpointWrites := by
  intro s tag u t ht present v m reply
  have written : s.taken.writeSetpoint u t.toInt = m := by
    unfold State.writeSetpoint
    rw [clampSetpoint_eq]
  have result : exec (.setSetpoint tag (byteOf u.val :: bytesOf t)) s =
      .next ((m.evaluateSetpoint u).answer 0x21 tag reply) := by
    refine exec_of_rule (i := .setSetpoint _ _) rfl ht rfl rfl ?_
    refine (takeSetpoint_named (namedUnit_byteOf (s := s.taken) present)).trans ?_
    simp only [wordOf_bytes, written, clampSetpoint_eq, bne_eq_decide]
    rfl
  refine ⟨fun hr => ?_, fun hr => ⟨?_, ?_⟩⟩
  · rw [result, State.evaluateSetpoint, show m.running = false from hr]
    rfl
  · exact (Ran.cascade_trans (cascade_ownEvent u _ m) (ran_grantOnWork _)).toRunFrame
  · rw [result, State.evaluateSetpoint, show m.running = true from hr]
    rfl

/-! ## SET_OVERRIDE (O28) -/

theorem updTable_updTable {α : Type} {n : Nat} (v : Vector α n) (i : Fin n) (f g : α → α) :
    updTable (updTable v i f) i g = updTable v i fun x => g (f x) := by
  refine Vector.ext fun j hj => ?_
  simp only [updTable_getElem]
  split <;> simp_all

theorem updTable_eq_self {α : Type} {n : Nat} {v : Vector α n} {i : Fin n} {f : α → α} (h : f v[i] = v[i]) :
    updTable v i f = v := by
  refine Vector.ext fun j hj => ?_
  rw [updTable_getElem]
  split
  · next e => subst e; exact h
  · rfl

theorem modDecision_modDecision (u : UnitNo) (f g : Decision → Decision) (s : State) :
    (s.modDecision u f).modDecision u g = s.modDecision u fun d => g (f d) :=
  congrArg (fun v => { s with units := v }) (updTable_updTable s.units u (fun x => { x with decision := f x.decision }) _)

theorem modDecision_eq_self {u : UnitNo} {f : Decision → Decision} {s : State}
    (h : f (s.unit u).decision = (s.unit u).decision) : s.modDecision u f = s := by
  refine congrArg (fun v => { s with units := v }) (updTable_eq_self ?_)
  exact congrArg (fun d => { s.unit u with decision := d }) h

theorem setControl_eq (u : UnitNo) (k : Control) (s : State) : s.setControl u k =
    if (s.unit u).decision.control = .auto ∧ k ≠ .auto then (s.modDecision u fun d => { d with control := k }).drop u
    else s.modDecision u fun d => { d with control := k } := rfl

theorem controlForced_eq (k : Control) (b : Bool) :
    controlForced k b = if k = .hand then .hand else if b = true then .forced else .auto := by
  cases k <;> cases b <;> rfl

section Override
variable {s : State} {n code speed : Byte} {u : UnitNo} (h : s.namedUnit n = some u)
include h

theorem takeOverride_outOfRange (hc : 6 < code.toNat) :
    State.takeOverride [n, code, speed] s = (s, .refuse .outOfRange 2) := by
  unfold State.takeOverride
  dsimp only
  rw [h]
  exact if_pos hc

theorem takeOverride_freeCool : State.takeOverride [n, 4, speed] s = (s, .refuse .notPermitted 4) := by
  unfold State.takeOverride
  dsimp only
  rw [h]
  rfl

theorem takeOverride_taken (hc : code.toNat ≤ 6) (hf : code ≠ 4) : State.takeOverride [n, code, speed] s =
    let m := (modeOfCode code).map fun m => overrideValue (s.unit u).cfg m speed
    let s1 := (s.applyOverride u m).grantOnWork
    (s1, s1.overrideAccept u (overrideClamped (s.unit u).cfg (modeOfCode code) speed)) := by
  unfold State.takeOverride
  dsimp only
  rw [h]
  dsimp only
  rw [if_neg (Nat.not_lt.2 hc), if_neg hf]

end Override

/-- The codes an override is taken with. -/
theorem override_codes {code : Byte} (hc : code.toNat ≤ 6) (hf : code ≠ 4) :
    code = 0 ∨ code = 1 ∨ code = 2 ∨ code = 3 ∨ code = 5 ∨ code = 6 := by
  obtain ⟨i, hi, rfl⟩ : ∃ i, i ≤ 6 ∧ code = byteOf i := ⟨code.toNat, hc, (byteOf_toNat code).symm⟩
  have cases : i = 0 ∨ i = 1 ∨ i = 2 ∨ i = 3 ∨ i = 4 ∨ i = 5 ∨ i = 6 := by omega
  rcases cases with rfl | rfl | rfl | rfl | rfl | rfl | rfl
  · exact .inl rfl
  · exact .inr (.inl rfl)
  · exact .inr (.inr (.inl rfl))
  · exact .inr (.inr (.inr (.inl rfl)))
  · exact absurd rfl hf
  · exact .inr (.inr (.inr (.inr (.inl rfl))))
  · exact .inr (.inr (.inr (.inr (.inr rfl))))

/-- The forced mode and its speed by the code (R44). -/
theorem overrideValue_of_code {code : Byte} (hc : code.toNat ≤ 6) (hf : code ≠ 4) (c : UnitCfg) (speed : Byte) :
    ((modeOfCode code).map fun m => overrideValue c m speed) =
      if code = 0 then none
      else if code = 1 then some ⟨.recoverHeat, min 100 (max c.sMin speed.toNat)⟩
      else if code = 2 then some ⟨.recoverCool, 100⟩
      else if code = 3 then some ⟨.bypass, 0⟩
      else if code = 5 then some ⟨.defrost, c.defrostSpeed⟩
      else some ⟨.safe, 0⟩ := by
  obtain rfl | rfl | rfl | rfl | rfl | rfl := override_codes hc hf
  all_goals rfl

theorem overrideClamped_of_code {code : Byte} (hc : code.toNat ≤ 6) (hf : code ≠ 4) (c : UnitCfg) (speed : Byte) :
    overrideClamped c (modeOfCode code) speed =
      decide (code = 1 ∧ min 100 (max c.sMin speed.toNat) ≠ speed.toNat) := by
  obtain rfl | rfl | rfl | rfl | rfl | rfl := override_codes hc hf
  case inr.inl =>
    rw [overrideClamped, bne_eq_decide, Bool.decide_and]
    rfl
  all_goals rfl

/-- Where nothing changes, the override is recorded as it stands. -/
theorem applyOverride_same {s : State} {u : UnitNo} {m : Option ModeSpeed} {k : Control}
    (hk : controlForced (s.unit u).decision.control m.isSome = k)
    (h : ¬ ((s.unit u).decision.forced ≠ m ∨ (s.unit u).decision.control ≠ k)) :
    s.applyOverride u m = s ∧ (s.modDecision u fun d => { d with forced := m, control := k }) = s := by
  obtain ⟨forced, control⟩ := not_or.1 h
  rw [Decidable.not_not] at forced control
  refine ⟨?_, modDecision_eq_self ?_⟩
  · unfold State.applyOverride
    dsimp only
    rw [hk]
    exact if_pos ⟨forced, control⟩
  · rw [← forced, ← control]

/-- Where anything changes: the record, the drop of a unit that leaves AUTO, the evaluation and the recount. -/
theorem applyOverride_changed {s : State} {u : UnitNo} {m : Option ModeSpeed} {k : Control}
    (hk : controlForced (s.unit u).decision.control m.isSome = k)
    (h : (s.unit u).decision.forced ≠ m ∨ (s.unit u).decision.control ≠ k) :
    s.applyOverride u m =
      let r := s.modDecision u fun d => { d with forced := m, control := k }
      ((if (s.unit u).decision.control = .auto ∧ k ≠ .auto then r.drop u else r).evaluate u .control).recount
        (s.unit u).cfg.riser := by
  have changed : ¬ ((s.unit u).decision.forced = m ∧ (s.unit u).decision.control = k) := by
    rwa [Decidable.not_and_iff_or_not]
  have recorded := modDecision_modDecision u (fun d => { d with forced := m }) (fun d => { d with control := k }) s
  have cfg : (((s.modDecision u fun d => { d with forced := m }).setControl u k).unit u).cfg = (s.unit u).cfg :=
    ((Keeps.modDecision ..).trans (keeps_setControl ..)).tables.units u
  unfold State.applyOverride State.ownEvent
  dsimp only
  rw [hk, if_neg changed, cfg, setControl_eq, recorded, modDecision_unit, if_pos rfl]

theorem optItem_modeSpeed (m : Option ModeSpeed) : optItem (fun m => modeSpeedItem (some m)) m =
    match m with
    | none => [0]
    | some v => [1, modeCode (some v.mode), byteOf v.speed] := by cases m <;> rfl

theorem modeSpeedItem_eq (m : Option ModeSpeed) : modeSpeedItem m =
    match m with
    | none => [0, 0]
    | some v => [modeCode (some v.mode), byteOf v.speed] := by cases m <;> rfl

/-- Settles O28: the codes one by one, then what the record changes. -/
theorem setOverrideRecords : Obligations.SetOverrideRecords := by
  intro s tag u code speed hr ht present
  have named := namedUnit_byteOf (s := s.taken) present
  refine ⟨fun hc => ?_, fun hc => ?_, fun hc hf => ?_⟩
  · exact exec_of_rule (i := .setOverride _ _) rfl ht rfl hr (takeOverride_outOfRange named hc)
  · subst hc
    exact exec_of_rule (i := .setOverride _ _) rfl ht rfl hr (takeOverride_freeCool named)
  · intro forced control changed m dropped z
    have value := overrideValue_of_code hc hf (s.unit u).cfg speed
    have kind : controlForced (s.taken.unit u).decision.control forced.isSome = control := controlForced_eq ..
    have applied : (s.taken.applyOverride u forced).grantOnWork = z ∧ Ran m z := by
      by_cases h : changed
      · have stepped : s.taken.applyOverride u forced = (dropped.evaluate u .control).recount (s.unit u).cfg.riser :=
          applyOverride_changed kind h
        have drop : Cascade m dropped := .ite (cascade_drop u m) (.rfl m)
        have ran : Ran m z := by
          dsimp only [z]
          rw [if_pos h]
          exact .cascade_trans ((drop.trans (cascade_evaluate ..)).trans (cascade_recount ..)) (ran_grantOnWork _)
        refine ⟨?_, ran⟩
        dsimp only [z]
        rw [stepped, if_pos h]
      · obtain ⟨same, recorded⟩ := applyOverride_same kind h
        have stands : m = s.taken := recorded
        refine ⟨?_, ?_⟩
        · dsimp only [z]
          rw [same, if_neg h]
        · dsimp only [z]
          rw [stands, if_neg h]
          exact ran_grantOnWork _
    obtain ⟨result, ran⟩ := applied
    refine ⟨ran.toRunFrame, exec_of_rule (i := .setOverride _ _) rfl ht rfl hr ?_⟩
    obtain ⟨hcontrol, hforced, _, _⟩ := ran.owner u
    have recorded : (m.unit u).decision = { (s.unit u).decision with forced := forced, control := control } := by
      dsimp only [m]
      rw [modDecision_unit, if_pos rfl]
      rfl
    rw [recorded] at hcontrol hforced
    refine (takeOverride_taken named hc hf).trans ?_
    dsimp only
    rw [taken_unit, show ((modeOfCode code).map fun m => overrideValue (s.unit u).cfg m speed) = forced from value, result,
      overrideClamped_of_code hc hf, State.overrideAccept, hcontrol, hforced, optItem_modeSpeed, modeSpeedItem_eq] <;>
    rfl

/-! ## Absent items (O30) -/

theorem takeSetpoint_absent {s : State} {n t1 t2 : Byte} (h : s.namedUnit n = none) :
    State.takeSetpoint [n, t1, t2] s = (s, .refuse .noSuchItem n) := by
  unfold State.takeSetpoint
  dsimp only
  rw [h]

theorem takeOverride_absent {s : State} {n code speed : Byte} (h : s.namedUnit n = none) :
    State.takeOverride [n, code, speed] s = (s, .refuse .noSuchItem n) := by
  unfold State.takeOverride
  dsimp only
  rw [h]

theorem unitReply_absent {s : State} {n : Byte} (h : s.namedUnit n = none) :
    s.unitReply [n] = .refuse .noSuchItem n := by
  unfold State.unitReply
  dsimp only
  rw [h]

theorem takePost_absent {s : State} {n : Byte} {mail : List Byte} (h : s.namedUnit n = none) :
    State.takePost (n :: mail) s = (s, .refuse .noSuchItem n) := by
  unfold State.takePost
  dsimp only
  rw [h]

theorem takeLock_absent {s : State} {n v : Byte} (h : s.namedRiser n = none) :
    State.takeLock [n, v] s = (s, .refuse .noSuchItem n) := by
  unfold State.takeLock
  dsimp only
  rw [h]

theorem riserReply_absent {s : State} {n : Byte} (h : s.namedRiser n = none) :
    s.riserReply [n] = .refuse .noSuchItem n := by
  unfold State.riserReply
  dsimp only
  rw [h]

theorem takeStation_absent {s : State} {n t1 t2 w1 w2 v1 v2 : Byte} (h : s.namedStation n = none) :
    State.takeStation [n, t1, t2, w1, w2, v1, v2] s = (s, .refuse .noSuchItem n) := by
  unfold State.takeStation
  dsimp only
  rw [h]

theorem stationReply_absent {s : State} {n : Byte} (h : s.namedStation n = none) :
    s.stationReply [n] = .refuse .noSuchItem n := by
  unfold State.stationReply
  dsimp only
  rw [h]

theorem eq_two_of_length {l : List Byte} (h : l.length = 2) : ∃ a b, l = [a, b] :=
  ⟨_, _, eq_ofFn_of_length h⟩

theorem eq_six_of_length {l : List Byte} (h : l.length = 6) : ∃ a b c d e f, l = [a, b, c, d, e, f] :=
  ⟨_, _, _, _, _, _, eq_ofFn_of_length h⟩

/-- Settles O30: one request kind a case, its record by the length that it has. -/
theorem absentItemsAreRefused : Obligations.AbsentItemsAreRefused := by
  intro i k tag n rest s hr hi ht hl habs
  have running (hk : k ≠ .setSetpoint) : s.running = true := hr.resolve_right hk
  have length {m : Nat} (h : (rest.length + 1 == m + 1) = true) : rest.length = m := Nat.succ.inj (beq_iff_eq.1 h)
  rcases habs with ⟨rfl | rfl | rfl | rfl, h⟩ | ⟨rfl | rfl, h⟩ | ⟨rfl | rfl, h⟩
  · obtain ⟨a, b, rfl⟩ := eq_two_of_length (length (m := 2) hl)
    exact exec_of_rule hi ht rfl rfl (takeSetpoint_absent (namedUnit_eq_none h))
  · obtain ⟨a, b, rfl⟩ := eq_two_of_length (length (m := 2) hl)
    exact exec_of_rule hi ht rfl (running (by decide)) (takeOverride_absent (namedUnit_eq_none h))
  · obtain rfl := List.length_eq_zero_iff.1 (length (m := 0) hl)
    exact exec_of_rule hi ht rfl (running (by decide)) (congrArg (Prod.mk _) (unitReply_absent (namedUnit_eq_none h)))
  · exact exec_of_rule hi ht hl (running (by decide)) (takePost_absent (namedUnit_eq_none h))
  · obtain ⟨v, rfl⟩ := List.length_eq_one_iff.1 (length (m := 1) hl)
    exact exec_of_rule hi ht rfl (running (by decide)) (takeLock_absent (namedRiser_eq_none h))
  · obtain rfl := List.length_eq_zero_iff.1 (length (m := 0) hl)
    exact exec_of_rule hi ht rfl (running (by decide)) (congrArg (Prod.mk _) (riserReply_absent (namedRiser_eq_none h)))
  · obtain ⟨b1, b2, b3, b4, b5, b6, rfl⟩ := eq_six_of_length (length (m := 6) hl)
    exact exec_of_rule hi ht rfl (running (by decide)) (takeStation_absent (namedStation_eq_none h))
  · obtain rfl := List.length_eq_zero_iff.1 (length (m := 0) hl)
    exact exec_of_rule hi ht rfl (running (by decide))
      (congrArg (Prod.mk _) (stationReply_absent (namedStation_eq_none h)))

end Sys2Proof.Machine
end

