-- ==== Sys2Proof/Proofs/GroupEvents.lean ====
section
/-! PROOFS. Proofs/GroupEvents.lean: a station event, the budget recompute, revocation, the admission scan and the
withdrawal (R15, R65 to R74, R86, R92 to R97, R117 to R120). -/

namespace Sys2Proof.Machine

/-! ## Lists in ascending number -/

theorem pairwise_fins : ∀ n : Nat, (fins n).Pairwise (· < ·)
  | 0 => .nil
  | n + 1 => by
    rw [show fins (n + 1) = 0 :: (fins n).map Fin.succ from rfl, List.pairwise_cons, List.pairwise_map]
    refine ⟨fun i hi => ?_, (pairwise_fins n).imp Fin.succ_lt_succ_iff.2⟩
    obtain ⟨j, _, rfl⟩ := List.mem_map.1 hi
    exact Fin.succ_pos j

theorem pairwise_filter_fins {n : Nat} (p : Fin n → Bool) : ((fins n).filter p).Pairwise (· < ·) :=
  (pairwise_fins n).filter p

theorem mem_filter_fins {n : Nat} {p : Fin n → Bool} {i : Fin n} : i ∈ (fins n).filter p ↔ p i = true := by
  rw [List.mem_filter, and_iff_right (mem_fins i)]

theorem mem_mappedUnits {s : State} {st : StationNo} {u : UnitNo} :
    u ∈ s.mappedUnits st ↔ (s.unit u).cfg.present = true ∧ (s.unit u).cfg.station = st := by
  rw [State.mappedUnits, mem_filter_fins, Bool.and_eq_true, beq_iff_eq]

theorem mem_members {s : State} {r : RiserNo} {u : UnitNo} :
    u ∈ s.members r ↔ (s.unit u).cfg.present = true ∧ (s.unit u).cfg.riser = r := by
  rw [State.members, mem_filter_fins, Bool.and_eq_true, beq_iff_eq]

theorem mem_mappedRisers {s : State} {st : StationNo} {r : RiserNo} : r ∈ s.mappedRisers st ↔
    ∃ u, (s.unit u).cfg.present = true ∧ (s.unit u).cfg.riser = r ∧ (s.unit u).cfg.station = st := by
  simp only [State.mappedRisers, mem_filter_fins, List.any_eq_true, mem_members, beq_iff_eq, and_assoc]

/-! ## Recompute and revocation (R86, R96) -/

theorem recompute_of_lt {s : State} (h : s.sba.bEff < s.budgetNow) : s.recompute =
    ((s.modSba fun b => { b with bEff := s.budgetNow }).post 1 .none (.budget s.budgetNow)).scan := by
  unfold State.recompute
  rw [if_neg (Nat.ne_of_gt h), if_neg (Nat.not_lt.2 (Nat.le_of_lt h))]

theorem recompute_of_gt {s : State} (h : s.budgetNow < s.sba.bEff) : s.recompute =
    ((s.modSba fun b => { b with bEff := s.budgetNow }).post 1 .none (.budget s.budgetNow)).revoke.scan := by
  unfold State.recompute
  rw [if_neg (Nat.ne_of_lt h), if_pos h]

section Revoked
variable {w rank : RiserNo → Nat} {bEff : Nat}

theorem latestOfLowest_of_lower {r : RiserNo} {back : List RiserNo} (h : ∀ q ∈ back, rank r < rank q) :
    latestOfLowest rank (r :: back) = some r := by
  rw [latestOfLowest]
  cases hb : latestOfLowest rank back with
  | none => rfl
  | some q => exact if_pos (h q (mem_of_latestOfLowest rank back q hb))

/-- The lowest rank, and of equals the one nearest the tail. -/
theorem latestOfLowest_eq {r : RiserNo} {back : List RiserNo} (hb : ∀ q ∈ back, rank r < rank q) :
    ∀ {front : List RiserNo}, (∀ q ∈ front, rank r ≤ rank q) → latestOfLowest rank (front ++ r :: back) = some r
  | [], _ => latestOfLowest_of_lower hb
  | q :: front, hf => by
    rw [List.cons_append, latestOfLowest, latestOfLowest_eq hb fun p hp => hf p (List.mem_cons_of_mem _ hp)]
    exact if_neg (Nat.not_lt.2 (hf q List.mem_cons_self))

theorem chooseRevoked_of_fits {l : List RiserNo} (h : (l.map w).sum ≤ bEff) : ∀ n, chooseRevoked w rank bEff n l = []
  | 0 => rfl
  | _ + 1 => if_neg (Nat.not_lt.2 h)

theorem chooseRevoked_cons {front back : List RiserNo} {r : RiserNo} (h : bEff < ((front ++ r :: back).map w).sum)
    (hr : r ∉ front) (hf : ∀ q ∈ front, rank r ≤ rank q) (hb : ∀ q ∈ back, rank r < rank q) :
    chooseRevoked w rank bEff (front ++ r :: back).length (front ++ r :: back) =
      r :: chooseRevoked w rank bEff (front ++ back).length (front ++ back) := by
  have length : (front ++ r :: back).length = (front ++ back).length + 1 := by
    simp only [List.length_append, List.length_cons]
    omega
  have erased : (front ++ r :: back).erase r = front ++ back := by
    rw [List.erase_append_right _ hr, List.erase_cons_head]
  rw [length, chooseRevoked, sumWeights, if_pos h, latestOfLowest_eq hb hf]
  exact congrArg (fun l => r :: chooseRevoked w rank bEff _ l) erased

end Revoked

/-! ## The admission scan (R92) -/

/-- What the walk leaves on the queue does not fit what it leaves of the headroom. -/
theorem scanWalk_leaves_nobody (w : RiserNo → Nat) (l : List RiserNo) :
    ∀ (h : Int), ∀ r ∈ (scanWalk w h l).1, h - ((scanWalk w h l).2.map w).sum < w r := by
  induction l with
  | nil => exact fun _ _ hr => absurd hr List.not_mem_nil
  | cons q l ih =>
    intro h r hr
    rw [scanWalk] at hr ⊢
    split
    · next fits =>
      rw [if_pos fits] at hr
      have rest := ih _ r hr
      rw [List.map_cons, List.sum_cons]
      omega
    · next above =>
      rw [if_neg above] at hr
      rcases List.mem_cons.1 hr with rfl | hr
      · dsimp only
        omega
      · exact ih _ r hr

theorem scanHeld_iff {s : State} : s.scanHeld = true ↔
    s.running = true ∧ (s.roleActive .inFreeze = true ∨ s.roleActive .inEmergency = true) := by
  rw [State.scanHeld, Bool.and_eq_true, Bool.or_eq_true]

theorem scan_of_held {s : State} (h : s.scanHeld = true) : s.scan = s := if_pos h

theorem scan_of_not_held {s : State} (h : ¬ s.scanHeld = true) : s.scan =
    (scanWalk s.weight s.headroom s.sba.queue).2.foldl State.admitRiser
      (s.modSba fun b =>
        { b with queue := (scanWalk s.weight s.headroom s.sba.queue).1
                 grants := b.grants ++ (scanWalk s.weight s.headroom s.sba.queue).2 }) := if_neg h

/-- Settles O26: the event, the recompute, the revocation, the scan and the admission, one after another. -/
theorem stationEventOrder : Obligations.StationEventOrder := by
  refine ⟨fun s st => ⟨rfl, fun u => mem_mappedUnits, pairwise_filter_fins _, fun r => mem_mappedRisers,
    pairwise_filter_fins _⟩, fun s => ⟨recompute_eq_self, recompute_of_lt, recompute_of_gt⟩,
    fun s => ⟨rfl, fun l => ⟨fun h => chooseRevoked_of_fits h _, fun front r back h hl hr hf hb => ?revoked⟩⟩,
    fun s => ⟨fun h => scan_of_held (scanHeld_iff.2 h), fun h => scan_of_not_held fun e => h (scanHeld_iff.1 e),
      scanWalk_leaves_nobody _ _ _⟩,
    fun w h r l => ⟨rfl, fun fits => if_pos fits, fun above => if_neg (Int.not_le.2 above)⟩, fun s r => ?admission⟩
  case revoked =>
    subst hl
    exact chooseRevoked_cons h hr hf hb
  case admission =>
    intro goes us called opened
    exact ⟨fun h => if_pos h, fun h => if_neg (Bool.eq_false_iff.1 h)⟩

/-! ## LOCK_RISER and the withdrawal (O29) -/

/-- The move of R51 for one member. -/
theorem returnToBypass_eq (s : State) (u : UnitNo) : s.returnToBypass u =
    if (s.unit u).decision.commanded.map (·.mode) = some .freeCool ∧ (s.unit u).decision.control = .auto then
      s.commandMode u ⟨.bypass, 0⟩ else s := by
  unfold State.returnToBypass State.setGroupMode
  by_cases h : (s.unit u).decision.commanded.map (·.mode) = some .freeCool
  · rw [if_pos h]
    refine ite_of_iff ?_
    rw [h]
    exact ⟨fun k => ⟨rfl, k.1⟩, fun k => ⟨k.2, by decide⟩⟩
  · rw [if_neg h, if_neg fun k => h k.1]

theorem returnMembers_eq (r : RiserNo) (s : State) : s.returnMembers r =
    ((s.members r).foldl (fun m u => if (m.unit u).decision.control = .auto then
        m.modDecision u fun d => { d with dwell := 0, dwellExpired := false } else m)
      ((s.members r).foldl (fun m u =>
        if (m.unit u).decision.commanded.map (·.mode) = some .freeCool ∧ (m.unit u).decision.control = .auto then
          m.commandMode u ⟨.bypass, 0⟩ else m) s)).evaluateAll (s.members r) .riser := by
  simp only [← returnToBypass_eq]
  rfl

section Lock
variable {s : State} {n v : Byte} {r : RiserNo} (h : s.namedRiser n = some r)
include h

theorem takeLock_outOfRange (hv : 1 < v.toNat) : State.takeLock [n, v] s = (s, .refuse .outOfRange 2) := by
  unfold State.takeLock
  dsimp only
  rw [h]
  exact if_pos hv

theorem takeLock_on : State.takeLock [n, 1] s = ((s.lockOn r).grantOnWork, (s.lockOn r).grantOnWork.lockAccept r) := by
  unfold State.takeLock
  dsimp only
  rw [h]
  rfl

theorem takeLock_off :
    State.takeLock [n, 0] s = ((s.lockOff r).grantOnWork, (s.lockOff r).grantOnWork.lockAccept r) := by
  unfold State.takeLock
  dsimp only
  rw [h]
  rfl

end Lock

theorem modRiser_eq_self {r : RiserNo} {f : RiserRec → RiserRec} {s : State} (h : f (s.riser r) = s.riser r) :
    s.modRiser r f = s := congrArg (fun v => { s with risers := v }) (updTable_eq_self h)

theorem lockAccept_eq {s : State} {r : RiserNo} {b : Bool} (h : (s.riser r).live.locked = b) : s.lockAccept r =
    .accept [flagByte b, riserStateCode (s.riser r).live.state, causeCode (s.riser r).live.lastExit] := by
  rw [State.lockAccept, h]

section Withdraw
variable {s : State} {r : RiserNo} {cause : Cause} {doScan : Bool}

theorem withdraw_outside (h : (s.riser r).live.state = .individual ∨ (s.riser r).live.state = .leaving) :
    s.withdraw r cause doScan = s := by
  unfold State.withdraw
  rcases h with h | h <;> rw [h]

theorem withdraw_queued (h : (s.riser r).live.state = .queued) :
    s.withdraw r cause doScan = (s.riserTo r .individual cause true).dequeue r := by
  rw [State.withdraw, h]

theorem withdraw_free (h : (s.riser r).live.state = .free) :
    s.withdraw r cause doScan = s.withdrawFree r cause doScan := by
  rw [State.withdraw, h]

theorem withdraw_entering {c : Ctx} (h : (s.riser r).live.state = .entering) (hc : s.ctx r = some c) :
    s.withdraw r cause doScan = s.withdrawEntering r c cause doScan := by
  rw [State.withdraw, h]
  dsimp only
  rw [hc]

theorem withdrawEntering_calling {c : Ctx} (h : c.phase = .callPending) : s.withdrawEntering r c cause doScan =
    ((s.riserTo r .individual cause true).postChangeover r c .cancelled (some cause) 0).afterContextDrop r c.units
      doScan := by
  rw [State.withdrawEntering, h]

theorem withdrawEntering_called {c : Ctx} (h : c.phase = .rollReady ∨ c.phase = .commitPending) :
    s.withdrawEntering r c cause doScan =
      ((((s.riserTo r .leaving cause true).setCtx r (some (c.cancelled cause))).ungrant r).drain r).scanIf doScan := by
  unfold State.withdrawEntering
  rcases h with h | h <;> rw [h]

/-- The ENTER turned into a LEAVE: the riser leaves under a new tag, its weight draining. -/
def State.turnedToLeave (r : RiserNo) (c : Ctx) (cause : Cause) (s : State) : State :=
  (((({ s with ce := { s.ce with tagCounter := s.ce.tagCounter + 1 } } : State).riserTo r .leaving cause true).setCtx r
    (some (c.converted s.ce.tagCounter))).ungrant r).drain r

theorem withdrawEntering_committed {c : Ctx} (h : c.phase = .rollDone) : s.withdrawEntering r c cause doScan =
    if (c.converted s.ce.tagCounter).participants.isEmpty then
      ((s.turnedToLeave r c cause).postChangeover r (c.converted s.ce.tagCounter) .complete none 0).completeLeaving r
        doScan
    else (s.turnedToLeave r c cause).scanIf doScan := by
  rw [State.withdrawEntering, h]
  rfl

theorem withdrawEntering_ending {c : Ctx} (h : c.phase = .cancelPending ∨ c.phase = .returnPending) :
    s.withdrawEntering r c cause doScan = s := by
  unfold State.withdrawEntering
  rcases h with h | h <;> rw [h]

theorem converted_isEmpty {c : Ctx} {tag : Byte} : (c.converted tag).participants.isEmpty = true ↔
    (c.participants.filter fun p => p.status != .dropped) = [] := by
  rw [Ctx.converted, List.isEmpty_iff, List.map_eq_nil_iff, Ctx.remaining]

end Withdraw

/-- Settles O29: the two locks, then the withdrawal by the riser's state and the phase of its context. -/
theorem lockRiserLocks : Obligations.LockRiserLocks := by
  refine ⟨fun s tag r hr present => ?lock, fun s r cause doScan => ?withdraw⟩
  case lock =>
    have named := namedRiser_byteOf (s := s.taken) present
    refine ⟨fun ht => ?on, fun ht => ?off, fun v hv ht =>
      exec_of_rule (i := .lockRiser _ _) rfl ht rfl hr (takeLock_outOfRange named hv)⟩
    case on =>
      intro m z
      have ran : Ran m z := by
        by_cases h : (s.riser r).live.locked = true
        · have stands : m = s.taken := modRiser_eq_self (by rw [← h]; rfl)
          dsimp only [z]
          rw [if_pos h, ← stands]
          exact ran_grantOnWork m
        · dsimp only [z]
          rw [if_neg h]
          exact .cascade_trans (cascade_withdraw ..) (ran_grantOnWork _)
      have locked : (z.riser r).live.locked = true := by
        rw [(ran.riser r).2.2, modLive_riser, if_pos rfl]
      refine ⟨ran.toRunFrame, exec_of_rule (i := .lockRiser _ _) rfl ht rfl hr ((takeLock_on named).trans ?_)⟩
      rw [show (s.taken.lockOn r).grantOnWork = z from rfl, lockAccept_eq locked]
      rfl
    case off =>
      intro m z
      have state : (m.riser r).live.state = (s.riser r).live.state := by
        rw [modLive_riser, if_pos rfl]
        rfl
      have joined : s.taken.lockOff r = if (s.riser r).live.state = .individual then m.joinCheck r else m := by
        rw [← state]
        rfl
      have ran : Ran m z := .cascade_trans (.ite (cascade_joinCheck r m) (.rfl m)) (ran_grantOnWork _)
      have locked : (z.riser r).live.locked = false := by
        rw [(ran.riser r).2.2, modLive_riser, if_pos rfl]
      refine ⟨ran.toRunFrame, exec_of_rule (i := .lockRiser _ _) rfl ht rfl hr ((takeLock_off named).trans ?_)⟩
      rw [show (s.taken.lockOff r).grantOnWork = z from congrArg State.grantOnWork joined, lockAccept_eq locked]
      rfl
  case withdraw =>
    intro goes individual settle release toDraining recounted returned scanned drained leftLeaving leaves changeover
    have ret (m : State) : m.returnMembers r = returned m := returnMembers_eq r m
    have left (m : State) : m.completeLeaving r doScan = leftLeaving m := by
      dsimp only [leftLeaving]
      rw [← ret]
      rfl
    have turn (c : Ctx) : s.turnedToLeave r c cause =
        toDraining (leaves ((c.participants.filter fun p => p.status != .dropped).map fun p =>
          { p with status := .pending }) (goes .leaving s)) := rfl
    refine ⟨ret, withdraw_outside, withdraw_queued, fun h hc => ?advise, fun h hc => ?coordinate, fun c h hx => ?entering⟩
    case advise =>
      rw [withdraw_free h, State.withdrawFree, hc, if_neg Bool.false_ne_true, ret]
      rfl
    case coordinate =>
      rw [withdraw_free h, State.withdrawFree, hc, if_pos rfl]
      refine ⟨fun hu => ?_, fun hu => ?_⟩
      · exact (if_pos (List.isEmpty_iff.2 hu)).trans (left _)
      · exact if_neg fun e => hu (List.isEmpty_iff.1 e)
    case entering =>
      rw [withdraw_entering h hx]
      refine ⟨fun hp => ?_, fun hp => ?_, fun hp => ⟨fun hn => ?_, fun hn => ?_⟩, withdrawEntering_ending⟩
      · rw [withdrawEntering_calling hp]
        rfl
      · rw [withdrawEntering_called hp]
        rfl
      · rw [withdrawEntering_committed hp, if_neg fun e => hn (converted_isEmpty.1 e), turn]
        rfl
      · rw [withdrawEntering_committed hp, if_pos (converted_isEmpty.2 hn), left, turn]
        rfl

end Sys2Proof.Machine
end

