-- ==== Sys2Proof/Proofs/Reads.lean ====
section
/-! PROOFS. Proofs/Reads.lean: the requests that read records, item by item, and the levels of the lines (R16, R17, R57,
R82, R100, R123, R147, R148, R157 to R159, R187, R195). -/

namespace Sys2Proof.Machine

/-! ## Items (R187) -/

theorem listItem_singletons {α : Type} (f : α → Byte) (l : List α) :
    listItem (fun a => [f a]) l = byteOf l.length :: l.map f := by
  rw [listItem, List.map_eq_flatMap]

/-- The air items of a reading, absent as zeros. -/
theorem readingItems_eq (x : Reading) : readingItems x =
    conditionCode x.condition ::
      (match x.air with
        | none => [0, 0, 0, 0, 0]
        | some a => 1 :: num16 a.tRa ++ num16 a.wRa) ++
      [modeCode x.reported, x.flags.byte] ++ num16 x.age ++ [flagByte x.clamped] := by
  unfold readingItems
  cases x.air <;> rfl

/-- The place of a riser on a list is its index, counted from `i`. -/
theorem placeOn_eq (r : RiserNo) (l : List RiserNo) : ∀ i : Nat,
    placeOn r i l = (l.findIdx? fun q => q == r).map (i + ·) := by
  induction l with
  | nil => exact fun _ => rfl
  | cons q l ih =>
    intro i
    rw [placeOn, List.findIdx?_cons]
    by_cases h : q = r
    · simp [h]
    · rw [if_neg h, ih, if_neg (by simpa using h), Option.map_map]
      refine congrArg (Option.map · _) (funext fun j => ?_)
      show i + 1 + j = i + (j + 1)
      omega

/-- A unit's entry is the first of the unit, with its index counted from `i`. -/
theorem findCommand_eq (u : UnitNo) (l : List CmdEntry) : ∀ i : Nat,
    findCommand u i l = (l.findIdx? fun e => e.unit == u).bind fun j => (l[j]?).map fun e => (i + j, e.content) := by
  induction l with
  | nil => exact fun _ => rfl
  | cons e l ih =>
    intro i
    rw [findCommand, List.findIdx?_cons]
    by_cases h : e.unit = u
    · simp [h]
    · rw [if_neg h, ih, if_neg (by simpa using h), Option.bind_map]
      refine congrArg (Option.bind _) (funext fun j => ?_)
      show _ = ((e :: l)[j + 1]?).map _
      rw [List.getElem?_cons_succ]
      refine congrArg (Option.map · _) (funext fun c => ?_)
      rw [Nat.add_right_comm, Nat.add_assoc]

/-- What a command in flight is. -/
theorem commandInFlight_eq (s : State) (u : UnitNo) : s.commandInFlight u =
    match s.flc.link with
    | none => false
    | some t => match t.requester with
      | .command _ => t.unit == some u && t.heeded
      | _ => false := by
  unfold State.commandInFlight
  cases s.flc.link with
  | none => rfl
  | some t =>
    obtain ⟨_, requester, _⟩ := t
    cases requester <;> rfl

theorem presenceItems_eq (s : State) (u : UnitNo) : s.presenceItems u =
    [byteOf (s.unit u).cfg.address, presenceCode (s.unit u).presence, byteOf (s.unit u).misses] ++
      (match s.flc.commands.findIdx? (fun e => e.unit == u) with
        | none => [0]
        | some i => 1 :: modeSpeedItem (s.flc.commands[i]?.map (·.content)) ++
          [byteOf (i + 1), flagByte (s.commandInFlight u)]) := by
  unfold State.presenceItems
  rw [findCommand_eq]
  cases h : s.flc.commands.findIdx? fun e => e.unit == u with
  | none => rfl
  | some i =>
    obtain ⟨hi, _⟩ := List.findIdx?_eq_some_iff_getElem.1 h
    simp only [Option.bind_some, List.getElem?_eq_getElem hi, Nat.add_comm 1 i]
    rfl

theorem unitReply_named {s : State} {n : Byte} {u : UnitNo} (h : s.namedUnit n = some u) : s.unitReply [n] =
    .accept (readingItems (s.unit u).reading ++ decisionItems (s.unit u).decision (s.isParticipant u)
      ++ s.presenceItems u) := by
  unfold State.unitReply
  dsimp only
  rw [h]

theorem riserReply_named {s : State} {n : Byte} {r : RiserNo} (h : s.namedRiser n = some r) : s.riserReply [n] =
    .accept ([n, riserStateCode (s.riser r).live.state] ++ num16 (s.riser r).live.settle
      ++ [byteOf (s.riser r).live.memberCount, byteOf (s.riser r).live.onlineMembers,
          byteOf (s.riser r).live.voters.length]
      ++ listItem (fun u => [byteOf u.val]) (s.riser r).live.voters
      ++ [byteOf (s.riser r).cfg.quorum, byteOf (s.riser r).cfg.hold, flagByte (s.riser r).live.locked,
          causeCode (s.riser r).live.lastExit]
      ++ optItem (fun p => [byteOf p]) (placeOn r 1 s.sba.queue) ++ optItem ctxItems (s.ctx r)) := by
  unfold State.riserReply
  dsimp only
  rw [h]

theorem stationReply_named {s : State} {n : Byte} {st : StationNo} (h : s.namedStation n = some st) : s.stationReply [n] =
    .accept ([n, flagByte (s.tower.reference == st), stationStatusCode (s.station st).live.status]
      ++ (match (s.station st).live.air with
        | none => [0, 0, 0, 0, 0, 0, 0]
        | some a => 1 :: num16 a.tOa ++ num16 a.wOa ++ num16 a.wind)
      ++ num16 (s.station st).live.age
      ++ [flagByte (s.station st).live.clamped, byteOf (s.mappedUnits st).length]) := by
  unfold State.stationReply
  dsimp only
  rw [h]
  dsimp only
  cases (s.station st).live.air <;> rfl

/-- The context item of READ_RISER (R82, R123). -/
theorem optItem_ctxItems (c : Option Ctx) : optItem ctxItems c =
    match c with
    | none => [0]
    | some c =>
      [1, directionCode c.direction, c.tag, phaseCode c.phase,
        byteOf (c.participants.filter fun p => p.status != .dropped).length] ++
      (match c.window with
        | none => [0]
        | some w => 1 :: num16 w) ++
      byteOf c.participants.length ::
      (c.participants.flatMap fun p => [byteOf p.unit.val, partStatusCode p.status]) ++
      [byteOf c.repairs.length] := by
  cases c with
  | none => rfl
  | some c =>
    dsimp only [optItem, ctxItems]
    cases c.window <;> rfl

/-! ## Lines (R148, R157 to R159, R182) -/

theorem outFault_iff {s : State} : s.outFault = true ↔ s.running = true ∧ ∃ u, (s.unit u).cfg.present = true ∧
    ((s.unit u).presence = .offline ∨ (s.unit u).reading.flags.wheelFault = true ∨
      (s.unit u).reading.flags.damperFault = true ∨ (s.unit u).reading.flags.sensorFault = true) := by
  simp only [State.outFault, Bool.and_eq_true, List.any_eq_true, State.presentUnits, mem_filter_fins, Bool.or_eq_true,
    beq_iff_eq, UnitFlags.anyFault, or_assoc]

theorem outFree_iff {s : State} : s.outFree = true ↔ s.running = true ∧ ∃ r, (s.riser r).cfg.present = true ∧
    ((s.riser r).live.state = .entering ∨ (s.riser r).live.state = .free) := by
  simp only [State.outFree, Bool.and_eq_true, List.any_eq_true, State.presentRisers, mem_filter_fins, Bool.or_eq_true,
    beq_iff_eq]

/-- A pin is driven to the level under its polarity. -/
theorem beq_activeHigh (level : Bool) (p : Polarity) :
    (level == (p == .activeHigh)) = if p = .activeHigh then level else !level := by
  cases level <;> cases p <;> rfl

section Line
variable {s : State} {l : LineNo}

theorem line_none (h : (s.line l).cfg.role = .none) : s.lineLevel l = false ∧ s.pinDriven l = none := by
  rw [State.lineLevel, State.pinDriven, h]
  exact ⟨rfl, rfl⟩

theorem line_input (h : (s.line l).cfg.role = .inWind ∨ (s.line l).cfg.role = .inFreeze ∨
    (s.line l).cfg.role = .inEmergency) : s.lineLevel l = (s.line l).level ∧ s.pinDriven l = none := by
  unfold State.lineLevel State.pinDriven
  rcases h with h | h | h <;> rw [h] <;> exact ⟨rfl, rfl⟩

theorem lineLevel_outFault (h : (s.line l).cfg.role = .outFault) :
    s.lineLevel l = true ↔ s.outFault = true ∧ s.slp.resetHeld = false := by
  rw [State.lineLevel, h]
  dsimp only
  rw [Bool.and_eq_true, Bool.not_eq_true']

theorem lineLevel_outFree (h : (s.line l).cfg.role = .outFree) :
    s.lineLevel l = true ↔ s.outFree = true ∧ s.slp.resetHeld = false := by
  rw [State.lineLevel, h]
  dsimp only
  rw [Bool.and_eq_true, Bool.not_eq_true']

theorem pinDriven_output (h : (s.line l).cfg.role = .outFault ∨ (s.line l).cfg.role = .outFree) : s.pinDriven l =
    some (if (s.line l).cfg.polarity = .activeHigh then s.lineLevel l else !s.lineLevel l) := by
  unfold State.pinDriven
  rcases h with h | h <;> rw [h] <;> exact congrArg some (beq_activeHigh ..)

end Line

/-- Settles O31: one request a case, item by item, then the levels of the lines. -/
theorem readsAnswerTheRecords : Obligations.ReadsAnswerTheRecords := by
  refine ⟨fun s tag => ⟨fun hr => ⟨fun u present ht => ?unit, fun r present ht => ?riser, fun st present ht => ?station,
    fun ht => ?budget⟩, fun ht => ?status⟩, fun s => ⟨fun p => ?count, fun l => ?line⟩⟩
  case unit =>
    intro x d modeSpeed optional16
    refine exec_of_rule (i := .readUnit _ _) rfl ht rfl hr (congrArg (Prod.mk s.taken) ?_)
    refine (unitReply_named (namedUnit_byteOf (s := s.taken) present)).trans (congrArg Reply.accept ?_)
    have late : optItem (fun d : Direction => [directionCode d]) (s.unit u).decision.late =
        match (s.unit u).decision.late with
        | none => [0]
        | some .enter => [1, 0]
        | some .leave => [1, 1] := by
      cases (s.unit u).decision.late with
      | none => rfl
      | some d => cases d <;> rfl
    have forced : optItem (fun m => modeSpeed (some m)) (s.unit u).decision.forced =
        match (s.unit u).decision.forced with
        | none => [0]
        | some v => [1, modeCode (some v.mode), byteOf v.speed] := by
      cases (s.unit u).decision.forced <;> rfl
    have preferred : optItem (fun v : Nat => [byteOf v]) (s.unit u).decision.prefSpeed =
        match (s.unit u).decision.prefSpeed with
        | none => [0]
        | some v => [1, byteOf v] := by
      cases (s.unit u).decision.prefSpeed <;> rfl
    have speeds (m : Option ModeSpeed) : modeSpeedItem m = modeSpeed m := by cases m <;> rfl
    have numbers (n : Option Int) : optItem num16 n = optional16 n := by cases n <;> rfl
    show readingItems (s.unit u).reading ++ decisionItems (s.unit u).decision (s.isParticipant u) ++ s.presenceItems u = _
    simp only [readingItems_eq, decisionItems, presenceItems_eq, commandInFlight_eq, unitFlags_byte, late, forced, preferred,
      speeds, numbers,
      List.append_assoc, List.cons_append, List.nil_append] <;>
    rfl
  case riser =>
    refine exec_of_rule (i := .readRiser _ _) rfl ht rfl hr (congrArg (Prod.mk s.taken) ?_)
    refine (riserReply_named (namedRiser_byteOf (s := s.taken) present)).trans (congrArg Reply.accept ?_)
    have queued : optItem (fun p : Nat => [byteOf p]) ((s.sba.queue.findIdx? fun q => q == r).map (1 + ·)) =
        match s.sba.queue.findIdx? (fun q => q == r) with
        | none => [0]
        | some i => [1, byteOf (i + 1)] := by
      cases s.sba.queue.findIdx? fun q => q == r with
      | none => rfl
      | some i => exact congrArg (fun n => [1, byteOf n]) (Nat.add_comm 1 i)
    show [byteOf r.val, riserStateCode (s.riser r).live.state] ++ num16 (s.riser r).live.settle
      ++ [byteOf (s.riser r).live.memberCount, byteOf (s.riser r).live.onlineMembers,
          byteOf (s.riser r).live.voters.length]
      ++ listItem (fun u => [byteOf u.val]) (s.riser r).live.voters
      ++ [byteOf (s.riser r).cfg.quorum, byteOf (s.riser r).cfg.hold, flagByte (s.riser r).live.locked,
          causeCode (s.riser r).live.lastExit]
      ++ optItem (fun p => [byteOf p]) (placeOn r 1 s.sba.queue) ++ optItem ctxItems (s.ctx r) = _
    simp only [listItem_singletons, placeOn_eq, queued, optItem_ctxItems, List.append_assoc, List.cons_append, List.nil_append] <;>
      rfl
  case station =>
    refine exec_of_rule (i := .readStation _ _) rfl ht rfl hr (congrArg (Prod.mk s.taken) ?_)
    refine (stationReply_named (namedStation_byteOf (s := s.taken) present)).trans (congrArg Reply.accept ?_)
    rfl
  case budget =>
    intro ref air optional16 windHigh windLines committed leaving
    refine exec_of_rule (i := .readBudget _ _) rfl ht rfl hr (congrArg (fun l => (s.taken, Reply.accept l)) ?_)
    have refAir : s.refAir = air := rfl
    have numbers (f : OutdoorAir → Int) : optItem (fun a => num16 (f a)) air = optional16 f := by
      dsimp only [optional16]
      cases air <;> rfl
    have high : s.windHigh = windHigh := rfl
    show s.budgetItems = _
    unfold State.budgetItems
    rw [refAir, high, numbers (·.tOa), numbers fun a => (a.wind : Int), numbers fun a => (derating s.tower a.tOa : Int),
      numbers fun a => (rawBudget s.tower a.tOa : Int), listItem_singletons]
    simp only [listItem, State.entryItems, List.append_assoc, List.cons_append, List.nil_append] <;> rfl
  case status =>
    exact exec_of_rule (i := .readStatus _ _) rfl ht rfl rfl rfl
  case count =>
    refine congrArg List.length ?_
    rw [State.presentUnits, List.filter_filter]
    simp only [Bool.and_comm]
  case line =>
    refine ⟨line_none, line_input, fun h => ?_, fun h => ?_, pinDriven_output⟩
    · exact (lineLevel_outFault h).trans (and_congr_left fun _ => outFault_iff)
    · exact (lineLevel_outFree h).trans (and_congr_left fun _ => outFree_iff)

end Sys2Proof.Machine
end

