-- ==== Sys2Proof/Proofs/NoticesAndMail.lean ====
section
/-! PROOFS. Proofs/NoticesAndMail.lean: the notice queue, its mask and flags, and the mail slot (R161, R162, R165, R166,
R189, R191, R193). -/

namespace Sys2Proof.Machine

/-! ## The place of a posted notice (R189) -/

/-- A notice goes behind those of its level and above, ahead of the others. -/
theorem placeNotice_sorted {n : Notice} {l : List Notice} (h : l.Pairwise fun a b => b.level ≤ a.level) :
    placeNotice n l = l.filter (fun m => n.level ≤ m.level) ++ n :: l.filter (fun m => m.level < n.level) := by
  induction l with
  | nil => rfl
  | cons m l ih =>
    rw [List.pairwise_cons] at h
    rw [placeNotice, List.filter_cons, List.filter_cons]
    by_cases hm : n.level ≤ m.level
    · simp [hm, Nat.not_lt.2 hm, ih h.2]
    · have below : ∀ a ∈ l, a.level < n.level := fun a ha => by
        have := h.1 a ha
        omega
      have none : l.filter (fun a => n.level ≤ a.level) = [] :=
        List.filter_eq_nil_iff.2 fun a ha => by simpa using below a ha
      have all : l.filter (fun a => a.level < n.level) = l :=
        List.filter_eq_self.2 fun a ha => by simpa using below a ha
      simp [hm, Nat.lt_of_not_le hm, none, all]

theorem dropOldest_eq {old : Notice} {back : List Notice} :
    ∀ {front : List Notice}, (∀ m ∈ front, old.level < m.level) →
      dropOldest old.level (front ++ old :: back) = front ++ back
  | [], _ => if_pos rfl
  | m :: front, h => by
    rw [List.cons_append, dropOldest, if_neg (Nat.ne_of_gt (h m List.mem_cons_self)),
      dropOldest_eq fun a ha => h a (List.mem_cons_of_mem _ ha)]
    rfl

theorem lowestLevel_eq {l : List Notice} {k : Nat} (hk : k < 3) (h : ∃ m ∈ l, m.level = k) (hle : ∀ m ∈ l, k ≤ m.level) :
    lowestLevel l = k := by
  obtain ⟨m, hm, rfl⟩ := h
  have le := lowestLevel_le hm
  obtain ⟨a, ha, e⟩ := lowestLevel_attained (l := l) (by omega)
  have := hle a ha
  omega

theorem not_lowestLevel_lt {l : List Notice} {k n : Nat} (hn : n ≤ k) (h3 : n ≤ 3) (hle : ∀ m ∈ l, k ≤ m.level) :
    ¬ lowestLevel l < n := by
  intro h
  obtain ⟨a, ha, e⟩ := lowestLevel_attained (l := l) (by omega)
  have := hle a ha
  omega

section Post
variable {q : Nq} {n : Notice}

theorem post_masked (h : n.level < q.mask) : q.post n = q := if_pos h

theorem post_placed (hm : q.mask ≤ n.level) (hs : q.queue.length < 32) :
    q.post n = { q with queue := placeNotice n q.queue } := by
  rw [Nq.post, if_neg (Nat.not_lt.2 hm), if_pos hs]

theorem post_full (hm : q.mask ≤ n.level) (hs : q.queue.length = 32) : q.post n =
    if lowestLevel q.queue < n.level then
      { q with queue := placeNotice n (dropOldest (lowestLevel q.queue) q.queue), noticeOverflow := true }
    else { q with noticeOverflow := true } := by
  rw [Nq.post, if_neg (Nat.not_lt.2 hm), if_neg (by omega)]

end Post

/-- Settles O32: the three ways a post goes. -/
theorem postedNoticeIsPlaced : Obligations.PostedNoticeIsPlaced := by
  refine fun q n => ⟨post_masked, fun hm hs hq => ?_, fun hm hs hq front old back e hf hb => ?_⟩
  · rw [post_placed hm hs, placeNotice_sorted hq]
  · have least : ∀ m ∈ q.queue, old.level ≤ m.level := by
      intro m hm
      rw [e, List.mem_append, List.mem_cons] at hm
      rcases hm with hm | rfl | hm
      · exact Nat.le_of_lt (hf m hm)
      · exact Nat.le_refl _
      · exact Nat.le_of_eq (hb m hm).symm
    refine ⟨fun hl h3 => ?_, fun hl h3 => ?_⟩
    · have lowest : lowestLevel q.queue = old.level := lowestLevel_eq (by omega) ⟨old, by simp [e], rfl⟩ least
      have rest : (front ++ back).Pairwise fun a b => b.level ≤ a.level := by
        rw [e] at hq
        exact hq.sublist (List.Sublist.append_left (List.sublist_cons_self old back) front)
      rw [post_full hm hs, lowest, if_pos hl, e, dropOldest_eq hf, placeNotice_sorted rest]
    · rw [post_full hm hs, if_neg (not_lowestLevel_lt hl h3 least)]

/-! ## Mask and flags (R191, R193) -/

theorem clearFlags_eq (q : Nq) (b : Byte) : q.clearFlags b =
    { q with
      noticeOverflow := if b.getLsbD 0 then false else q.noticeOverflow
      requestOverrun := if b.getLsbD 1 then false else q.requestOverrun
      fieldCheck := if b.getLsbD 2 then false else q.fieldCheck } := by
  have kept (f c : Bool) : (f && !c) = if c then false else f := by cases c <;> simp
  rw [Nq.clearFlags, kept, kept, kept]

theorem flagsByte_eq (q : Nq) : q.flagsByte =
    byteOf ((if q.noticeOverflow then 1 else 0) + (if q.requestOverrun then 2 else 0) +
      (if q.fieldCheck then 4 else 0)) := rfl

/-- Settles O34. -/
theorem maskAndFlagsAreSet : Obligations.MaskAndFlagsAreSet := by
  refine ⟨fun s tag m ht => ⟨fun hm => ?_, fun hm => ?_⟩, fun s tag b ht => ⟨fun hb => ?_, fun hb => ?_⟩⟩
  · exact exec_of_rule (i := .setNoticeMask _ _) rfl ht rfl rfl (if_pos hm)
  · exact exec_of_rule (i := .setNoticeMask _ _) rfl ht rfl rfl (if_neg (Nat.not_lt.2 hm))
  · have out : flagsInRange b = false := decide_eq_false (Nat.not_lt.2 hb)
    refine exec_of_rule (i := .clearFlags _ _) rfl ht rfl rfl ?_
    exact if_neg (by rw [out]; exact Bool.false_ne_true)
  · intro q
    have cleared : s.nq.clearFlags b = q := clearFlags_eq ..
    refine exec_of_rule (i := .clearFlags _ _) rfl ht rfl rfl ((if_pos (decide_eq_true hb)).trans ?_)
    rw [← flagsByte_eq, ← cleared]
    rfl

/-! ## Mail (R161, R162, R165, R166) -/

section PostMail
variable {s : State} {n : Byte} {mail : List Byte} {u : UnitNo} (h : s.namedUnit n = some u)
include h

theorem takePost_busy (hs : s.flc.mail.state ≠ .idle) :
    State.takePost (n :: mail) s = (s, .refuse .busy s.flc.mail.unitByte) := by
  unfold State.takePost
  dsimp only
  rw [h]
  exact if_pos hs

theorem takePost_offline (hs : s.flc.mail.state = .idle) (hp : (s.unit u).presence ≠ .online) :
    State.takePost (n :: mail) s = (s, .refuse .unitOffline n) := by
  unfold State.takePost
  dsimp only
  rw [h]
  dsimp only
  rw [if_neg (Decidable.not_not.2 hs), if_pos hp]

theorem takePost_posted (hs : s.flc.mail.state = .idle) (hp : (s.unit u).presence = .online) :
    State.takePost (n :: mail) s =
      ((s.postMail u mail).grantOnWork, .accept [n, byteOf mail.length, s.flc.postNumber + 1]) := by
  unfold State.takePost
  dsimp only
  rw [h]
  dsimp only
  rw [if_neg (Decidable.not_not.2 hs), if_neg (Decidable.not_not.2 hp)]

end PostMail

theorem unitByte_eq {m : MailSlot} {u : UnitNo} (h : m.unit = some u) : m.unitByte = byteOf u.val := by
  rw [MailSlot.unitByte, h]

/-- Settles O35. -/
theorem postMailPosts : Obligations.PostMailPosts := by
  intro s tag u mail hr h1 h32 ht present
  have named := namedUnit_byteOf (s := s.taken) present
  have length : ReqKind.postMail.lengthOk (byteOf u.val :: mail).length = true := by
    rw [List.length_cons]
    exact Bool.and_eq_true_iff.2 ⟨decide_eq_true (by omega), decide_eq_true (by omega)⟩
  refine ⟨fun v hs hv => ?_, fun hs hp => ?_, fun hs hp => ⟨(ran_grantOnWork _).toRunFrame, ?_⟩⟩
  · exact exec_of_rule (i := .postMail _ _) rfl ht length hr
      ((takePost_busy named hs).trans (congrArg (fun b => (s.taken, Reply.refuse .busy b)) (unitByte_eq hv)))
  · exact exec_of_rule (i := .postMail _ _) rfl ht length hr (takePost_offline named hs hp)
  · exact exec_of_rule (i := .postMail _ _) rfl ht length hr (takePost_posted named hs hp)

section TakeMail
variable {s : State} {u : UnitNo} (hu : s.flc.mail.unit = some u)
include hu

theorem takeMail_answered {reply : List Byte} (hs : s.flc.mail.state = .answered) (hr : s.flc.mail.reply = some reply) :
    s.takeMail = (s.clearMail, .accept ([byteOf u.val, s.flc.postNumber, byteOf s.flc.mail.attempts, 3,
      byteOf reply.length] ++ reply)) := by
  rw [State.takeMail, hs]
  dsimp only
  rw [State.mailHead, unitByte_eq hu, MailSlot.replyBytes, hr, listItem_singletons, hs, List.map_id']
  rfl

theorem takeMail_failed {why : MailFailure} (hs : s.flc.mail.state = .failed) (hr : s.flc.mail.reason = some why) :
    s.takeMail = (s.clearMail, .accept [byteOf u.val, s.flc.postNumber, byteOf s.flc.mail.attempts, 4,
      if why = .noReply then 0 else 1]) := by
  rw [State.takeMail, hs]
  dsimp only
  rw [State.mailHead, unitByte_eq hu, MailSlot.reasonByte, hr, hs]
  cases why <;> rfl

theorem takeMail_busy (hs : s.flc.mail.state = .posted ∨ s.flc.mail.state = .sent) :
    s.takeMail = (s, .refuse .busy (byteOf u.val)) := by
  unfold State.takeMail
  rcases hs with hs | hs
  all_goals
    rw [hs]
    dsimp only
    rw [unitByte_eq hu]

end TakeMail

theorem takeMail_idle {s : State} (hs : s.flc.mail.state = .idle) :
    s.takeMail = (s, .refuse .wrongState (opStateCode s.slp.opState)) := by
  rw [State.takeMail, hs]

/-- Settles O36. -/
theorem mailIsTakenOrCancelled : Obligations.MailIsTakenOrCancelled := by
  refine ⟨fun s tag u ht => ⟨fun reply hs hu hr => ?_, fun why hs hu hr => ?_, fun hs hu => ?_, fun hs => ?_⟩,
    fun s tag ht => exec_of_rule (i := .cancelMail _ _) rfl ht rfl rfl rfl⟩
  · exact exec_of_rule (i := .takeMail _ _) rfl ht rfl rfl (takeMail_answered (s := s.taken) hu hs hr)
  · exact exec_of_rule (i := .takeMail _ _) rfl ht rfl rfl (takeMail_failed (s := s.taken) hu hs hr)
  · exact exec_of_rule (i := .takeMail _ _) rfl ht rfl rfl (takeMail_busy (s := s.taken) hu hs)
  · exact exec_of_rule (i := .takeMail _ _) rfl ht rfl rfl (takeMail_idle (s := s.taken) hs)

end Sys2Proof.Machine
end

