-- ==== Sys2Proof/Proofs/TimerEvents.lean ====
section
/-! PROOFS. Proofs/TimerEvents.lean: the second boundary, the ages, the dwell and settle timers, the sweeps and the roll
passes (R4, R9, R14, R48, R62 to R65, R70, R87, R90, R106, R140). -/

namespace Sys2Proof.Machine

theorem whileRunning_of_stopped {s : State} (hr : s.running = false) (f : State → State) : s.whileRunning f = s :=
  whileRunning_eq_self fun h => absurd h (by simp [hr])

/-- An event that acts on a condition, where the condition holds and where it does not. -/
theorem whileRunning_if {s : State} {p : State → Prop} [DecidablePred p] {f : State → State}
    (h : s.slp.resetHeld = false) (hr : s.running = true) :
    (p s → s.whileRunning (fun s => if p s then f s else s) = f s) ∧
    (¬ p s → s.whileRunning (fun s => if p s then f s else s) = s) := by
  rw [whileRunning_of_running h hr]
  exact ⟨fun hp => if_pos hp, fun hp => if_neg hp⟩

/-! ## A second boundary (R4) -/

section Tick
variable (s : State)

theorem unit_tick (u : UnitNo) : s.tick.unit u = (s.unit u).tick := mapTable_get ..

theorem station_tick (st : StationNo) : s.tick.station st = (s.station st).tick := mapTable_get ..

theorem riser_tick (r : RiserNo) : s.tick.riser r = (s.riser r).tick := mapTable_get ..

theorem ctx_tick (r : RiserNo) : s.tick.ctx r = (s.ctx r).map Ctx.tick := mapTable_get ..

end Tick

/-- Settles O37. -/
theorem secondBoundary : Obligations.SecondBoundary := by
  refine fun s h => ⟨fun hr => congrArg Host.Outcome.next (whileRunning_of_stopped hr _), fun hr => ⟨s.tick,
    congrArg Host.Outcome.next (whileRunning_of_running h hr _), rfl, rfl, rfl, rfl, rfl, rfl, rfl, rfl, rfl,
    fun u => ?_, fun st => ?_, fun r => ?_, fun r => ?_⟩⟩
  · rw [unit_tick]
    rfl
  · rw [station_tick]
    rfl
  · rw [riser_tick]
    rfl
  · exact ctx_tick s r

/-! ## Ages (R9, R14) -/

theorem staleDue_iff {s : State} {u : UnitNo} : s.staleDue u = true ↔
    ((s.unit u).reading.condition = .fresh ∨ (s.unit u).reading.condition = .sensorHold) ∧
      s.tower.staleLimit ≤ (s.unit u).reading.age := by
  rw [State.staleDue, Bool.and_eq_true, Bool.or_eq_true, beq_iff_eq, beq_iff_eq, decide_eq_true_iff]

theorem maxAgeDue_iff {s : State} {st : StationNo} : s.maxAgeDue st = true ↔
    (s.station st).live.status = .fresh ∧ (s.station st).cfg.maxAge ≤ (s.station st).live.age := by
  rw [State.maxAgeDue, Bool.and_eq_true, beq_iff_eq, decide_eq_true_iff]

/-- Settles O38. -/
theorem agesReachTheirLimits : Obligations.AgesReachTheirLimits := by
  refine ⟨fun s u h hr => ?_, fun s st h hr => ?_⟩
  · intro m due
    obtain ⟨taken, left⟩ := whileRunning_if (p := fun s => s.staleDue u = true)
      (f := fun s => (s.changeCondition u .stale).grantOnWork) h hr
    refine ⟨fun hd => ⟨?_, congrArg Host.Outcome.next (taken (staleDue_iff.2 hd))⟩,
      fun hd => congrArg Host.Outcome.next (left fun e => hd (staleDue_iff.1 e))⟩
    exact (Ran.cascade_trans (cascade_ownEvent ..) (ran_grantOnWork _)).toRunFrame
  · intro m z due
    obtain ⟨taken, left⟩ := whileRunning_if (p := fun s => s.maxAgeDue st = true)
      (f := fun s => (s.staleStation st).grantOnWork) h hr
    refine ⟨fun hd => ⟨?_, congrArg Host.Outcome.next (taken (maxAgeDue_iff.2 hd))⟩,
      fun hd => congrArg Host.Outcome.next (left fun e => hd (maxAgeDue_iff.1 e))⟩
    exact (Ran.cascade_trans ((cascade_post 2 _ _ m rfl).trans (cascade_stationEvent ..)) (ran_grantOnWork _)).toRunFrame

/-! ## Dwell, settle and the joining check (R48, R62 to R65, R70, R87, R90) -/

theorem votes_iff {s : State} {u : UnitNo} : s.votes u = true ↔
    (s.unit u).presence = .online ∧ (s.unit u).decision.control = .auto ∧ (s.unit u).reading.flags.fanOff = false ∧
    (s.unit u).reading.condition = .fresh ∧ (s.station (s.unit u).cfg.station).live.status = .fresh ∧
    (s.unit u).reading.flags.damperFault = false ∧ (s.unit u).decision.preference = some .freeCool := by
  simp only [State.votes, Bool.and_eq_true, beq_iff_eq, Bool.not_eq_true', and_assoc]

section Apply
variable {s : State} {r : RiserNo}

theorem applyCount_individual (h : (s.riser r).live.state = .individual) : s.applyCount r = s.joinCheck r := by
  rw [State.applyCount, h]

theorem applyCount_queued (h : (s.riser r).live.state = .queued) : s.applyCount r =
    if (s.riser r).live.voters.length < (s.riser r).cfg.quorum then s.withdraw r .votes true else s := by
  rw [State.applyCount, h]

theorem applyCount_free (h : (s.riser r).live.state = .free) : s.applyCount r =
    if (s.riser r).live.voters.length < (s.riser r).cfg.hold ∧ (s.riser r).live.settle = 0 then
      s.withdraw r .votes true
    else s := by
  rw [State.applyCount, h]

theorem applyCount_changing (h : (s.riser r).live.state = .entering ∨ (s.riser r).live.state = .leaving) :
    s.applyCount r = s := by
  unfold State.applyCount
  dsimp only
  rcases h with h | h <;> rw [h]

theorem settleExpired_eq : s.settleExpired r =
    match (s.riser r).live.state with
    | .individual => s.joinCheck r
    | .free =>
      if (s.riser r).live.voters.length < (s.riser r).cfg.hold ∧ (s.riser r).live.settle = 0 then
        s.withdraw r .votes true
      else s
    | .queued => s
    | .entering => s
    | .leaving => s := by
  unfold State.settleExpired
  cases h : (s.riser r).live.state with
  | free => exact applyCount_free h
  | individual | queued | entering | leaving => rfl

theorem mayJoin_iff : s.mayJoin r = true ↔ (s.riser r).cfg.quorum ≤ (s.riser r).live.voters.length ∧
    (s.riser r).live.settle = 0 ∧ (s.riser r).live.locked = false ∧ s.roleActive .inFreeze = false ∧
    s.roleActive .inEmergency = false := by
  simp only [State.mayJoin, Bool.and_eq_true, decide_eq_true_iff, beq_iff_eq, Bool.not_eq_true', and_assoc]

end Apply

/-- A riser is placed behind those that it does not go ahead of. -/
theorem placeRiser_eq {rank : RiserNo → Nat} {policy : GrantPolicy} {r : RiserNo} {back : List RiserNo}
    (hb : ∀ q rest, back = q :: rest → goesAhead rank policy r q = true) :
    ∀ {front : List RiserNo}, (∀ q ∈ front, goesAhead rank policy r q = false) →
      placeRiser rank policy r (front ++ back) = front ++ r :: back
  | [], _ => by
    cases back with
    | nil => rfl
    | cons q back => exact if_pos (hb q back rfl)
  | q :: front, hf => by
    rw [List.cons_append, placeRiser, if_neg (by rw [hf q List.mem_cons_self]; exact Bool.false_ne_true),
      placeRiser_eq hb fun p hp => hf p (List.mem_cons_of_mem _ hp)]
    rfl

theorem goesAhead_iff {rank : RiserNo → Nat} {policy : GrantPolicy} {r q : RiserNo} :
    goesAhead rank policy r q = true ↔ rank q < rank r ∨ rank q = rank r ∧ policy = .fixed ∧ r < q := by
  simp only [goesAhead, Bool.or_eq_true, Bool.and_eq_true, decide_eq_true_iff, beq_iff_eq, and_assoc]

theorem rank_riserTo (s : State) (r : RiserNo) (st : RiserState) (c : Cause) (e : Bool) :
    (s.riserTo r st c e).rank = s.rank := funext fun q => congrArg (·.rank) ((cascade_riserTo r st c e s).riser q).1

/-- Settles O39: the two expiries, then what they lead to. -/
theorem dwellAndSettleExpire : Obligations.DwellAndSettleExpire := by
  refine ⟨fun s u h hr => ?dwell, fun s r h hr => ?settle, fun s u cls => rfl, fun s u => votes_iff,
    fun s r => ⟨fun u => mem_members, pairwise_filter_fins _, ?recount⟩, fun s r => ?join⟩
  case dwell =>
    intro m
    obtain ⟨taken, left⟩ := whileRunning_if (p := fun s => (s.unit u).decision.dwellExpired = true)
      (f := fun s => ((s.modDecision u fun d => { d with dwellExpired := false }).ownEvent u .automatic).grantOnWork) h hr
    refine ⟨fun hd => ⟨?_, congrArg Host.Outcome.next (taken hd)⟩,
      fun hd => congrArg Host.Outcome.next (left (by rw [hd]; exact Bool.false_ne_true))⟩
    exact (Ran.cascade_trans (cascade_ownEvent ..) (ran_grantOnWork _)).toRunFrame
  case settle =>
    intro m n
    obtain ⟨taken, left⟩ := whileRunning_if (p := fun s => (s.riser r).live.settleExpired = true)
      (f := fun s => ((s.modLive r fun l => { l with settleExpired := false }).settleExpired r).grantOnWork) h hr
    have riser : m.riser r = { s.riser r with live := { (s.riser r).live with settleExpired := false } } := by
      rw [modLive_riser, if_pos rfl]
    have expired : m.settleExpired r = n := by
      rw [settleExpired_eq, riser] <;>
        rfl
    rw [show (s.modLive r fun l => { l with settleExpired := false }).settleExpired r = n from expired] at taken
    refine ⟨fun hd => ⟨?_, congrArg Host.Outcome.next (taken hd)⟩,
      fun hd => congrArg Host.Outcome.next (left (by rw [hd]; exact Bool.false_ne_true))⟩
    rw [← expired]
    exact (Ran.cascade_trans (cascade_settleExpired ..) (ran_grantOnWork _)).toRunFrame
  case recount =>
    intro voters m x
    have riser : m.riser r = { x with live := { x.live with
        voters := voters
        onlineMembers := ((s.members r).filter fun u => (s.unit u).presence == .online).length } } := by
      rw [modLive_riser, if_pos rfl]
    have counted : s.recount r = m.applyCount r := rfl
    rw [counted]
    refine ⟨fun hs => ?_, fun hs => ?_, fun hs => ?_, fun hs => ?_⟩
    · exact applyCount_individual (by rw [riser]; exact hs)
    · rw [applyCount_queued (by rw [riser]; exact hs), riser]
    · rw [applyCount_free (by rw [riser]; exact hs), riser]
    · exact applyCount_changing (by rw [riser]; exact hs)
  case join =>
    intro passes ahead m
    refine ⟨fun hp => if_neg fun e => hp (mayJoin_iff.1 e), fun front back hp hq hf hb => ?_⟩
    rw [State.joinCheck, if_pos (mayJoin_iff.2 hp), State.enqueue, rank_riserTo]
    refine congrArg State.scan ?_
    have placed : placeRiser s.rank s.tower.policy r s.sba.queue = front ++ r :: back := by
      rw [hq]
      exact placeRiser_eq (fun q rest e => goesAhead_iff.2 (hb q rest e))
        fun q hq => Bool.eq_false_iff.2 fun e => hf q hq (goesAhead_iff.1 e)
    rw [← placed]
    rfl

/-! ## Sweeps and passes (R106, R140) -/

theorem pollInFlight_eq_false {s : State} : s.pollInFlight = false ↔
    ∀ x, s.flc.link = some x → x.requester ≠ .sweep ∨ x.heeded = false := by
  unfold State.pollInFlight
  cases h : s.flc.link with
  | none => simp
  | some x =>
    dsimp only
    rw [Bool.and_eq_false_iff, beq_eq_false_iff_ne]
    exact ⟨fun e _ hy => Option.some.inj hy ▸ e, fun e => e x rfl⟩

theorem sweepDue_iff {s : State} : s.sweepDue = true ↔ s.flc.sweep.running = true ∧ s.nextPoll = none ∧
    (∀ x, s.flc.link = some x → x.requester ≠ .sweep ∨ x.heeded = false) ∧
    s.tower.sweepPeriod ≤ s.flc.sweep.elapsed + 1 := by
  rw [← pollInFlight_eq_false]
  simp only [State.sweepDue, Bool.and_eq_true, Option.isNone_iff_eq_none, Bool.not_eq_true', decide_eq_true_iff, and_assoc]

/-- Settles O42. -/
theorem sweepsAndPassesStart : Obligations.SweepsAndPassesStart := by
  refine ⟨fun s h hr => ?sweep, fun s r h hr => ⟨fun c hc hp => ⟨?_, ?pass⟩, fun hn => ?none⟩⟩
  case sweep =>
    intro m pollDone due
    obtain ⟨taken, left⟩ := whileRunning_if (p := fun s => s.sweepDue = true)
      (f := fun s => s.startSweep.grantOnWork) h hr
    exact ⟨fun hd => ⟨(ran_grantOnWork _).toRunFrame, congrArg Host.Outcome.next (taken (sweepDue_iff.2 hd))⟩,
      fun hd => congrArg Host.Outcome.next (left fun e => hd (sweepDue_iff.1 e))⟩
  · exact (ran_grantOnWork _).toRunFrame
  case pass =>
    refine congrArg Host.Outcome.next ((whileRunning_of_running h hr _).trans ?_)
    rw [hc]
    exact if_pos hp
  case none =>
    refine congrArg Host.Outcome.next ((whileRunning_of_running h hr _).trans ?_)
    cases hc : s.ctx r with
    | none => rfl
    | some c => exact if_neg (hn c hc)

end Sys2Proof.Machine
end

