-- ==== Sys2Proof/Proofs/ContextTimers.lean ====
section
/-! PROOFS. Proofs/ContextTimers.lean: the windows of a changeover context, its cancel and its end (R55, R67, R68, R72, R94,
R95, R111, R114, R116 to R118, R121, R122). -/

namespace Sys2Proof.Machine

/-! ## What leaves one riser alone -/

/-- What leaves the record and the context of riser `r` alone, and the draining weight. -/
structure Apart (r : RiserNo) (s t : State) : Prop where
  riser : t.riser r = s.riser r
  ctx : t.ctx r = s.ctx r
  draining : t.sba.draining = s.sba.draining

namespace Apart

variable {r q : RiserNo}

theorem rfl (s : State) : Apart r s s := ⟨Eq.refl _, Eq.refl _, Eq.refl _⟩

theorem trans {a b c : State} (h : Apart r a b) (k : Apart r b c) : Apart r a c :=
  ⟨k.riser.trans h.riser, k.ctx.trans h.ctx, k.draining.trans h.draining⟩

theorem quiet {s t : State} (h : Quiet s t) : Apart r s t :=
  ⟨by rw [State.riser, h.risers]; rfl, by rw [State.ctx, h.ce]; rfl, by rw [h.sba]⟩

theorem modRiser (h : q ≠ r) (f : RiserRec → RiserRec) (s : State) : Apart r s (s.modRiser q f) :=
  ⟨by rw [modRiser_riser, if_neg h], Eq.refl _, Eq.refl _⟩

theorem setCtx (h : q ≠ r) (c : Option Ctx) (s : State) : Apart r s (s.setCtx q c) :=
  ⟨Eq.refl _, by rw [setCtx_ctx, if_neg h], Eq.refl _⟩

theorem riserTo (h : q ≠ r) (st : RiserState) (c : Cause) (e : Bool) (s : State) : Apart r s (s.riserTo q st c e) :=
  .trans (.modRiser h _ s) (.quiet (.post ..))

theorem newContext (h : q ≠ r) (d : Direction) (ph : Phase) (us : List UnitNo) (s : State) :
    Apart r s (s.newContext q d ph us) := by
  refine ⟨Eq.refl _, ?_, Eq.refl _⟩
  show (updTable s.ce.ctxs q _)[r] = _
  rw [updTable_get, if_neg h]
  rfl

theorem admitRiser (h : q ≠ r) (s : State) : Apart r s (s.admitRiser q) := by
  unfold State.admitRiser
  split
  · exact .trans (.riserTo h ..) (.newContext h ..)
  · have settled : Apart r s ((s.riserTo q .free .admitted false).startSettle q) :=
      .trans (.riserTo h ..) (.modRiser h ..)
    exact (settled.trans (.quiet (quiet_evaluateAll ..))).trans (.modRiser h ..)

theorem admitRisers {l : List RiserNo} (h : r ∉ l) (s : State) : Apart r s (l.foldl State.admitRiser s) := by
  induction l generalizing s with
  | nil => exact .rfl s
  | cons q l ih =>
    have hq : q ≠ r := fun e => h (e ▸ List.mem_cons_self)
    exact .trans (.admitRiser hq s) (ih (fun e => h (List.mem_cons_of_mem q e)) _)

/-- The scan leaves alone a riser that is not on the queue. -/
theorem scan {s : State} (h : r ∉ s.sba.queue) : Apart r s s.scan := by
  unfold State.scan
  split
  · exact .rfl s
  · have admitted : r ∉ (scanWalk s.weight s.headroom s.sba.queue).2 := fun e => h ((mem_scanWalk ..).2 (.inr e))
    refine .trans ?_ (.admitRisers admitted _)
    exact ⟨Eq.refl _, Eq.refl _, Eq.refl _⟩

end Apart

theorem link_of_cascade {s t : State} (h : Cascade s t) : t.flc.link = s.flc.link := by rw [flc_of_cascade h]

/-- With the link BUSY no grant follows an event. -/
theorem grantOnWork_of_cascade {s t : State} (h : Cascade s t) {x : Txn} (hx : s.flc.link = some x) :
    t.grantOnWork = t := by
  refine grantOnWork_of_busy ?_
  rw [link_of_cascade h, hx]
  rfl

theorem riser_riserTo (s : State) (r : RiserNo) (st : RiserState) (c : Cause) (e : Bool) : (s.riserTo r st c e).riser r =
    { s.riser r with live :=
      { (s.riser r).live with state := st, lastExit := if e then c else (s.riser r).live.lastExit } } :=
  (modLive_riser r (fun l => { l with state := st, lastExit := if e then c else l.lastExit }) s r).trans (if_pos rfl)

/-! ## The cancel (R68, R94, R116 to R118) -/

/-- A cancel that waits to be sent: the riser LEAVING, its grant made draining weight (R117). -/
def State.cancelling (r : RiserNo) (c : Ctx) (reason : Cause) (s : State) : State :=
  (((s.setCtx r (some (c.cancelled reason))).riserTo r .leaving reason true).ungrant r).drain r

section
variable (s : State) (r : RiserNo) (c : Ctx) (reason : Cause)

theorem riser_cancelling : (s.cancelling r c reason).riser r =
    { s.riser r with live := { (s.riser r).live with state := .leaving, lastExit := reason } } := riser_riserTo ..

theorem ctx_cancelling : (s.cancelling r c reason).ctx r = some (c.cancelled reason) :=
  (setCtx_ctx ..).trans (if_pos rfl)

theorem draining_cancelling : (s.cancelling r c reason).sba.draining = s.sba.draining + (s.riser r).cfg.weight := by
  have weight : ((s.cancelling r c reason).riser r).cfg.weight = (s.riser r).cfg.weight := by rw [riser_cancelling]
  rw [← weight]
  rfl

end

section Cancel
variable {s : State} {r : RiserNo} {c : Ctx} {reason : Cause}

theorem ceCancel_calling (h : c.phase = .callPending) : s.ceCancel r c reason =
    ((s.postChangeover r c .cancelled (some reason) 0).riserTo r .individual reason true).afterContextDrop r c.units
      true := by
  rw [State.ceCancel, h]

theorem ceCancel_called (h : c.phase = .rollReady ∨ c.phase = .commitPending) : s.ceCancel r c reason =
    (s.cancelling r c reason).scan := by
  unfold State.ceCancel
  rcases h with h | h
  all_goals
    rw [h]
    rfl

theorem ceCancel_late (h : c.phase = .rollDone ∨ c.phase = .cancelPending ∨ c.phase = .returnPending) :
    s.ceCancel r c reason = s := by
  unfold State.ceCancel
  rcases h with h | h | h <;> rw [h]

end Cancel

/-- An expiry that finds no window of its phase run out changes nothing. -/
theorem exec_readyWindowExpiry_idle {s : State} {r : RiserNo} (h : s.slp.resetHeld = false) (hr : s.running = true)
    (hn : ∀ c, s.ctx r = some c → c.phase ≠ .rollReady ∨ c.window ≠ some 0) :
    exec (.readyWindowExpiry r) s = .next s := by
  refine congrArg Host.Outcome.next ((whileRunning_of_running h hr _).trans ?_)
  cases hc : s.ctx r with
  | none => rfl
  | some c => exact if_neg (Decidable.not_and_iff_or_not.2 (hn c hc))

theorem exec_readyWindowExpiry_due {s : State} {r : RiserNo} {c : Ctx} (h : s.slp.resetHeld = false)
    (hr : s.running = true) (hc : s.ctx r = some c) (hp : c.phase = .rollReady) (hw : c.window = some 0) :
    exec (.readyWindowExpiry r) s = .next (s.ceCancel r c .readyTimeout).grantOnWork := by
  refine congrArg Host.Outcome.next ((whileRunning_of_running h hr _).trans ?_)
  rw [hc]
  exact if_pos ⟨hp, hw⟩

/-- Settles O40: the expiry, then the cancel by the phase of its context. -/
theorem readyWindowExpires : Obligations.ReadyWindowExpires := by
  refine ⟨fun s r h hr => ⟨fun c hc hp hw => ⟨?_, exec_readyWindowExpiry_due h hr hc hp hw⟩,
    fun c x hc hp hw hx hq => ⟨_, exec_readyWindowExpiry_due h hr hc hp hw, ?busy⟩, exec_readyWindowExpiry_idle h hr⟩,
    fun s r c reason => ?cancel⟩
  · exact (Ran.cascade_trans (cascade_ceCancel ..) (ran_grantOnWork _)).toRunFrame
  case busy =>
    rw [grantOnWork_of_cascade (cascade_ceCancel ..) hx, ceCancel_called (.inl hp)]
    have kept : Apart r (s.cancelling r c .readyTimeout) (s.cancelling r c .readyTimeout).scan := .scan hq
    rw [kept.riser, kept.ctx, kept.draining,
      riser_cancelling, ctx_cancelling, draining_cancelling]
    exact ⟨rfl, rfl, rfl, rfl⟩
  case cancel =>
    intro goes recounted settle
    refine ⟨fun hp => (ceCancel_calling hp).trans rfl, fun hp => (ceCancel_called hp).trans rfl, ceCancel_late⟩

/-! ## The end of a context (R67, R72, R95, R114, R121) -/

/-- The end of a done roll: the notice, the riser's new state with its settle started, and no context. -/
def State.ended (r : RiserNo) (st : RiserState) (c : Ctx) (res : Result) (late : Nat) (s : State) : State :=
  (((s.postChangeover r c res none late).riserTo r st .complete false).startSettle r).setCtx r none

section Ended
variable (r : RiserNo) (st : RiserState) (c : Ctx) (res : Result) (late : Nat) (s : State)

theorem riser_startSettle : (s.startSettle r).riser r =
    { s.riser r with live := { (s.riser r).live with settle := (s.riser r).cfg.settle, settleExpired := false } } := by
  rw [State.startSettle, modRiser_riser, if_pos rfl]

theorem riser_count : (s.count r).riser r =
    { s.riser r with live :=
      { (s.riser r).live with
        voters := (s.members r).filter s.votes
        onlineMembers := ((s.members r).filter s.isOnline).length } } := by
  rw [State.count, modLive_riser, if_pos rfl]

theorem riser_ended : (s.ended r st c res late).riser r =
    { s.riser r with live :=
      { (s.riser r).live with state := st, settle := (s.riser r).cfg.settle, settleExpired := false } } := by
  rw [State.ended, setCtx_riser, riser_startSettle, riser_riserTo]
  rfl

theorem ctx_ended : (s.ended r st c res late).ctx r = none := (setCtx_ctx ..).trans (if_pos rfl)

theorem enterComplete_eq : s.enterComplete r c res late =
    (((s.ended r .free c res late).evaluateAll c.units .riser).evaluateAll
      ((s.members r).filter fun u => !c.units.contains u) .riser).count r := rfl

theorem leaveComplete_eq : s.leaveComplete r c res late =
    ((((s.ended r .individual c res late).returnMembers r).count r).undrain r).scan := rfl

/-- What an ENTER that completes leaves of its riser. -/
theorem enterComplete_leaves : ((s.enterComplete r c res late).riser r).live.state = .free ∧
    ((s.enterComplete r c res late).riser r).live.settle = (s.riser r).cfg.settle ∧
    (s.enterComplete r c res late).ctx r = none ∧ (s.enterComplete r c res late).sba = s.sba := by
  have quiet : Quiet (s.ended r .free c res late) _ := (quiet_evaluateAll c.units .riser _).trans
    (quiet_evaluateAll ((s.members r).filter fun u => !c.units.contains u) .riser _)
  have apart : Apart r (s.ended r .free c res late) _ := .quiet quiet
  rw [enterComplete_eq, riser_count, apart.riser, riser_ended]
  exact ⟨rfl, rfl, apart.ctx.trans (ctx_ended ..), quiet.sba⟩

/-- What a LEAVE that completes leaves of its riser, the scan passing it by. -/
theorem leaveComplete_leaves (hq : r ∉ s.sba.queue) : ((s.leaveComplete r c res late).riser r).live.state = .individual ∧
    ((s.leaveComplete r c res late).riser r).live.settle = (s.riser r).cfg.settle ∧
    (s.leaveComplete r c res late).ctx r = none ∧
    (s.leaveComplete r c res late).sba.draining = s.sba.draining - (s.riser r).cfg.weight := by
  have quiet := quiet_returnMembers r (s.ended r .individual c res late)
  have apart : Apart r (s.ended r .individual c res late) _ := .quiet quiet
  let w := ((((s.ended r .individual c res late).returnMembers r).count r).undrain r)
  have queue : w.sba.queue = s.sba.queue := by
    have kept := congrArg Sba.queue quiet.sba
    exact kept
  have scanned : Apart r w w.scan := .scan (by rw [queue]; exact hq)
  have riser : w.riser r = (((s.ended r .individual c res late).returnMembers r).count r).riser r := rfl
  have draining : w.sba.draining = s.sba.draining - (s.riser r).cfg.weight := by
    have weight : (w.riser r).cfg.weight = (s.riser r).cfg.weight := by
      rw [riser, riser_count, apart.riser, riser_ended]
    rw [← weight, ← show ((s.ended r .individual c res late).returnMembers r).sba = s.sba from quiet.sba]
    rfl
  rw [leaveComplete_eq, scanned.riser, scanned.ctx, scanned.draining, draining, riser, riser_count, apart.riser,
    riser_ended]
  exact ⟨rfl, rfl, apart.ctx.trans (ctx_ended ..), rfl⟩

end Ended

/-! ## LATE marks (R55) -/

theorem setCtx_foldl_markLate (r : RiserNo) (c : Option Ctx) (d : Direction) (us : List UnitNo) : ∀ s : State,
    us.foldl (State.markLate d) (s.setCtx r c) = (us.foldl (State.markLate d) s).setCtx r c := by
  induction us with
  | nil => exact fun _ => rfl
  | cons u us ih => exact fun s => ih (s.markLate d u)

theorem late_markLate (d : Direction) (s : State) (v u : UnitNo) : ((s.markLate d v).unit u).decision.late =
    if v = u then some d else (s.unit u).decision.late := by
  rw [State.markLate, modDecision_unit]
  split <;> rfl

theorem late_foldl_markLate (d : Direction) (u : UnitNo) (us : List UnitNo) : ∀ s : State,
    ((us.foldl (State.markLate d) s).unit u).decision.late = if u ∈ us then some d else (s.unit u).decision.late := by
  induction us with
  | nil => exact fun _ => rfl
  | cons v us ih =>
    intro s
    rw [List.foldl_cons, ih, late_markLate]
    by_cases h : v = u
    · simp [h]
    · simp [h, Ne.symm h]

theorem quiet_markLates (d : Direction) (us : List UnitNo) (s : State) : Quiet s (us.foldl (State.markLate d) s) :=
  .foldl (fun _ _ => .modDecision ..) us s

theorem doneExpires_eq (r : RiserNo) (c : Ctx) (s : State) : s.doneExpires r c =
    ((c.lateUnits.foldl (State.markLate c.direction) s).setCtx r (some c.withLate)).rollEnds r c.withLate .completeLate
      c.lateUnits.length := by
  rw [State.doneExpires, setCtx_foldl_markLate]

theorem mem_lateUnits {c : Ctx} {p : Participant} (hp : p ∈ c.participants) (hd : p.status ≠ .done)
    (hr : p.status ≠ .dropped) : p.unit ∈ c.lateUnits := by
  refine List.mem_map_of_mem (List.mem_filter.2 ⟨hp, ?_⟩)
  rw [bne_iff_ne.2 hd, bne_iff_ne.2 hr]
  rfl

/-- What stays LATE through the end of the context. -/
theorem late_doneExpires {s : State} (r : RiserNo) {c : Ctx} {p : Participant} (hp : p ∈ c.participants)
    (hd : p.status ≠ .done) (hr : p.status ≠ .dropped) :
    ((s.doneExpires r c).unit p.unit).decision.late = some c.direction := by
  rw [doneExpires_eq]
  obtain ⟨_, _, _, late⟩ := (cascade_rollEnds r c.withLate .completeLate c.lateUnits.length
    ((c.lateUnits.foldl (State.markLate c.direction) s).setCtx r (some c.withLate))).owner p.unit
  rw [late, setCtx_unit, late_foldl_markLate, if_pos (mem_lateUnits hp hd hr)]

section
variable {s : State} {r : RiserNo} {c : Ctx} {res : Result} {late : Nat}

theorem rollEnds_enter (h : c.direction = .enter) : s.rollEnds r c res late = s.enterComplete r c res late := by
  rw [State.rollEnds, h]

theorem rollEnds_leave (h : c.direction = .leave) : s.rollEnds r c res late = s.leaveComplete r c res late := by
  rw [State.rollEnds, h]

end

section Done
variable {s : State} {r : RiserNo} (h : s.slp.resetHeld = false) (hr : s.running = true)
include h hr

theorem exec_doneWindowExpiry_idle (hn : ∀ c, s.ctx r = some c → c.phase ≠ .rollDone ∨ c.window ≠ some 0) :
    exec (.doneWindowExpiry r) s = .next s := by
  refine congrArg Host.Outcome.next ((whileRunning_of_running h hr _).trans ?_)
  cases hc : s.ctx r with
  | none => rfl
  | some c => exact if_neg (Decidable.not_and_iff_or_not.2 (hn c hc))

variable {c : Ctx} (hc : s.ctx r = some c) (hp : c.phase = .rollDone) (hw : c.window = some 0)
include hc hp hw

theorem exec_doneWindowExpiry_due : exec (.doneWindowExpiry r) s = .next (s.doneExpires r c).grantOnWork := by
  refine congrArg Host.Outcome.next ((whileRunning_of_running h hr _).trans ?_)
  rw [hc]
  exact if_pos ⟨hp, hw⟩

theorem exec_doneWindowExpiry_busy {x : Txn} (hx : s.flc.link = some x) :
    exec (.doneWindowExpiry r) s = .next (s.doneExpires r c) := by
  have link := (quiet_markLates c.direction c.lateUnits s).link.trans hx
  have ended := cascade_rollEnds r c.withLate .completeLate c.lateUnits.length
    ((c.lateUnits.foldl (State.markLate c.direction) s).setCtx r (some c.withLate))
  rw [exec_doneWindowExpiry_due h hr hc hp hw, doneExpires_eq, grantOnWork_of_cascade ended link]

end Done

/-- Settles O41: the expiry, then the end of a done roll by its direction. -/
theorem doneWindowExpires : Obligations.DoneWindowExpires := by
  refine ⟨fun s r h hr => ⟨fun c hc hp hw => ?expires, fun c x hc hp hw hd hx => ?enter, fun c x hc hp hw hd hx hq => ?leave,
    exec_doneWindowExpiry_idle h hr⟩, fun s r c res late => ⟨fun hd => rollEnds_enter hd, fun hd => rollEnds_leave hd⟩⟩
  case expires =>
    intro late marked m z
    have ended : Cascade m ((m.setCtx r (some marked)).rollEnds r marked .completeLate late.length) :=
      (cascade_setCtx ..).trans (cascade_rollEnds ..)
    refine ⟨(Ran.cascade_trans ended (ran_grantOnWork _)).toRunFrame, ?_⟩
    rw [exec_doneWindowExpiry_due h hr hc hp hw, doneExpires_eq]
    rfl
  case enter =>
    have quiet := quiet_markLates c.direction c.lateUnits s
    have left := enterComplete_leaves r c.withLate .completeLate c.lateUnits.length
      ((c.lateUnits.foldl (State.markLate c.direction) s).setCtx r (some c.withLate))
    rw [← rollEnds_enter (c := c.withLate) hd, ← doneExpires_eq, setCtx_riser, (Apart.quiet quiet).riser] at left
    obtain ⟨state, settle, ctx, sba⟩ := left
    refine ⟨_, exec_doneWindowExpiry_busy h hr hc hp hw hx, state, settle, ctx, sba.trans quiet.sba, fun p hp hs ht => ?_⟩
    rw [late_doneExpires r hp hs ht, hd]
  case leave =>
    have quiet := quiet_markLates c.direction c.lateUnits s
    have left := leaveComplete_leaves r c.withLate .completeLate c.lateUnits.length
      ((c.lateUnits.foldl (State.markLate c.direction) s).setCtx r (some c.withLate)) (by
        rw [setCtx_sba, quiet.sba]
        exact hq)
    rw [← rollEnds_leave (c := c.withLate) hd, ← doneExpires_eq, setCtx_riser, (Apart.quiet quiet).riser, setCtx_sba,
      quiet.sba] at left
    obtain ⟨state, settle, ctx, draining⟩ := left
    refine ⟨_, exec_doneWindowExpiry_busy h hr hc hp hw hx, state, settle, ctx, draining, fun p hp hs ht => ?_⟩
    rw [late_doneExpires r hp hs ht, hd]

end Sys2Proof.Machine
end

