-- ==== Sys2Proof/Proofs/FieldLink.lean ====
section
/-! PROOFS. Proofs/FieldLink.lean: the frames of the field link, what ends a transaction whose reply window is open, and
the states an outcome passes through (R126 to R136, R145). -/

namespace Sys2Proof.Machine

/-! ## The ends of transactions -/

theorem ran_closed (s : State) : Ran s s.endTxn.grantNext :=
  Ran.modFlc_trans _ s rfl rfl rfl rfl (ran_grantNext s.endTxn)

/-- A transaction whose reply window is open, in a part that runs its link. -/
structure Awaits (s : State) (x : Txn) (u : UnitNo) : Prop where
  alive : s.slp.resetHeld = false
  link : s.flc.link = some x
  unit : x.unit = some u
  window : ∃ ms, x.stage = .window ms

/-- The outcome that a command hands to the transaction whose window is open (R129, R131). -/
def windowOutcome : Instr → Option FieldOutcome
  | .readingReceived tRa wRa mode flags => some (.reading ⟨tRa, wRa, mode, flags⟩)
  | .ackReceived => some .ack
  | .nakReceived reason => some (.nak (nakOfCode reason))
  | .phaseReceived tag token => some (.phase tag token)
  | .mailReplyReceived bytes => if 1 ≤ bytes.length ∧ bytes.length ≤ 32 then some (.mailReply bytes) else none
  | .replyWindowExpiry => some .missed
  | _ => none

theorem replyFits_mail {n : Nat} (h : 1 ≤ n ∧ n ≤ 32) : replyFits 0x46 n = true :=
  (replyFits_iff 0x46 n).2 (.inr (.inr (.inr (.inr (.inr ⟨rfl, h⟩)))))

theorem windowOutcome_mail {b : List Byte} (h1 : 1 ≤ b.length) (h2 : b.length ≤ 32) :
    windowOutcome (.mailReplyReceived b) = some (.mailReply b) :=
  if_pos ⟨h1, h2⟩

/-- The commands that hand over an outcome are the outcome taken by the link. -/
theorem exec_windowOutcome {i : Instr} {o : FieldOutcome} (h : windowOutcome i = some o) (s : State) :
    exec i s = .next (s.whileAlive (State.fieldOutcome o)) := by
  cases i with
  | readingReceived | ackReceived | nakReceived | phaseReceived | replyWindowExpiry =>
    cases h
    rfl
  | mailReplyReceived b =>
    obtain ⟨hb, ho⟩ := Option.ite_none_right_eq_some.1 h
    cases ho
    exact congrArg (fun f => Host.Outcome.next (s.whileAlive f)) (if_pos (replyFits_mail hb))
  | _ => cases h

section Awaits
variable {s : State} {x : Txn} {u : UnitNo} (h : Awaits s x u)
include h

theorem Awaits.fieldOutcome (o : FieldOutcome) : s.fieldOutcome o = s.finishTxn x u o := by
  obtain ⟨_, hlink, hunit, _, hstage⟩ := h
  exact fieldOutcome_of_window hlink hunit hstage o

theorem Awaits.exec {i : Instr} {o : FieldOutcome} (hi : windowOutcome i = some o) :
    Machine.exec i s = .next (s.finishTxn x u o) := by
  rw [exec_windowOutcome hi, whileAlive_of_alive h.alive, h.fieldOutcome]

theorem Awaits.flagged : Awaits (s.modNq fun q => { q with fieldCheck := true }) x u :=
  ⟨h.alive, h.link, h.unit, h.window⟩

theorem Awaits.checkFailure :
    s.checkFailure = (s.modNq fun q => { q with fieldCheck := true }).finishTxn x u .missed := by
  obtain ⟨_, hlink, hunit, _, hstage⟩ := h
  simp only [State.checkFailure, hlink, hunit, hstage]

/-- A check failure, or a gap inside a reply, is the expiry of the window with FIELD_CHECK set (R131). -/
theorem Awaits.exec_check {i : Instr} (hi : i = .fieldInterByteGap ∨ i = .fieldCheckFailure) :
    Machine.exec i s = Machine.exec .replyWindowExpiry (s.modNq fun q => { q with fieldCheck := true }) := by
  have fails : Machine.exec i s = .next (s.whileAlive State.checkFailure) := by rcases hi with rfl | rfl <;> rfl
  rw [fails, whileAlive_of_alive h.alive, h.checkFailure, h.flagged.exec rfl]

end Awaits

/-! ## What an outcome passes through -/

/-- The unit's record at an answer: the misses 0, and the unit ONLINE with its notice where it was not (R134, R136). -/
def State.met (u : UnitNo) (s : State) : State :=
  if (s.unit u).presence = .online then s.modUnit u fun y => { y with misses := 0 }
  else (s.modUnit u fun y => { y with misses := 0 }).goOnline u

/-- The unit's miss count after one miss more. -/
def State.missCount (u : UnitNo) (s : State) : Nat := min (s.unit u).cfg.missLimit ((s.unit u).misses + 1)

/-- The unit's record at a miss. -/
def State.missedOnce (u : UnitNo) (s : State) : State := s.modUnit u fun y => { y with misses := s.missCount u }

/-- The end of an answered transaction: the recount of a unit that `s` has not ONLINE, then the next grant (R136). -/
def State.answerEnds (u : UnitNo) (s y : State) : State :=
  (if (s.unit u).presence = .online then y else y.recount (s.unit u).cfg.riser).endTxn.grantNext

section Outcome
variable {s : State} {x : Txn} {u : UnitNo}

theorem takeAnswer_eq {o : FieldOutcome} (ho : x.requester = .sweep → o.isReading = false) :
    s.takeAnswer x u o =
      if (s.unit u).presence = .online then (s.met u).handOutcome x.requester u o
      else ((s.met u).handOutcome x.requester u o).recount (s.unit u).cfg.riser := by
  have again : ¬ (x.requester = .sweep ∧ o.isReading = true) := fun hq => by simp [ho hq.1] at hq
  unfold State.takeAnswer State.met
  by_cases hon : (s.unit u).presence = .online
  · simp only [if_pos hon]
  · simp only [if_neg hon, if_neg again]

theorem finishTxn_answer {o : FieldOutcome} (hh : x.heeded = true) (hm : o ≠ .missed)
    (ho : x.requester = .sweep → o.isReading = false) :
    s.finishTxn x u o = s.answerEnds u ((s.met u).handOutcome x.requester u o) := by
  rw [State.finishTxn, if_pos hh, if_neg hm, takeAnswer_eq ho, State.answerEnds]

theorem finishTxn_lost (hh : x.heeded = true)
    (hl : (s.unit u).presence ≠ .offline ∧ s.missCount u = (s.unit u).cfg.missLimit) :
    s.finishTxn x u .missed = ((s.missedOnce u).goOffline u).endTxn.grantNext := by
  rw [State.finishTxn, if_pos hh, if_pos rfl]
  exact congrArg (fun y : State => y.endTxn.grantNext) (if_pos hl)

theorem finishTxn_kept (hh : x.heeded = true)
    (hk : (s.unit u).presence = .offline ∨ s.missCount u ≠ (s.unit u).cfg.missLimit) :
    s.finishTxn x u .missed = ((s.missedOnce u).handOutcome x.requester u .missed).endTxn.grantNext := by
  have kept : ¬ ((s.unit u).presence ≠ .offline ∧ s.missCount u = (s.unit u).cfg.missLimit) := fun hl =>
    hk.elim hl.1 fun hn => hn hl.2
  rw [State.finishTxn, if_pos hh, if_pos rfl]
  exact congrArg (fun y : State => y.endTxn.grantNext) (if_neg kept)

theorem Awaits.exec_answer (h : Awaits s x u) (hh : x.heeded = true) {i : Instr} {o : FieldOutcome}
    (hi : windowOutcome i = some o) (hm : o ≠ .missed) (ho : x.requester = .sweep → o.isReading = false) :
    Machine.exec i s = .next (s.answerEnds u ((s.met u).handOutcome x.requester u o)) := by
  rw [h.exec hi, finishTxn_answer hh hm ho]

theorem Awaits.exec_kept (h : Awaits s x u) (hh : x.heeded = true)
    (hk : (s.unit u).presence = .offline ∨ s.missCount u ≠ (s.unit u).cfg.missLimit) :
    Machine.exec .replyWindowExpiry s =
      .next ((s.missedOnce u).handOutcome x.requester u .missed).endTxn.grantNext := by
  rw [h.exec rfl, finishTxn_kept hh hk]

theorem Awaits.exec_lost (h : Awaits s x u) (hh : x.heeded = true)
    (hl : (s.unit u).presence ≠ .offline ∧ s.missCount u = (s.unit u).cfg.missLimit) :
    Machine.exec .replyWindowExpiry s = .next ((s.missedOnce u).goOffline u).endTxn.grantNext := by
  rw [h.exec rfl, finishTxn_lost hh hl]

end Outcome

/-! ## FIELD_REQUEST_SENT, the quiet gap, FDE, and the frames of other addresses -/

theorem exec_fieldRequestSent {s : State} {x : Txn} (h : s.slp.resetHeld = false) (hx : s.flc.link = some x)
    (hst : x.stage = .sending) :
    exec .fieldRequestSent s = .next (s.setTxn { x with stage := s.stageAfterSending x.unit }) := by
  refine congrArg Host.Outcome.next ((whileAlive_of_alive h _).trans ?_)
  rw [State.requestSent, hx]
  exact if_pos hst

theorem exec_quietGapEnd {s : State} {x : Txn} (h : s.slp.resetHeld = false) (hx : s.flc.link = some x)
    (hu : x.unit = none) (hst : x.stage = .quietGap) :
    exec .broadcastQuietGapEnd s = .next s.endTxn.grantNext := by
  refine congrArg Host.Outcome.next ((whileAlive_of_alive h _).trans ?_)
  rw [State.broadcastEnds, hx]
  exact if_pos ⟨hu, hst⟩

theorem exec_quietGapEnd_idle {s : State} (h : ∀ x, s.flc.link = some x → x.unit ≠ none ∨ x.stage ≠ .quietGap) :
    exec .broadcastQuietGapEnd s = .next s := by
  have idle : s.broadcastEnds = s := by
    unfold State.broadcastEnds
    split
    · rfl
    · next x hx => exact if_neg (Decidable.not_and_iff_or_not.2 (h x hx))
  refine congrArg Host.Outcome.next ?_
  unfold State.whileAlive
  rw [idle, ite_self]

theorem fde_iff (s : State) : s.fde = true ↔ s.slp.resetHeld = false ∧ ∃ x, s.flc.link = some x ∧ x.stage = .sending := by
  unfold State.fde
  cases hx : s.flc.link with
  | none => simp
  | some x => simp [and_comm]

theorem exec_foreign {s : State} (h : s.slp.resetHeld = false) (bytes : List Byte) :
    exec (.foreignAddressFrame bytes) s = .next (s.foreignFrame bytes) :=
  congrArg Host.Outcome.next (whileAlive_of_alive h _)

theorem foreignFrame_wellFormed {f : FieldFrame} (hf : f.FromUim) (s : State) : s.foreignFrame f.bytes = s := by
  rw [State.foreignFrame, receivedFrame_bytes hf]

theorem foreignFrame_malformed {bytes : List Byte} (hb : ∀ f : FieldFrame, f.FromUim → f.bytes ≠ bytes) (s : State) :
    s.foreignFrame bytes = s.checkFailure := by
  rw [State.foreignFrame, receivedFrame_none hb]

theorem fieldCommand_malformed {bytes : List Byte} (hb : ∀ f : FieldFrame, f.FromUim → f.bytes ≠ bytes) (a : Byte) :
    fieldCommand a bytes = .fieldCheckFailure := by
  rw [fieldCommand, receivedFrame_none hb]

/-- A frame of the addressed unit is its kind's command. -/
theorem fieldCommand_of_fits {a kind : Byte} {body : List Byte} (h : replyFits kind body.length = true) :
    fieldCommand a (FieldFrame.bytes ⟨a, kind, body⟩) = replyCommand kind body :=
  fieldCommand_own (f := ⟨a, kind, body⟩) ((replyFits_iff ..).1 h) rfl

theorem replyCommand_reading (t w : Word) (mode flags : Byte) :
    replyCommand 0x41 (bytesOf t ++ bytesOf w ++ [mode, flags]) = .readingReceived t w mode flags :=
  (congrArg (Instr.readingReceived · _ mode flags) (wordOf_bytes t)).trans
    (congrArg (Instr.readingReceived t · mode flags) (wordOf_bytes w))

/-- Settles O43: FIELD_REQUEST_SENT, the end of the quiet gap, FDE, and the frames by what `receivedFrame` makes of
them. -/
theorem fieldFramesPass : Obligations.FieldFramesPass := by
  refine ⟨fun s x h hx hst => ⟨fun u hu => ?_, fun hu => ?_⟩,
    fun s x h hx hu hst => ⟨(ran_closed s).toRunFrame, exec_quietGapEnd h hx hu hst⟩, fde_iff,
    fun s => exec_quietGapEnd_idle, fun s x u ms h _ _ _ => ⟨fun f hf _ => ?wellFormed, fun bytes hb => ?malformed⟩,
    fun a => ⟨fun t w mode flags => ?_, fieldCommand_of_fits rfl, fun _ => fieldCommand_of_fits rfl,
      fieldCommand_of_fits rfl, fun _ _ => fieldCommand_of_fits rfl,
      fun mail h1 h2 => fieldCommand_of_fits (replyFits_mail ⟨h1, h2⟩), fun f => fieldCommand_foreign,
      fun bytes hb => fieldCommand_malformed hb a⟩⟩
  · rw [exec_fieldRequestSent h hx hst, hu]
    rfl
  · rw [exec_fieldRequestSent h hx hst, hu]
    rfl
  case wellFormed => rw [exec_foreign h, foreignFrame_wellFormed hf]
  case malformed =>
    have fails : exec .fieldCheckFailure s = .next s.checkFailure :=
      congrArg Host.Outcome.next (whileAlive_of_alive h _)
    rw [exec_foreign h, foreignFrame_malformed hb, fails]
  · exact (fieldCommand_of_fits rfl).trans (replyCommand_reading t w mode flags)

/-- Settles O45: every outcome closes the transaction by `finishTxn_unheeded`, and nothing else. -/
theorem unheededOutcome : Obligations.UnheededOutcome := by
  intro s x u ms h hx hu hst hh z
  have closes {i : Instr} {o : FieldOutcome} (hi : windowOutcome i = some o) : exec i s = .next z := by
    rw [Awaits.exec ⟨h, hx, hu, ms, hst⟩ hi, finishTxn_unheeded hh]
    rfl
  exact ⟨(ran_closed s).toRunFrame, closes rfl, closes rfl, fun _ => closes rfl, fun _ _ => closes rfl,
    fun _ _ _ _ => closes rfl, fun _ h1 h2 => closes (windowOutcome_mail h1 h2)⟩

/-! ## The tables of the rolls -/

section Tables
variable {c : Ctx} {tag : Byte} {t : Token}

theorem action_rollReady (h : c.phase = .rollReady) : c.action tag t = readyRollAction (tag == c.tag) t := by
  rw [Ctx.action, h]

theorem action_enterDone (h : c.phase = .rollDone) (hd : c.direction = .enter) :
    c.action tag t = enterDoneAction (tag == c.tag) t := by
  rw [Ctx.action, h, hd]

theorem action_leaveDone (h : c.phase = .rollDone) (hd : c.direction = .leave) :
    c.action tag t = leaveDoneAction (tag == c.tag) t := by
  rw [Ctx.action, h, hd]

theorem readyRollAction_call {sameTag : Bool} (h : sameTag = false ∨ t = .idle ∨ t = .moving ∨ t = .done) :
    readyRollAction sameTag t = .repair .call := by
  rcases h with rfl | rfl | rfl | rfl
  · cases t <;> rfl
  all_goals rfl

theorem enterDoneAction_nothing {sameTag : Bool} (h : sameTag = false ∨ t = .moving ∨ t = .refuse) :
    enterDoneAction sameTag t = .nothing := by
  rcases h with rfl | rfl | rfl
  · cases t <;> rfl
  all_goals rfl

theorem leaveDoneAction_giveBack {sameTag : Bool}
    (h : sameTag = false ∨ t = .ready ∨ t = .preparing ∨ t = .idle ∨ t = .refuse) :
    leaveDoneAction sameTag t = .repair .giveBack := by
  rcases h with rfl | rfl | rfl | rfl | rfl
  · cases t <;> rfl
  all_goals rfl

end Tables

/-- Settles O50: the three tables by their rows, the tag of another changeover answered alike by every token. -/
theorem rollTables : Obligations.RollTables := by
  intro c tag t
  have same (h : tag = c.tag) : (tag == c.tag) = true := beq_iff_eq.2 h
  have other {p : Prop} (h : tag ≠ c.tag ∨ p) : (tag == c.tag) = false ∨ p := h.imp_left beq_eq_false_iff_ne.2
  refine ⟨fun hp => ?ready, fun hp hd => ?enter, fun hp hd => ?leave⟩
  case ready =>
    rw [action_rollReady hp]
    refine ⟨?_, ?_, ?_, fun h => readyRollAction_call (other h)⟩
    all_goals
      rintro htag rfl
      rw [same htag]
      rfl
  case enter =>
    rw [action_enterDone hp hd]
    refine ⟨?_, ?_, fun h => enterDoneAction_nothing (other h)⟩
    · rintro htag rfl
      rw [same htag]
      rfl
    · rintro htag (rfl | rfl | rfl)
      all_goals
        rw [same htag]
        rfl
  case leave =>
    rw [action_leaveDone hp hd]
    refine ⟨?_, ?_, fun h => leaveDoneAction_giveBack (other h)⟩
    all_goals
      rintro htag rfl
      rw [same htag]
      rfl

end Sys2Proof.Machine
end

