-- ==== Sys2Proof/Proofs/CommandOutcomes.lean ====
section
/-! PROOFS. Proofs/CommandOutcomes.lean: the outcomes of SET_MODE and of MAIL (R142, R143, R162 to R164). -/

namespace Sys2Proof.Machine

/-! ## A grant with no changeover in progress -/

/-- A change of the FLC alone, and not of the command set. -/
def OnlyLink (s t : State) : Prop := t.flc.commands = s.flc.commands ∧ t = { s with flc := t.flc }

theorem onlyLink_rfl (s : State) : OnlyLink s s := ⟨rfl, rfl⟩

theorem onlyLink_grantCommand (s : State) : OnlyLink s s.grantCommand := by
  unfold State.grantCommand
  split
  · exact onlyLink_rfl s
  · exact ⟨rfl, rfl⟩

theorem onlyLink_grantMail (s : State) : OnlyLink s s.grantMail := by
  unfold State.grantMail
  split
  · exact ⟨rfl, rfl⟩
  · exact onlyLink_rfl s

theorem onlyLink_grantPoll (s : State) : OnlyLink s s.grantPoll := by
  unfold State.grantPoll
  split
  · exact onlyLink_rfl s
  · exact ⟨rfl, rfl⟩

section NoContext
variable {s : State} (hr : ∀ r, s.ctx r = none)
include hr

theorem grantChangeover_none : s.grantChangeover = s := by
  rw [State.grantChangeover, nextRiser_eq_none hr]

theorem onlyLink_grantClass (k : LinkClass) : OnlyLink s (s.grantClass k) := by
  cases k with
  | changeover =>
    unfold State.grantClass
    rw [grantChangeover_none hr]
    exact onlyLink_rfl s
  | command => exact onlyLink_grantCommand s
  | mail => exact onlyLink_grantMail s
  | poll => exact onlyLink_grantPoll s

/-- Where no context exists a grant changes the FLC alone, and not the command set. -/
theorem onlyLink_grantNext : OnlyLink s s.grantNext := by
  unfold State.grantNext
  split
  · exact onlyLink_rfl s
  · split
    · exact ⟨rfl, rfl⟩
    · split
      · split
        · exact onlyLink_rfl s
        · next k _ =>
          exact onlyLink_grantClass (s := s.modFlc fun f =>
            { f with guarantee := guaranteeAfter (s.hasWork .poll) k f.guarantee }) hr k
      · exact onlyLink_rfl s

/-- What the end of a transaction leaves where no context exists. -/
theorem closed_of_no_ctx : ∃ t : State, s.endTxn.grantNext = t ∧ t.flc.commands = s.flc.commands ∧ t.nq = s.nq ∧
    t.units = s.units ∧ s.flc.mail.granted t.flc.mail := by
  have mail : s.flc.mail.granted s.endTxn.grantNext.flc.mail := (ran_closed s).mail
  obtain ⟨hc, hg⟩ := onlyLink_grantNext (s := s.endTxn) hr
  exact ⟨_, rfl, hc, by rw [hg]; rfl, by rw [hg]; rfl, mail⟩

end NoContext

theorem answerEnds_online {s : State} {u : UnitNo} (h : (s.unit u).presence = .online) (y : State) :
    s.answerEnds u y = y.endTxn.grantNext :=
  congrArg (fun z : State => z.endTxn.grantNext) (if_pos h)

theorem met_online {s : State} {u : UnitNo} (h : (s.unit u).presence = .online) :
    s.met u = s.modUnit u fun y => { y with misses := 0 } :=
  if_pos h

theorem unit_of_units {s t : State} (h : t.units = s.units) (u : UnitNo) : t.unit u = s.unit u :=
  congrArg (fun v : Vector UnitRec 24 => v[u]) h

theorem missCount_of_lt {s : State} {u : UnitNo} (h : (s.unit u).misses + 1 < (s.unit u).cfg.missLimit) :
    s.missCount u = (s.unit u).misses + 1 :=
  Nat.min_eq_right (Nat.le_of_lt h)

theorem kept_of_lt {s : State} {u : UnitNo} (h : (s.unit u).misses + 1 < (s.unit u).cfg.missLimit) :
    (s.unit u).presence = .offline ∨ s.missCount u ≠ (s.unit u).cfg.missLimit :=
  .inr (by rw [missCount_of_lt h]; omega)

/-! ## The command set -/

theorem placeCommand_append {u : UnitNo} {c : ModeSpeed} {l : List CmdEntry} (h : ∀ e ∈ l, e.unit ≠ u) :
    placeCommand u c l = l ++ [⟨u, c⟩] := by
  induction l with
  | nil => rfl
  | cons e l ih =>
    obtain ⟨he, hl⟩ := List.forall_mem_cons.1 h
    rw [placeCommand, if_neg he, ih hl, List.cons_append]

theorem placeCommand_replace {u : UnitNo} {c : ModeSpeed} {e : CmdEntry} {back front : List CmdEntry}
    (h : ∀ x ∈ front, x.unit ≠ u) (he : e.unit = u) :
    placeCommand u c (front ++ e :: back) = front ++ ⟨u, c⟩ :: back := by
  induction front with
  | nil => exact if_pos he
  | cons x front ih =>
    obtain ⟨hx, hf⟩ := List.forall_mem_cons.1 h
    rw [List.cons_append, placeCommand, if_neg hx, ih hf, List.cons_append]

/-- Settles O47: each outcome by `commandOutcome`; for an ONLINE unit with no changeover the end by
`closed_of_no_ctx`. -/
theorem commandOutcomes : Obligations.CommandOutcomes := by
  refine ⟨fun s x u ms sent h hx hu hst hh hq hon hr => ?quiet, fun s x u ms sent h hx hu hst hh hq => ?whole,
    fun s u c => ⟨fun hn => ?append, fun front e back hl hf he => ?replace⟩⟩
  case quiet =>
    have waits : Awaits s x u := ⟨h, hx, hu, ms, hst⟩
    have answer {i : Instr} {o : FieldOutcome} (hi : windowOutcome i = some o) (hm : o ≠ .missed) :
        exec i s = .next ((s.modUnit u fun y => { y with misses := 0 }).commandOutcome u sent o).endTxn.grantNext := by
      rw [waits.exec_answer hh hi hm (by simp [hq]), answerEnds_online hon, met_online hon, hq]
      rfl
    refine ⟨?_, fun b => ?_, fun a b => ?_, fun hl => ?_⟩
    · obtain ⟨t, ht, hc, hn, hv, _⟩ := closed_of_no_ctx (s := (s.modUnit u fun y =>
        { y with misses := 0 }).commandOutcome u sent .ack) hr
      refine ⟨t, (answer (o := .ack) rfl nofun).trans (congrArg _ ht), ?_, hc, hn, ?_⟩
      all_goals
        rw [unit_of_units hv]
        simp [State.commandOutcome]
    · obtain ⟨t, ht, hc, hn, hv, _⟩ := closed_of_no_ctx (s := (s.modUnit u fun y =>
        { y with misses := 0 }).commandOutcome u sent (.nak (nakOfCode b))) hr
      refine ⟨t, (answer (o := .nak _) rfl nofun).trans (congrArg _ ht), hc, hn, ?_, ?_⟩
      all_goals
        rw [unit_of_units hv]
        simp [State.commandOutcome]
    · obtain ⟨t, ht, hc, hn, hv, _⟩ := closed_of_no_ctx (s := (s.modUnit u fun y =>
        { y with misses := 0 }).commandOutcome u sent (.phase a b)) hr
      refine ⟨t, (answer (o := .phase a b) rfl nofun).trans (congrArg _ ht), hc, hn, ?_⟩
      rw [unit_of_units hv]
      simp [State.commandOutcome]
    · obtain ⟨t, ht, hc, hn, hv, _⟩ := closed_of_no_ctx (s := (s.missedOnce u).commandOutcome u sent .missed) hr
      have kept := waits.exec_kept hh (kept_of_lt hl)
      rw [hq] at kept
      refine ⟨t, kept.trans (congrArg _ ht), hc, hn, ?_, ?_⟩
      all_goals
        rw [unit_of_units hv]
        simp [State.commandOutcome, State.missedOnce, missCount_of_lt hl]
  case whole =>
    intro counted met closed ends toTail n
    have waits : Awaits s x u := ⟨h, hx, hu, ms, hst⟩
    have answer {i : Instr} {o : FieldOutcome} (hi : windowOutcome i = some o) (hm : o ≠ .missed) :
        exec i s = .next (s.answerEnds u ((s.met u).commandOutcome u sent o)) := by
      rw [waits.exec_answer hh hi hm (by simp [hq]), hq]
      rfl
    refine ⟨answer (o := .ack) rfl nofun, fun b => answer (o := .nak _) rfl nofun, ?_, fun hk => ?_⟩
    · rintro i (⟨a, b, c, d, rfl⟩ | ⟨a, b, rfl⟩ | ⟨b, h1, h2, rfl⟩)
      · exact answer (o := .reading _) rfl nofun
      · exact answer (o := .phase _ _) rfl nofun
      · exact answer (o := .mailReply _) (windowOutcome_mail h1 h2) nofun
    · have kept := waits.exec_kept hh hk
      rw [hq] at kept
      exact kept
  case append => exact congrArg (fun l => s.modFlc fun f => { f with commands := l }) (placeCommand_append hn)
  case replace =>
    refine congrArg (fun l => s.modFlc fun f => { f with commands := l }) ?_
    rw [hl]
    exact placeCommand_replace hf he

end Sys2Proof.Machine
end

