-- ==== Sys2Proof/Proofs/MissedOutcome.lean ====
section
/-! PROOFS. Proofs/MissedOutcome.lean: a transaction that ends MISSED, a unit that goes OFFLINE, and a drop (R10, R111,
R114 to R116, R120, R121, R131, R134, R135, R164). -/

namespace Sys2Proof.Machine

/-! ## The records of the units -/

/-- The miss counts, the presences, the readings and FIELD_CHECK are as they were. -/
structure SameRecords (s t : State) : Prop where
  unit : ∀ v, (t.unit v).misses = (s.unit v).misses ∧ (t.unit v).presence = (s.unit v).presence ∧
    (t.unit v).reading = (s.unit v).reading
  fieldCheck : t.nq.fieldCheck = s.nq.fieldCheck

theorem SameRecords.trans {a b c : State} (h : SameRecords a b) (k : SameRecords b c) : SameRecords a c where
  unit v := by
    obtain ⟨misses, presence, reading⟩ := h.unit v
    obtain ⟨misses', presence', reading'⟩ := k.unit v
    exact ⟨misses'.trans misses, presence'.trans presence, reading'.trans reading⟩
  fieldCheck := k.fieldCheck.trans h.fieldCheck

theorem SameRecords.rfl (s : State) : SameRecords s s := ⟨fun _ => ⟨Eq.refl _, Eq.refl _, Eq.refl _⟩, Eq.refl _⟩

theorem SameRecords.modFlc (f : Flc → Flc) (s : State) : SameRecords s (s.modFlc f) :=
  ⟨fun _ => ⟨Eq.refl _, Eq.refl _, Eq.refl _⟩, Eq.refl _⟩

theorem RunFrame.fieldCheck {s t : State} (h : RunFrame s t) : t.nq.fieldCheck = s.nq.fieldCheck := by
  have kept := congrArg Nq.fieldCheck h.nq
  exact kept

theorem Ran.records {s t : State} (h : Ran s t) : SameRecords s t where
  unit v := ⟨(h.presence v).2, (h.presence v).1, h.reading v⟩
  fieldCheck := h.toRunFrame.fieldCheck

theorem Cascade.records {s t : State} (h : Cascade s t) : SameRecords s t := h.ran.records

theorem SameRecords.ite {s a b : State} {p : Prop} [Decidable p] (h : SameRecords s a) (k : SameRecords s b) :
    SameRecords s (if p then a else b) := by
  split
  · exact h
  · exact k

theorem records_failMail (u : UnitNo) (s : State) : SameRecords s (s.failMail u) :=
  .ite ((SameRecords.modFlc ..).trans (cascade_post 1 _ _ _ rfl).records) (.rfl s)

theorem records_mailNoReply (u : UnitNo) (s : State) : SameRecords s (s.mailNoReply u) :=
  .ite (.modFlc ..) ((SameRecords.modFlc ..).trans (cascade_post 1 _ _ _ rfl).records)

theorem records_handMiss (q : Requester) (u : UnitNo) (s : State) : SameRecords s (s.handOutcome q u .missed) := by
  cases q with
  | sweep | broadcast | releaseAll => exact .rfl s
  | command content => exact SameRecords.modFlc (fun f => { f with commands := moveToTail u f.commands }) s
  | mail post =>
    unfold State.handOutcome State.mailOutcome
    exact .ite (records_mailNoReply ..) (.rfl s)
  | query key => exact (cascade_queryOutcome ..).records
  | repair key => exact (cascade_repairOutcome ..).records

/-! ## A unit goes OFFLINE -/

/-- The unit OFFLINE, its notice posted, its command entry gone, dropped, and its mail failed: what goes before the
condition NONE (R135). -/
def State.offlineTold (u : UnitNo) (s : State) : State :=
  ((((s.modUnit u fun x => { x with presence := .offline }).post 2 (.unit u) (.unitPresence .offline)).modFlc fun f =>
    { f with commands := f.commands.filter fun e => e.unit != u }).drop u).failMail u

theorem goOffline_eq (u : UnitNo) (s : State) : s.goOffline u = (s.offlineTold u).changeCondition u .none := rfl

theorem records_offlineTold (u : UnitNo) (s : State) :
    SameRecords (s.modUnit u fun x => { x with presence := .offline }) (s.offlineTold u) :=
  (((cascade_post 2 _ _ _ rfl).records.trans (.modFlc ..)).trans (cascade_drop ..).records).trans (records_failMail ..)

theorem cascade_changeCondition (u : UnitNo) (c : Condition) (s : State) :
    Cascade (s.modUnit u fun x => { x with reading := { x.reading with condition := c } }) (s.changeCondition u c) :=
  cascade_ownEvent ..

theorem records_changeCondition (u : UnitNo) (c : Condition) (s : State) :
    SameRecords (s.modUnit u fun x => { x with reading := { x.reading with condition := c } }) (s.changeCondition u c) :=
  (cascade_changeCondition u c s).records

theorem unit_goOffline_same (u : UnitNo) (s : State) :
    ((s.goOffline u).unit u).misses = (s.unit u).misses ∧ ((s.goOffline u).unit u).presence = .offline ∧
      ((s.goOffline u).unit u).reading = { (s.unit u).reading with condition := .none } := by
  obtain ⟨misses, presence, reading⟩ := (records_offlineTold u s).unit u
  obtain ⟨misses', presence', reading'⟩ := (records_changeCondition u .none (s.offlineTold u)).unit u
  simp only [modUnit_unit, if_true] at misses presence reading misses' presence' reading'
  exact ⟨misses'.trans misses, presence'.trans presence, reading'.trans (by rw [reading])⟩

theorem unit_goOffline_other {u v : UnitNo} (h : v ≠ u) (s : State) :
    ((s.goOffline u).unit v).misses = (s.unit v).misses ∧ ((s.goOffline u).unit v).presence = (s.unit v).presence ∧
      ((s.goOffline u).unit v).reading = (s.unit v).reading := by
  obtain ⟨misses, presence, reading⟩ := (records_offlineTold u s).unit v
  obtain ⟨misses', presence', reading'⟩ := (records_changeCondition u .none (s.offlineTold u)).unit v
  simp only [modUnit_unit, if_neg h.symm] at misses presence reading misses' presence' reading'
  exact ⟨misses'.trans misses, presence'.trans presence, reading'.trans reading⟩

theorem fieldCheck_goOffline (u : UnitNo) (s : State) : (s.goOffline u).nq.fieldCheck = s.nq.fieldCheck := by
  rw [goOffline_eq, (records_changeCondition u .none (s.offlineTold u)).fieldCheck, modUnit_nq,
    (records_offlineTold u s).fieldCheck, modUnit_nq]

/-- The unit is OFFLINE, and no command waits for it. -/
structure Gone (u : UnitNo) (s : State) : Prop where
  offline : (s.unit u).presence = .offline
  commands : ∀ e ∈ s.flc.commands, e.unit ≠ u

theorem Gone.ran {u : UnitNo} {s t : State} (h : Gone u s) (k : Ran s t) : Gone u t where
  offline := (k.presence u).1.trans h.offline
  commands e he hu := h.commands e (k.commands u (by simp [h.offline]) e he hu) hu

theorem gone_offlineTold (u : UnitNo) (s : State) : Gone u (s.offlineTold u) := by
  have told : Gone u (((s.modUnit u fun x => { x with presence := .offline }).post 2 (.unit u)
      (.unitPresence .offline)).modFlc fun f => { f with commands := f.commands.filter fun e => e.unit != u }) :=
    ⟨by simp, fun e he => by simpa using (List.mem_filter.1 he).2⟩
  have dropped := told.ran (cascade_drop u _).ran
  unfold State.offlineTold State.failMail
  split
  · exact ⟨dropped.offline, dropped.commands⟩
  · exact dropped

theorem gone_goOffline (u : UnitNo) (s : State) : Gone u (s.goOffline u) := by
  have told := gone_offlineTold u s
  have conditioned : Gone u ((s.offlineTold u).modUnit u fun x =>
      { x with reading := { x.reading with condition := .none } }) :=
    ⟨by simp [told.offline], by rw [modUnit_flc]; exact told.commands⟩
  rw [goOffline_eq]
  exact conditioned.ran (cascade_changeCondition ..).ran

/-! ## The end MISSED -/

/-- FIELD_CHECK as the command leaves it: set by a gap inside a reply and by a check failure (R131). -/
def State.checked (i : Instr) (s : State) : State :=
  { s with nq := { s.nq with fieldCheck := s.nq.fieldCheck || decide (i ≠ .replyWindowExpiry) } }

theorem checked_expiry (s : State) : s.checked .replyWindowExpiry = s := by
  have same : (s.nq.fieldCheck || decide (Instr.replyWindowExpiry ≠ .replyWindowExpiry)) = s.nq.fieldCheck :=
    Bool.or_false _
  rw [State.checked, same]

theorem checked_failure {i : Instr} (h : i = .fieldInterByteGap ∨ i = .fieldCheckFailure) (s : State) :
    s.checked i = s.modNq fun q => { q with fieldCheck := true } := by
  have set : (s.nq.fieldCheck || decide (i ≠ .replyWindowExpiry)) = true := by rcases h with rfl | rfl <;> simp
  rw [State.checked, set]
  rfl

theorem Awaits.checked {s : State} {x : Txn} {u : UnitNo} (h : Awaits s x u) (i : Instr) : Awaits (s.checked i) x u :=
  ⟨h.alive, h.link, h.unit, h.window⟩

theorem Awaits.exec_missed {s : State} {x : Txn} {u : UnitNo} (h : Awaits s x u) {i : Instr}
    (hi : i = .replyWindowExpiry ∨ i = .fieldInterByteGap ∨ i = .fieldCheckFailure) :
    Machine.exec i s = Machine.exec .replyWindowExpiry (s.checked i) := by
  rcases hi with rfl | hi
  · rw [checked_expiry]
  · rw [h.exec_check hi, checked_failure hi]

/-- What a miss leaves of a unit that is lost by it. -/
theorem lostEnds (u : UnitNo) (s : State) :
    let t := ((s.missedOnce u).goOffline u).endTxn.grantNext
    Keeps s t ∧ (t.unit u).misses = s.missCount u ∧ (t.unit u).presence = .offline ∧
      (t.unit u).reading = { (s.unit u).reading with condition := .none } ∧ (∀ e ∈ t.flc.commands, e.unit ≠ u) ∧
      (∀ v, v ≠ u → (t.unit v).misses = (s.unit v).misses ∧ (t.unit v).presence = (s.unit v).presence ∧
        (t.unit v).reading = (s.unit v).reading) ∧ t.nq.fieldCheck = s.nq.fieldCheck := by
  intro t
  have ran : Ran ((s.missedOnce u).goOffline u) t := ran_closed _
  obtain ⟨misses, presence, reading⟩ := ran.records.unit u
  obtain ⟨misses', presence', reading'⟩ := unit_goOffline_same u (s.missedOnce u)
  have same : (s.missedOnce u).unit u = { s.unit u with misses := s.missCount u } := by
    rw [State.missedOnce, modUnit_unit, if_pos rfl]
  have keeps : Keeps s (s.missedOnce u) := .modUnit u _ s fun _ => rfl
  rw [same] at misses' reading'
  refine ⟨(keeps.trans (keeps_goOffline ..)).trans ran.keeps, misses.trans misses', presence.trans presence',
    reading.trans reading', ((gone_goOffline ..).ran ran).commands, fun v hv => ?_,
    ran.records.fieldCheck.trans (fieldCheck_goOffline ..)⟩
  obtain ⟨misses, presence, reading⟩ := ran.records.unit v
  obtain ⟨misses', presence', reading'⟩ := unit_goOffline_other hv (s.missedOnce u)
  have other : (s.missedOnce u).unit v = s.unit v := by
    rw [State.missedOnce, modUnit_unit, if_neg hv.symm]
  rw [other] at misses' presence' reading'
  exact ⟨misses.trans misses', presence.trans presence', reading.trans reading'⟩

/-- What a miss leaves of a unit that is not lost by it. -/
theorem keptEnds (q : Requester) (u : UnitNo) (s : State) :
    let t := ((s.missedOnce u).handOutcome q u .missed).endTxn.grantNext
    Keeps s t ∧ (t.unit u).misses = s.missCount u ∧
      ((t.unit u).presence = (s.unit u).presence ∧ (t.unit u).reading = (s.unit u).reading) ∧
      (∀ v, v ≠ u → (t.unit v).misses = (s.unit v).misses ∧ (t.unit v).presence = (s.unit v).presence ∧
        (t.unit v).reading = (s.unit v).reading) ∧ t.nq.fieldCheck = s.nq.fieldCheck := by
  intro t
  have ran : Ran ((s.missedOnce u).handOutcome q u .missed) t := ran_closed _
  have records : SameRecords (s.missedOnce u) t := (records_handMiss q u _).trans ran.records
  have keeps : Keeps s (s.missedOnce u) := .modUnit u _ s fun _ => rfl
  have same : (s.missedOnce u).unit u = { s.unit u with misses := s.missCount u } := by
    rw [State.missedOnce, modUnit_unit, if_pos rfl]
  obtain ⟨misses, presence, reading⟩ := records.unit u
  rw [same] at misses presence reading
  refine ⟨(keeps.trans (keeps_handOutcome ..)).trans ran.keeps, misses, ⟨presence, reading⟩, fun v hv => ?_,
    records.fieldCheck⟩
  have other : (s.missedOnce u).unit v = s.unit v := by
    rw [State.missedOnce, modUnit_unit, if_neg hv.symm]
  have kept := records.unit v
  rwa [other] at kept

theorem not_lost {a b : Prop} [Decidable a] (h : ¬ (¬ a ∧ b)) : a ∨ ¬ b :=
  (Decidable.not_and_iff_not_or_not.1 h).imp_left Decidable.not_not.1

/-- A query makes nothing of a miss (R106). -/
theorem queryOutcome_missed (key : CtxKey) (u : UnitNo) (s : State) : s.queryOutcome key u .missed = s := by
  unfold State.queryOutcome
  split
  · next h => cases h
  · rfl

/-! ## A drop -/

section Drop
variable {s : State} {u : UnitNo} {c : Ctx}

theorem mem_remaining {p : Participant} : p ∈ c.remaining ↔ p ∈ c.participants ∧ p.status ≠ .dropped := by
  rw [Ctx.remaining, List.mem_filter, bne_iff_ne]

theorem remains_iff : (c.remaining.any fun p => p.unit == u) = true ↔
    ∃ p ∈ c.participants, p.unit = u ∧ p.status ≠ .dropped := by
  simp only [List.any_eq_true, mem_remaining, beq_iff_eq, and_assoc, and_comm (a := _ ≠ _)]

/-- The context as the drop of a unit leaves it. -/
def Ctx.without (c : Ctx) (u : UnitNo) : Ctx :=
  { c.withStatus u .dropped with repairs := c.repairs.filter fun p => p.unit != u }

theorem drop_of_outside (h : ∀ c, s.ctx (s.unit u).cfg.riser = some c → ∀ p ∈ c.participants, p.unit = u →
    p.status = .dropped) : s.drop u = s := by
  unfold State.drop
  split
  · rfl
  · next c hc =>
    refine if_neg fun hany => ?_
    obtain ⟨p, hp, hu, hs⟩ := remains_iff.1 hany
    exact hs (h c hc p hp hu)

theorem drop_of_inside (hc : s.ctx (s.unit u).cfg.riser = some c)
    (h : ∃ p ∈ c.participants, p.unit = u ∧ p.status ≠ .dropped) :
    s.drop u = (s.setCtx (s.unit u).cfg.riser (some (c.without u))).dropTest (s.unit u).cfg.riser (c.without u) := by
  rw [State.drop, hc]
  exact if_pos (remains_iff.2 h)

end Drop

section DropTest
variable {s : State} {r : RiserNo} {d : Ctx}

theorem allRemaining_iff {st : PartStatus} : d.allRemaining st = true ↔ ∀ p ∈ d.remaining, p.status = st := by
  rw [Ctx.allRemaining, List.all_eq_true]
  exact forall_congr' fun _ => imp_congr_right fun _ => beq_iff_eq

theorem not_allRemaining {st : PartStatus} (h : ∃ p ∈ d.remaining, p.status ≠ st) : ¬ d.allRemaining st = true := by
  obtain ⟨p, hp, hs⟩ := h
  exact fun hall => hs (allRemaining_iff.1 hall p hp)

theorem rollTest_ready (hp : d.phase = .rollReady) :
    s.rollTest r d = if d.allRemaining .ready then s.setCtx r (some d.readied) else s := by
  rw [State.rollTest, hp]

theorem rollTest_done (hp : d.phase = .rollDone) :
    s.rollTest r d = if d.allRemaining .done then s.rollEnds r d .complete 0 else s := by
  rw [State.rollTest, hp]

theorem dropTest_pending (hd : d.direction = .enter) (hp : d.phase = .callPending ∨ d.phase = .commitPending) :
    s.dropTest r d = if d.remaining.length < (s.riser r).cfg.quorum then s.ceCancel r d .quorumLost else s := by
  unfold State.dropTest
  rcases hp with hp | hp <;> rw [hd, hp]

theorem dropTest_ready (hd : d.direction = .enter) (hp : d.phase = .rollReady) :
    s.dropTest r d = if d.remaining.length < (s.riser r).cfg.quorum then s.ceCancel r d .quorumLost
      else s.rollTest r d := by
  rw [State.dropTest, hd, hp]

theorem dropTest_return (hd : d.direction = .leave) (hp : d.phase = .returnPending) :
    s.dropTest r d = if d.remaining.isEmpty then s.leaveComplete r d .complete 0 else s := by
  rw [State.dropTest, hd, hp]

theorem dropTest_done (hp : d.phase = .rollDone) : s.dropTest r d = s.rollTest r d := by
  unfold State.dropTest
  cases hd : d.direction <;> rw [hp]

theorem dropTest_cancel (hp : d.phase = .cancelPending) : s.dropTest r d = s := by
  unfold State.dropTest
  cases hd : d.direction <;> rw [hp]

theorem dropTest_quorumLost (hd : d.direction = .enter)
    (hp : d.phase = .callPending ∨ d.phase = .rollReady ∨ d.phase = .commitPending)
    (hq : d.remaining.length < (s.riser r).cfg.quorum) : s.dropTest r d = s.ceCancel r d .quorumLost := by
  rcases hp with hp | hp | hp
  · rw [dropTest_pending hd (.inl hp), if_pos hq]
  · rw [dropTest_ready hd hp, if_pos hq]
  · rw [dropTest_pending hd (.inr hp), if_pos hq]

end DropTest

/-- Settles O44: the three commands by `Awaits.exec_missed`; the records by `goOffline` and by the requesters; a drop by
the tests of its phase. -/
theorem missedOutcome : Obligations.MissedOutcome := by
  refine ⟨fun s x u ms h hx hu hst hh i hi => ?missed, fun s x u ms h hx hu hst i hi => ?gap, fun s u => ?drop⟩
  case gap => exact Awaits.exec_check ⟨h, hx, hu, ms, hst⟩ hi
  case missed =>
    intro n lost
    have waits : Awaits (s.checked i) x u := Awaits.checked ⟨h, hx, hu, ms, hst⟩ i
    have whole : exec i s = exec .replyWindowExpiry (s.checked i) :=
      Awaits.exec_missed ⟨h, hx, hu, ms, hst⟩ hi
    have tables {t : State} (k : SameTables (s.checked i) t) : SameTables s t :=
      ⟨k.units, k.stations, k.risers, k.lines, k.tower⟩
    by_cases hl : lost
    · obtain ⟨keeps, misses, offline, reading, commands, others, check⟩ := lostEnds u (s.checked i)
      refine ⟨_, whole.trans (waits.exec_lost hh hl), keeps.pending, keeps.slp, tables keeps.tables, misses,
        fun _ => ⟨offline, reading, commands⟩, fun hn => absurd hl hn, others, check, ?_⟩
      intro counted off dropped mailed handed
      exact ⟨fun _ => rfl, fun hn => absurd hl hn⟩
    · have kept := not_lost hl
      obtain ⟨keeps, misses, same, others, check⟩ := keptEnds x.requester u (s.checked i)
      refine ⟨_, whole.trans (waits.exec_kept hh kept), keeps.pending, keeps.slp, tables keeps.tables, misses,
        fun hn => absurd hn hl, fun _ => same, others, check, ?_⟩
      intro counted off dropped mailed handed
      refine ⟨fun hn => absurd hn hl, fun _ hq => ?_⟩
      rcases hq with hq | ⟨key, hq⟩
      · rw [hq]
        rfl
      · rw [hq, State.handOutcome, queryOutcome_missed]
        rfl
  case drop =>
    intro r
    refine ⟨drop_of_outside, fun c hc hin => ?_⟩
    intro d m rest ready
    have dropped : s.drop u = m.dropTest r d := drop_of_inside hc hin
    rw [dropped]
    refine ⟨dropTest_quorumLost (s := m) (r := r) (d := d), fun hd hq => ⟨fun hp => ?_, fun hp hall => ?_, fun hp hex => ?_⟩,
      fun hd hp => ⟨fun hr => ?_, fun hr => ?_⟩, fun hp hall => ?_, fun hp hex => ?_, dropTest_cancel⟩
    · exact (dropTest_pending hd hp).trans (if_neg (Nat.not_lt.2 hq))
    · rw [dropTest_ready hd hp]
      refine (if_neg (Nat.not_lt.2 hq)).trans ((rollTest_ready hp).trans ?_)
      exact if_pos (allRemaining_iff.2 hall)
    · rw [dropTest_ready hd hp]
      refine (if_neg (Nat.not_lt.2 hq)).trans ((rollTest_ready hp).trans ?_)
      exact if_neg (not_allRemaining hex)
    · rw [dropTest_return hd hp, State.rollEnds, hd]
      exact if_pos (List.isEmpty_iff.2 hr)
    · rw [dropTest_return hd hp]
      exact if_neg (mt List.isEmpty_iff.1 hr)
    · rw [dropTest_done hp, rollTest_done hp]
      exact if_pos (allRemaining_iff.2 hall)
    · rw [dropTest_done hp, rollTest_done hp]
      exact if_neg (not_allRemaining hex)

end Sys2Proof.Machine
end

