-- ==== Sys2Proof/Proofs/MailOutcomes.lean ====
section
/-! PROOFS. Proofs/MailOutcomes.lean: the outcomes of a MAIL transaction (R162 to R164). -/

namespace Sys2Proof.Machine

theorem flc_met (u : UnitNo) (s : State) : (s.met u).flc = s.flc := by
  unfold State.met
  split <;> rfl

theorem granted_of_not_posted {a b : MailSlot} (h : a.granted b) (ha : a.state ≠ .posted) : b = a :=
  h.resolve_right fun hp => ha hp.1

/-! ## What the slot makes of an outcome -/

section Slot
variable {s : State} {post : Byte} {u : UnitNo}

theorem mailOutcome_reply (h : s.flc.mail.state = .sent ∧ s.flc.postNumber = post) (b : List Byte) :
    s.mailOutcome post u (.mailReply b) =
      (s.modFlc fun f => { f with mail := { f.mail with state := .answered, reply := some b } }).post 1 (.unit u)
        (.mailDone none s.flc.mail.attempts) :=
  if_pos h

/-- An answer of another kind, or a miss, is an attempt without a reply (R163). -/
theorem mailOutcome_other (h : s.flc.mail.state = .sent ∧ s.flc.postNumber = post) {o : FieldOutcome}
    (ho : ∀ b, o ≠ .mailReply b) : s.mailOutcome post u o = s.mailNoReply u := by
  unfold State.mailOutcome
  rw [if_pos h]
  cases o with
  | mailReply b => exact absurd rfl (ho b)
  | reading | ack | nak | phase | missed => rfl

theorem mailOutcome_discarded (h : ¬ (s.flc.mail.state = .sent ∧ s.flc.postNumber = post)) (o : FieldOutcome) :
    s.mailOutcome post u o = s :=
  if_neg h

end Slot

/-- What a miss that loses the unit leaves of its mail: FAILED with OFFLINE, where the slot was in use (R164). -/
theorem mail_lost {s : State} {u : UnitNo} (hs : s.flc.mail.state = .posted ∨ s.flc.mail.state = .sent)
    (hu : s.flc.mail.unit = some u) :
    (s.goOffline u).flc.mail = { s.flc.mail with state := .failed, reason := some .offline } := by
  have mail {a b : State} (h : Cascade a b) : b.flc.mail = a.flc.mail := by rw [flc_of_cascade h]
  have dropped := mail (cascade_drop u (((s.modUnit u fun x => { x with presence := .offline }).post 2 (.unit u)
    (.unitPresence .offline)).modFlc fun f => { f with commands := f.commands.filter fun e => e.unit != u }))
  rw [goOffline_eq, mail (cascade_changeCondition ..), modUnit_flc, State.offlineTold, State.failMail, dropped]
  refine (congrArg (fun t : State => t.flc.mail) (if_pos ⟨hs, hu⟩)).trans ?_
  exact congrArg (fun m : MailSlot => { m with state := .failed, reason := some .offline }) dropped

section Online
variable {s : State} {x : Txn} {u : UnitNo} (waits : Awaits s x u) (hh : x.heeded = true)
  (hq : x.requester = .mail s.flc.postNumber) (hs : s.flc.mail.state = .sent) (hr : ∀ r, s.ctx r = none)
include waits hh hq hs hr

/-- A reply to an ONLINE unit's MAIL, with no changeover in progress. -/
theorem mail_answered (hon : (s.unit u).presence = .online) {b : List Byte} (h1 : 1 ≤ b.length) (h2 : b.length ≤ 32) :
    ∃ t : State, exec (.mailReplyReceived b) s = .next t ∧
      t.flc.mail = { s.flc.mail with state := .answered, reply := some b } ∧
      t.nq = s.nq.post ⟨1, .unit u, .mailDone none s.flc.mail.attempts⟩ := by
  obtain ⟨t, ht, _, hn, _, hm⟩ := closed_of_no_ctx (s := ((s.modUnit u fun y => { y with misses := 0 }).modFlc fun f =>
    { f with mail := { f.mail with state := .answered, reply := some b } }).post 1 (.unit u)
    (.mailDone none s.flc.mail.attempts)) hr
  refine ⟨t, ?_, granted_of_not_posted hm nofun, hn⟩
  rw [waits.exec_answer hh (windowOutcome_mail h1 h2) nofun (by simp [hq]), answerEnds_online hon, met_online hon, hq,
    State.handOutcome,
    mailOutcome_reply (s := s.modUnit u fun y => { y with misses := 0 }) (post := s.flc.postNumber) ⟨hs, rfl⟩]
  exact congrArg _ ht

omit waits hh hq hs in
/-- What the end of a transaction leaves of an attempt without a reply, with no changeover in progress. -/
theorem mail_noReply (n : Nat) :
    let y := (s.modUnit u fun y => { y with misses := n }).mailNoReply u
    (s.flc.mail.attempts < 3 → ∃ t : State, y.endTxn.grantNext = t ∧
      MailSlot.granted { s.flc.mail with state := .posted } t.flc.mail ∧ t.nq = s.nq) ∧
    (3 ≤ s.flc.mail.attempts → ∃ t : State, y.endTxn.grantNext = t ∧
      t.flc.mail = { s.flc.mail with state := .failed, reason := some .noReply } ∧
      t.nq = s.nq.post ⟨1, .unit u, .mailDone (some .noReply) s.flc.mail.attempts⟩) := by
  intro y
  refine ⟨fun h => ?_, fun h => ?_⟩
  · have retried : y = (s.modUnit u fun y => { y with misses := n }).modFlc fun f =>
        { f with mail := { f.mail with state := .posted } } := if_pos h
    obtain ⟨t, ht, _, hn, _, hm⟩ := closed_of_no_ctx (s := y) (by rw [retried]; exact hr)
    rw [retried] at hm hn
    exact ⟨t, ht, hm, hn⟩
  · have failed : y = ((s.modUnit u fun y => { y with misses := n }).modFlc fun f =>
        { f with mail := { f.mail with state := .failed, reason := some .noReply } }).post 1 (.unit u)
        (.mailDone (some .noReply) s.flc.mail.attempts) := if_neg (Nat.not_lt.2 h)
    obtain ⟨t, ht, _, hn, _, hm⟩ := closed_of_no_ctx (s := y) (by rw [failed]; exact hr)
    rw [failed] at hm hn
    exact ⟨t, ht, granted_of_not_posted hm nofun, hn⟩

end Online

/-- Settles O48: the slot by `mailOutcome_reply`, `mailOutcome_other` and `mailOutcome_discarded`; the ends as those of
every answer and every miss. -/
theorem mailOutcomes : Obligations.MailOutcomes := by
  refine ⟨fun s x u ms h hx hu hst hh hq hs hon hr => ?quiet, fun s x u ms post h hx hu hst hh hq => ?whole⟩
  case quiet =>
    have waits : Awaits s x u := ⟨h, hx, hu, ms, hst⟩
    have mine : s.flc.mail.state = .sent ∧ s.flc.postNumber = s.flc.postNumber := ⟨hs, rfl⟩
    have acked : exec .ackReceived s =
        .next ((s.modUnit u fun y => { y with misses := 0 }).mailNoReply u).endTxn.grantNext := by
      rw [waits.exec_answer hh (o := .ack) rfl nofun (by simp [hq]), answerEnds_online hon, met_online hon, hq,
        State.handOutcome, mailOutcome_other (s := s.modUnit u fun y => { y with misses := 0 }) (o := .ack) mine nofun]
    have expired (hl : (s.unit u).misses + 1 < (s.unit u).cfg.missLimit) : exec .replyWindowExpiry s =
        .next ((s.modUnit u fun y => { y with misses := s.missCount u }).mailNoReply u).endTxn.grantNext := by
      rw [waits.exec_kept hh (kept_of_lt hl), hq, State.handOutcome,
        mailOutcome_other (s := s.missedOnce u) (o := .missed) mine nofun]
      rfl
    obtain ⟨answerRetries, answerFails⟩ := mail_noReply (u := u) hr 0
    obtain ⟨missRetries, missFails⟩ := mail_noReply (u := u) hr (s.missCount u)
    refine ⟨fun b => mail_answered waits hh hq hs hr hon, fun ha => ?_, fun ha => ?_,
      fun hl => ⟨fun ha => ?_, fun ha => ?_⟩, fun hl hmu => ?lost⟩
    · obtain ⟨t, ht, hm⟩ := answerRetries ha
      exact ⟨t, acked.trans (congrArg _ ht), hm⟩
    · obtain ⟨t, ht, hm⟩ := answerFails ha
      exact ⟨t, acked.trans (congrArg _ ht), hm⟩
    · obtain ⟨t, ht, hm⟩ := missRetries ha
      exact ⟨t, (expired hl).trans (congrArg _ ht), hm⟩
    · obtain ⟨t, ht, hm⟩ := missFails ha
      exact ⟨t, (expired hl).trans (congrArg _ ht), hm⟩
    case lost =>
      have limit : s.missCount u = (s.unit u).cfg.missLimit := Nat.min_eq_left hl
      have gone := waits.exec_lost hh ⟨by simp [hon], limit⟩
      have ran := ran_closed ((s.missedOnce u).goOffline u)
      have failed : ((s.missedOnce u).goOffline u).flc.mail =
          { s.flc.mail with state := .failed, reason := some .offline } := mail_lost (.inr hs) hmu
      exact ⟨_, gone, (lostEnds u s).2.2.1, (granted_of_not_posted ran.mail (by rw [failed]; nofun)).trans failed⟩
  case whole =>
    intro counted met closed ends n missed kept mine retried
    have waits : Awaits s x u := ⟨h, hx, hu, ms, hst⟩
    have answer {i : Instr} {o : FieldOutcome} (hi : windowOutcome i = some o) (hm : o ≠ .missed) :
        exec i s = .next (s.answerEnds u ((s.met u).mailOutcome post u o)) := by
      rw [waits.exec_answer hh hi hm (by simp [hq]), hq, State.handOutcome]
    have expired (hk : kept) : exec .replyWindowExpiry s = .next (closed (missed.mailOutcome post u .missed)) := by
      rw [waits.exec_kept hh hk, hq, State.handOutcome]
      rfl
    have noReply {y : State} (hy : y.flc = s.flc) : y.mailNoReply u = retried y := by
      rw [State.mailNoReply, hy]
    refine ⟨fun hm => ?mine, fun hm => ?other⟩
    case mine =>
      have sent : (s.met u).flc.mail.state = .sent ∧ (s.met u).flc.postNumber = post := by rw [flc_met]; exact hm
      have other {i : Instr} {o : FieldOutcome} (hi : windowOutcome i = some o) (hn : o ≠ .missed)
          (ho : ∀ b, o ≠ .mailReply b) : exec i s = .next (ends (retried met)) := by
        rw [answer hi hn, mailOutcome_other sent ho, noReply (flc_met u s)]
        rfl
      refine ⟨fun b h1 h2 => ?_, ?_, fun hk => ?_⟩
      · rw [answer (windowOutcome_mail h1 h2) nofun, mailOutcome_reply sent, flc_met]
        rfl
      · rintro i (rfl | ⟨b, rfl⟩ | ⟨a, b, rfl⟩ | ⟨a, b, c, d, rfl⟩)
        · exact other (o := .ack) rfl nofun nofun
        · exact other (o := .nak _) rfl nofun nofun
        · exact other (o := .phase _ _) rfl nofun nofun
        · exact other (o := .reading _) rfl nofun nofun
      · rw [expired hk, mailOutcome_other (s := missed) (o := .missed) hm nofun, noReply (y := missed) rfl]
    case other =>
      have discarded (o : FieldOutcome) : (s.met u).mailOutcome post u o = s.met u :=
        mailOutcome_discarded (by rw [flc_met]; exact hm) o
      have answered {i : Instr} {o : FieldOutcome} (hi : windowOutcome i = some o) (hn : o ≠ .missed) :
          exec i s = .next (ends met) := by
        rw [answer hi hn, discarded]
        rfl
      refine ⟨?_, fun hk => ?_⟩
      · rintro i (rfl | ⟨b, rfl⟩ | ⟨a, b, rfl⟩ | ⟨a, b, c, d, rfl⟩ | ⟨b, h1, h2, rfl⟩)
        · exact answered (o := .ack) rfl nofun
        · exact answered (o := .nak _) rfl nofun
        · exact answered (o := .phase _ _) rfl nofun
        · exact answered (o := .reading _) rfl nofun
        · exact answered (windowOutcome_mail h1 h2) nofun
      · rw [expired hk, mailOutcome_discarded (s := missed) hm]

end Sys2Proof.Machine
end

