-- ==== Sys2Proof/Proofs/ReadingCommitted.lean ====
section
/-! PROOFS. Proofs/ReadingCommitted.lean: the READING that answers a poll, step by step, and the other answers to one (R3
to R11, R42, R43, R54 to R56, R134, R136, R141). -/

namespace Sys2Proof.Machine

/-! ## The unit at an answer -/

theorem unit_met (u : UnitNo) (s : State) :
    (s.met u).unit u = { s.unit u with misses := 0, presence := .online } := by
  by_cases hon : (s.unit u).presence = .online
  · rw [met_online hon, modUnit_unit, if_pos rfl, ← hon]
  · have online : s.met u = (s.modUnit u fun y => { y with misses := 0 }).goOnline u := if_neg hon
    rw [online, State.goOnline]
    simp

theorem unit_met_other {u v : UnitNo} (h : v ≠ u) (s : State) : (s.met u).unit v = s.unit v := by
  unfold State.met State.goOnline
  split <;> simp [h.symm]

theorem keeps_met (u : UnitNo) (s : State) : Keeps s (s.met u) :=
  have counted : Keeps s (s.modUnit u fun y => { y with misses := 0 }) := .modUnit u _ s fun _ => rfl
  .ite counted (counted.trans (keeps_goOnline ..))

/-! ## The steps of the READING event -/

theorem controlAfter_eq (b : Bool) (d : Decision) : controlAfter b d =
    if b = true then .hand
    else if d.control = .hand then (if d.forced = none then .auto else .forced) else d.control := by
  unfold controlAfter
  split
  · rfl
  · cases hc : d.control
    · rfl
    · rfl
    · cases d.forced <;> rfl

theorem postFault_eq (u : UnitNo) (old new : UnitFlags) (s : State) : s.postFault u old new =
    if old.wheelFault ≠ new.wheelFault ∨ old.damperFault ≠ new.damperFault ∨ old.sensorFault ≠ new.sensorFault then
      s.post 2 (.unit u) (.unitFault new) else s := by
  unfold State.postFault
  simp only [UnitFlags.faultChanged, Bool.or_eq_true, bne_iff_ne, or_assoc]

theorem modeOfCode_freeCool (mode : Byte) : modeOfCode mode = some .freeCool ↔ mode = 4 := by
  unfold modeOfCode
  refine ⟨fun h => ?_, fun h => by subst h; rfl⟩
  repeat' split at h
  all_goals simp_all

theorem modeOfCode_bypass (mode : Byte) : modeOfCode mode = some .bypass ↔ mode = 3 := by
  unfold modeOfCode
  refine ⟨fun h => ?_, fun h => by subst h; rfl⟩
  repeat' split at h
  all_goals simp_all

section Steps
variable {s : State} {u : UnitNo} {k : Control}

theorem postHand_changed {old : Control} (h : k ≠ old) : s.postHand u old k =
    if k = .hand then s.post 1 (.unit u) (.unitHand true)
    else if old = .hand then s.post 1 (.unit u) (.unitHand false) else s := by
  unfold State.postHand
  by_cases hk : k = .hand
  · have entered : old ≠ .hand ∧ k = .hand := ⟨fun ho => h (hk.trans ho.symm), hk⟩
    rw [if_pos entered, if_pos hk]
  · rw [if_neg (fun hn => hk hn.2), if_neg hk]
    simp only [hk, ne_eq, not_false_eq_true, and_true]

theorem setControl_changed (h : k ≠ (s.unit u).decision.control) : s.setControl u k =
    if (s.unit u).decision.control = .auto then (s.modDecision u fun d => { d with control := k }).drop u
    else s.modDecision u fun d => { d with control := k } := by
  rw [setControl_eq]
  refine ite_of_iff ⟨And.left, fun ha => ⟨ha, fun hk => h (hk.trans ha.symm)⟩⟩

theorem takeHand_same (h : controlAfter (s.unit u).reading.flags.localHand (s.unit u).decision = k)
    (hk : k = (s.unit u).decision.control) : s.takeHand u = s :=
  if_pos (h.trans hk)

/-- UNIT_HAND, and the control with the drop of a unit that leaves AUTO (R43, R115; assumption log 20). -/
theorem takeHand_changed (h : controlAfter (s.unit u).reading.flags.localHand (s.unit u).decision = k)
    (hk : k ≠ (s.unit u).decision.control) :
    s.takeHand u =
      let noted := if k = .hand then s.post 1 (.unit u) (.unitHand true)
        else if (s.unit u).decision.control = .hand then s.post 1 (.unit u) (.unitHand false) else s
      if (s.unit u).decision.control = .auto then (noted.modDecision u fun y => { y with control := k }).drop u
      else noted.modDecision u fun y => { y with control := k } := by
  have changed : s.takeHand u = (s.postHand u (s.unit u).decision.control k).setControl u k := by
    subst h
    exact if_neg hk
  have units : (s.postHand u (s.unit u).decision.control k).unit u = s.unit u := by
    unfold State.postHand
    split
    · rfl
    · split <;> rfl
  rw [changed, setControl_changed (by rw [units]; exact hk), units, postHand_changed hk]

/-- Step 1 of the READING event, with the control `k` that LOCAL_HAND gives (R56). -/
theorem takeHand_eq (h : controlAfter (s.unit u).reading.flags.localHand (s.unit u).decision = k) :
    s.takeHand u =
      if k = (s.unit u).decision.control then s
      else
        let noted := if k = .hand then s.post 1 (.unit u) (.unitHand true)
          else if (s.unit u).decision.control = .hand then s.post 1 (.unit u) (.unitHand false) else s
        let changed := noted.modDecision u fun y => { y with control := k }
        if (s.unit u).decision.control = .auto then changed.drop u else changed := by
  split
  · next hk => exact takeHand_same h hk
  · next hk => exact takeHand_changed h hk

theorem targetMode_reported (d : Direction) {x : Reading} {mode : Byte} (h : x.reported = modeOfCode mode) :
    x.reported = some d.targetMode ↔ (d = .enter ∧ mode = 4) ∨ (d = .leave ∧ mode = 3) := by
  rw [h]
  cases d with
  | enter => simp [Direction.targetMode, modeOfCode_freeCool]
  | leave => simp [Direction.targetMode, modeOfCode_bypass]

theorem clearLate_eq {mode : Byte} (h : (s.unit u).reading.reported = modeOfCode mode) : s.clearLate u =
    if ((s.unit u).decision.late = some .enter ∧ mode = 4) ∨ ((s.unit u).decision.late = some .leave ∧ mode = 3) then
      s.modDecision u fun y => { y with late := none } else s := by
  unfold State.clearLate
  cases hl : (s.unit u).decision.late with
  | none => simp
  | some d =>
    refine ite_of_iff ?_
    rw [targetMode_reported d h, Option.some.injEq, Option.some.injEq]

theorem resync_eq (hk : (s.unit u).decision.control = k) : s.resync u =
    match (s.unit u).decision.commanded with
    | none => s
    | some c =>
      if s.coordinate = true ∧ (s.unit u).reading.reported ≠ some c.mode ∧ (∀ e ∈ s.flc.commands, e.unit ≠ u) ∧
          s.isParticipant u = false ∧ k ≠ .hand then
        s.postCommand u c else s := by
  unfold State.resync
  dsimp only
  cases hc : (s.unit u).decision.commanded with
  | none => rfl
  | some c =>
    refine ite_of_iff ?_
    simp only [hk, Bool.and_eq_true, bne_iff_ne, Bool.not_eq_true', List.any_eq_false, beq_iff_eq, and_assoc]

end Steps

/-! ## What the event leaves of the records and of who controls each unit -/

/-- The records of `SameRecords`, and the control of every unit. -/
structure SameControl (s t : State) : Prop extends SameRecords s t where
  control : ∀ v, (t.unit v).decision.control = (s.unit v).decision.control

theorem SameControl.trans {a b c : State} (h : SameControl a b) (k : SameControl b c) : SameControl a c :=
  ⟨h.toSameRecords.trans k.toSameRecords, fun v => (k.control v).trans (h.control v)⟩

theorem SameControl.rfl (s : State) : SameControl s s := ⟨.rfl s, fun _ => Eq.refl _⟩

theorem SameControl.modFlc (f : Flc → Flc) (s : State) : SameControl s (s.modFlc f) :=
  ⟨.modFlc f s, fun _ => Eq.refl _⟩

theorem SameControl.ite {s a b : State} {p : Prop} [Decidable p] (h : SameControl s a) (k : SameControl s b) :
    SameControl s (if p then a else b) := by
  split
  · exact h
  · exact k

theorem Ran.control {s t : State} (h : Ran s t) : SameControl s t := ⟨h.records, fun v => (h.owner v).1⟩

theorem Cascade.control {s t : State} (h : Cascade s t) : SameControl s t := h.ran.control

theorem control_modDecision (u : UnitNo) (f : Decision → Decision) (s : State) (h : ∀ d, (f d).control = d.control) :
    SameControl s (s.modDecision u f) := by
  refine ⟨⟨fun v => ?_, Eq.refl _⟩, fun v => ?_⟩
  all_goals
    rw [modDecision_unit]
    split
  · next e => exact e ▸ ⟨Eq.refl _, Eq.refl _, Eq.refl _⟩
  · exact ⟨Eq.refl _, Eq.refl _, Eq.refl _⟩
  · next e => exact e ▸ h _
  · exact Eq.refl _

theorem control_clearLate (u : UnitNo) (s : State) : SameControl s (s.clearLate u) := by
  unfold State.clearLate
  split
  · exact .rfl s
  · exact .ite (control_modDecision u _ s fun _ => rfl) (.rfl s)

theorem control_resync (u : UnitNo) (s : State) : SameControl s (s.resync u) := by
  unfold State.resync
  dsimp only
  split
  · exact .rfl s
  · exact .ite (.modFlc ..) (.rfl s)

/-- The records are kept; unit `u` has control `k` and its LATE mark, every other unit its control. -/
structure TakesControl (u : UnitNo) (k : Control) (s t : State) : Prop extends SameRecords s t where
  own : (t.unit u).decision.control = k
  late : (t.unit u).decision.late = (s.unit u).decision.late
  other : ∀ v, v ≠ u → (t.unit v).decision.control = (s.unit v).decision.control

theorem TakesControl.cascade {u : UnitNo} {k : Control} {a b c : State} (h : TakesControl u k a b) (j : Cascade b c) :
    TakesControl u k a c where
  toSameRecords := h.toSameRecords.trans j.records
  own := (j.owner u).1.trans h.own
  late := (j.owner u).2.2.2.trans h.late
  other v hv := (j.owner v).1.trans (h.other v hv)

theorem takes_modControl (u : UnitNo) (k : Control) (s : State) :
    TakesControl u k s (s.modDecision u fun y => { y with control := k }) := by
  refine ⟨⟨fun v => ?_, rfl⟩, by simp, by simp, fun v hv => by simp [hv.symm]⟩
  rw [modDecision_unit]
  split
  · next e => exact e ▸ ⟨rfl, rfl, rfl⟩
  · exact ⟨rfl, rfl, rfl⟩

theorem takes_setControl (u : UnitNo) (k : Control) (s : State) : TakesControl u k s (s.setControl u k) := by
  rw [setControl_eq]
  split
  · exact (takes_modControl u k s).cascade (cascade_drop ..)
  · exact takes_modControl u k s

theorem cascade_postHand (u : UnitNo) (old new : Control) (s : State) : Cascade s (s.postHand u old new) :=
  .ite (cascade_post 1 _ _ _ rfl) (.ite (cascade_post 1 _ _ _ rfl) (.rfl s))

theorem TakesControl.after_cascade {u : UnitNo} {k : Control} {a b c : State} (j : Cascade a b)
    (h : TakesControl u k b c) : TakesControl u k a c where
  toSameRecords := j.records.trans h.toSameRecords
  own := h.own
  late := h.late.trans (j.owner u).2.2.2
  other v hv := (h.other v hv).trans (j.owner v).1

theorem takes_takeHand (u : UnitNo) (s : State) :
    TakesControl u (controlAfter (s.unit u).reading.flags.localHand (s.unit u).decision) s (s.takeHand u) := by
  unfold State.takeHand
  dsimp only
  split
  · next h => exact ⟨.rfl s, h.symm, rfl, fun _ _ => rfl⟩
  · exact (takes_setControl ..).after_cascade (cascade_postHand ..)

theorem commitReading_flags (f : ReadingFrame) (x : Reading) :
    (commitReading f x).flags = UnitFlags.ofByte f.flags ∧ (commitReading f x).reported = modeOfCode f.mode ∧
      (commitReading f x).age = 0 := by
  unfold commitReading
  split
  · exact ⟨rfl, rfl, rfl⟩
  · exact ⟨rfl, rfl, rfl⟩

theorem commitReading_good {f : ReadingFrame} {x : Reading} (h : f.flags.getLsbD 3 = false) :
    (commitReading f x).condition = .fresh ∧
      (commitReading f x).air = some ⟨max (-4000) (min 6000 f.tRa.toInt), min 300 f.wRa.toNat⟩ ∧
      ((commitReading f x).clamped = true ↔ ¬ (-4000 ≤ f.tRa.toInt ∧ f.tRa.toInt ≤ 6000 ∧ f.wRa.toNat ≤ 300)) := by
  have good : ¬ (UnitFlags.ofByte f.flags).sensorFault = true := Bool.eq_false_iff.1 h
  rw [commitReading, if_neg good, clampTemp_eq, clampRatio_eq]
  refine ⟨rfl, rfl, ?_⟩
  simp only [Bool.or_eq_true, bne_iff_ne]
  omega

theorem commitReading_faulty {f : ReadingFrame} {x : Reading} (h : f.flags.getLsbD 3 = true) :
    (commitReading f x).condition = .sensorHold ∧ (commitReading f x).air = x.air ∧
      (commitReading f x).clamped = x.clamped := by
  have faulty : (UnitFlags.ofByte f.flags).sensorFault = true := h
  rw [commitReading, if_pos faulty]
  exact ⟨rfl, rfl, rfl⟩

/-! ## The committed READING -/

/-- A READING stored, its fault notice posted, before it is handed on. -/
def State.told (u : UnitNo) (f : ReadingFrame) (s : State) : State :=
  (s.modUnit u fun x => { x with reading := commitReading f x.reading }).postFault u (s.unit u).reading.flags
    (UnitFlags.ofByte f.flags)

section Commit
variable (u : UnitNo) (f : ReadingFrame) (s : State)

theorem unit_told_eq (v : UnitNo) :
    (s.told u f).unit v = (s.modUnit u fun x => { x with reading := commitReading f x.reading }).unit v := by
  unfold State.told State.postFault
  split <;> rfl

theorem unit_told : (s.told u f).unit u = { s.unit u with reading := commitReading f (s.unit u).reading } := by
  rw [unit_told_eq, modUnit_unit, if_pos rfl]

theorem unit_told_other {v : UnitNo} (h : v ≠ u) : (s.told u f).unit v = s.unit v := by
  rw [unit_told_eq, modUnit_unit, if_neg h.symm]

/-- The control that a READING leaves (R43). -/
def Control.after (f : ReadingFrame) (d : Decision) : Control := controlAfter (UnitFlags.ofByte f.flags).localHand d

theorem takes_told : TakesControl u (.after f (s.unit u).decision) (s.told u f) ((s.told u f).takeHand u) := by
  have takes := takes_takeHand u (s.told u f)
  rw [unit_told] at takes
  have flags : (commitReading f (s.unit u).reading).flags = UnitFlags.ofByte f.flags := (commitReading_flags f _).1
  rwa [flags] at takes

theorem commit_eq : s.commit u f =
    (((((s.told u f).takeHand u).clearLate u).evaluate u
      (readingClass (s.unit u).decision.control (.after f (s.unit u).decision))).resync u).recount
        (s.unit u).cfg.riser := by
  have flags : ((s.modUnit u fun x => { x with reading := commitReading f x.reading }).unit u).reading.flags =
      UnitFlags.ofByte f.flags := by
    rw [modUnit_unit, if_pos rfl]
    exact (commitReading_flags f _).1
  rw [State.commit, flags]
  change ((s.told u f).takeReading u).recount _ = _
  rw [State.takeReading, (takes_told u f s).own, unit_told]

/-- After the control, a committed READING changes neither the records nor any control. -/
theorem control_commit : SameControl ((s.told u f).takeHand u) (s.commit u f) := by
  rw [commit_eq]
  exact (((control_clearLate ..).trans (cascade_evaluate ..).control).trans (control_resync ..)).trans
    (cascade_recount ..).control

end Commit

section Polled
variable {s : State} {x : Txn} {u : UnitNo} (waits : Awaits s x u) (hh : x.heeded = true) (hq : x.requester = .sweep)
include waits hh hq

/-- A READING that answers a poll is committed, and its unit is recounted by the commit alone (R136, R141). -/
theorem exec_polled (tRa wRa : Word) (mode flags : Byte) : exec (.readingReceived tRa wRa mode flags) s =
    .next ((s.met u).commit u ⟨tRa, wRa, mode, flags⟩).endTxn.grantNext := by
  have taken : s.takeAnswer x u (.reading ⟨tRa, wRa, mode, flags⟩) =
      (s.met u).commit u ⟨tRa, wRa, mode, flags⟩ := by
    unfold State.takeAnswer State.met
    by_cases hon : (s.unit u).presence = .online
    · simp only [if_pos hon, hq, State.handOutcome]
    · simp only [if_neg hon, hq, State.handOutcome, FieldOutcome.isReading, and_self, if_true]
  rw [waits.exec (o := .reading _) rfl, State.finishTxn, if_pos hh, if_neg nofun, taken]

/-- An answer of another kind to a poll is committed nowhere. -/
theorem exec_polled_other {i : Instr} {o : FieldOutcome} (hi : windowOutcome i = some o) (hm : o ≠ .missed)
    (ho : o.isReading = false) : exec i s = .next (s.answerEnds u (s.met u)) := by
  have ignored : (s.met u).handOutcome .sweep u o = s.met u := by
    cases o with
    | reading f => cases ho
    | ack | nak | phase | mailReply | missed => rfl
  rw [waits.exec_answer hh hi hm fun _ => ho, hq, ignored]

end Polled

/-- What a READING that answers a poll leaves of the records and of the controls. -/
theorem polledEnds (u : UnitNo) (f : ReadingFrame) (s : State) :
    let t := ((s.met u).commit u f).endTxn.grantNext
    Keeps s t ∧ (t.unit u).misses = 0 ∧ (t.unit u).presence = .online ∧
      (t.unit u).reading = commitReading f (s.unit u).reading ∧
      (t.unit u).decision.control = .after f (s.unit u).decision ∧
      ∀ v, v ≠ u → (t.unit v).misses = (s.unit v).misses ∧ (t.unit v).presence = (s.unit v).presence ∧
        (t.unit v).reading = (s.unit v).reading ∧ (t.unit v).decision.control = (s.unit v).decision.control := by
  intro t
  have ran : Ran ((s.met u).commit u f) t := ran_closed _
  have takes := takes_told u f (s.met u)
  have later : SameControl (((s.met u).told u f).takeHand u) t := (control_commit u f (s.met u)).trans ran.control
  have records : SameRecords ((s.met u).told u f) t := takes.toSameRecords.trans later.toSameRecords
  have own := (later.control u).trans takes.own
  obtain ⟨misses, presence, reading⟩ := records.unit u
  rw [unit_told, unit_met] at misses presence reading
  rw [unit_met] at own
  refine ⟨((keeps_met u s).trans (keeps_commit ..)).trans ran.keeps, misses, presence, reading, own, fun v hv => ?_⟩
  obtain ⟨misses, presence, reading⟩ := records.unit v
  have other := (later.control v).trans (takes.other v hv)
  rw [unit_told_other u f _ hv, unit_met_other hv] at misses presence reading other
  exact ⟨misses, presence, reading, other⟩

theorem isParticipant_iff (s : State) (u : UnitNo) : s.isParticipant u = true ↔
    ∃ c, s.ctx (s.unit u).cfg.riser = some c ∧ ∃ p ∈ c.participants, p.unit = u ∧ p.status ≠ .dropped := by
  unfold State.isParticipant
  cases s.ctx (s.unit u).cfg.riser with
  | none => simp
  | some c =>
    refine Iff.trans remains_iff ⟨fun h => ⟨c, rfl, h⟩, fun ⟨d, hd, h⟩ => ?_⟩
    cases hd
    exact h

/-- Settles O46: the committed READING by `polledEnds`; its steps in their order by `commit_eq`; the other answers by
`exec_polled_other`. -/
theorem readingIsCommitted : Obligations.ReadingIsCommitted := by
  refine ⟨fun s x u ms tRa wRa mode flags h hx hu hst hh hq => ?records, fun s x u ms h hx hu hst hh hq => ?steps,
    isParticipant_iff⟩
  case records =>
    obtain ⟨keeps, misses, presence, reading, control, others⟩ := polledEnds u ⟨tRa, wRa, mode, flags⟩ s
    obtain ⟨hflags, hreported, hage⟩ := commitReading_flags ⟨tRa, wRa, mode, flags⟩ (s.unit u).reading
    refine ⟨_, exec_polled ⟨h, hx, hu, ms, hst⟩ hh hq .., keeps.pending, keeps.slp, keeps.tables, misses, presence, ?_⟩
    rw [reading, control, Control.after, controlAfter_eq]
    exact ⟨hflags, hreported, hage, fun hb => commitReading_good (f := ⟨tRa, wRa, mode, flags⟩) hb,
      fun hb => commitReading_faulty (f := ⟨tRa, wRa, mode, flags⟩) hb, fun hb => if_pos hb,
      fun hb => if_neg (Bool.eq_false_iff.1 hb), others⟩
  case steps =>
    have waits : Awaits s x u := ⟨h, hx, hu, ms, hst⟩
    intro counted online
    refine ⟨fun tRa wRa mode flags => ?committed, ?other⟩
    case other =>
      rintro i (rfl | ⟨b, rfl⟩ | ⟨a, b, rfl⟩ | ⟨b, h1, h2, rfl⟩)
      · exact exec_polled_other waits hh hq (o := .ack) rfl nofun rfl
      · exact exec_polled_other waits hh hq (o := .nak _) rfl nofun rfl
      · exact exec_polled_other waits hh hq (o := .phase _ _) rfl nofun rfl
      · exact exec_polled_other waits hh hq (windowOutcome_mail h1 h2) nofun rfl
    case committed =>
      intro old f d stored told held handed unmarked decided synced
      have toldEq : (s.met u).told u ⟨tRa, wRa, mode, flags⟩ = told := by
        rw [State.told, postFault_eq, unit_met]
        rfl
      have heldEq : Control.after ⟨tRa, wRa, mode, flags⟩ d = held := controlAfter_eq ..
      have toldUnit := unit_told u ⟨tRa, wRa, mode, flags⟩ (s.met u)
      have takes := takes_told u ⟨tRa, wRa, mode, flags⟩ (s.met u)
      rw [unit_met] at toldUnit takes
      rw [toldEq] at toldUnit takes
      have decision : (told.unit u).decision = d := by rw [toldUnit]
      have after : controlAfter (told.unit u).reading.flags.localHand (told.unit u).decision = held := by
        rw [toldUnit, (commitReading_flags ..).1]
        exact heldEq
      have handedEq : told.takeHand u = handed := by
        rw [takeHand_eq after, decision]
      rw [handedEq] at takes
      have reported : (handed.unit u).reading.reported = modeOfCode mode := by
        rw [(takes.unit u).2.2, toldUnit]
        exact (commitReading_flags ..).2.1
      have late : (handed.unit u).decision.late = d.late := by rw [takes.late, decision]
      have unmarkedEq : handed.clearLate u = unmarked := by rw [clearLate_eq reported, late]
      have decides : SameControl handed decided := by
        have cleared := control_clearLate u handed
        rw [unmarkedEq] at cleared
        exact cleared.trans (cascade_evaluate ..).control
      have syncedEq : decided.resync u = synced := resync_eq (((decides.control u).trans takes.own).trans heldEq)
      have readings : (s.met u).commit u ⟨tRa, wRa, mode, flags⟩ = synced.recount (s.unit u).cfg.riser := by
        rw [commit_eq, toldEq, handedEq, unmarkedEq, unit_met, heldEq, readingClass]
        have classes : (if d.control = held then CauseClass.automatic else .control) =
            if held = d.control then .automatic else .control := ite_of_iff eq_comm
        rw [classes, syncedEq]
      rw [exec_polled waits hh hq, readings]
      rfl

end Sys2Proof.Machine
end

