-- ==== Sys2Proof/Proofs/PhaseTaken.lean ====
section
/-! PROOFS. Proofs/PhaseTaken.lean: the outcomes of queries and repairs (R105 to R107, R110, R111, R113, R114, R117,
R121, R184). -/

namespace Sys2Proof.Machine

theorem ctx_met (u : UnitNo) (s : State) (r : RiserNo) : (s.met u).ctx r = s.ctx r := by
  unfold State.met
  split <;> rfl

theorem setCtx_setCtx (r : RiserNo) (a b : Option Ctx) (s : State) : (s.setCtx r a).setCtx r b = s.setCtx r b := by
  unfold State.setCtx
  simp only [updTable_updTable]

theorem setCtx_eq_self {r : RiserNo} {c : Ctx} {s : State} (h : s.ctx r = some c) : s.setCtx r (some c) = s := by
  unfold State.setCtx
  rw [updTable_eq_self h.symm]

/-! ## The context an outcome is for -/

section Key
variable {s : State} {key : CtxKey} {c : Ctx}

theorem keyCtx_eq_some (hc : s.ctx key.riser = some c) (hk : c.key key.riser = key) : s.keyCtx key = some c := by
  rw [State.keyCtx, hc]
  exact if_pos hk

theorem key_eq_iff : c.key key.riser = key ↔ c.direction = key.direction ∧ c.tag = key.tag ∧ c.phase = key.phase := by
  obtain ⟨r, d, t, p⟩ := key
  simp [Ctx.key]

/-- An outcome that comes when the context has ended, or has moved on, finds none (R105). -/
theorem keyCtx_eq_none (h : ∀ c, s.ctx key.riser = some c →
    ¬ (c.direction = key.direction ∧ c.tag = key.tag ∧ c.phase = key.phase)) : s.keyCtx key = none := by
  unfold State.keyCtx
  split
  · rfl
  · next c hc => exact if_neg (mt key_eq_iff.1 (h c hc))

theorem queryOutcome_gone (h : s.keyCtx key = none) (u : UnitNo) (o : FieldOutcome) : s.queryOutcome key u o = s := by
  unfold State.queryOutcome
  rw [h]

theorem repairOutcome_gone (h : s.keyCtx key = none) (u : UnitNo) : s.repairOutcome key u = s := by
  rw [State.repairOutcome, h]

/-- The end of a repair's transaction removes it, whatever the outcome (R107). -/
theorem repairOutcome_eq (h : s.keyCtx key = some c) (u : UnitNo) : s.repairOutcome key u =
    s.setCtx key.riser (some { c with repairs := c.repairs.filter fun p => p.unit != u }) := by
  rw [State.repairOutcome, h]

theorem queryOutcome_other {o : FieldOutcome} (ho : ∀ a b, o ≠ .phase a b) (u : UnitNo) :
    s.queryOutcome key u o = s := by
  unfold State.queryOutcome
  split
  · next tag token _ => exact absurd rfl (ho tag token)
  · rfl

theorem queryOutcome_phase (h : s.keyCtx key = some c) {tag token : Byte} {t : Token} {u : UnitNo}
    (ht : tokenOfCode token = some t) {p : Participant} (hp : p ∈ c.participants) (hu : p.unit = u)
    (hcalls : c.calls p = true) :
    s.queryOutcome key u (.phase tag token) = s.rollTakes key.riser c u (c.action tag t) := by
  have called : (c.participants.any fun p => p.unit == u && c.calls p) = true :=
    List.any_eq_true.2 ⟨p, hp, by rw [hu, hcalls, beq_self_eq_true, Bool.and_self]⟩
  unfold State.queryOutcome
  rw [h]
  dsimp only
  rw [ht]
  exact if_pos called

theorem tokenOfCode_eq_none {token : Byte} (h : 5 < token.toNat) : tokenOfCode token = none := by
  have other (n : Byte) (hn : n.toNat ≤ 5) : token ≠ n := fun he => by rw [he] at h; omega
  rw [tokenOfCode, if_neg (other 0 (by decide)), if_neg (other 1 (by decide)), if_neg (other 2 (by decide)),
    if_neg (other 3 (by decide)), if_neg (other 4 (by decide)), if_neg (other 5 (by decide))]

/-- A token outside 0..5, or a participant the roll no longer queries, changes nothing (R106, R184). -/
theorem queryOutcome_silent (h : s.keyCtx key = some c) {tag token : Byte} {u : UnitNo}
    (hn : 5 < token.toNat ∨ ∀ p ∈ c.participants, p.unit = u → c.calls p = false) :
    s.queryOutcome key u (.phase tag token) = s := by
  unfold State.queryOutcome
  rw [h]
  dsimp only
  split
  · rfl
  · next t ht =>
    refine if_neg fun hany => ?_
    obtain ⟨p, hp, hc⟩ := List.any_eq_true.1 hany
    obtain ⟨hu, hcalls⟩ := Bool.and_eq_true_iff.1 hc
    rcases hn with hn | hn
    · rw [tokenOfCode_eq_none hn] at ht
      cases ht
    · rw [hn p hp (beq_iff_eq.1 hu)] at hcalls
      cases hcalls

theorem calls_iff (p : Participant) : c.calls p = true ↔
    c.phase = .rollReady ∧ p.status = .pending ∨ c.phase = .rollDone ∧ p.status ≠ .done ∧ p.status ≠ .dropped := by
  unfold Ctx.calls
  cases c.phase <;> simp

end Key

/-! ## What a roll makes of a PHASE -/

section Takes
variable {s : State} {r : RiserNo} {c : Ctx} {u : UnitNo}

theorem rollTakes_readied {st : PartStatus} (hp : c.phase = .rollReady)
    (hall : ∀ q ∈ (c.withStatus u st).remaining, q.status = .ready) :
    s.rollTakes r c u (.becomes st) = s.setCtx r (some (c.withStatus u st).readied) := by
  rw [State.rollTakes, rollTest_ready (d := c.withStatus u st) hp, if_pos (allRemaining_iff.2 hall), setCtx_setCtx]

theorem rollTakes_done {st : PartStatus} (hp : c.phase = .rollDone)
    (hall : ∀ q ∈ (c.withStatus u st).remaining, q.status = .done) :
    s.rollTakes r c u (.becomes st) =
      (s.setCtx r (some (c.withStatus u st))).rollEnds r (c.withStatus u st) .complete 0 := by
  rw [State.rollTakes, rollTest_done (d := c.withStatus u st) hp, if_pos (allRemaining_iff.2 hall)]

theorem rollTakes_waits {st : PartStatus}
    (h : (c.phase = .rollReady ∧ ∃ q ∈ (c.withStatus u st).remaining, q.status ≠ .ready) ∨
      (c.phase = .rollDone ∧ ∃ q ∈ (c.withStatus u st).remaining, q.status ≠ .done)) :
    s.rollTakes r c u (.becomes st) = s.setCtx r (some (c.withStatus u st)) := by
  rw [State.rollTakes]
  rcases h with ⟨hp, hex⟩ | ⟨hp, hex⟩
  · rw [rollTest_ready (d := c.withStatus u st) hp, if_neg (not_allRemaining hex)]
  · rw [rollTest_done (d := c.withStatus u st) hp, if_neg (not_allRemaining hex)]

theorem rollTakes_queued {k : RepairKind} (h : ∃ q ∈ c.repairs, q.unit = u) (hc : s.ctx r = some c) :
    s.rollTakes r c u (.repair k) = s := by
  obtain ⟨q, hq, hu⟩ := h
  have queued : (c.repairs.any fun p => p.unit == u) = true := List.any_eq_true.2 ⟨q, hq, beq_iff_eq.2 hu⟩
  rw [State.rollTakes, Ctx.queueRepair, if_pos queued, setCtx_eq_self hc]

theorem rollTakes_repair {k : RepairKind} (h : ∀ q ∈ c.repairs, q.unit ≠ u) :
    s.rollTakes r c u (.repair k) = s.setCtx r (some { c with repairs := c.repairs ++ [⟨u, k⟩] }) := by
  have free : ¬ (c.repairs.any fun p => p.unit == u) = true := by
    simpa [List.any_eq_true] using h
  rw [State.rollTakes, Ctx.queueRepair, if_neg free]

end Takes

section Waiting
variable {s : State} {x : Txn} {u : UnitNo} (waits : Awaits s x u) (hh : x.heeded = true)
include waits hh

/-- An answer to a query. -/
theorem exec_queried {key : CtxKey} (hq : x.requester = .query key) {i : Instr} {o : FieldOutcome}
    (hi : windowOutcome i = some o) (hm : o ≠ .missed) :
    exec i s = .next (s.answerEnds u ((s.met u).queryOutcome key u o)) := by
  rw [waits.exec_answer hh hi hm (by simp [hq]), hq, State.handOutcome]

theorem exec_repaired {key : CtxKey} (hq : x.requester = .repair key) {i : Instr} {o : FieldOutcome}
    (hi : windowOutcome i = some o) (hm : o ≠ .missed) :
    exec i s = .next (s.answerEnds u ((s.met u).repairOutcome key u)) := by
  rw [waits.exec_answer hh hi hm (by simp [hq]), hq, State.handOutcome]

theorem exec_query_missed {key : CtxKey} (hq : x.requester = .query key)
    (hk : (s.unit u).presence = .offline ∨ s.missCount u ≠ (s.unit u).cfg.missLimit) :
    exec .replyWindowExpiry s = .next (s.missedOnce u).endTxn.grantNext := by
  rw [waits.exec_kept hh hk, hq, State.handOutcome, queryOutcome_missed]

theorem exec_repair_missed {key : CtxKey} (hq : x.requester = .repair key)
    (hk : (s.unit u).presence = .offline ∨ s.missCount u ≠ (s.unit u).cfg.missLimit) :
    exec .replyWindowExpiry s = .next ((s.missedOnce u).repairOutcome key u).endTxn.grantNext := by
  rw [waits.exec_kept hh hk, hq, State.handOutcome]

end Waiting

theorem ran_answerEnds {s y m : State} {u : UnitNo} (h : Cascade m y) : Ran m (s.answerEnds u y) := by
  unfold State.answerEnds
  split
  · exact .cascade_trans h (ran_closed y)
  · exact .cascade_trans (h.trans (cascade_recount ..)) (ran_closed _)

/-- An answer, of whatever kind. -/
theorem windowOutcome_answer {i : Instr} (h : i = .ackReceived ∨ (∃ b, i = .nakReceived b) ∨
    (∃ a b, i = .phaseReceived a b) ∨ (∃ a b c d, i = .readingReceived a b c d) ∨
    ∃ b : List Byte, 1 ≤ b.length ∧ b.length ≤ 32 ∧ i = .mailReplyReceived b) :
    ∃ o, windowOutcome i = some o ∧ o ≠ .missed := by
  rcases h with rfl | ⟨b, rfl⟩ | ⟨a, b, rfl⟩ | ⟨a, b, c, d, rfl⟩ | ⟨b, h1, h2, rfl⟩
  · exact ⟨.ack, rfl, nofun⟩
  · exact ⟨.nak _, rfl, nofun⟩
  · exact ⟨.phase a b, rfl, nofun⟩
  · exact ⟨.reading _, rfl, nofun⟩
  · exact ⟨.mailReply b, windowOutcome_mail h1 h2, nofun⟩

/-- An answer that is no PHASE. -/
theorem windowOutcome_other {i : Instr} (h : i = .ackReceived ∨ (∃ b, i = .nakReceived b) ∨
    (∃ a b c d, i = .readingReceived a b c d) ∨
    ∃ b : List Byte, 1 ≤ b.length ∧ b.length ≤ 32 ∧ i = .mailReplyReceived b) :
    ∃ o, windowOutcome i = some o ∧ o ≠ .missed ∧ ∀ a b, o ≠ .phase a b := by
  rcases h with rfl | ⟨b, rfl⟩ | ⟨a, b, c, d, rfl⟩ | ⟨b, h1, h2, rfl⟩
  · exact ⟨.ack, rfl, nofun, nofun⟩
  · exact ⟨.nak _, rfl, nofun, nofun⟩
  · exact ⟨.reading _, rfl, nofun, nofun⟩
  · exact ⟨.mailReply b, windowOutcome_mail h1 h2, nofun, nofun⟩

/-- Settles O49: the context by its key, then the query by `rollTakes` and the repair by `repairOutcome_eq`. -/
theorem phaseIsTaken : Obligations.PhaseIsTaken := by
  refine ⟨fun s x u ms key c tag token h hx hu hst hh hq hc hk => ?query, fun _ => rfl,
    fun s x u ms key h hx hu hst hh => ?others⟩
  case query =>
    have waits : Awaits s x u := ⟨h, hx, hu, ms, hst⟩
    intro counted m ends status remaining
    have found : (s.met u).keyCtx key = some c := keyCtx_eq_some ((ctx_met ..).trans hc) hk
    have phased : exec (.phaseReceived tag token) s = .next (ends (m.queryOutcome key u (.phase tag token))) :=
      exec_queried waits hh hq (o := .phase tag token) rfl nofun
    refine ⟨fun p t hp hpu hcalls ht => ?taken, calls_iff, fun hn => ?silent, fun i hi => ?other, fun hm => ?missed⟩
    case taken =>
      have takes : exec (.phaseReceived tag token) s = .next (ends (m.rollTakes key.riser c u (c.action tag t))) :=
        phased.trans (congrArg (fun y => Host.Outcome.next (ends y)) (queryOutcome_phase found ht hp hpu hcalls))
      have ctx : m.ctx key.riser = some c := (ctx_met ..).trans hc
      refine ⟨⟨_, (ran_answerEnds (cascade_rollTakes ..)).toRunFrame, takes⟩, fun ha => ?_, fun st ha => ?becomes,
        fun ha => ?_, fun k ha => ?repair⟩
      · rw [takes, ha]
        rfl
      case becomes =>
        rw [takes, ha]
        refine ⟨fun hp hall => ?_, fun hp hall => ?_, fun hex => ?_⟩
        · rw [rollTakes_readied hp hall]
          rfl
        · rw [rollTakes_done hp hall]
          rfl
        · rw [rollTakes_waits hex]
          rfl
      · rw [takes, ha]
        rfl
      case repair =>
        rw [takes, ha]
        refine ⟨fun hex => ?_, fun hno => ?_⟩
        · rw [rollTakes_queued hex ctx]
        · rw [rollTakes_repair hno]
    case silent => exact phased.trans (congrArg (fun y => Host.Outcome.next (ends y)) (queryOutcome_silent found hn))
    case other =>
      obtain ⟨o, ho, hm, hno⟩ := windowOutcome_other hi
      rw [exec_queried waits hh hq ho hm, queryOutcome_other hno]
      rfl
    case missed => exact exec_query_missed waits hh hq hm
  case others =>
    have waits : Awaits s x u := ⟨h, hx, hu, ms, hst⟩
    intro counted met closed ends n missed kept answer
    refine ⟨fun c hq hc hk => ?repair, fun hq hgone => ?gone⟩
    case repair =>
      intro gone
      have found : (s.met u).keyCtx key = some c := keyCtx_eq_some ((ctx_met ..).trans hc) hk
      refine ⟨fun i hi => ?_, fun hm => ?_⟩
      · obtain ⟨o, ho, hm⟩ := windowOutcome_answer hi
        rw [exec_repaired waits hh hq ho hm, repairOutcome_eq found]
        rfl
      · rw [exec_repair_missed waits hh hq hm, repairOutcome_eq (s := s.missedOnce u) (keyCtx_eq_some hc hk)]
        rfl
    case gone =>
      have lost : (s.met u).keyCtx key = none := keyCtx_eq_none fun c hc => hgone c ((ctx_met ..).symm.trans hc)
      have lostMissed : (s.missedOnce u).keyCtx key = none := keyCtx_eq_none hgone
      refine ⟨fun i hi => ?_, fun hm => ?_⟩
      · obtain ⟨o, ho, hm⟩ := windowOutcome_answer hi
        rcases hq with hq | hq
        · rw [exec_queried waits hh hq ho hm, queryOutcome_gone lost]
          rfl
        · rw [exec_repaired waits hh hq ho hm, repairOutcome_gone lost]
          rfl
      · rcases hq with hq | hq
        · exact exec_query_missed waits hh hq hm
        · rw [exec_repair_missed waits hh hq hm, repairOutcome_gone lostMissed]
          rfl

end Sys2Proof.Machine
end

