-- ==== Sys2Proof/Proofs/LineEdges.lean ====
section
/-! PROOFS. Proofs/LineEdges.lean: the pin changes of a line, the expiry of its filter, and what the blocks make of the
edge (R76, R77, R148 to R155). -/

namespace Sys2Proof.Machine

/-! ## Pin changes -/

/-- An update that gives the record at its place the same value is the same update. -/
theorem updTable_congr {α : Type} {n : Nat} {v : Vector α n} {i : Fin n} {f g : α → α} (h : f v[i] = g v[i]) :
    updTable v i f = updTable v i g :=
  congrArg (v.set i ·) h

theorem modLine_congr {l : LineNo} {f g : LineRec → LineRec} {s : State} (h : f (s.line l) = g (s.line l)) :
    s.modLine l f = s.modLine l g :=
  congrArg (fun v : Vector LineRec 6 => { s with lu := { s.lu with lines := v } }) (updTable_congr h)

theorem modLine_eq_self {l : LineNo} {f : LineRec → LineRec} {s : State} (h : f (s.line l) = s.line l) :
    s.modLine l f = s :=
  congrArg (fun v : Vector LineRec 6 => { s with lu := { s.lu with lines := v } }) (updTable_eq_self h)

theorem pinShowsActive_setPin (l : LineNo) (high : Bool) (s : State) : (s.setPin l high).pinShowsActive l =
    if (s.line l).cfg.polarity = .activeHigh then high else !high := by
  unfold State.pinShowsActive
  have pin : (s.setPin l high).lu.pins[l] = high := by
    unfold State.setPin
    simp
  have line : (s.setPin l high).line l = s.line l := rfl
  rw [line, pin]
  cases (s.line l).cfg.polarity <;> rfl

section Filter
variable {x : LineRec} {active : Bool}

theorem filterAfter_level (h : active = x.level) : filterAfter x active = none := if_pos h

theorem filterAfter_starts (h : active ≠ x.level) (hn : x.filterRemaining = none) :
    filterAfter x active = some x.cfg.filter := by
  rw [filterAfter, if_neg h, hn]

theorem filterAfter_runs (h : active ≠ x.level) (hn : x.filterRemaining ≠ none) :
    filterAfter x active = x.filterRemaining := by
  rw [filterAfter, if_neg h]
  cases hf : x.filterRemaining with
  | none => exact absurd hf hn
  | some n => rfl

end Filter

/-- Settles O54: the pin, and for an input line the filter by `filterAfter`. -/
theorem pinChangeFilters : Obligations.PinChangeFilters := by
  intro s l high h m active
  have taken : exec (.linePinChange l high) s = .next (m.readPin l) :=
    congrArg Host.Outcome.next (whileAlive_of_alive (s := m) h _)
  have line : m.line l = s.line l := rfl
  have read (hi : (s.line l).cfg.role.isInput = true) : exec (.linePinChange l high) s =
      .next (m.modLine l fun x => { x with filterRemaining := filterAfter x active }) := by
    have shows : m.pinShowsActive l = active := pinShowsActive_setPin l high s
    have input : m.readPin l = m.modLine l fun x => { x with filterRemaining := filterAfter x (m.pinShowsActive l) } :=
      if_pos hi
    rw [taken, input, shows]
  refine ⟨fun hi => ?_, fun hi ha => ?_, fun hi ha hn => ?_, fun hi ha hn => ?_⟩
  · exact taken.trans (congrArg Host.Outcome.next (if_neg (Bool.eq_false_iff.1 hi)))
  · rw [read hi, modLine_congr (g := fun x => { x with filterRemaining := none })]
    rw [line, filterAfter_level ha]
  · rw [read hi, modLine_congr (g := fun x => { x with filterRemaining := some (s.line l).cfg.filter })]
    rw [line, filterAfter_starts ha hn]
  · rw [read hi, modLine_eq_self]
    rw [line, filterAfter_runs ha hn]

/-! ## The expiry of a filter -/

theorem filterRuns_iff {s : State} {l : LineNo} : s.filterRuns l = true ↔ (s.line l).cfg.role.isInput = true ∧
    (s.line l).filterRemaining ≠ none ∧ s.pinShowsActive l ≠ (s.line l).level := by
  unfold State.filterRuns
  rw [Bool.and_eq_true, Bool.and_eq_true, bne_iff_ne, Option.isSome_iff_ne_none, and_assoc]

theorem exec_filterExpiry {s : State} {l : LineNo} (h : s.slp.resetHeld = false) :
    exec (.lineFilterExpiry l) s = .next (if s.filterRuns l then s.edge l else s) :=
  congrArg Host.Outcome.next (whileAlive_of_alive h _)

/-- The accepted level of a running filter is reversed. -/
theorem acceptLevel_eq {s : State} {l : LineNo} (h : s.pinShowsActive l ≠ (s.line l).level) :
    s.acceptLevel l = s.modLine l fun x => { x with level := !(s.line l).level, filterRemaining := none } := by
  have reversed : s.pinShowsActive l = !(s.line l).level := Bool.eq_not.2 h
  rw [State.acceptLevel, reversed]

theorem edgeLevel_eq {role : Role} (h : role.isInput = true) : edgeLevel role = if role = .inWind then 1 else 3 := by
  cases role with
  | inWind | inFreeze | inEmergency => rfl
  | none | outFault | outFree => cases h

/-- The level of an edge's notice (R151). -/
theorem edge_eq {s : State} {l : LineNo} (hl : s.pinShowsActive l ≠ (s.line l).level) : s.edge l =
    let n := ((s.modLine l fun x => { x with level := !(s.line l).level, filterRemaining := none }).post
      (edgeLevel (s.line l).cfg.role) (.line l) (.lineEdge (s.line l).cfg.role (!(s.line l).level)))
    if s.running then (n.edgeEffect (s.line l).cfg.role (s.roleActive (s.line l).cfg.role)
      (n.roleActive (s.line l).cfg.role)).grantOnWork else n := by
  have reversed : s.pinShowsActive l = !(s.line l).level := Bool.eq_not.2 hl
  rw [State.edge, acceptLevel_eq hl, reversed]
  rfl

theorem edgeEffect_freeze (was is : Bool) (s : State) : s.edgeEffect .inFreeze was is =
    if was = false ∧ is = true then s.freezeOn else if was = true ∧ is = false then s.freezeOff else s := by
  cases was <;> cases is <;> rfl

theorem edgeEffect_emergency (was is : Bool) (s : State) : s.edgeEffect .inEmergency was is =
    if was = false ∧ is = true then s.emergencyOn else if was = true ∧ is = false then s.emergencyOff else s := by
  cases was <;> cases is <;> rfl

/-- What the blocks make of an edge, `was` and `is` giving the role levels before and after it (R151 to R155). -/
theorem edgeEffect_eq (role : Role) (was is : Role → Bool) (s : State) : s.edgeEffect role (was role) (is role) =
    match role with
    | .inWind => s.recompute
    | .inFreeze =>
      if was .inFreeze = false ∧ is .inFreeze = true then s.freezeOn
      else if was .inFreeze = true ∧ is .inFreeze = false then s.freezeOff else s
    | .inEmergency =>
      if was .inEmergency = false ∧ is .inEmergency = true then s.emergencyOn
      else if was .inEmergency = true ∧ is .inEmergency = false then s.emergencyOff else s
    | _ => s := by
  cases role with
  | inFreeze => exact edgeEffect_freeze ..
  | inEmergency => exact edgeEffect_emergency ..
  | inWind | none | outFault | outFree => rfl

theorem roleActive_iff (s : State) (role : Role) : s.roleActive role = true ↔
    ∃ l, (s.line l).cfg.role = role ∧ (s.line l).level = true := by
  simp only [State.roleActive, List.any_eq_true, Bool.and_eq_true, beq_iff_eq, and_iff_right (mem_fins _)]

theorem mem_presentRisers {s : State} {r : RiserNo} : r ∈ s.presentRisers ↔ (s.riser r).cfg.present = true :=
  mem_filter_fins

theorem mem_presentUnits {s : State} {u : UnitNo} : u ∈ s.presentUnits ↔ (s.unit u).cfg.present = true :=
  mem_filter_fins

/-- Settles O55: the edge by `edge_eq`, its effects by role; the block's walks by their definitions. -/
theorem filterExpiryIsAnEdge : Obligations.FilterExpiryIsAnEdge := by
  refine ⟨fun s l h => ?expiry, fun s => ⟨roleActive_iff s, fun _ => mem_presentRisers, pairwise_filter_fins _,
    fun _ => mem_presentUnits, pairwise_filter_fins _, rfl, rfl, rfl⟩⟩
  intro level role m n effect runs
  have taken (hruns : runs) : exec (.lineFilterExpiry l) s = .next (s.edge l) := by
    rw [exec_filterExpiry h, if_pos (filterRuns_iff.2 hruns)]
  have edge (hruns : runs) : s.edge l =
      if s.running then (n.edgeEffect role (s.roleActive role) (m.roleActive role)).grantOnWork else n := by
    rw [edge_eq hruns.2.2, edgeLevel_eq hruns.1]
    rfl
  have blocks : n.edgeEffect role (s.roleActive role) (m.roleActive role) = effect :=
    edgeEffect_eq role s.roleActive m.roleActive n
  refine ⟨fun hruns hr => ?_, fun hruns hr => ⟨?_, ?_⟩, fun hruns => ?_⟩
  · rw [taken hruns, edge hruns, if_neg (Bool.eq_false_iff.1 hr)]
  · have posted : Cascade m n := cascade_post _ _ _ m (edgeLevel_eq hruns.1).symm
    rw [← blocks]
    exact (Ran.cascade_trans (posted.trans (cascade_edgeEffect ..)) (ran_grantOnWork _)).toRunFrame
  · rw [taken hruns, edge hruns, if_pos hr, blocks]
  · rw [exec_filterExpiry h, if_neg (mt filterRuns_iff.1 hruns)]

end Sys2Proof.Machine
end

