-- ==== Sys2Proof/Proofs/Mapping.lean ====
section
/-! PROOFS. Proofs/Mapping.lean: the mapping step: its rows, the speed rule, the dwell rule, and what a change of
commanded value announces (R46 to R51, R53). -/

namespace Sys2Proof.Machine

theorem modUnit_congr {u : UnitNo} {f g : UnitRec → UnitRec} {s : State} (h : f (s.unit u) = g (s.unit u)) :
    s.modUnit u f = s.modUnit u g :=
  congrArg (fun v : Vector UnitRec 24 => { s with units := v }) (updTable_congr h)

theorem coordinate_iff (s : State) : s.coordinate = true ↔ s.slp.opState = .coordinate := by
  unfold State.coordinate
  exact beq_iff_eq

theorem postWhereHeard_eq (u : UnitNo) (c : ModeSpeed) (s : State) : s.postWhereHeard u c =
    if s.slp.opState = .coordinate ∧ (s.unit u).presence = .online ∧ (s.unit u).decision.control ≠ .hand then
      s.postCommand u c else s := by
  unfold State.postWhereHeard
  simp only [Bool.and_eq_true, coordinate_iff, beq_iff_eq, bne_iff_ne, and_assoc]

/-- The decision part `e`, its commanded value `c` announced, and posted where the unit is heard (R53). -/
theorem announce_decision (u : UnitNo) (c : ModeSpeed) (e : Decision) (s : State) :
    (s.modDecision u fun _ => e).announceCommanded u c =
      let n := (s.modDecision u fun _ => e).post 0 (.unit u) (.unitMode c)
      if s.slp.opState = .coordinate ∧ (s.unit u).presence = .online ∧ e.control ≠ .hand then n.postCommand u c
      else n := by
  rw [State.announceCommanded, postWhereHeard_eq]
  simp only [post_slp, post_unit, modDecision_slp, modDecision_unit, if_true]

/-- A unit commanded to a mode: the decision part it then has (R48). -/
def UnitRec.moved (x : UnitRec) (c : ModeSpeed) : Decision :=
  { x.decision with commanded := some c, dwell := x.cfg.minDwell, dwellExpired := false }

section Command
variable (u : UnitNo) (c : ModeSpeed) (s : State)

theorem commandMode_decision :
    s.commandMode u c = (s.modDecision u fun _ => (s.unit u).moved c).announceCommanded u c :=
  congrArg (State.announceCommanded u c) (modUnit_congr rfl)

theorem commandSpeed_decision : s.commandSpeed u c =
    (s.modDecision u fun _ => { (s.unit u).decision with commanded := some c }).announceCommanded u c :=
  congrArg (State.announceCommanded u c) (modUnit_congr rfl)

theorem unit_postWhereHeard (v : UnitNo) : (s.postWhereHeard u c).unit v = s.unit v := by
  rw [postWhereHeard_eq]
  split <;> rfl

theorem unit_announceCommanded (v : UnitNo) : (s.announceCommanded u c).unit v = s.unit v :=
  unit_postWhereHeard ..

theorem decision_commandMode : ((s.commandMode u c).unit u).decision = (s.unit u).moved c := by
  rw [commandMode_decision, unit_announceCommanded, modDecision_unit, if_pos rfl]

theorem decision_commandSpeed :
    ((s.commandSpeed u c).unit u).decision = { (s.unit u).decision with commanded := some c } := by
  rw [commandSpeed_decision, unit_announceCommanded, modDecision_unit, if_pos rfl]

end Command

/-! ## The rows -/

/-- A row of the mapping table as the mode, the speed, and whether the posting threshold applies; none where held. -/
def Target.row : Target → Option (ModeSpeed × Bool)
  | .held => none
  | .give m threshold => some (m, threshold)

theorem preferredTarget_row (x : UnitRec) : (preferredTarget x).row =
    match x.decision.preference with
    | some .recoverHeat => x.decision.prefSpeed.map fun v => (⟨.recoverHeat, v⟩, true)
    | some .recoverCool => some (⟨.recoverCool, 100⟩, false)
    | some .bypass => some (⟨.bypass, 0⟩, false)
    | some .freeCool => some (⟨.bypass, 0⟩, false)
    | some .defrost => some (⟨.defrost, x.cfg.defrostSpeed⟩, false)
    | some .safe => none
    | none => none := by
  unfold preferredTarget
  cases hp : x.decision.preference with
  | none => rfl
  | some m =>
    cases m with
    | recoverHeat => cases x.decision.prefSpeed <;> rfl
    | recoverCool | bypass | freeCool | defrost | safe => rfl

theorem target_row (s : State) (u : UnitNo) : (s.target u).row =
    if s.roleActive .inEmergency then some (⟨.safe, 0⟩, false)
    else match (s.unit u).decision.control with
      | .forced => (s.unit u).decision.forced.map fun m => (m, false)
      | .hand => none
      | .auto =>
        if s.isParticipant u then none
        else if (s.riser (s.unit u).cfg.riser).live.state = .free ∧ (s.unit u).reading.flags.damperFault = false then
          some (⟨.freeCool, 0⟩, false)
        else (preferredTarget (s.unit u)).row := by
  unfold State.target
  dsimp only
  split
  · rfl
  · cases hc : (s.unit u).decision.control with
    | forced => cases (s.unit u).decision.forced <;> rfl
    | hand => rfl
    | auto =>
      simp only [Bool.and_eq_true, beq_iff_eq, Bool.not_eq_true']
      split
      · rfl
      · split <;> rfl

theorem target_of_row_none {t : Target} (h : t.row = none) : t = .held := by
  cases t with
  | held => rfl
  | give => cases h

theorem target_of_row_some {t : Target} {m : ModeSpeed} {b : Bool} (h : t.row = some (m, b)) : t = .give m b := by
  cases t with
  | held => cases h
  | give =>
    cases h
    rfl

/-! ## The step -/

theorem changeAllowed_iff {cls : CauseClass} {m : Mode} {dwell : Nat} :
    changeAllowed cls m dwell = true ↔ cls ≠ .automatic ∨ m = .defrost ∨ dwell = 0 := by
  simp only [changeAllowed, Bool.or_eq_true, bne_iff_ne, beq_iff_eq, or_assoc]

theorem speedDue_iff {c : UnitCfg} {threshold : Bool} {new old : Nat} : speedDue c threshold new old = true ↔
    if threshold then new + 5 ≤ old ∨ old + 5 ≤ new ∨ new ≠ old ∧ (new = c.sMin ∨ new = 100) else new ≠ old := by
  cases threshold with
  | false => simp [speedDue]
  | true => simp [speedDue, or_assoc]

section Step
variable {s : State} {u : UnitNo} {cls : CauseClass} {m : ModeSpeed} {b : Bool}

theorem mappingStep_held (h : s.target u = .held) : s.mappingStep u cls = s := by
  unfold State.mappingStep
  dsimp only
  rw [h]

theorem mappingStep_give (h : s.target u = .give m b)
    (hc : (s.unit u).decision.commanded.map (·.mode) ≠ some m.mode) :
    s.mappingStep u cls = if changeAllowed cls m.mode (s.unit u).decision.dwell then s.commandMode u m else s := by
  unfold State.mappingStep
  dsimp only
  rw [h]
  cases ho : (s.unit u).decision.commanded with
  | none => rfl
  | some old => exact if_neg fun he => hc (by rw [ho, Option.map_some, he])

theorem mappingStep_same (h : s.target u = .give m b) {old : ModeSpeed} (ho : (s.unit u).decision.commanded = some old)
    (he : old.mode = m.mode) :
    s.mappingStep u cls = if m.mode = .recoverHeat ∧ speedDue (s.unit u).cfg b m.speed old.speed = true then
      s.commandSpeed u m else s := by
  unfold State.mappingStep
  dsimp only
  rw [h, ho]
  exact if_pos he

end Step

/-- Settles O60: the row by `target_row`, then the step by whether the commanded mode changes. -/
theorem mappingStep : Obligations.MappingStep := by
  intro s u cls d after announced moved
  have commanded (c : ModeSpeed) : s.commandMode u c = announced c (moved c) :=
    (commandMode_decision u c s).trans (announce_decision ..)
  refine ⟨commanded, fun mode => ?group, ?rows⟩
  case group => rw [State.setGroupMode, commanded]
  case rows =>
    intro row
    have rowEq : (s.target u).row = row := by
      rw [target_row, preferredTarget_row] <;> rfl
    refine ⟨fun hn => mappingStep_held (target_of_row_none (rowEq.trans hn)), fun m threshold hr => ?_⟩
    have target := target_of_row_some (rowEq.trans hr)
    refine ⟨fun hc => ⟨fun ha => ?_, fun h1 h2 h3 => ?_⟩, fun old ho he => ⟨fun hm => ?_, fun hm =>
      ⟨fun hd => ?_, fun hd => ?_⟩⟩⟩
    · have changed : s.mappingStep u cls = s.commandMode u m := by
        rw [mappingStep_give target hc, if_pos (changeAllowed_iff.2 ha)]
      exact ⟨changed.trans (commanded m),
        (congrArg (fun t : State => (t.unit u).decision) changed).trans (decision_commandMode ..)⟩
    · rw [mappingStep_give target hc, if_neg]
      rw [changeAllowed_iff]
      rintro (given | defrost | dwell)
      · exact given h1
      · exact h2 defrost
      · exact h3 dwell
    · rw [mappingStep_same target ho he, if_neg fun h => hm h.1]
    · have changed : s.mappingStep u cls = s.commandSpeed u m := by
        rw [mappingStep_same target ho he, if_pos ⟨hm, speedDue_iff.2 hd⟩]
      exact ⟨changed.trans ((commandSpeed_decision u m s).trans (announce_decision ..)),
        (congrArg (fun t : State => (t.unit u).decision) changed).trans (decision_commandSpeed ..)⟩
    · rw [mappingStep_same target ho he, if_neg fun h => hd (speedDue_iff.1 h.2)]

end Sys2Proof.Machine
end

