-- ==== Sys2Proof/Proofs/Preference.lean ====
section
/-! PROOFS. Proofs/Preference.lean: the preference tests, the wheel arithmetic they use, and the preference step (R24 to
R29, R37 to R42). -/

namespace Sys2Proof.Machine

/-! ## The tests as propositions -/

section Tests
variable {c : UnitCfg} {cur : Option Mode} {wheelFault damperFault : Bool} {tRa tOa hRa hOa : Int} {wOa : Nat}

theorem inHeatingRegion_iff : inHeatingRegion c cur tOa = true ↔
    if cur = some .recoverHeat ∨ cur = some .defrost then tOa < c.tSp else tOa < c.tSp - c.db := by
  unfold inHeatingRegion
  split <;> exact decide_eq_true_iff

theorem recoveryPossible_iff : recoveryPossible c.epsilon wheelFault tRa tOa = true ↔
    0 < c.epsilon ∧ wheelFault = false ∧ tOa + 50 < tRa := by
  simp only [recoveryPossible, Bool.and_eq_true, decide_eq_true_eq, Bool.not_eq_true', and_assoc]

theorem frosting_iff {t : Int} : frosting c cur t = true ↔
    t ≤ c.frostLimit ∨ cur = some .defrost ∧ t < c.frostLimit + 100 := by
  simp only [frosting, Bool.or_eq_true, Bool.and_eq_true, decide_eq_true_eq]

theorem coolRecovery_iff : coolRecovery c wheelFault cur tRa tOa hRa hOa = true ↔
    0 < c.epsilon ∧ wheelFault = false ∧ tRa < tOa ∧
      (if cur = some .recoverCool then hRa + (c.hm / 2 : Nat) ≤ hOa else hRa + c.hm ≤ hOa) := by
  simp only [coolRecovery, Bool.and_eq_true, decide_eq_true_eq, Bool.not_eq_true', and_assoc]
  split <;> rfl

theorem freeCooling_iff : freeCooling c damperFault cur tRa tOa hRa hOa wOa = true ↔
    damperFault = false ∧ hOa < hRa ∧
      (if cur = some .freeCool then tOa < tRa ∧ wOa ≤ c.wMax + 10 else tOa ≤ tRa - c.db ∧ wOa ≤ c.wMax) := by
  simp only [freeCooling, Bool.and_eq_true, decide_eq_true_eq, Bool.not_eq_true', and_assoc]
  split <;> simp only [Bool.and_eq_true, decide_eq_true_eq]

theorem heatingVerdict_bypass (h : ¬ recoveryPossible c.epsilon wheelFault tRa tOa = true) :
    heatingVerdict c wheelFault cur tRa tOa = ⟨.bypass, none, none⟩ :=
  if_neg h

theorem heatingVerdict_defrost (h : recoveryPossible c.epsilon wheelFault tRa tOa = true)
    (hf : frosting c cur (exhaustLeaving c.epsilon (wheelSpeed c tRa tOa) tRa tOa) = true) :
    heatingVerdict c wheelFault cur tRa tOa =
      ⟨.defrost, none, some (exhaustLeaving c.epsilon (wheelSpeed c tRa tOa) tRa tOa)⟩ :=
  (if_pos h).trans (if_pos hf)

theorem heatingVerdict_recovers (h : recoveryPossible c.epsilon wheelFault tRa tOa = true)
    (hf : ¬ frosting c cur (exhaustLeaving c.epsilon (wheelSpeed c tRa tOa) tRa tOa) = true) :
    heatingVerdict c wheelFault cur tRa tOa = ⟨.recoverHeat, some (wheelSpeed c tRa tOa),
      some (exhaustLeaving c.epsilon (wheelSpeed c tRa tOa) tRa tOa)⟩ :=
  (if_pos h).trans (if_neg hf)

end Tests

section Verdict
variable {c : UnitCfg} {f : UnitFlags} {cur : Option Mode} {ra : ReturnAir} {oa : OutdoorAir}

theorem preferenceTests_heating (h : inHeatingRegion c cur oa.tOa = true) :
    preferenceTests c f cur ra oa = heatingVerdict c f.wheelFault cur ra.tRa oa.tOa :=
  if_pos h

theorem preferenceTests_cool (h : ¬ inHeatingRegion c cur oa.tOa = true)
    (hc : coolRecovery c f.wheelFault cur ra.tRa oa.tOa (enthalpy ra.tRa ra.wRa) (enthalpy oa.tOa oa.wOa) = true) :
    preferenceTests c f cur ra oa = ⟨.recoverCool, none, none⟩ :=
  (if_neg h).trans (if_pos hc)

theorem preferenceTests_free (h : ¬ inHeatingRegion c cur oa.tOa = true)
    (hc : ¬ coolRecovery c f.wheelFault cur ra.tRa oa.tOa (enthalpy ra.tRa ra.wRa) (enthalpy oa.tOa oa.wOa) = true)
    (hf : freeCooling c f.damperFault cur ra.tRa oa.tOa (enthalpy ra.tRa ra.wRa) (enthalpy oa.tOa oa.wOa) oa.wOa =
      true) :
    preferenceTests c f cur ra oa = ⟨.freeCool, none, none⟩ :=
  (if_neg h).trans ((if_neg hc).trans (if_pos hf))

theorem preferenceTests_none (h : ¬ inHeatingRegion c cur oa.tOa = true)
    (hc : ¬ coolRecovery c f.wheelFault cur ra.tRa oa.tOa (enthalpy ra.tRa ra.wRa) (enthalpy oa.tOa oa.wOa) = true)
    (hf : ¬ freeCooling c f.damperFault cur ra.tRa oa.tOa (enthalpy ra.tRa ra.wRa) (enthalpy oa.tOa oa.wOa) oa.wOa =
      true) :
    preferenceTests c f cur ra oa = ⟨.bypass, none, none⟩ :=
  (if_neg h).trans ((if_neg hc).trans (if_neg hf))

end Verdict

/-! ## The wheel arithmetic -/

theorem ceilDiv_bounds (n : Int) {d : Int} (hd : 0 < d) : n ≤ d * ceilDiv n d ∧ d * (ceilDiv n d - 1) < n := by
  have split := Int.mul_ediv_add_emod (-n) d
  have low := Int.emod_nonneg (-n) (Int.ne_of_gt hd)
  have high := Int.emod_lt_of_pos (-n) hd
  rw [ceilDiv, Int.mul_sub, Int.mul_neg]
  omega

/-- Of a number that is not negative the nearest, ties up. -/
theorem roundDiv_bounds {n : Int} {d : Nat} (hn : 0 ≤ n) (hd : 0 < d) :
    2 * n - d < 2 * (d * roundDiv n d) ∧ 2 * (d * roundDiv n d) ≤ 2 * n + d := by
  obtain ⟨above, below, -, tieDown⟩ := roundDiv_nearest n hd
  have strict : 2 * (d * roundDiv n d - n) ≠ -d := fun he => Int.not_lt.2 hn (tieDown he)
  omega

theorem effEpsilon_bounds (epsilon speed : Nat) :
    2 * ((epsilon : Int) * speed) - 100 < 200 * effEpsilon epsilon speed ∧
      200 * effEpsilon epsilon speed ≤ 2 * ((epsilon : Int) * speed) + 100 := by
  have nonneg : 0 ≤ (epsilon : Int) * speed := Int.mul_nonneg (Int.natCast_nonneg _) (Int.natCast_nonneg _)
  obtain ⟨low, high⟩ := roundDiv_bounds (d := 100) nonneg (by decide)
  rw [effEpsilon]
  omega

theorem effEpsilon_nonneg (epsilon speed : Nat) : 0 ≤ effEpsilon epsilon speed := by
  have nonneg : 0 ≤ (epsilon : Int) * speed := Int.mul_nonneg (Int.natCast_nonneg _) (Int.natCast_nonneg _)
  have low := (effEpsilon_bounds epsilon speed).1
  omega

theorem wheelSpeed_eq (c : UnitCfg) (tRa tOa : Int) :
    (wheelSpeed c tRa tOa : Int) = min 100 (max (c.sMin : Int) (rawSpeed c tRa tOa)) := by
  rw [wheelSpeed, Int.toNat_of_nonneg]
  omega

/-! ## The preference step -/

theorem evaluable_iff (x : UnitRec) : x.evaluable = true ↔
    x.presence = .online ∧ x.reading.condition = .fresh ∧ x.reading.flags.fanOff = false := by
  simp only [UnitRec.evaluable, Bool.and_eq_true, beq_iff_eq, Bool.not_eq_true', and_assoc]

section Step
variable {x : UnitRec} {st : StationLive}

theorem preferenceOf_none (h : st.status = .none) : preferenceOf x st =
    { x.decision with preference := none, prefSpeed := none, lastHoa := none, lastHra := none, lastTexl := none } :=
  if_pos h

theorem preferenceOf_held (h : st.status ≠ .none) (hn : ¬ x.evaluable = true) : preferenceOf x st = x.decision :=
  (if_neg h).trans (if_neg hn)

theorem preferenceOf_decided (h : st.status ≠ .none) (he : x.evaluable = true) {ra : ReturnAir} {oa : OutdoorAir}
    (hra : x.reading.air = some ra) (hoa : st.air = some oa) : preferenceOf x st =
    { x.decision with
      preference := some (preferenceTests x.cfg x.reading.flags x.decision.preference ra oa).preference
      prefSpeed := (preferenceTests x.cfg x.reading.flags x.decision.preference ra oa).speed
      lastHoa := some (enthalpy oa.tOa oa.wOa)
      lastHra := some (enthalpy ra.tRa ra.wRa)
      lastTexl := (preferenceTests x.cfg x.reading.flags x.decision.preference ra oa).tExl } := by
  unfold preferenceOf
  rw [if_neg h, if_pos he, hra, hoa]

end Step

theorem preferenceStep_eq {s : State} {u : UnitNo} {e : Decision}
    (h : preferenceOf (s.unit u) (s.station (s.unit u).cfg.station).live = e) : s.preferenceStep u =
      (s.modDecision u fun _ => e).postFrost u (s.unit u).decision.preference e.preference e.lastTexl := by
  rw [← h]
  rfl

theorem postFrost_same (u : UnitNo) (p : Option Mode) (t : Option Int) (s : State) : s.postFrost u p p t = s := by
  unfold State.postFrost
  rw [if_neg fun h => h.2 h.1, if_neg fun h => h.1 h.2]

/-- Settles O59: each test by its proposition, the arithmetic by its bounds, the step by what it decides. -/
theorem preferenceTests_hold : Obligations.PreferenceTests := by
  refine ⟨fun c f cur ra oa => ?tests, fun c tRa tOa he hlt => ?wheel, effEpsilon_bounds,
    fun epsilon speed tRa tOa hlt => ?frost, fun s u => ?step, fun s u us cls => ⟨rfl, rfl, rfl⟩⟩
  case tests =>
    intro heating recovery tExl frost hOa hRa cool free v
    have notHeating (hh : ¬ heating) : ¬ inHeatingRegion c cur oa.tOa = true := mt inHeatingRegion_iff.1 hh
    have notCool (hc : ¬ cool) : ¬ coolRecovery c f.wheelFault cur ra.tRa oa.tOa hRa hOa = true :=
      mt coolRecovery_iff.1 hc
    refine ⟨fun hh hr => ?_, fun hh hr hf => ?_, fun hh hr hf => ?_, fun hh hc => ?_, fun hh hc hf => ?_,
      fun hh hc hf => ?_⟩
    · exact (preferenceTests_heating (inHeatingRegion_iff.2 hh)).trans
        (heatingVerdict_bypass (mt recoveryPossible_iff.1 hr))
    · exact (preferenceTests_heating (inHeatingRegion_iff.2 hh)).trans
        (heatingVerdict_defrost (recoveryPossible_iff.2 hr) (frosting_iff.2 hf))
    · exact (preferenceTests_heating (inHeatingRegion_iff.2 hh)).trans
        (heatingVerdict_recovers (recoveryPossible_iff.2 hr) (mt frosting_iff.1 hf))
    · exact preferenceTests_cool (notHeating hh) (coolRecovery_iff.2 hc)
    · exact preferenceTests_free (notHeating hh) (notCool hc) (freeCooling_iff.2 hf)
    · exact preferenceTests_none (notHeating hh) (notCool hc) (mt freeCooling_iff.1 hf)
  case wheel =>
    have positive : 0 < (c.epsilon : Int) * (tRa - tOa) := Int.mul_pos (by omega) (by omega)
    exact ⟨ceilDiv_bounds _ positive, wheelSpeed_eq c tRa tOa⟩
  case frost =>
    have nonneg : 0 ≤ effEpsilon epsilon speed * (tRa - tOa) :=
      Int.mul_nonneg (effEpsilon_nonneg epsilon speed) (by omega)
    obtain ⟨low, high⟩ := roundDiv_bounds (d := 1000) nonneg (by decide)
    rw [exhaustLeaving]
    omega
  case step =>
    intro x d st good decides
    refine ⟨fun hs => preferenceStep_eq (preferenceOf_none hs), fun hs hn => ?_, fun ra oa hs hg hra hoa =>
      preferenceStep_eq (preferenceOf_decided hs ((evaluable_iff x).2 hg) hra hoa)⟩
    rw [preferenceStep_eq (preferenceOf_held hs (mt (evaluable_iff x).1 hn)), postFrost_same]
    exact modDecision_eq_self rfl

end Sys2Proof.Machine
end

