-- ==== Sys2Proof/Proofs/EmergencyOn.lean ====
section
/-! PROOFS. Proofs/EmergencyOn.lean: the activation of the emergency input: the walk of the risers, then the walk of the
units (R75, R79, R89, R99, R124, R144, R154). -/

namespace Sys2Proof.Machine

/-! ## The walk of the risers -/

/-- A riser as the activation leaves it (R75, R79). -/
def RiserRec.stopped (x : RiserRec) : RiserRec :=
  { x with live :=
    { x.live with
      state := .individual
      lastExit := if x.live.state = .individual then x.live.lastExit else .emergency
      settle := 0
      settleExpired := false } }

theorem stopped_stopped (x : RiserRec) : x.stopped.stopped = x.stopped := rfl

section Riser
variable (s : State) (r : RiserNo)

/-- A riser that leaves its state by the activation, before it leaves its collection. -/
def State.stoppedRiser : State := (s.riserTo r .individual .emergency true).clearSettle r

theorem riser_stoppedRiser (q : RiserNo) (h : (s.riser r).live.state ≠ .individual) :
    (s.stoppedRiser r).riser q = if r = q then (s.riser r).stopped else s.riser q := by
  unfold State.stoppedRiser State.clearSettle State.riserTo
  simp only [modLive_riser, post_riser]
  split
  · next e =>
    subst e
    rw [RiserRec.stopped, if_neg h]
    simp
  · rfl

theorem emergencyRiser_cases :
    (s.riser r).live.state = .individual ∧ s.emergencyRiser r = s.clearSettle r ∨
      (s.riser r).live.state ≠ .individual ∧ ∃ f, s.emergencyRiser r = (s.stoppedRiser r).modSba f := by
  unfold State.emergencyRiser
  cases h : (s.riser r).live.state with
  | individual => exact .inl ⟨rfl, rfl⟩
  | queued | entering | free | leaving => exact .inr ⟨nofun, _, rfl⟩

theorem riser_emergencyRiser (q : RiserNo) :
    (s.emergencyRiser r).riser q = if r = q then (s.riser r).stopped else s.riser q := by
  rcases emergencyRiser_cases s r with ⟨h, he⟩ | ⟨h, f, he⟩
  · rw [he, State.clearSettle, modLive_riser]
    split
    · rw [RiserRec.stopped, if_pos h, ← h]
    · rfl
  · rw [he, modSba_riser, riser_stoppedRiser s r q h]

/-- One riser's step leaves the units, the FLC and the contexts. -/
theorem frame_emergencyRiser :
    (s.emergencyRiser r).units = s.units ∧ (s.emergencyRiser r).flc = s.flc ∧ (s.emergencyRiser r).ce = s.ce := by
  rcases emergencyRiser_cases s r with ⟨_, he⟩ | ⟨_, f, he⟩
  · rw [he]
    exact ⟨rfl, rfl, rfl⟩
  · rw [he]
    exact ⟨rfl, rfl, rfl⟩

end Riser

/-- The walk stops every riser on the list. -/
theorem riser_foldl_emergency (l : List RiserNo) (s : State) (q : RiserNo) :
    (l.foldl State.emergencyRiser s).riser q = if q ∈ l then (s.riser q).stopped else s.riser q := by
  induction l generalizing s with
  | nil => rfl
  | cons r l ih =>
    rw [List.foldl_cons, ih, riser_emergencyRiser]
    by_cases hr : r = q
    · subst hr
      simp [stopped_stopped]
    · simp [hr, Ne.symm hr]

theorem frame_foldl_emergency (l : List RiserNo) (s : State) :
    (l.foldl State.emergencyRiser s).units = s.units ∧ (l.foldl State.emergencyRiser s).flc = s.flc ∧
      (l.foldl State.emergencyRiser s).ce = s.ce := by
  induction l generalizing s with
  | nil => exact ⟨rfl, rfl, rfl⟩
  | cons r l ih =>
    obtain ⟨units, flc, ce⟩ := frame_emergencyRiser s r
    obtain ⟨units', flc', ce'⟩ := ih (s.emergencyRiser r)
    exact ⟨units'.trans units, flc'.trans flc, ce'.trans ce⟩

/-! ## What an evaluation touches -/

/-- The other units, their entries in the command set, and outside COORDINATE the whole set, are as they were. -/
structure Touches (u : UnitNo) (s t : State) : Prop where
  slp : t.slp = s.slp
  other : ∀ v, v ≠ u → t.unit v = s.unit v
  kept : ∀ e ∈ s.flc.commands, e.unit ≠ u → e ∈ t.flc.commands
  silent : s.slp.opState ≠ .coordinate → t.flc.commands = s.flc.commands

namespace Touches

variable {u : UnitNo}

theorem rfl (s : State) : Touches u s s := ⟨Eq.refl _, fun _ _ => Eq.refl _, fun _ h _ => h, fun _ => Eq.refl _⟩

theorem trans {a b c : State} (h : Touches u a b) (k : Touches u b c) : Touches u a c where
  slp := k.slp.trans h.slp
  other v hv := (k.other v hv).trans (h.other v hv)
  kept e he hu := k.kept e (h.kept e he hu) hu
  silent ho := (k.silent (h.slp ▸ ho)).trans (h.silent ho)

theorem ite {s a b : State} {p : Prop} [Decidable p] (h : Touches u s a) (k : Touches u s b) :
    Touches u s (if p then a else b) := by
  split
  · exact h
  · exact k

theorem modUnit (f : UnitRec → UnitRec) (s : State) : Touches u s (s.modUnit u f) :=
  ⟨Eq.refl _, fun v hv => by rw [modUnit_unit, if_neg hv.symm], fun _ h _ => h, fun _ => Eq.refl _⟩

theorem post (k : Nat) (x : Subject) (c : Content) (s : State) : Touches u s (s.post k x c) :=
  ⟨Eq.refl _, fun _ _ => Eq.refl _, fun _ h _ => h, fun _ => Eq.refl _⟩

end Touches

theorem mem_placeCommand_self (u : UnitNo) (c : ModeSpeed) (l : List CmdEntry) : ⟨u, c⟩ ∈ placeCommand u c l := by
  induction l with
  | nil => exact List.mem_singleton_self _
  | cons e l ih =>
    unfold placeCommand
    split
    · exact List.mem_cons_self
    · exact List.mem_cons_of_mem _ ih

theorem mem_placeCommand_other {u : UnitNo} {c : ModeSpeed} {e : CmdEntry} {l : List CmdEntry} (he : e ∈ l)
    (hu : e.unit ≠ u) : e ∈ placeCommand u c l := by
  induction l with
  | nil => cases he
  | cons a l ih =>
    unfold placeCommand
    split
    · next ha =>
      refine List.mem_cons_of_mem _ ((List.mem_cons.1 he).resolve_left ?_)
      rintro rfl
      exact hu ha
    · rcases List.mem_cons.1 he with rfl | he
      · exact List.mem_cons_self
      · exact List.mem_cons_of_mem _ (ih he)

section Evaluation
variable (u : UnitNo)

theorem touches_postWhereHeard (c : ModeSpeed) (s : State) : Touches u s (s.postWhereHeard u c) := by
  rw [postWhereHeard_eq]
  split
  · next h =>
    exact ⟨rfl, fun _ _ => rfl, fun _ he hu => mem_placeCommand_other he hu, fun ho => absurd h.1 ho⟩
  · exact .rfl s

theorem touches_announce (c : ModeSpeed) (s : State) : Touches u s (s.announceCommanded u c) :=
  (Touches.post ..).trans (touches_postWhereHeard ..)

theorem touches_commandMode (c : ModeSpeed) (s : State) : Touches u s (s.commandMode u c) :=
  (Touches.modUnit ..).trans (touches_announce ..)

theorem touches_commandSpeed (c : ModeSpeed) (s : State) : Touches u s (s.commandSpeed u c) :=
  (Touches.modUnit ..).trans (touches_announce ..)

theorem touches_preferenceStep (s : State) : Touches u s (s.preferenceStep u) :=
  (Touches.modUnit ..).trans (.ite (.post ..) (.ite (.post ..) (.rfl _)))

theorem touches_mappingStep (cls : CauseClass) (s : State) : Touches u s (s.mappingStep u cls) := by
  unfold State.mappingStep
  dsimp only
  split
  · exact .rfl s
  · split
    · exact .ite (touches_commandMode ..) (.rfl s)
    · exact .ite (.ite (touches_commandSpeed ..) (.rfl s)) (.ite (touches_commandMode ..) (.rfl s))

theorem touches_evaluate (cls : CauseClass) (s : State) : Touches u s (s.evaluate u cls) :=
  (touches_preferenceStep u s).trans (touches_mappingStep ..)

theorem touches_count (r : RiserNo) (s : State) : Touches u s (s.count r) :=
  ⟨rfl, fun _ _ => rfl, fun _ h _ => h, fun _ => rfl⟩

end Evaluation

/-! ## One unit of the walk -/

theorem roleActive_of_lu {s t : State} (h : t.lu = s.lu) (role : Role) : t.roleActive role = s.roleActive role := by
  unfold State.roleActive State.line
  rw [h]

/-- A cascade that leaves the contexts, the arbiter, and of every riser the state, the settle timer and the last exit
cause. -/
structure Rests (s t : State) : Prop extends Cascade s t where
  ce : t.ce = s.ce
  sba : t.sba = s.sba
  live : ∀ r, (t.riser r).live.state = (s.riser r).live.state ∧ (t.riser r).live.settle = (s.riser r).live.settle ∧
    (t.riser r).live.lastExit = (s.riser r).live.lastExit

theorem Rests.trans {a b c : State} (h : Rests a b) (k : Rests b c) : Rests a c where
  toCascade := h.toCascade.trans k.toCascade
  ce := k.ce.trans h.ce
  sba := k.sba.trans h.sba
  live r := by
    obtain ⟨state, settle, exit⟩ := h.live r
    obtain ⟨state', settle', exit'⟩ := k.live r
    exact ⟨state'.trans state, settle'.trans settle, exit'.trans exit⟩

theorem rests_of_quiet {s t : State} (h : Cascade s t) (q : Quiet s t) : Rests s t where
  toCascade := h
  ce := q.ce
  sba := q.sba
  live r := by
    have riser : t.riser r = s.riser r := congrArg (fun v : Vector RiserRec 6 => v[r]) q.risers
    rw [riser]
    exact ⟨rfl, rfl, rfl⟩

theorem rests_count (r : RiserNo) (s : State) : Rests s (s.count r) where
  toCascade := cascade_count r s
  ce := rfl
  sba := rfl
  live q := by
    rw [State.count, modLive_riser]
    split
    · next e => exact e ▸ ⟨rfl, rfl, rfl⟩
    · exact ⟨rfl, rfl, rfl⟩

/-- With the emergency input active no INDIVIDUAL riser joins: its recount is the count alone (R65). -/
theorem recount_emergency {s : State} {r : RiserNo} (he : s.roleActive .inEmergency = true)
    (hi : (s.riser r).live.state = .individual) : s.recount r = s.count r := by
  have individual : ((s.count r).riser r).live.state = .individual := ((rests_count r s).live r).1.trans hi
  have active : (s.count r).roleActive .inEmergency = true := he
  have stays : ¬ (s.count r).mayJoin r = true := by simp [State.mayJoin, active]
  rw [State.recount, applyCount_individual individual, State.joinCheck, if_neg stays]

/-- Whether the posting rule reaches a unit (R53). -/
def State.heard (s : State) (u : UnitNo) : Prop :=
  s.slp.opState = .coordinate ∧ (s.unit u).presence = .online ∧ (s.unit u).decision.control ≠ .hand

theorem heard_of_cascade {s t : State} (h : Cascade s t) (u : UnitNo) : t.heard u ↔ s.heard u := by
  unfold State.heard
  rw [h.slp, (h.presence u).1, (h.owner u).1]

/-- With the emergency input active an evaluation commands SAFE. -/
theorem evaluate_safe {s : State} {u : UnitNo} (he : s.roleActive .inEmergency = true) :
    ((s.evaluate u .emergency).unit u).decision.commanded.map (·.mode) = some .safe := by
  have lu : (s.preferenceStep u).lu = s.lu := (cascade_preferenceStep u s).lu
  have active : (s.preferenceStep u).roleActive .inEmergency = true := (roleActive_of_lu lu _).trans he
  have target : (s.preferenceStep u).target u = .give ⟨.safe, 0⟩ false := if_pos active
  rw [State.evaluate]
  by_cases hc : ((s.preferenceStep u).unit u).decision.commanded.map (·.mode) = some .safe
  · obtain ⟨old, ho, hm⟩ := Option.map_eq_some_iff.1 hc
    rw [mappingStep_same target ho hm, if_neg fun h => by cases h.1]
    exact hc
  · have taken (m : Mode) (n : Nat) : changeAllowed .emergency m n = true := changeAllowed_iff.2 (.inl nofun)
    rw [mappingStep_give target hc, if_pos (taken ..), decision_commandMode]
    rfl

/-! ## The walk of the units -/

/-- What a walk of the units on a list leaves. -/
structure Safed (l : List UnitNo) (s t : State) : Prop where
  rests : Rests s t
  safe : ∀ u ∈ l, (t.unit u).decision.commanded.map (·.mode) = some .safe
  posted : ∀ u ∈ l, s.heard u → ⟨u, ⟨.safe, 0⟩⟩ ∈ t.flc.commands
  other : ∀ u, u ∉ l → t.unit u = s.unit u
  kept : ∀ e ∈ s.flc.commands, e.unit ∉ l → e ∈ t.flc.commands
  silent : s.slp.opState ≠ .coordinate → t.flc.commands = s.flc.commands

theorem safed_emergencyUnit {s : State} {u : UnitNo} (he : s.roleActive .inEmergency = true)
    (hi : (s.riser (s.unit u).cfg.riser).live.state = .individual) : Safed [u] s (s.emergencyUnit u) := by
  have evaluated := rests_of_quiet (cascade_evaluate u .emergency s) (quiet_evaluate u .emergency s)
  have posted := evaluated.trans (rests_of_quiet (cascade_postWhereHeard u ⟨.safe, 0⟩ _) (quiet_postWhereHeard ..))
  have unitEq : s.emergencyUnit u =
      ((s.evaluate u .emergency).postWhereHeard u ⟨.safe, 0⟩).count (s.unit u).cfg.riser :=
    recount_emergency ((roleActive_of_lu posted.lu _).trans he) ((posted.live _).1.trans hi)
  have touches := ((touches_evaluate u .emergency s).trans (touches_postWhereHeard u ⟨.safe, 0⟩ _)).trans
    (touches_count u (s.unit u).cfg.riser _)
  rw [unitEq]
  refine ⟨posted.trans (rests_count ..), fun v hv => ?_, fun v hv hh => ?_,
    fun v hv => touches.other v (mt List.mem_singleton.2 hv),
    fun e hmem hn => touches.kept e hmem (mt List.mem_singleton.2 hn), touches.silent⟩
  · obtain rfl := List.mem_singleton.1 hv
    have unit : (((s.evaluate v .emergency).postWhereHeard v ⟨.safe, 0⟩).count (s.unit v).cfg.riser).unit v =
        (s.evaluate v .emergency).unit v := unit_postWhereHeard ..
    rw [unit]
    exact evaluate_safe he
  · obtain rfl := List.mem_singleton.1 hv
    have heard : (s.evaluate v .emergency).heard v := (heard_of_cascade evaluated.toCascade v).2 hh
    have set : (s.evaluate v .emergency).postWhereHeard v ⟨.safe, 0⟩ =
        (s.evaluate v .emergency).postCommand v ⟨.safe, 0⟩ := by
      rw [postWhereHeard_eq]
      exact if_pos heard
    rw [set]
    exact mem_placeCommand_self ..

theorem Safed.cons {u : UnitNo} {l : List UnitNo} {a b c : State} (h : Safed [u] a b) (k : Safed l b c) :
    Safed (u :: l) a c where
  rests := h.rests.trans k.rests
  safe v hv := by
    by_cases hl : v ∈ l
    · exact k.safe v hl
    · obtain rfl := (List.mem_cons.1 hv).resolve_right hl
      rw [k.other v hl]
      exact h.safe v (List.mem_singleton_self v)
  posted v hv hh := by
    by_cases hl : v ∈ l
    · exact k.posted v hl ((heard_of_cascade h.rests.toCascade v).2 hh)
    · obtain rfl := (List.mem_cons.1 hv).resolve_right hl
      exact k.kept _ (h.posted v (List.mem_singleton_self v) hh) hl
  other v hv := by
    obtain ⟨hu, hl⟩ := not_or.1 (mt List.mem_cons.2 hv)
    exact (k.other v hl).trans (h.other v (by simpa using hu))
  kept e he hn := by
    obtain ⟨hu, hl⟩ := not_or.1 (mt List.mem_cons.2 hn)
    exact k.kept e (h.kept e he (by simpa using hu)) hl
  silent ho := (k.silent (by rw [h.rests.slp]; exact ho)).trans (h.silent ho)

theorem safed_walk (l : List UnitNo) (s : State) (he : s.roleActive .inEmergency = true)
    (hi : ∀ u ∈ l, (s.riser (s.unit u).cfg.riser).live.state = .individual) :
    Safed l s (l.foldl State.emergencyUnit s) := by
  induction l generalizing s with
  | nil =>
    exact ⟨⟨.rfl s, rfl, rfl, fun _ => ⟨rfl, rfl, rfl⟩⟩, fun _ h => (List.not_mem_nil h).elim,
      fun _ h => (List.not_mem_nil h).elim, fun _ _ => rfl, fun _ h _ => h, fun _ => rfl⟩
  | cons u l ih =>
    have step := safed_emergencyUnit he (hi u List.mem_cons_self)
    refine step.cons (ih _ ((roleActive_of_lu step.rests.lu _).trans he) fun v hv => ?_)
    rw [step.rests.cfg, (step.rests.live _).1]
    exact hi v (List.mem_cons_of_mem _ hv)

/-! ## The activation -/

theorem onlyLink_grant {s : State} (hr : ∀ r, s.ctx r = none) (k : LinkClass) : OnlyLink s (s.grant k) :=
  onlyLink_grantClass (s := s.modFlc fun f =>
    { f with guarantee := guaranteeAfter (s.hasWork .poll) k f.guarantee }) hr k

/-- A grant where no context exists leaves all but the FLC and the count of free choices, and of the FLC the command
set. -/
theorem grantOnWork_of_no_ctx {s : State} (hr : ∀ r, s.ctx r = none) :
    s.grantOnWork.flc.commands = s.flc.commands ∧ s.grantOnWork.units = s.units ∧ s.grantOnWork.risers = s.risers ∧
      s.grantOnWork.ce = s.ce ∧ s.grantOnWork.sba = s.sba := by
  have fields {a b : State} (h : OnlyLink a b) : b.flc.commands = a.flc.commands ∧ b.units = a.units ∧
      b.risers = a.risers ∧ b.ce = a.ce ∧ b.sba = a.sba := by
    obtain ⟨commands, rest⟩ := h
    exact ⟨commands, by rw [rest], by rw [rest], by rw [rest], by rw [rest]⟩
  unfold State.grantOnWork
  split
  · split
    · exact ⟨rfl, rfl, rfl, rfl, rfl⟩
    · next k _ =>
      exact fields (a := { s with choices := s.choices + 1 })
        (onlyLink_grant (s := { s with choices := s.choices + 1 }) hr k)
  · exact fields (onlyLink_grantNext hr)

/-- The state before the walk of the units: every present riser stopped, no context. -/
def State.allStopped (s : State) : State := s.presentRisers.foldl State.emergencyRiser s.abandonContexts

section Activation
variable {s : State}

theorem ctx_abandoned (s : State) (r : RiserNo) : s.abandonContexts.ctx r = none := ctx_empty s.ce.tagCounter s r

theorem cascade_allStopped (s : State) : Cascade s s.allStopped :=
  (cascade_ce _ s).trans (.foldl cascade_emergencyRiser _ _)

theorem riser_allStopped (s : State) (r : RiserNo) :
    s.allStopped.riser r = if (s.riser r).cfg.present = true then (s.riser r).stopped else s.riser r := by
  rw [State.allStopped, riser_foldl_emergency]
  simp only [mem_presentRisers]
  rfl

theorem ctx_allStopped (s : State) (r : RiserNo) : s.allStopped.ctx r = none := by
  unfold State.ctx State.allStopped
  rw [(frame_foldl_emergency ..).2.2]
  exact ctx_abandoned s r

theorem units_allStopped (s : State) : s.allStopped.units = s.units ∧ s.allStopped.flc = s.flc := by
  obtain ⟨units, flc, _⟩ := frame_foldl_emergency s.presentRisers s.abandonContexts
  exact ⟨units, flc⟩

theorem safed_emergencyOn (he : s.roleActive .inEmergency = true) (hp : ∀ u, s.riserAbsent u = false) :
    Safed s.presentUnits s.allStopped s.emergencyOn := by
  refine safed_walk s.presentUnits s.allStopped ?_ fun u hu => ?_
  · exact (roleActive_of_lu (cascade_allStopped s).lu _).trans he
  · have present := riserAbsent_eq_false.1 (hp u) (mem_presentUnits.1 hu)
    rw [(cascade_allStopped s).cfg, riser_allStopped, if_pos present]
    rfl

end Activation

/-- The emergency edge of a run, as an expiry of its filter. -/
theorem exec_emergencyEdge {s : State} {l : LineNo} (h : s.slp.resetHeld = false) (hr : s.running = true)
    (hrole : (s.line l).cfg.role = .inEmergency) (hf : (s.line l).filterRemaining ≠ none)
    (hpin : s.pinShowsActive l = true) (hlev : (s.line l).level = false)
    (hwas : s.roleActive .inEmergency = false) :
    let n := (s.modLine l fun x => { x with level := true, filterRemaining := none }).post 3 (.line l)
      (.lineEdge .inEmergency true)
    n.roleActive .inEmergency = true ∧ exec (.lineFilterExpiry l) s = .next n.emergencyOn.grantOnWork := by
  intro n
  have departs : s.pinShowsActive l ≠ (s.line l).level := by rw [hpin, hlev]; decide
  have active : n.roleActive .inEmergency = true := by
    refine (roleActive_iff _ _).2 ⟨l, ?_⟩
    have line : n.line l = { s.line l with level := true, filterRemaining := none } := by
      rw [post_line, modLine_line, if_pos rfl]
    rw [line]
    exact ⟨hrole, rfl⟩
  have edge := edge_eq departs
  rw [hlev, hrole] at edge
  refine ⟨active, ?_⟩
  rw [exec_filterExpiry h, if_pos (filterRuns_iff.2 ⟨by rw [hrole]; rfl, hf, departs⟩), edge]
  have effect : n.edgeEffect .inEmergency (s.roleActive .inEmergency) (n.roleActive .inEmergency) =
      n.emergencyOn := by
    rw [hwas, active]
    rfl
  exact congrArg Host.Outcome.next ((if_pos hr).trans (congrArg State.grantOnWork effect))

/-- What the activation leaves, with the grant after it. -/
theorem activated {s : State} (he : s.roleActive .inEmergency = true) (hp : ∀ u, s.riserAbsent u = false) :
    let t := s.emergencyOn.grantOnWork
    t.roleActive .inEmergency = true ∧ (∀ r, t.ctx r = none) ∧
      (∀ r, (s.riser r).cfg.present = true → (t.riser r).live.state = .individual ∧ (t.riser r).live.settle = 0 ∧
        (t.riser r).live.lastExit =
          if (s.riser r).live.state = .individual then (s.riser r).live.lastExit else .emergency) ∧
      (∀ u, (s.unit u).cfg.present = true → (t.unit u).decision.commanded.map (·.mode) = some .safe) ∧
      (∀ u, (s.unit u).cfg.present = true → s.heard u → ⟨u, ⟨.safe, 0⟩⟩ ∈ t.flc.commands) ∧
      (s.slp.opState ≠ .coordinate → t.flc.commands = s.flc.commands) := by
  intro t
  have safed := safed_emergencyOn he hp
  have stopped := cascade_allStopped s
  have noCtx (r : RiserNo) : s.emergencyOn.ctx r = none :=
    (congrArg (fun c : Ce => c.ctxs[r]) safed.rests.ce).trans (ctx_allStopped s r)
  obtain ⟨commands, units, risers, ce, _⟩ := grantOnWork_of_no_ctx noCtx
  have ran : Ran s.emergencyOn t := ran_grantOnWork _
  have unit (u : UnitNo) : t.unit u = s.emergencyOn.unit u := unit_of_units units u
  have flc : s.allStopped.flc = s.flc := (units_allStopped s).2
  refine ⟨?_, fun r => ?_, fun r hr => ?_, fun u hu => ?_, fun u hu hh => ?_, fun ho => ?_⟩
  · rw [roleActive_of_lu ran.lu, roleActive_of_lu safed.rests.lu, roleActive_of_lu stopped.lu, he]
  · exact (congrArg (fun c : Ce => c.ctxs[r]) ce).trans (noCtx r)
  · have riser : t.riser r = s.emergencyOn.riser r := congrArg (fun v : Vector RiserRec 6 => v[r]) risers
    obtain ⟨state, settle, exit⟩ := safed.rests.live r
    rw [riser, state, settle, exit, riser_allStopped, if_pos hr]
    exact ⟨rfl, rfl, rfl⟩
  · rw [unit]
    exact safed.safe u (mem_presentUnits.2 hu)
  · rw [commands]
    exact safed.posted u (mem_presentUnits.2 hu) ((heard_of_cascade stopped u).2 hh)
  · rw [commands, safed.silent (by rw [stopped.slp]; exact ho), flc]

/-! ## The activation in its order -/

theorem weight_stoppedRiser (s : State) (r : RiserNo) : (s.stoppedRiser r).weight r = (s.riser r).cfg.weight := by
  have cfg : ((s.stoppedRiser r).riser r).cfg = (s.riser r).cfg :=
    (((cascade_riserTo r .individual .emergency true s).trans (cascade_clearSettle ..)).riser r).1
  rw [State.weight, cfg]

theorem undrain_stoppedRiser (s : State) (r : RiserNo) : (s.stoppedRiser r).undrain r =
    (s.stoppedRiser r).modSba fun b => { b with draining := b.draining - (s.riser r).cfg.weight } := by
  rw [State.undrain, weight_stoppedRiser]

theorem emergencyUnit_eq (s : State) (u : UnitNo) : s.emergencyUnit u =
    let n := s.evaluate u .emergency
    (if n.slp.opState = .coordinate ∧ (n.unit u).presence = .online ∧ (n.unit u).decision.control ≠ .hand then
      n.postCommand u ⟨.safe, 0⟩ else n).recount (s.unit u).cfg.riser := by
  rw [State.emergencyUnit, postWhereHeard_eq]

theorem emergencyRiser_eq (s : State) (r : RiserNo) : s.emergencyRiser r =
    match (s.riser r).live.state with
    | .individual => s.clearSettle r
    | .queued => (s.stoppedRiser r).modSba fun b => { b with queue := b.queue.erase r }
    | .entering => (s.stoppedRiser r).modSba fun b => { b with grants := b.grants.erase r }
    | .free => (s.stoppedRiser r).modSba fun b => { b with grants := b.grants.erase r }
    | .leaving => (s.stoppedRiser r).modSba fun b => { b with draining := b.draining - (s.riser r).cfg.weight } := by
  unfold State.emergencyRiser
  cases (s.riser r).live.state with
  | individual | queued | entering | free => rfl
  | leaving => exact undrain_stoppedRiser s r

/-- Settles O56: the edge by `exec_emergencyEdge`, the walks by `riser_allStopped` and `safed_emergencyOn`; the relation of
the groups as every command keeps it. -/
theorem emergencyMakesSafe : Obligations.EmergencyMakesSafe := by
  refine ⟨fun s l h hr hcfg hrole hf hpin hlev hwas => ?activation, fun s => ?order⟩
  case order =>
    intro takesRiser takesUnit
    have risers : takesRiser = State.emergencyRiser := by
      funext m r
      exact (emergencyRiser_eq m r).symm
    have units : takesUnit = State.emergencyUnit := by
      funext m u
      exact (emergencyUnit_eq m u).symm
    rw [risers, units]
    rfl
  case activation =>
    obtain ⟨active, edge⟩ := exec_emergencyEdge h hr hrole hf hpin hlev hwas
    obtain ⟨role, ctxs, stopped, safe, posted, silent⟩ := activated active (configProblem_eq_none.1 hcfg).2.1
    refine ⟨_, edge, role, ctxs, stopped, safe, fun ho u hu hon hc => posted u hu ⟨ho, hon, hc⟩,
      fun ho => silent (fun hc => nomatch ho.symm.trans hc), fun g => ?_⟩
    have groups := (safety_of_exec edge).groups g
    refine ⟨groups.draining, fun r hp => ⟨fun hq => ?_, fun hg => ?_⟩⟩
    · have queued := (groups.queue r).1 hq
      rw [(stopped r hp).1] at queued
      cases queued
    · have granted := (groups.grants r).1 hg
      rw [(stopped r hp).1] at granted
      rcases granted with granted | granted <;> cases granted

end Sys2Proof.Machine
end

