-- ==== Sys2Proof/Proofs/Broadcasts.lean ====
section
/-! PROOFS. Proofs/Broadcasts.lean: the broadcasts of a context at their grants (R50, R68, R95, R105, R109, R112, R118,
R120, R184). -/

namespace Sys2Proof.Machine

/-! ## The moves that go with a broadcast -/

section Moves
variable (m : Mode)

theorem touches_setGroupMode (u : UnitNo) (s : State) : Touches u s (s.setGroupMode m u) :=
  .ite (touches_commandMode ..) (.rfl s)

theorem commanded_setGroupMode {s : State} {u : UnitNo} (h : (s.unit u).decision.control = .auto) :
    ((s.setGroupMode m u).unit u).decision.commanded.map (·.mode) = some m := by
  unfold State.setGroupMode
  split
  · rw [decision_commandMode]
    rfl
  · next hn => exact Decidable.not_not.1 fun hc => hn ⟨h, hc⟩

theorem commanded_setGroupMode_kept {s : State} {u : UnitNo} (v : UnitNo)
    (h : (s.unit u).decision.commanded.map (·.mode) = some m) :
    ((s.setGroupMode m v).unit u).decision.commanded.map (·.mode) = some m := by
  by_cases hv : u = v
  · subst hv
    have already : s.setGroupMode m u = s := if_neg fun hn => hn.2 h
    rw [already, h]
  · rw [(touches_setGroupMode m v s).other u hv, h]

theorem commanded_foldl_kept {u : UnitNo} (l : List UnitNo) {s : State}
    (h : (s.unit u).decision.commanded.map (·.mode) = some m) :
    ((l.foldl (State.setGroupMode m) s).unit u).decision.commanded.map (·.mode) = some m := by
  induction l generalizing s with
  | nil => exact h
  | cons v l ih => exact ih (commanded_setGroupMode_kept m v h)

/-- Every AUTO unit on the list is commanded the mode. -/
theorem commanded_foldl {u : UnitNo} {l : List UnitNo} {s : State} (hu : u ∈ l)
    (h : (s.unit u).decision.control = .auto) :
    ((l.foldl (State.setGroupMode m) s).unit u).decision.commanded.map (·.mode) = some m := by
  induction l generalizing s with
  | nil => cases hu
  | cons v l ih =>
    rw [List.foldl_cons]
    by_cases hl : u ∈ l
    · exact ih hl (((cascade_setGroupMode m s v).owner u).1.trans h)
    · obtain rfl := (List.mem_cons.1 hu).resolve_right hl
      exact commanded_foldl_kept m l (commanded_setGroupMode m h)

theorem quiet_foldl_setGroupMode (l : List UnitNo) (s : State) : Quiet s (l.foldl (State.setGroupMode m) s) :=
  .foldl (fun s u => quiet_setGroupMode m s u) l s

end Moves

/-! ## The frames -/

theorem addresses_map (s : State) (l : List Participant) :
    s.addresses (l.map (·.unit)) = l.map fun p => (s.unit p.unit).cfg.address := by
  rw [State.addresses, List.map_map]
  rfl

/-- The list item of the participants' field addresses. -/
theorem listItem_addresses (s : State) (l : List Participant) :
    listItem (fun a => [byteOf a]) (s.addresses (l.map (·.unit))) =
      byteOf l.length :: l.map fun p => byteOf (s.unit p.unit).cfg.address := by
  rw [listItem_singletons, addresses_map, List.length_map, List.map_map]
  rfl

section Broadcast
variable {s : State} {r : RiserNo} {c : Ctx}

theorem grantBroadcast_call (h : c.phase = .callPending) : s.grantBroadcast r c =
    (s.beginBroadcast (groupCallFrame groupAddress r c.tag (s.addresses c.units)) r).setCtx r
      (some (c.rolling .rollReady (s.riser r).cfg.readyWindow (s.addresses c.units))) := by
  rw [State.grantBroadcast, h]

theorem grantBroadcast_commit (h : c.phase = .commitPending) : s.grantBroadcast r c =
    c.readyUnits.foldl (State.setGroupMode .freeCool)
      ((s.beginBroadcast (groupCommitFrame groupAddress r c.tag) r).setCtx r
        (some (c.rolling .rollDone (s.riser r).cfg.doneWindow c.listed))) := by
  rw [State.grantBroadcast, h]

theorem grantBroadcast_return (h : c.phase = .returnPending) : s.grantBroadcast r c =
    c.remainingUnits.foldl (State.setGroupMode .bypass)
      ((s.beginBroadcast (groupReturnFrame groupAddress r c.tag (s.addresses c.remainingUnits)) r).setCtx r
        (some (c.rolling .rollDone (s.riser r).cfg.doneWindow (s.addresses c.remainingUnits)))) := by
  rw [State.grantBroadcast, h]

theorem grantBroadcast_cancel (h : c.phase = .cancelPending) :
    s.grantBroadcast r c = (s.beginBroadcast (groupCancelFrame r c.tag) r).cancelComplete r c := by
  rw [State.grantBroadcast, h]

theorem setCtx_same (r : RiserNo) (c : Option Ctx) (s : State) : (s.setCtx r c).ctx r = c :=
  (setCtx_ctx ..).trans (if_pos rfl)

/-- A roll begun with the moves that go with its broadcast: what is on the line, and the context. -/
theorem rolling_moved (m : Mode) (l : List UnitNo) (f : FieldFrame) (d : Ctx) :
    let t := l.foldl (State.setGroupMode m) ((s.beginBroadcast f r).setCtx r (some d))
    t.flc.link = some { frame := f, requester := .broadcast r, unit := none, speed := s.flc.latchedSpeed } ∧
      t.ctx r = some d := by
  intro t
  have quiet := quiet_foldl_setGroupMode m l ((s.beginBroadcast f r).setCtx r (some d))
  exact ⟨quiet.link, (congrArg (fun e : Ce => e.ctxs[r]) quiet.ce).trans (setCtx_same r (some d) _)⟩

end Broadcast

/-! ## The end of a cancelled context -/

/-- The context ended CANCELLED, its riser INDIVIDUAL with settle started (R68, R118). -/
def State.cancelledEnd (r : RiserNo) (c : Ctx) (s : State) : State :=
  (((s.postChangeover r c .cancelled (some c.reason) 0).riserTo r .individual .complete false).startSettle r).setCtx r
    none

section Cancelled
variable (r : RiserNo) (c : Ctx) (s : State)

theorem riser_cancelledEnd : (s.cancelledEnd r c).riser r =
    { s.riser r with live :=
      { (s.riser r).live with state := .individual, settle := (s.riser r).cfg.settle, settleExpired := false } } := by
  rw [State.cancelledEnd, setCtx_riser, riser_startSettle, riser_riserTo]
  rfl

theorem cancelComplete_eq : s.cancelComplete r c =
    ((((s.cancelledEnd r c).evaluateAll c.units .riser).count r).undrain r).scan := rfl

/-- What a cancelled context's end leaves of its riser, the scan passing it by. -/
theorem cancelComplete_leaves (hq : r ∉ s.sba.queue) :
    ((s.cancelComplete r c).riser r).live.state = .individual ∧
      ((s.cancelComplete r c).riser r).live.settle = (s.riser r).cfg.settle ∧ (s.cancelComplete r c).ctx r = none ∧
      (s.cancelComplete r c).sba.draining = s.sba.draining - (s.riser r).cfg.weight := by
  have quiet := quiet_evaluateAll c.units .riser (s.cancelledEnd r c)
  have apart : Apart r (s.cancelledEnd r c) _ := .quiet quiet
  let w := ((((s.cancelledEnd r c).evaluateAll c.units .riser).count r).undrain r)
  have queue : w.sba.queue = s.sba.queue := by
    have kept := congrArg Sba.queue quiet.sba
    exact kept
  have scanned : Apart r w w.scan := .scan (by rw [queue]; exact hq)
  have riser : w.riser r = (((s.cancelledEnd r c).evaluateAll c.units .riser).count r).riser r := rfl
  have draining : w.sba.draining = s.sba.draining - (s.riser r).cfg.weight := by
    have weight : (w.riser r).cfg.weight = (s.riser r).cfg.weight := by
      rw [riser, riser_count, apart.riser, riser_cancelledEnd]
    rw [← weight, ← show ((s.cancelledEnd r c).evaluateAll c.units .riser).sba = s.sba from quiet.sba]
    rfl
  rw [cancelComplete_eq, scanned.riser, scanned.ctx, scanned.draining, draining, riser, riser_count, apart.riser,
    riser_cancelledEnd]
  exact ⟨rfl, rfl, apart.ctx.trans (setCtx_same r none _), rfl⟩

end Cancelled

/-- Settles O53: the broadcast by its phase, the roll by `rolling_moved`, the moves by `commanded_foldl`, the cancelled
end by `cancelComplete_leaves`. -/
theorem broadcastsAreSent : Obligations.BroadcastsAreSent := by
  intro s r c remaining address sent t
  refine ⟨fun hp => ?call, fun hp => ?commit, fun hp => ?giveBack, fun hp => ?cancel⟩
  case call =>
    have granted : t = _ := grantBroadcast_call hp
    rw [granted]
    refine ⟨?_, (setCtx_same ..).trans ?_⟩
    · rw [setCtx_flc, groupCallFrame, Ctx.units, listItem_addresses]
      rfl
    · rw [Ctx.rolling, Ctx.units, addresses_map]
  case commit =>
    have granted : t = _ := grantBroadcast_commit hp
    rw [granted]
    obtain ⟨link, ctx⟩ := rolling_moved (s := s) (r := r) .freeCool c.readyUnits (groupCommitFrame groupAddress r c.tag)
      (c.rolling .rollDone (s.riser r).cfg.doneWindow c.listed)
    refine ⟨link, ctx, fun p hmem hs ha => commanded_foldl .freeCool ?_ ha⟩
    exact List.mem_map_of_mem (List.mem_filter.2 ⟨hmem, beq_iff_eq.2 hs⟩)
  case giveBack =>
    have granted : t = _ := grantBroadcast_return hp
    rw [granted]
    obtain ⟨link, ctx⟩ := rolling_moved (s := s) (r := r) .bypass c.remainingUnits
      (groupReturnFrame groupAddress r c.tag (s.addresses c.remainingUnits))
      (c.rolling .rollDone (s.riser r).cfg.doneWindow (s.addresses c.remainingUnits))
    refine ⟨link.trans ?_, ctx.trans ?_, fun p hmem hs ha => commanded_foldl .bypass ?_ ha⟩
    · rw [groupReturnFrame, Ctx.remainingUnits, listItem_addresses]
      rfl
    · rw [Ctx.rolling, Ctx.remainingUnits, addresses_map]
      rfl
    · exact List.mem_map_of_mem (mem_remaining.2 ⟨hmem, hs⟩)
  case cancel =>
    have granted : t = _ := grantBroadcast_cancel hp
    intro told gone own recounted
    have leaves := cancelComplete_leaves r c (s.beginBroadcast (groupCancelFrame r c.tag) r)
    refine ⟨granted.trans rfl, ?_, fun hq => ?_⟩
    · rw [granted, link_of_cascade (cascade_cancelComplete ..)]
      rfl
    · rw [granted]
      exact leaves hq

end Sys2Proof.Machine
end

