-- ==== Sys2Proof/Proofs/Grants.lean ====
section
/-! PROOFS. Proofs/Grants.lean: which class is granted, when a class has work, and what each grant sends (R105 to R107,
R137 to R140, R143, R145, R162, R184). -/

namespace Sys2Proof.Machine

/-! ## The class granted -/

theorem mem_allClasses (k : LinkClass) : k ∈ [LinkClass.changeover, .command, .mail, .poll] := by
  cases k <;> decide

theorem mem_workingClasses_iff {s : State} {k : LinkClass} : k ∈ s.workingClasses ↔ s.hasWork k = true := by
  rw [State.workingClasses, List.mem_filter, and_iff_right (mem_allClasses k)]

section Class
variable {s : State}

theorem nextClass_guaranteed (hp : s.hasWork .poll = true) (hg : s.flc.guarantee = 8) : s.nextClass = some .poll :=
  if_pos ⟨hp, hg⟩

theorem nextClass_first (h : s.hasWork .poll = false ∨ s.flc.guarantee ≠ 8) :
    s.nextClass = s.workingClasses.head? :=
  if_neg fun hn => h.elim (fun hp => by simp [hp] at hn) fun hg => hg hn.2

theorem head_changeover (h : s.hasWork .changeover = true) : s.workingClasses.head? = some .changeover := by
  simp [State.workingClasses, List.filter_cons, h]

theorem head_command (h1 : s.hasWork .changeover = false) (h2 : s.hasWork .command = true) :
    s.workingClasses.head? = some .command := by
  simp [State.workingClasses, List.filter_cons, h1, h2]

theorem head_mail (h1 : s.hasWork .changeover = false) (h2 : s.hasWork .command = false)
    (h3 : s.hasWork .mail = true) : s.workingClasses.head? = some .mail := by
  simp [State.workingClasses, List.filter_cons, h1, h2, h3]

theorem head_poll (h1 : s.hasWork .changeover = false) (h2 : s.hasWork .command = false)
    (h3 : s.hasWork .mail = false) (h4 : s.hasWork .poll = true) : s.workingClasses.head? = some .poll := by
  simp [State.workingClasses, h1, h2, h3, h4]

theorem workingClasses_none (h : ∀ k, s.hasWork k = false) : s.workingClasses = [] :=
  List.filter_eq_nil_iff.2 fun k _ => by simp [h k]

theorem workingClasses_one {k : LinkClass} (h : s.hasWork k = true) (hn : ∀ j, j ≠ k → s.hasWork j = false) :
    s.workingClasses = [k] := by
  unfold State.workingClasses
  cases k with
  | changeover =>
    simp [h, hn .command nofun, hn .mail nofun, hn .poll nofun]
  | command => simp [h, hn .changeover nofun, hn .mail nofun, hn .poll nofun]
  | mail => simp [h, hn .changeover nofun, hn .command nofun, hn .poll nofun]
  | poll => simp [h, hn .changeover nofun, hn .command nofun, hn .mail nofun]

theorem workingClasses_two {j k : LinkClass} (hjk : j ≠ k) (hj : s.hasWork j = true) (hk : s.hasWork k = true) :
    2 ≤ s.workingClasses.length := by
  have mj := mem_workingClasses_iff.2 hj
  have mk := mem_workingClasses_iff.2 hk
  match hl : s.workingClasses with
  | [] => simp [hl] at mj
  | [a] =>
    rw [hl, List.mem_singleton] at mj mk
    exact absurd (mj.trans mk.symm) hjk
  | _ :: _ :: _ => exact Nat.le_add_left ..

theorem nextClass_one {k : LinkClass} (h : s.hasWork k = true) (hn : ∀ j, j ≠ k → s.hasWork j = false) :
    s.nextClass = some k := by
  by_cases hk : k = .poll
  · subst hk
    by_cases hg : s.flc.guarantee = 8
    · exact nextClass_guaranteed h hg
    · rw [nextClass_first (.inr hg), workingClasses_one h hn]
      rfl
  · rw [nextClass_first (.inl (hn .poll (Ne.symm hk))), workingClasses_one h hn]
    rfl

/-- The link IDLE, no RELEASE owed, in a run. -/
structure Idle (s : State) : Prop where
  link : s.flc.link = none
  owed : s.flc.releaseOwed = none
  running : s.running = true

theorem Idle.grantNext_none (h : Idle s) (hk : s.nextClass = none) : s.grantNext = s := by
  unfold State.grantNext
  rw [h.link, if_neg (by decide), h.owed]
  dsimp only
  rw [if_pos h.running, hk]

theorem Idle.grantNext_some (h : Idle s) {k : LinkClass} (hk : s.nextClass = some k) : s.grantNext = s.grant k := by
  unfold State.grantNext
  rw [h.link, if_neg (by decide), h.owed]
  dsimp only
  rw [if_pos h.running, hk]

/-- Where two or more classes have work, one of them is taken by the free choice. -/
theorem Idle.grantOnWork_two (h : Idle s) (h2 : 2 ≤ s.workingClasses.length) :
    ∃ i, s.hasWork i = true ∧ s.grantOnWork = State.grant i { s with choices := s.choices + 1 } := by
  have lt : Config.arbiterChoice s.choices % s.workingClasses.length < s.workingClasses.length :=
    Nat.mod_lt _ (by omega)
  have chosen : chosenClass (Config.arbiterChoice s.choices) s.workingClasses = some _ := List.getElem?_eq_getElem lt
  refine ⟨_, hasWork_of_chosen chosen, ?_⟩
  unfold State.grantOnWork
  rw [if_pos ⟨Option.isNone_iff_eq_none.2 h.link, h.owed, h.running, h2⟩, chosen]

theorem grantOnWork_of_few (h : s.flc.link ≠ none ∨ s.flc.releaseOwed ≠ none ∨ s.running ≠ true) :
    s.grantOnWork = s.grantNext := by
  refine if_neg fun ⟨hl, ho, hr, _⟩ => ?_
  rcases h with h | h | h
  · exact h (Option.isNone_iff_eq_none.1 hl)
  · exact h ho
  · exact h hr

theorem grantNext_stopped_idle (hr : s.running = false) (ho : s.flc.releaseOwed = none) : s.grantNext = s := by
  by_cases hl : s.flc.link = none
  · exact grantNext_stopped hr hl ho
  · exact grantNext_of_busy (Option.isSome_iff_ne_none.2 hl)

end Class

theorem guaranteeAfter_waits {k : LinkClass} {n : Nat} (hk : k ≠ .poll) (hn : n < 8) :
    guaranteeAfter true k n = n + 1 := by
  have counts : (true && k != .poll) = true := by simpa using hk
  rw [guaranteeAfter, if_pos counts]
  omega

theorem guaranteeAfter_idle (k : LinkClass) (n : Nat) : guaranteeAfter false k n = 0 := rfl

theorem grant_eq (k : LinkClass) (s m : State) (h : m.hasWork .poll = s.hasWork .poll) : m.grant k =
    let g := m.modFlc fun f => { f with guarantee := guaranteeAfter (s.hasWork .poll) k f.guarantee }
    match k with
    | .changeover => g.grantChangeover
    | .command => g.grantCommand
    | .mail => g.grantMail
    | .poll => g.grantPoll := by
  rw [State.grant, h]
  cases k <;> rfl

/-! ## When a class has work -/

theorem find_fins_iff {n : Nat} {p : Fin n → Bool} {i : Fin n} :
    (fins n).find? p = some i ↔ p i = true ∧ ∀ j, j < i → p j = false := by
  refine ⟨fun h => ⟨List.find?_some h, fun j => ?_⟩, fun ⟨h, hlt⟩ => find_fins_eq_some p i h hlt⟩
  induction hm : j.val using Nat.strongRecOn generalizing j with
  | ind m ih =>
    intro hj
    refine Bool.eq_false_iff.2 fun hp => ?_
    have first := find_fins_eq_some p j hp fun k hk => ih k.val (hm ▸ hk) k rfl (Nat.lt_trans hk hj)
    exact absurd (Option.some.inj (first.symm.trans h)) (Fin.ne_of_lt hj)

section Roll
variable {calls : Participant → Bool}

theorem firstCaller_isSome (i : Nat) (l : List Participant) :
    (firstCaller calls i l).isSome = true ↔ ∃ p ∈ l, calls p = true := by
  induction l generalizing i with
  | nil => simp [firstCaller]
  | cons p l ih =>
    unfold firstCaller
    split
    · next h => simp [h]
    · next h => simp [ih, h]

theorem firstCaller_append {front back : List Participant} {p : Participant} (i : Nat)
    (hf : ∀ q ∈ front, calls q = false) (hp : calls p = true) :
    firstCaller calls i (front ++ p :: back) = some (i + front.length, p.unit) := by
  induction front generalizing i with
  | nil => exact if_pos hp
  | cons q front ih =>
    obtain ⟨hq, hf⟩ := List.forall_mem_cons.1 hf
    rw [List.cons_append, firstCaller, if_neg (Bool.eq_false_iff.1 hq), ih (i + 1) hf, List.length_cons]
    congr 2
    omega

theorem firstCaller_eq_none {i : Nat} {l : List Participant} (h : ∀ q ∈ l, calls q = false) :
    firstCaller calls i l = none := by
  rw [← Option.not_isSome_iff_eq_none, firstCaller_isSome]
  rintro ⟨p, hp, hc⟩
  rw [h p hp] at hc
  cases hc

end Roll

section Work
variable {c : Ctx}

theorem work_pending (h : c.phase = .callPending ∨ c.phase = .commitPending ∨ c.phase = .cancelPending ∨
    c.phase = .returnPending) : c.work = some .broadcast := by
  unfold Ctx.work
  rcases h with h | h | h | h <;> rw [h]

theorem work_repair (h : c.phase = .rollReady ∨ c.phase = .rollDone) {p : Repair} {rest : List Repair}
    (hr : c.repairs = p :: rest) : c.work = some (.repair p) := by
  unfold Ctx.work
  rcases h with h | h <;> rw [h] <;> simp only [hr]

theorem work_roll (h : c.phase = .rollReady ∨ c.phase = .rollDone) (hr : c.repairs = []) : c.work = c.rollWork := by
  unfold Ctx.work
  rcases h with h | h <;> rw [h] <;> simp only [hr]

theorem rollWork_first (h : c.passStart = none) : c.rollWork = c.passQuery := by
  rw [Ctx.rollWork, h]

theorem rollWork_continues {st : PassStart} (h : c.passStart = some st) {x : Nat × UnitNo}
    (hx : firstCaller c.calls c.cursor (c.participants.drop (c.cursor - 1)) = some x) :
    c.rollWork = some (.query x.1 x.2 false) := by
  rw [Ctx.rollWork, h]
  dsimp only
  rw [hx]

theorem rollWork_over {st : PassStart} (h : c.passStart = some st)
    (hx : firstCaller c.calls c.cursor (c.participants.drop (c.cursor - 1)) = none) :
    c.rollWork = if st = .due then c.passQuery else none := by
  rw [Ctx.rollWork, h]
  dsimp only
  rw [hx]

theorem passQuery_isSome : c.passQuery.isSome = true ↔ ∃ p ∈ c.participants, c.calls p = true := by
  rw [Ctx.passQuery, Option.isSome_map, firstCaller_isSome]

theorem rollWork_isSome : c.rollWork.isSome = true ↔
    (c.passStart ≠ some .recent ∧ ∃ p ∈ c.participants, c.calls p = true) ∨
      (c.passStart ≠ none ∧ ∃ p ∈ c.participants.drop (c.cursor - 1), c.calls p = true) := by
  have later := firstCaller_isSome (calls := c.calls) c.cursor (c.participants.drop (c.cursor - 1))
  cases hs : c.passStart with
  | none =>
    rw [rollWork_first hs, passQuery_isSome]
    simp
  | some st =>
    cases hx : firstCaller c.calls c.cursor (c.participants.drop (c.cursor - 1)) with
    | some x =>
      rw [rollWork_continues hs hx]
      rw [hx] at later
      exact iff_of_true rfl (.inr ⟨nofun, later.1 rfl⟩)
    | none =>
      rw [rollWork_over hs hx]
      rw [hx] at later
      cases st with
      | due =>
        rw [if_pos rfl, passQuery_isSome]
        exact ⟨fun h => .inl ⟨nofun, h⟩, fun h => h.elim And.right fun hl => by
          obtain ⟨p, hp, hc⟩ := hl.2
          exact ⟨p, List.mem_of_mem_drop hp, hc⟩⟩
      | recent =>
        rw [if_neg nofun]
        exact iff_of_false nofun fun h => h.elim (fun hp => hp.1 rfl) fun hl => nomatch later.2 hl.2

theorem work_isSome : c.work.isSome = true ↔
    (c.phase = .callPending ∨ c.phase = .commitPending ∨ c.phase = .cancelPending ∨ c.phase = .returnPending ∨
      (c.phase = .rollReady ∨ c.phase = .rollDone) ∧
        (c.repairs ≠ [] ∨ (c.passStart ≠ some .recent ∧ ∃ p ∈ c.participants, c.calls p = true) ∨
          (c.passStart ≠ none ∧ ∃ p ∈ c.participants.drop (c.cursor - 1), c.calls p = true))) := by
  have roll (h : c.phase = .rollReady ∨ c.phase = .rollDone) : c.work.isSome = true ↔
      (c.repairs ≠ [] ∨ (c.passStart ≠ some .recent ∧ ∃ p ∈ c.participants, c.calls p = true) ∨
        (c.passStart ≠ none ∧ ∃ p ∈ c.participants.drop (c.cursor - 1), c.calls p = true)) := by
    cases hr : c.repairs with
    | nil =>
      rw [work_roll h hr, rollWork_isSome]
      simp
    | cons p rest =>
      rw [work_repair h hr]
      simp
  cases hp : c.phase with
  | callPending => simp [work_pending (.inl hp)]
  | commitPending => simp [work_pending (.inr (.inl hp))]
  | cancelPending => simp [work_pending (.inr (.inr (.inl hp)))]
  | returnPending => simp [work_pending (.inr (.inr (.inr hp)))]
  | rollReady => simpa using roll (.inl hp)
  | rollDone => simpa using roll (.inr hp)

end Work

theorem ctxHasWork_iff (s : State) (r : RiserNo) : s.ctxHasWork r = true ↔ ∃ c, s.ctx r = some c ∧
    (c.phase = .callPending ∨ c.phase = .commitPending ∨ c.phase = .cancelPending ∨ c.phase = .returnPending ∨
      (c.phase = .rollReady ∨ c.phase = .rollDone) ∧
        (c.repairs ≠ [] ∨ (c.passStart ≠ some .recent ∧ ∃ p ∈ c.participants, c.calls p = true) ∨
          (c.passStart ≠ none ∧ ∃ p ∈ c.participants.drop (c.cursor - 1), c.calls p = true))) := by
  unfold State.ctxHasWork
  cases s.ctx r with
  | none => simp
  | some c =>
    refine work_isSome.trans ⟨fun h => ⟨c, rfl, h⟩, fun ⟨d, hd, h⟩ => ?_⟩
    cases hd
    exact h

section HasWork
variable {s : State}

/-- The riser of place `k` in the search is served where none before it has work (R138). -/
theorem nextRiser_eq {k : RiserNo} (h : s.ctxHasWork (s.flc.lastServed + 1 + k) = true)
    (hlt : ∀ j, j < k → s.ctxHasWork (s.flc.lastServed + 1 + j) = false) :
    s.nextRiser = some (s.flc.lastServed + 1 + k) := by
  have found := find_fins_eq_some (fun i => s.ctxHasWork (s.flc.lastServed + 1 + i)) k h hlt
  rw [State.nextRiser, searchOrder, List.find?_map]
  exact congrArg (Option.map _) found

theorem add_sub_riser (a r : RiserNo) : a + (r - a) = r := by
  refine Fin.ext ?_
  rw [Fin.val_add, Fin.val_sub]
  omega

theorem nextRiser_isSome : s.nextRiser.isSome = true ↔ ∃ r, s.ctxHasWork r = true := by
  unfold State.nextRiser
  rw [List.find?_isSome]
  refine ⟨fun ⟨r, _, h⟩ => ⟨r, h⟩, fun ⟨r, h⟩ => ⟨r, ?_, h⟩⟩
  exact List.mem_map.2 ⟨r - (s.flc.lastServed + 1), mem_fins _, add_sub_riser ..⟩

theorem command_work : s.hasWork .command = true ↔ s.slp.opState = .coordinate ∧ s.flc.commands ≠ [] := by
  rw [State.hasWork, Bool.and_eq_true, coordinate_iff, Bool.not_eq_true', ← Bool.not_eq_true, List.isEmpty_iff]

theorem qualifies_iff {u : UnitNo} : s.qualifies u = true ↔ (s.unit u).cfg.present = true ∧
    ((s.unit u).presence ≠ .offline ∨ s.flc.sweep.counter.toNat % 8 = 0) := by
  simp only [State.qualifies, Bool.and_eq_true, Bool.or_eq_true, bne_iff_ne, beq_iff_eq]

theorem nextPoll_iff {u : UnitNo} : s.nextPoll = some u ↔ s.flc.sweep.running = true ∧ s.flc.sweep.cursor ≤ u.val ∧
    s.qualifies u = true ∧ ∀ v, v < u → s.flc.sweep.cursor ≤ v.val → ¬ s.qualifies v = true := by
  unfold State.nextPoll
  by_cases hr : s.flc.sweep.running = true
  · rw [if_pos hr, find_fins_iff]
    simp only [hr, true_and, Bool.and_eq_true, decide_eq_true_eq, Bool.and_eq_false_imp, and_assoc, Bool.not_eq_true]
  · rw [if_neg hr]
    simp [hr]

end HasWork

/-! ## What the grants send -/

section Sends
variable {s : State} {r : RiserNo} {c : Ctx}

theorem grantChangeover_eq (hr : s.nextRiser = some r) (hc : s.ctx r = some c) {w : CtxWork} (hw : c.work = some w) :
    s.grantChangeover = (s.modFlc fun f => { f with lastServed := r }).grantCtx r c w := by
  unfold State.grantChangeover
  rw [hr]
  dsimp only
  rw [hc]
  dsimp only
  rw [hw]

theorem rollWork_query {front back : List Participant} {p : Participant} (hf : ∀ q ∈ front, c.calls q = false)
    (hp : c.calls p = true) (hs : c.passStart ≠ none)
    (hd : c.participants.drop (c.cursor - 1) = front ++ p :: back) :
    c.rollWork = some (.query (c.cursor + front.length) p.unit false) := by
  obtain ⟨st, hst⟩ := Option.ne_none_iff_exists'.1 hs
  refine rollWork_continues hst (x := (c.cursor + front.length, p.unit)) ?_
  rw [hd]
  exact firstCaller_append c.cursor hf hp

theorem rollWork_pass {front back : List Participant} {p : Participant} (hf : ∀ q ∈ front, c.calls q = false)
    (hp : c.calls p = true)
    (hs : c.passStart = none ∨
      (c.passStart = some .due ∧ ∀ q ∈ c.participants.drop (c.cursor - 1), c.calls q = false))
    (hl : c.participants = front ++ p :: back) : c.rollWork = some (.query (1 + front.length) p.unit true) := by
  have pass : c.passQuery = some (.query (1 + front.length) p.unit true) := by
    rw [Ctx.passQuery, hl, firstCaller_append 1 hf hp]
    rfl
  rcases hs with hs | ⟨hs, hn⟩
  · rw [rollWork_first hs, pass]
  · rw [rollWork_over hs (firstCaller_eq_none hn), if_pos rfl, pass]

theorem repairFrame_call (a : Nat) : repairFrame a r c .call =
    ⟨byteOf a, 0x03, byteOf r.val :: c.tag :: 4 :: byteOf c.listed.length :: c.listed.map byteOf⟩ := by
  rw [repairFrame, groupCallFrame, listItem_singletons]

theorem repairFrame_giveBack (a : Nat) : repairFrame a r c .giveBack =
    ⟨byteOf a, 0x07, byteOf r.val :: c.tag :: byteOf c.listed.length :: c.listed.map byteOf⟩ := by
  rw [repairFrame, groupReturnFrame, listItem_singletons]

/-- A repair sends its copy of the broadcast. -/
theorem grantCtx_repair (m : State) (p : Repair) : m.grantCtx r c (.repair p) =
    m.beginUnicast (repairFrame (m.unit p.unit).cfg.address r c p.kind) (.repair (c.key r)) p.unit := rfl

theorem grantCommand_eq {e : CmdEntry} {rest : List CmdEntry} (h : s.flc.commands = e :: rest) : s.grantCommand =
    s.beginUnicast (setModeFrame (s.unit e.unit).cfg.address e.content) (.command e.content) e.unit := by
  rw [State.grantCommand, h]

theorem grantMail_eq {u : UnitNo} {b : List Byte} (hu : s.flc.mail.unit = some u) (hb : s.flc.mail.mail = some b) :
    s.grantMail =
      (s.beginUnicast (mailFrame (s.unit u).cfg.address b) (.mail s.flc.postNumber) u).modFlc fun f =>
        { f with mail := { f.mail with state := .sent, attempts := f.mail.attempts + 1 } } := by
  rw [State.grantMail, hu, hb]

end Sends

/-- Settles O52: the class, the work of each class, and what each grant sends, by the lemmas of these names. -/
theorem grantsByPrecedence : Obligations.GrantsByPrecedence := by
  refine ⟨fun s hl ho hr => ?precedence, fun s => ?onWork, ctxHasWork_iff, fun s => ?work, fun s => ?sent⟩
  case precedence =>
    intro poll
    have idle : Idle s := ⟨hl, ho, hr⟩
    refine ⟨fun hp hg => ⟨nextClass_guaranteed hp hg, guaranteeAfter_poll ..⟩, fun hn => ?_, fun h1 h2 h3 h4 => ?_,
      fun k n => guaranteeAfter_waits, fun n => guaranteeAfter_poll true n, guaranteeAfter_idle,
      fun k hk => idle.grantNext_some hk⟩
    · rw [nextClass_first hn]
      exact ⟨head_changeover, head_command, head_mail, head_poll⟩
    · refine idle.grantNext_none ?_
      rw [nextClass_first (.inl h4), workingClasses_none fun k => by cases k <;> assumption]
      rfl
  case onWork =>
    intro idle granted release
    have isIdle (h : idle) : Idle s := ⟨h.1, h.2.1, h.2.2⟩
    refine ⟨fun hl => ?_, fun v hl ho => ?_, fun ho hr => ?_, fun hi hn => ?_, fun k hi hk hn => ?_,
      fun j k hi hjk hj hk => ?_⟩
    · have busy := Option.isSome_iff_ne_none.2 hl
      exact ⟨grantNext_of_busy busy, grantOnWork_of_busy busy⟩
    · have sent : s.grantNext = release v := by
        unfold State.grantNext
        rw [hl, if_neg (by decide), ho]
        rfl
      exact ⟨sent, (grantOnWork_of_few (.inr (.inl (by simp [ho])))).trans sent⟩
    · have stays := grantNext_stopped_idle hr ho
      exact ⟨stays, (grantOnWork_of_few (.inr (.inr (by simp [hr])))).trans stays⟩
    · have empty := workingClasses_none hn
      rw [grantOnWork_of_one (by rw [empty]; decide)]
      refine (isIdle hi).grantNext_none ?_
      rw [nextClass_first (.inl (hn .poll)), empty]
      rfl
    · rw [grantOnWork_of_one (by rw [workingClasses_one hk hn]; exact Nat.one_lt_two),
        (isIdle hi).grantNext_some (nextClass_one hk hn)]
      exact grant_eq k s s rfl
    · obtain ⟨i, hw, hg⟩ := (isIdle hi).grantOnWork_two (workingClasses_two hjk hj hk)
      exact ⟨i, hw, hg.trans (grant_eq i s _ rfl)⟩
  case work =>
    refine ⟨nextRiser_isSome, command_work, beq_iff_eq, Option.isSome_iff_exists, fun k => nextRiser_eq, fun u => ?_⟩
    intro qualifies
    have each (v : UnitNo) : s.qualifies v = true ↔ qualifies v := qualifies_iff
    rw [nextPoll_iff]
    simp only [each]
  case sent =>
    intro sends
    refine ⟨fun r c hr hc => ?served, fun e rest he => ?commanded, fun u b hu hb => ?mailed, fun u hu => ?polled⟩
    case served =>
      intro m key
      have granted {w : CtxWork} (hw : c.work = some w) : s.grantChangeover = m.grantCtx r c w :=
        grantChangeover_eq hr hc hw
      refine ⟨fun hp => granted (work_pending hp), fun hp => ⟨fun u k rest hrep => ?repair, fun hrep front p back hf hpc =>
        ⟨fun hs hd => ?next, fun hs hl => ?pass⟩⟩⟩
      case repair =>
        have repaired := granted (work_repair hp hrep)
        rw [repaired, grantCtx_repair]
        refine ⟨?_, ?_, ?_⟩
        · rintro rfl
          rw [repairFrame_call]
          rfl
        · rintro rfl
          rfl
        · rintro rfl
          rw [repairFrame_giveBack]
          rfl
      case next =>
        rw [granted ((work_roll hp hrep).trans (rollWork_query hf hpc hs hd))]
        rfl
      case pass =>
        rw [granted ((work_roll hp hrep).trans (rollWork_pass hf hpc hs hl))]
        rfl
    case commanded =>
      rw [grantCommand_eq he, setModeFrame]
      cases hm : e.content.mode <;> rfl
    case mailed =>
      rw [grantMail_eq hu hb]
      rfl
    case polled =>
      rw [grantPoll_of_next hu]
      rfl

end Sys2Proof.Machine
end
